-- ==== Sys2Proof/Word.lean ====
section
/-! DEFINITION. The word types of the block and the names of its memories and table slots
(20_memory.md R70, 10_state.md R46). -/

namespace Sys2Proof

/-- A register or a command word: 32 bits (00_scope.md R10). -/
abbrev Word := BitVec 32

/-- One byte of a memory (10_state.md R22). -/
abbrev Byte := BitVec 8

/-- One entry of LENS or of a slot's length list: 4 bits (10_state.md R45). -/
abbrev Nibble := BitVec 4

/-- The four byte memories (20_memory.md R70); LENS and the registers are spaces of their own. -/
inductive Space where
  | src | cat | dst | wbuf
deriving DecidableEq, Repr

/-- The five Huffman table slots, in the order of their numbers 0 to 4 (10_state.md R46). -/
inductive TableId where
  | cl | ll | dist | fll | fdist
deriving DecidableEq, Repr

/-- The slots a build may write: 0 CL, 1 LL, 2 DIST (10_state.md R46, 30_encoding.md R106). -/
inductive BuildTarget where
  | cl | ll | dist
deriving DecidableEq, Repr

/-- A build target is a table slot. -/
def BuildTarget.table : BuildTarget → TableId
  | .cl => .cl
  | .ll => .ll
  | .dist => .dist

end Sys2Proof
end

