-- ==== Sys2Proof/Syntax.lean ====
section
/-! DEFINITION. The commands of the block: one constructor per row of spec/opcode_table.json
(30_encoding.md R111), each with the operand fields of its format (R101 to R109). -/

namespace Sys2Proof

/-- A command with its operand fields as the word holds them (30_encoding.md R101, R111). -/
inductive Instr where
  /-- 0x00, format N (R153). -/
  | nop
  /-- 0x01, format N (R154). -/
  | bcReset
  /-- 0x02, format N (R155). -/
  | bcNextBit
  /-- 0x03, format NB: the bit count N (R103, R156). -/
  | bcNextN (n : BitVec 6)
  /-- 0x04, format N (R157). -/
  | bcAlign
  /-- 0x10, format BLD: slot T2, MAXSYM and BASE (R105, R106, R177). -/
  | htBuild (t : BuildTarget) (maxsym base : BitVec 9)
  /-- 0x11, format T: the slot T (R104, R178). -/
  | htDecode (t : TableId)
  /-- 0x20, format BY: the literal byte (R107, R195). -/
  | lzLiteral (byte : BitVec 8)
  /-- 0x21, format CP: length minus 3 and distance minus 1 (R108, R196). -/
  | lzCopy (l3 : BitVec 8) (d1 : BitVec 15)
  /-- 0x22, format SY: symbol minus 257 (R109, R197). -/
  | lzLength (sym : BitVec 5)
  /-- 0x23, format SY: the distance symbol (R109, R198). -/
  | lzDist (sym : BitVec 5)
  /-- 0x24, format FX: fixed (true) or dynamic (false) tables (R109, R199). -/
  | lzBlockData (fixed : Bool)
  /-- 0x30, format N (R218). -/
  | dfZlibHeader
  /-- 0x31, format N (R219). -/
  | dfBlock
  /-- 0x32, format N (R220). -/
  | dfStored
  /-- 0x33, format N (R221). -/
  | dfDynHeader
  /-- 0x34, format N (R222). -/
  | dfTrailer
  /-- 0x35, format N (R223). -/
  | dfInflate
  /-- 0x40, format N (R247). -/
  | pfSignature
  /-- 0x41, format N (R248). -/
  | pfNextChunk
  /-- 0x42, format N (R249). -/
  | pfReadChunks
  /-- 0x43, format N (R250). -/
  | pfReadHeader
  /-- 0x44, format N (R251). -/
  | pfCheckHeader
  /-- 0x48, format N (R252). -/
  | pfEmitSignature
  /-- 0x49, format N, operands in ARG0 to ARG2 (R253). -/
  | pfEmitChunk
  /-- 0x4A, format N, operands in the HDR registers (R254). -/
  | pfEmitIhdr
deriving DecidableEq, Repr

end Sys2Proof
end

