-- ==== Sys2Proof/WellFormed.lean ====
section
/-! DEFINITION. Which operand values are legal (30_encoding.md R103 to R110): the check a command
passes exactly when some command word spells it. -/

namespace Sys2Proof

/-- Legal operands of HT_BUILD, R106: `MAXSYM <= CAPACITY[T2] - 1` with `CAPACITY = [19, 288, 32]`,
and `BASE + MAXSYM <= 319`. -/
def BuildTarget.legalBuild (t : BuildTarget) (maxsym base : BitVec 9) : Bool :=
  (match t with
    | .cl => decide (maxsym.toNat ≤ 18)
    | .ll => decide (maxsym.toNat ≤ 287)
    | .dist => decide (maxsym.toNat ≤ 31)) &&
  decide (base.toNat + maxsym.toNat ≤ 319)

/-- The operand checks: N is 0..32 (R103), the build bounds (R106), LZ_LENGTH's S is not 31 (R110, R112).
Every other operand value of every other command is legal. -/
def Instr.wf : Instr → Bool
  | .bcNextN n => decide (n.toNat ≤ 32)
  | .htBuild t maxsym base => t.legalBuild maxsym base
  | .lzLength sym => decide (sym.toNat ≠ 31)
  | .nop | .bcReset | .bcNextBit | .bcAlign => true
  | .htDecode _ => true
  | .lzLiteral _ | .lzCopy _ _ | .lzDist _ | .lzBlockData _ => true
  | .dfZlibHeader | .dfBlock | .dfStored | .dfDynHeader | .dfTrailer | .dfInflate => true
  | .pfSignature | .pfNextChunk | .pfReadChunks | .pfReadHeader | .pfCheckHeader => true
  | .pfEmitSignature | .pfEmitChunk | .pfEmitIhdr => true

end Sys2Proof
end

