-- ==== Sys2Proof/Decode.lean ====
section
/-! DEFINITION. The decoder of 30_encoding.md R112, total on 32-bit words and rejecting by name, and
after it the encoder, written from the same encoding tables (R101 to R111). A command is one 32-bit
word written to CMD (R100, R91), so a word is all a decoder reads. -/

namespace Sys2Proof

/-- Why a word is no command; each is IllegalCommand(w) when it is run (R112, R113). -/
inductive DecodeError where
  /-- The opcode is not in R111's table. -/
  | reservedOpcode
  /-- A reserved bit of the opcode's format is 1. -/
  | reservedBits
  /-- Format NB with N above 32. -/
  | countTooLarge
  /-- Format T with T above 4. -/
  | noSuchSlot
  /-- Format BLD outside the bounds of R106. -/
  | buildBounds
  /-- LZ_LENGTH with S = 31. -/
  | noSuchSymbol
deriving DecidableEq, Repr

/-- The table slot T of format T: 0 CL, 1 LL, 2 DIST, 3 FLL, 4 FDIST (R104). -/
def tableOfNumber : Nat → Option TableId
  | 0 => some .cl
  | 1 => some .ll
  | 2 => some .dist
  | 3 => some .fll
  | 4 => some .fdist
  | _ => none

/-- The slot T2 of format BLD; the value 3 is illegal (R105). -/
def targetOfNumber : Nat → Option BuildTarget
  | 0 => some .cl
  | 1 => some .ll
  | 2 => some .dist
  | _ => none

/-- The number of a slot (R104). -/
def TableId.number : TableId → Nat
  | .cl => 0
  | .ll => 1
  | .dist => 2
  | .fll => 3
  | .fdist => 4

/-- CAPACITY = [19, 288, 32], the most symbols a slot holds (R106, 10_state.md R46). -/
def BuildTarget.capacity : BuildTarget → Nat
  | .cl => 19
  | .ll => 288
  | .dist => 32

/-- Format N: [31:8] reserved (R102). -/
def decodeN (w : Word) (i : Instr) : Except DecodeError Instr :=
  if w.extractLsb' 8 24 = 0 then .ok i else .error .reservedBits

/-- Format NB: N = [13:8], [31:14] reserved, N at most 32 (R103). -/
def decodeNB (w : Word) : Except DecodeError Instr :=
  if w.extractLsb' 14 18 = 0 then
    if (w.extractLsb' 8 6).toNat ≤ 32 then .ok (.bcNextN (w.extractLsb' 8 6)) else .error .countTooLarge
  else .error .reservedBits

/-- Format T: T = [10:8], [31:11] reserved, T at most 4 (R104). -/
def decodeT (w : Word) : Except DecodeError Instr :=
  if w.extractLsb' 11 21 = 0 then
    match tableOfNumber (w.extractLsb' 8 3).toNat with
    | some t => .ok (.htDecode t)
    | none => .error .noSuchSlot
  else .error .reservedBits

/-- Format BLD: T2 = [9:8], MAXSYM = [18:10], BASE = [27:19], [31:28] reserved (R105), within the bounds of R106. -/
def decodeBLD (w : Word) : Except DecodeError Instr :=
  if w.extractLsb' 28 4 = 0 then
    match targetOfNumber (w.extractLsb' 8 2).toNat with
    | some t =>
      if (w.extractLsb' 10 9).toNat + 1 ≤ t.capacity ∧
          (w.extractLsb' 19 9).toNat + (w.extractLsb' 10 9).toNat ≤ 319 then
        .ok (.htBuild t (w.extractLsb' 10 9) (w.extractLsb' 19 9))
      else .error .buildBounds
    | none => .error .buildBounds
  else .error .reservedBits

/-- Format BY: BYTE = [15:8], [31:16] reserved (R107). -/
def decodeBY (w : Word) : Except DecodeError Instr :=
  if w.extractLsb' 16 16 = 0 then .ok (.lzLiteral (w.extractLsb' 8 8)) else .error .reservedBits

/-- Format CP: L3 = [15:8], D1 = [30:16], [31] reserved (R108). -/
def decodeCP (w : Word) : Except DecodeError Instr :=
  if w.extractLsb' 31 1 = 0 then .ok (.lzCopy (w.extractLsb' 8 8) (w.extractLsb' 16 15)) else .error .reservedBits

/-- Format SY of LZ_LENGTH: S = [12:8], [31:13] reserved, S = 31 illegal (R109, R112). -/
def decodeLength (w : Word) : Except DecodeError Instr :=
  if w.extractLsb' 13 19 = 0 then
    if (w.extractLsb' 8 5).toNat = 31 then .error .noSuchSymbol else .ok (.lzLength (w.extractLsb' 8 5))
  else .error .reservedBits

/-- Format SY of LZ_DIST: S = [12:8], [31:13] reserved (R109). -/
def decodeDist (w : Word) : Except DecodeError Instr :=
  if w.extractLsb' 13 19 = 0 then .ok (.lzDist (w.extractLsb' 8 5)) else .error .reservedBits

/-- Format FX: F = [8], [31:9] reserved (R109). -/
def decodeFX (w : Word) : Except DecodeError Instr :=
  if w.extractLsb' 9 23 = 0 then .ok (.lzBlockData (w.getLsbD 8)) else .error .reservedBits

/-- The decode procedure of R112: the opcode [7:0] first, then the reserved bits, then the field bounds. -/
def decode (w : Word) : Except DecodeError Instr :=
  match (w.extractLsb' 0 8).toNat with
  | 0x00 => decodeN w .nop
  | 0x01 => decodeN w .bcReset
  | 0x02 => decodeN w .bcNextBit
  | 0x03 => decodeNB w
  | 0x04 => decodeN w .bcAlign
  | 0x10 => decodeBLD w
  | 0x11 => decodeT w
  | 0x20 => decodeBY w
  | 0x21 => decodeCP w
  | 0x22 => decodeLength w
  | 0x23 => decodeDist w
  | 0x24 => decodeFX w
  | 0x30 => decodeN w .dfZlibHeader
  | 0x31 => decodeN w .dfBlock
  | 0x32 => decodeN w .dfStored
  | 0x33 => decodeN w .dfDynHeader
  | 0x34 => decodeN w .dfTrailer
  | 0x35 => decodeN w .dfInflate
  | 0x40 => decodeN w .pfSignature
  | 0x41 => decodeN w .pfNextChunk
  | 0x42 => decodeN w .pfReadChunks
  | 0x43 => decodeN w .pfReadHeader
  | 0x44 => decodeN w .pfCheckHeader
  | 0x48 => decodeN w .pfEmitSignature
  | 0x49 => decodeN w .pfEmitChunk
  | 0x4A => decodeN w .pfEmitIhdr
  | _ => .error .reservedOpcode

/-- The command an opcode-table row's word stands for: the table's bit 0 is the word's bit 0, and every
bit above `nbits` is 0. A word that does not fit in 32 bits is no command word (R100). -/
def decodeTableWord (nbits w : Nat) : Option Instr :=
  if w % 2 ^ nbits < 2 ^ 32 then (decode (BitVec.ofNat 32 (w % 2 ^ nbits))).toOption else none

/-- The opcode OPC of a command (R111). -/
def Instr.opcode : Instr → Byte
  | .nop => 0x00
  | .bcReset => 0x01
  | .bcNextBit => 0x02
  | .bcNextN _ => 0x03
  | .bcAlign => 0x04
  | .htBuild _ _ _ => 0x10
  | .htDecode _ => 0x11
  | .lzLiteral _ => 0x20
  | .lzCopy _ _ => 0x21
  | .lzLength _ => 0x22
  | .lzDist _ => 0x23
  | .lzBlockData _ => 0x24
  | .dfZlibHeader => 0x30
  | .dfBlock => 0x31
  | .dfStored => 0x32
  | .dfDynHeader => 0x33
  | .dfTrailer => 0x34
  | .dfInflate => 0x35
  | .pfSignature => 0x40
  | .pfNextChunk => 0x41
  | .pfReadChunks => 0x42
  | .pfReadHeader => 0x43
  | .pfCheckHeader => 0x44
  | .pfEmitSignature => 0x48
  | .pfEmitChunk => 0x49
  | .pfEmitIhdr => 0x4A

/-- The operand bits [31:8] of a command's word: the fields of its format (R101), every reserved bit 0. -/
def Instr.operandBits : Instr → BitVec 24
  | .bcNextN n => n.setWidth 24
  | .htBuild t maxsym base =>
    base.setWidth 24 <<< 11 ||| maxsym.setWidth 24 <<< 2 ||| BitVec.ofNat 24 t.table.number
  | .htDecode t => BitVec.ofNat 24 t.number
  | .lzLiteral byte => byte.setWidth 24
  | .lzCopy l3 d1 => d1.setWidth 24 <<< 8 ||| l3.setWidth 24
  | .lzLength sym => sym.setWidth 24
  | .lzDist sym => sym.setWidth 24
  | .lzBlockData fixed => (BitVec.ofBool fixed).setWidth 24
  | .nop | .bcReset | .bcNextBit | .bcAlign => 0
  | .dfZlibHeader | .dfBlock | .dfStored | .dfDynHeader | .dfTrailer | .dfInflate => 0
  | .pfSignature | .pfNextChunk | .pfReadChunks | .pfReadHeader | .pfCheckHeader => 0
  | .pfEmitSignature | .pfEmitChunk | .pfEmitIhdr => 0

/-- The word of a command: OPC in [7:0], the operand fields in [31:8] (R100, R101). -/
def encode (i : Instr) : Word := i.operandBits.setWidth 32 <<< 8 ||| i.opcode.setWidth 32

/-- A row of spec/opcode_table.json: a word is one of the row's exactly when `w &&& mask = pattern`. -/
structure OpcodeRow where
  mask : Word
  pattern : Word
deriving DecidableEq, Repr

/-- The row of a command's constructor, as spec/opcode_table.json gives its mask and match. -/
def Instr.row : Instr → OpcodeRow
  | .nop => ⟨0xFFFFFFFF, 0x00000000⟩
  | .bcReset => ⟨0xFFFFFFFF, 0x00000001⟩
  | .bcNextBit => ⟨0xFFFFFFFF, 0x00000002⟩
  | .bcNextN _ => ⟨0xFFFFC0FF, 0x00000003⟩
  | .bcAlign => ⟨0xFFFFFFFF, 0x00000004⟩
  | .htBuild _ _ _ => ⟨0xF00000FF, 0x00000010⟩
  | .htDecode _ => ⟨0xFFFFF8FF, 0x00000011⟩
  | .lzLiteral _ => ⟨0xFFFF00FF, 0x00000020⟩
  | .lzCopy _ _ => ⟨0x800000FF, 0x00000021⟩
  | .lzLength _ => ⟨0xFFFFE0FF, 0x00000022⟩
  | .lzDist _ => ⟨0xFFFFE0FF, 0x00000023⟩
  | .lzBlockData _ => ⟨0xFFFFFEFF, 0x00000024⟩
  | .dfZlibHeader => ⟨0xFFFFFFFF, 0x00000030⟩
  | .dfBlock => ⟨0xFFFFFFFF, 0x00000031⟩
  | .dfStored => ⟨0xFFFFFFFF, 0x00000032⟩
  | .dfDynHeader => ⟨0xFFFFFFFF, 0x00000033⟩
  | .dfTrailer => ⟨0xFFFFFFFF, 0x00000034⟩
  | .dfInflate => ⟨0xFFFFFFFF, 0x00000035⟩
  | .pfSignature => ⟨0xFFFFFFFF, 0x00000040⟩
  | .pfNextChunk => ⟨0xFFFFFFFF, 0x00000041⟩
  | .pfReadChunks => ⟨0xFFFFFFFF, 0x00000042⟩
  | .pfReadHeader => ⟨0xFFFFFFFF, 0x00000043⟩
  | .pfCheckHeader => ⟨0xFFFFFFFF, 0x00000044⟩
  | .pfEmitSignature => ⟨0xFFFFFFFF, 0x00000048⟩
  | .pfEmitChunk => ⟨0xFFFFFFFF, 0x00000049⟩
  | .pfEmitIhdr => ⟨0xFFFFFFFF, 0x0000004A⟩

end Sys2Proof
end

