-- ==== Sys2Proof/Machine/Tables.lean ====
section
/-! DEFINITION. The constant tables and the two checksum functions (40_tables_and_checksums.md). -/

namespace Sys2Proof.Machine

/-- LENGTH_TABLE: base and extra bits of the length symbols 257 to 285, in order (R130). -/
def lengthTable : List (Nat × Nat) :=
  [(3, 0), (4, 0), (5, 0), (6, 0), (7, 0), (8, 0), (9, 0), (10, 0), (11, 1), (13, 1)] ++
  [(15, 1), (17, 1), (19, 2), (23, 2), (27, 2), (31, 2), (35, 3), (43, 3), (51, 3), (59, 3)] ++
  [(67, 4), (83, 4), (99, 4), (115, 4), (131, 5), (163, 5), (195, 5), (227, 5), (258, 0)]

/-- DIST_TABLE: base and extra bits of the distance symbols 0 to 29, in order (R131). -/
def distTable : List (Nat × Nat) :=
  [(1, 0), (2, 0), (3, 0), (4, 0), (5, 1), (7, 1), (9, 2), (13, 2), (17, 3), (25, 3)] ++
  [(33, 4), (49, 4), (65, 5), (97, 5), (129, 6), (193, 6), (257, 7), (385, 7), (513, 8), (769, 8)] ++
  [(1025, 9), (1537, 9), (2049, 10), (3073, 10), (4097, 11), (6145, 11), (8193, 12), (12289, 12),
    (16385, 13), (24577, 13)]

/-- The row of LENGTH_TABLE for a length symbol (R130). -/
def lengthRow (sym : Nat) : Nat × Nat := lengthTable.getD (sym - 257) (0, 0)

/-- The row of DIST_TABLE for a distance symbol (R131). -/
def distRow (dsym : Nat) : Nat × Nat := distTable.getD dsym (0, 0)

/-- CL_ORDER: the order of the code-length symbols in a dynamic header (R132). -/
def clOrder : List Nat := [16, 17, 18, 0, 8, 7, 9, 6, 10, 5, 11, 4, 12, 3, 13, 2, 14, 1, 15]

/-- FIXED_LL_LENS: symbols 0-143 have length 8, 144-255 length 9, 256-279 length 7, 280-287 length 8 (R134). -/
def fixedLLLens : List Nibble :=
  List.replicate 144 8 ++ List.replicate 112 9 ++ List.replicate 24 7 ++ List.replicate 8 8

/-- FIXED_DIST_LENS: length 5 for each of the 32 symbols (R135). -/
def fixedDistLens : List Nibble := List.replicate 32 5

/-- One bit of the reflected CRC-32, polynomial 0xEDB88320 (R136). -/
def crcBit (c : Word) : Word :=
  if c.getLsbD 0 then (c >>> 1) ^^^ 0xEDB88320#32 else c >>> 1

/-- One byte of the CRC-32: the byte xored in, then eight bits (R136). -/
def crcByte (c : Word) (x : Byte) : Word :=
  crcBit (crcBit (crcBit (crcBit (crcBit (crcBit (crcBit (crcBit (c ^^^ x.setWidth 32))))))))

/-- crc32 of a byte sequence (R136). -/
def crc32 (bytes : List Byte) : Word := bytes.foldl crcByte 0xFFFFFFFF#32 ^^^ 0xFFFFFFFF#32

/-- One byte of the Adler-32 sums a and b (R137). -/
def adlerByte (ab : Nat × Nat) (x : Byte) : Nat × Nat :=
  ((ab.1 + x.toNat) % 65521, (ab.2 + (ab.1 + x.toNat) % 65521) % 65521)

/-- adler32 of a byte sequence: b in the high half, a in the low half (R137). -/
def adler32 (bytes : List Byte) : Word :=
  let ab := bytes.foldl adlerByte (1, 0)
  BitVec.ofNat 32 (ab.2 * 65536 + ab.1)

/-- PNG_SIGNATURE (R138). -/
def pngSignature : List Byte := [0x89, 0x50, 0x4E, 0x47, 0x0D, 0x0A, 0x1A, 0x0A]

/-- The chunk type words of R139. -/
def typeIHDR : Word := 0x49484452
/-- PLTE (R139). -/
def typePLTE : Word := 0x504C5445
/-- IDAT (R139). -/
def typeIDAT : Word := 0x49444154
/-- IEND (R139). -/
def typeIEND : Word := 0x49454E44

/-- BYTES_PER_PIXEL of a color_type: 3 for RGB (2), 4 for RGBA (6); no other reaches a use (R140). -/
def bytesPerPixel (colorType : Byte) : Nat := if colorType = 2 then 3 else 4

end Sys2Proof.Machine
end

