-- ==== Sys2Proof/Machine/Operands.lean ====
section
/-! DEFINITION. Operand assembly: the values a command's fields stand for (30_encoding.md R110), the
assembler's inverse of it (R114), and the byte order of multi-byte values (20_memory.md R79). -/

namespace Sys2Proof.Machine

/-- BC_NEXT_N: n = N (R110). -/
def bitCount (n : BitVec 6) : Nat := n.toNat

/-- LZ_COPY: length = L3 + 3 (R110). -/
def copyLength (l3 : BitVec 8) : Nat := l3.toNat + 3

/-- LZ_COPY: distance = D1 + 1 (R110). -/
def copyDistance (d1 : BitVec 15) : Nat := d1.toNat + 1

/-- LZ_LENGTH: the symbol is S + 257 (R110). -/
def lengthSymbol (sym : BitVec 5) : Nat := sym.toNat + 257

/-- LZ_DIST: the symbol is S (R110). -/
def distSymbol (sym : BitVec 5) : Nat := sym.toNat

/-- LZ_BLOCK_DATA: the literal/length slot, 3 for fixed, 1 for dynamic (R110). -/
def blockLL (fixed : Bool) : TableId := if fixed then .fll else .ll

/-- LZ_BLOCK_DATA: the distance slot, 4 for fixed, 2 for dynamic (R110). -/
def blockDist (fixed : Bool) : TableId := if fixed then .fdist else .dist

/-- `L3 = length - 3` of the assembler (R114). -/
def copyL3 (length : Nat) : BitVec 8 := BitVec.ofNat 8 (length - 3)

/-- `D1 = distance - 1` of the assembler (R114). -/
def copyD1 (distance : Nat) : BitVec 15 := BitVec.ofNat 15 (distance - 1)

/-- `S = sym - 257` of the assembler (R114). -/
def lengthS (sym : Nat) : BitVec 5 := BitVec.ofNat 5 (sym - 257)

/-- Four bytes as a big-endian word, the first byte in [31:24] (20_memory.md R79, 00_scope.md R14). -/
def be32 (b0 b1 b2 b3 : Byte) : Word := (b0 ++ b1 ++ b2 ++ b3 : BitVec 32)

/-- The four bytes of a word, most significant first (45_png_framer.md R246). -/
def be4 (v : Word) : List Byte :=
  [v.extractLsb' 24 8, v.extractLsb' 16 8, v.extractLsb' 8 8, v.extractLsb' 0 8]

end Sys2Proof.Machine
end

