-- ==== Sys2Proof/Config.lean ====
section
/-! DEFINITION. What an implementation fixes (the spec's named parameters, 00_scope.md R8 and
92_eei_decisions.md D47) and the free values the spec leaves open. Every constant here is opaque:
nothing in Lean can evaluate it or prove a value of it. -/

namespace Sys2Proof

/-- SRC_SIZE minus 1. The type is the bound of R8: the size lies in 1..2^28. DESIGN CHOICE, safe (log 1). -/
opaque Config.srcSizeLess1 : Fin (2 ^ 28)

/-- CAT_SIZE minus 1 (R8; log 1). -/
opaque Config.catSizeLess1 : Fin (2 ^ 28)

/-- DST_SIZE minus 1 (R8; log 1). -/
opaque Config.dstSizeLess1 : Fin (2 ^ 28)

/-- WBUF_SIZE minus 1 (R8; log 1). -/
opaque Config.wbufSizeLess1 : Fin (2 ^ 28)

/-- REG_BASE, the platform's base address of the register map (92_eei_decisions.md D47; log 2). -/
opaque Config.regBase : Nat

/-- The platform address of the register at byte offset `off` (60_exceptions.md R288, D47). -/
def Config.regAddress (off : Nat) : Nat := Config.regBase + off

/-- The byte a memory holds at an address that nothing has written since the `gen`-th reset:
any value, drawn at reset (70_reset_and_hazards.md R301). DESIGN CHOICE of its form, safe (log 3). -/
opaque Config.resetByte (gen : Nat) (m : Space) (addr : Nat) : Byte

/-- The entry LENS holds at an index that nothing has written since the `gen`-th reset: any value
(10_state.md R45, R301). DESIGN CHOICE of its form, safe (log 4). -/
opaque Config.resetLens (gen : Nat) (idx : Nat) : Nibble

/-- The 32-bit value the `k`-th host read of a register while BUSY returns: any value (R58). Safe (log 8). -/
opaque Config.busyWord (k : Nat) : Word

/-- The 8-bit value the `k`-th host read of a memory or LENS while BUSY returns: any value (R58). Safe (log 8). -/
opaque Config.busyByte (k : Nat) : Byte

/-- What CHUNK_COUNT holds after an increment past 2^32 - 1: 45_png_framer.md R241 adds 1 and states no
modulus, and the register has 32 bits (R51), so the value is unstated. DESIGN CHOICE, safe (log 12). -/
opaque Config.chunkCountPast (k : Nat) : Word

end Sys2Proof
end

