-- ==== Sys2Proof/Machine/State.lean ====
section
/-! DEFINITION. The machine's state as plain data, the reasons a step can stop, and the state after
reset (10_state.md R20 to R60, 20_memory.md R70, 70_reset_and_hazards.md R300 to R302). -/

namespace Sys2Proof.Machine

/-- The control state ENG: idle, or running the latched command word (10_state.md R21). -/
inductive Eng where
  | idle
  | busy (cmd : Word)
deriving DecidableEq, Repr

/-- The flags of STATUS (10_state.md R25); bits [31:7] are reserved and read 0. -/
structure Status where
  busy : Bool
  done : Bool
  error : Bool
  final : Bool
  iendSeen : Bool
  unknownSeen : Bool
  crcWarn : Bool
deriving DecidableEq, Repr

/-- CONFIG.CRC_MODE: 0, 1 and 2; 3 cannot be held (10_state.md R24). -/
inductive CrcMode where
  | ignore | warn | strict
deriving DecidableEq, Repr

/-- The fields of CONFIG (10_state.md R24); bits [31:5] are reserved and read 0. -/
structure ConfigReg where
  /-- SRCSEL: false = SRC, true = CAT. -/
  srcSel : Bool
  adlerCheck : Bool
  crcMode : CrcMode
  ie : Bool
deriving DecidableEq, Repr

/-- The error codes of 60_exceptions.md R271, in the order of their numbers 0x00 to 0x19. -/
inductive ErrCode where
  | none
  | streamTooShort
  | headerChecksumMismatch
  | unsupportedCompressionMethod
  | unsupportedWindowSize
  | presetDictionaryUnsupported
  | storedBlockLengthMismatch
  | invalidBlockType
  | huffmanDecodeFailed
  | unexpectedRepeatSymbol
  | unsupportedPngFeature
  | unknownChunkType
  | malformedChunkFraming
  | chunkCrcMismatch
  | ioError
  | outOfData
  | buildError
  | checksumMismatch
  | distanceTooFar
  | outputOverflow
  | invalidLengthSymbol
  | invalidDistanceSymbol
  | repeatOverflow
  | signatureMismatch
  | tableNotBuilt
  | illegalCommand
deriving DecidableEq, Repr

/-- BLOCK, the header of the last DEFLATE block (10_state.md R39). -/
structure BlockReg where
  bfinal : Bool
  btype : BitVec 2
  len : BitVec 16
deriving DecidableEq, Repr

/-- DYN, the counts of the last dynamic block header, offsets added (10_state.md R40). -/
structure DynReg where
  hlit : BitVec 9
  hdist : BitVec 6
  hclen : BitVec 5
deriving DecidableEq, Repr

/-- ZHDR, the last zlib header that passed validation (10_state.md R41). -/
structure ZhdrReg where
  cmf : Byte
  flg : Byte
deriving DecidableEq, Repr

/-- CHUNK_CLASS: the values 0 to 4 and 7 (10_state.md R50); 5 and 6 are never written. -/
inductive ChunkClass where
  | ihdr | plte | idat | iend | unknown | none
deriving DecidableEq, Repr

/-- A Huffman table slot (10_state.md R46): everything else about the table is a function of `lens`. -/
structure Slot where
  valid : Bool
  lens : List Nibble
deriving DecidableEq, Repr

/-- The registers of the map, by name (10_state.md R23). -/
inductive Reg where
  | cmd | status | config | errCode | errBitPos | errData | result | bitPos | srcLen | catLen | dstCap
  | outPos | frPos | wpos | arg0 | arg1 | arg2 | block | dyn | zhdr | adlerCalc | adlerTrailer
  | blockCount | tblStatus | chunkLen | chunkType | chunkCrc | chunkCrcCalc | chunkClass | chunkCount
  | hdrWidth | hdrHeight | hdrFmt | hdrInterlace | dataSize
deriving DecidableEq, Repr

/-- One transaction of the host at a port (10_state.md R22). -/
inductive HostOp where
  /-- Write a whole register. -/
  | regWrite (offset : BitVec 8) (value : Word)
  /-- Read a whole register. -/
  | regRead (offset : BitVec 8)
  /-- An access of a register narrower than 32 bits, which the port's contract excludes (R56). -/
  | regSubWord (offset : BitVec 8)
  /-- Write one byte of a memory. -/
  | memWrite (m : Space) (addr : BitVec 28) (value : Byte)
  /-- Read one byte of a memory. -/
  | memRead (m : Space) (addr : BitVec 28)
  /-- Write one entry of LENS. -/
  | lensWrite (idx : BitVec 9) (value : Byte)
  /-- Read one entry of LENS. -/
  | lensRead (idx : BitVec 9)
deriving DecidableEq, Repr

/-- Who moves next: the engine, the host with a transaction, or the reset input (10_state.md R20, R22). -/
inductive Event where
  | engine
  | host (op : HostOp)
  | rst
deriving DecidableEq, Repr

/-- The data each port returned last: reg_rdata, M_rdata and lens_rdata (10_state.md R22). -/
structure Ports where
  reg : Word
  src : Byte
  cat : Byte
  dst : Byte
  wbuf : Byte
  lens : Byte
deriving DecidableEq, Repr

/-- The sizes of the four memories in bytes, the parameters SRC_SIZE to WBUF_SIZE (00_scope.md R8). -/
structure Sizes where
  src : Nat
  cat : Nat
  dst : Nat
  wbuf : Nat
deriving DecidableEq, Repr

/-- A byte memory: the bytes written since reset, addresses strictly rising (the form is
`Memory.wf` in Machine/Ops.lean). An unlisted address holds the byte drawn at reset (log 3). -/
abbrev Memory := List Host.Cell

/-- LENS: the entries written since reset, indices strictly rising (log 4). -/
abbrev LensMemory := List (Nat × Nibble)

/-- The whole state. The order is that of INVENTORY.md: parameters, control, registers in the order of
10_state.md R23, table slots 0 to 2 (slots 3 and 4 are constants, R47), memories, and the model's own fields. -/
structure State where
  sizes : Sizes
  eng : Eng
  status : Status
  config : ConfigReg
  errCode : ErrCode
  errBitPos : Word
  errData : Word
  result : Word
  bitPos : Word
  srcLen : Word
  catLen : Word
  dstCap : Word
  outPos : Word
  frPos : Word
  wpos : Word
  arg0 : Word
  arg1 : Word
  arg2 : Word
  block : BlockReg
  dyn : DynReg
  zhdr : ZhdrReg
  adlerCalc : Word
  adlerTrailer : Word
  blockCount : Word
  chunkLen : Word
  chunkType : Word
  chunkCrc : Word
  chunkCrcCalc : Word
  chunkClass : ChunkClass
  chunkCount : Word
  hdrWidth : Word
  hdrHeight : Word
  hdrFmt : Word
  hdrInterlace : Byte
  dataSize : Word
  cl : Slot
  ll : Slot
  dist : Slot
  src : Memory
  cat : Memory
  dst : Memory
  wbuf : Memory
  lens : LensMemory
  /-- What each port returned last. -/
  ports : Ports
  /-- The model's own: the moves to come, oldest first; where it is empty the engine moves (log 6). -/
  agenda : List Event
  /-- The model's own: how many resets there were, the index of the memories' free values (log 3). -/
  resets : Nat
  /-- The model's own: how many free values were drawn (logs 8 and 12). -/
  draws : Nat
deriving DecidableEq, Repr

/-- Why a step stops with a fault. -/
inductive Fault where
  /-- Raised by a host transaction, while IDLE, at an address its memory does not have (20_memory.md R70). Safe (log 11). -/
  | noSuchAddress (m : Space) (addr : Nat)
  /-- Raised by a host transaction, while IDLE, at a LENS index above 319 (10_state.md R45). Safe (log 11). -/
  | noSuchLensEntry (idx : Nat)
deriving DecidableEq, Repr

/-- Why a step refuses. -/
inductive Refusal where
  /-- Raised by `exec` alone, for a command that has no meaning yet. Safe. -/
  | notModelled (mnemonic : String)
  /-- Raised by a host access of a register at an offset that is no multiple of 4: the spec's own
  refusal, "it has no transition" (10_state.md R56). Safe (log 10). -/
  | misalignedRegister (offset : Nat)
  /-- Raised by a host access of a register narrower than 32 bits: the spec's own refusal (R56). Safe (log 10). -/
  | subWordRegister (offset : Nat)
deriving DecidableEq, Repr

/-- The state after reset of a block with memory sizes `z`: the values of 70_reset_and_hazards.md R300,
invalid slots 0 to 2 (R302) with no lengths (log 5), memories and LENS with nothing listed (R301), ports returning 0
(DESIGN CHOICE, unsafe, log 9), an empty agenda (log 6). -/
def State.resetWith (z : Sizes) : State where
  sizes := z
  eng := .idle
  status := ⟨false, false, false, false, false, false, false⟩
  config := ⟨false, true, .warn, false⟩
  errCode := .none
  errBitPos := 0
  errData := 0
  result := 0
  bitPos := 0
  srcLen := 0
  catLen := 0
  dstCap := 0
  outPos := 0
  frPos := 0
  wpos := 0
  arg0 := 0
  arg1 := 0
  arg2 := 0
  block := ⟨false, 0, 0⟩
  dyn := ⟨0, 0, 0⟩
  zhdr := ⟨0, 0⟩
  adlerCalc := 0
  adlerTrailer := 0
  blockCount := 0
  chunkLen := 0
  chunkType := 0
  chunkCrc := 0
  chunkCrcCalc := 0
  chunkClass := .none
  chunkCount := 0
  hdrWidth := 0
  hdrHeight := 0
  hdrFmt := 0
  hdrInterlace := 0
  dataSize := 0
  cl := ⟨false, []⟩
  ll := ⟨false, []⟩
  dist := ⟨false, []⟩
  src := []
  cat := []
  dst := []
  wbuf := []
  lens := []
  ports := ⟨0, 0, 0, 0, 0, 0⟩
  agenda := []
  resets := 0
  draws := 0

/-- The memory sizes this implementation fixes: any, within the bounds of 00_scope.md R8 (log 1). -/
def Sizes.implementation : Sizes where
  src := Config.srcSizeLess1.val + 1
  cat := Config.catSizeLess1.val + 1
  dst := Config.dstSizeLess1.val + 1
  wbuf := Config.wbufSizeLess1.val + 1

/-- The machine right after reset (70_reset_and_hazards.md R300). -/
def State.reset : State := State.resetWith Sizes.implementation

end Sys2Proof.Machine
end

