-- ==== Sys2Proof/Machine/Ops.lean ====
section
/-! DEFINITION. The named operations: memories, the micro-step language of the command bodies
(00_scope.md R14, R15), and the shared entry and exit of every command: issue (10_state.md R26),
completion and error entry (60_exceptions.md R270, R272). -/

namespace Sys2Proof.Machine

/-! ### Memories -/

/-- The canonical form of a memory: addresses strictly rising. No entry can equal what an unlisted
address reads as, because `readCell` answers `none` there. -/
abbrev risingCells {w : Nat} (m : List (Nat × BitVec w)) : Prop := m.Pairwise fun x y => x.1 < y.1

/-- The canonical form of a byte memory. -/
abbrev Memory.wf (m : Memory) : Prop := risingCells m

/-- What a memory holds at an address; `none` where nothing has been written since reset. -/
def readCell {w : Nat} : List (Nat × BitVec w) → Nat → Option (BitVec w)
  | [], _ => none
  | (b, u) :: m, a => if a = b then some u else readCell m a

/-- Write one cell, keeping the canonical form. -/
def writeCell {w : Nat} : List (Nat × BitVec w) → Nat → BitVec w → List (Nat × BitVec w)
  | [], a, v => [(a, v)]
  | (b, u) :: m, a, v =>
    if a < b then (a, v) :: (b, u) :: m
    else if a = b then (a, v) :: m
    else (b, u) :: writeCell m a v

/-- The cells of a memory space. -/
def State.mem (s : State) : Space → Memory
  | .src => s.src
  | .cat => s.cat
  | .dst => s.dst
  | .wbuf => s.wbuf

/-- Replace the cells of a memory space. -/
def State.setMem (s : State) : Space → Memory → State
  | .src, m => { s with src := m }
  | .cat, m => { s with cat := m }
  | .dst, m => { s with dst := m }
  | .wbuf, m => { s with wbuf := m }

/-- The size of a memory space in bytes (R8, R70). -/
def Sizes.of (z : Sizes) : Space → Nat
  | .src => z.src
  | .cat => z.cat
  | .dst => z.dst
  | .wbuf => z.wbuf

/-- `M[a]`: the byte written last, or the byte drawn at reset where nothing was written (R14, R301; log 3). -/
def State.peek (s : State) (m : Space) (a : Nat) : Byte :=
  (readCell (s.mem m) a).getD (Config.resetByte s.resets m a)

/-- `M[a] <- v` (R14). -/
def State.poke (s : State) (m : Space) (a : Nat) (v : Byte) : State :=
  s.setMem m (writeCell (s.mem m) a v)

/-- `LENS[i]` (R14, R45, R301; log 4). -/
def State.lensAt (s : State) (i : Nat) : Nibble :=
  (readCell s.lens i).getD (Config.resetLens s.resets i)

/-- `LENS[i] <- v` (R45). -/
def State.setLens (s : State) (i : Nat) (v : Nibble) : State :=
  { s with lens := writeCell s.lens i v }

/-- `LENS[i + k] <- v` for k = 0 .. n-1, in rising order. -/
def fillLens (v : Nibble) : Nat → Nat → State → State
  | 0, _, s => s
  | n + 1, i, s => fillLens v n (i + 1) (s.setLens i v)

/-- `MemRead(M, a, n)`: the bytes `M[a] .. M[a+n-1]` (R14). -/
def State.bytesAt (s : State) (m : Space) (a n : Nat) : List Byte :=
  (List.range n).map fun k => s.peek m (a + k)

/-- `MemWrite(M, a, n, bytes)`: the bytes from address `a` upward, one at a time (R14, R82). -/
def writeBytes (m : Space) : Nat → List Byte → State → State
  | _, [], s => s
  | a, b :: bs, s => writeBytes m (a + 1) bs (s.poke m a b)

/-- Copy n bytes from one memory to another, one at a time in increasing address order (R82). -/
def blit (from_ to_ : Space) : Nat → Nat → Nat → State → State
  | 0, _, _, s => s
  | n + 1, a, b, s => blit from_ to_ n (a + 1) (b + 1) (s.poke to_ b (s.peek from_ a))

/-! ### The micro-step language -/

/-- A raise: the error code and its ERR_DATA (60_exceptions.md R272, R275). -/
structure Raise where
  code : ErrCode
  data : Word
deriving DecidableEq, Repr

/-- A sequence of micro-steps: it answers a value and the state reached, or a raise and the state
reached, in which every earlier micro-step has taken effect (R15, R273). -/
abbrev Act := EStateM Raise State

/-- `raise E(d)`; ERR_DATA is 32 bits (R272). -/
def raise {α : Type} (code : ErrCode) (data : Nat) : Act α :=
  fun s => .error ⟨code, BitVec.ofNat 32 data⟩ s

/-- `if bad: raise E(d)`. -/
def check (bad : Prop) [Decidable bad] (code : ErrCode) (data : Nat) : Act Unit :=
  fun s => if bad then .error ⟨code, BitVec.ofNat 32 data⟩ s else .ok () s

/-- A micro-step that writes. -/
def update (f : State → State) : Act Unit := fun s => .ok () (f s)

/-- The present state. -/
def getState : Act State := fun s => .ok s s

/-- `R.RESULT <- zext_32(n)` (10_state.md R30). -/
def setResult (n : Nat) : Act Unit := update fun s => { s with result := BitVec.ofNat 32 n }

/-! ### The execution frame -/

/-- Issue of a command word: the five effects of a CMD write while IDLE (10_state.md R26). -/
def State.issue (w : Word) (s : State) : State :=
  { s with
    eng := .busy w
    status := { s.status with busy := true, done := false, error := false }
    errCode := .none
    errBitPos := 0
    errData := 0 }

/-- `Complete()` (60_exceptions.md R270). -/
def State.complete (s : State) : State :=
  { s with status := { s.status with busy := false, done := true }, eng := .idle }

/-- The error entry of `raise E(d)` (60_exceptions.md R272): nothing else is saved, nothing restored.
There is no return from it (R280): the next issue or a W1C write clears what it set. -/
def State.errorEntry (r : Raise) (s : State) : State :=
  { s with
    errCode := r.code
    errData := r.data
    errBitPos := s.bitPos
    status := { s.status with error := true, done := true, busy := false }
    eng := .idle }

/-- How a command ends: completion after its body, error entry after a raise (R270). -/
def finish : EStateM.Result Raise State Unit → State
  | .ok _ s => s.complete
  | .error r s => s.errorEntry r

/-- The frame of R270 around a command's body: it always ends in a next state. -/
def runCommand (body : Act Unit) (s : State) : Host.Outcome State Fault Refusal :=
  .next (finish (body s))

/-- A word that is no command raises IllegalCommand(w) before anything else (30_encoding.md R112, R113,
60_exceptions.md R278). -/
def illegalCommand (w : Word) (s : State) : Host.Outcome State Fault Refusal :=
  runCommand (raise .illegalCommand w.toNat) s

end Sys2Proof.Machine
end

