-- ==== Sys2Proof/Machine/Cursor.lean ====
section
/-! DEFINITION. The BitCursor: its buffer (20_memory.md R74), its three primitives, and the commands NOP,
BC_RESET, BC_NEXT_BIT, BC_NEXT_N and BC_ALIGN (41_bitcursor.md). -/

namespace Sys2Proof.Machine

/-- BUF: the memory the cursor reads, by CONFIG.SRCSEL (R74). It is read where it is used and not sampled:
no command that reads BUF writes CONFIG, SRC_LEN or CAT_LEN. DEDUCED, safe (log 14). -/
def State.bufSpace (s : State) : Space := if s.config.srcSel then .cat else .src

/-- BUF_LEN: SRC_LEN or CAT_LEN, by CONFIG.SRCSEL (R74). -/
def State.bufLen (s : State) : Nat := if s.config.srcSel then s.catLen.toNat else s.srcLen.toNat

/-- Bit p of the cursor buffer: bit `p mod 8` of byte `BUF[p div 8]` (R77). -/
def State.bufBit (s : State) (p : Nat) : Bool := (s.peek s.bufSpace (p / 8)).getLsbD (p % 8)

/-- The bits that lie between BIT_POS and the end of BUF. -/
def State.bitsLeft (s : State) : Nat := 8 * s.bufLen - s.bitPos.toNat

/-- `R.BIT_POS <- p`. BIT_POS never passes 2^31 (R150, R152), so 32 bits hold it (log 15). -/
def State.setBitPos (p : Nat) (s : State) : State := { s with bitPos := BitVec.ofNat 32 p }

/-- `ReadBit()` (R150). -/
def readBit : Act Bool := do
  let s ← getState
  check (s.bitPos.toNat / 8 ≥ s.bufLen) .outOfData 1
  update (State.setBitPos (s.bitPos.toNat + 1))
  pure (s.bufBit s.bitPos.toNat)

/-- The loop of `ReadBits`: bits i, i+1, ... into the value v (R151). -/
def readBitsLoop : Nat → Nat → Nat → Act Nat
  | 0, _, v => pure v
  | k + 1, i, v => do
    let b ← readBit
    readBitsLoop k (i + 1) (v ||| b.toNat <<< i)

/-- `ReadBits(n)`: n bits, the first one least significant, all or nothing (R151). -/
def readBits (n : Nat) : Act Nat := do
  let s ← getState
  check (s.bitPos.toNat + n > 8 * s.bufLen) .outOfData n
  readBitsLoop n 0 0

/-- `Align()`: to the next byte boundary; never raises (R152). -/
def align : Act Unit := update fun s => s.setBitPos ((s.bitPos.toNat + 7) / 8 * 8)

/-- NOP (R153). -/
def execNop (s : State) : Host.Outcome State Fault Refusal := runCommand (pure ()) s

/-- BC_RESET (R154). -/
def execBcReset (s : State) : Host.Outcome State Fault Refusal := runCommand (update (State.setBitPos 0)) s

/-- BC_NEXT_BIT (R155). -/
def execBcNextBit (s : State) : Host.Outcome State Fault Refusal :=
  runCommand (do let b ← readBit; setResult b.toNat) s

/-- BC_NEXT_N (R156). -/
def execBcNextN (n : BitVec 6) (s : State) : Host.Outcome State Fault Refusal :=
  runCommand (do let v ← readBits (bitCount n); setResult v) s

/-- BC_ALIGN (R157). -/
def execBcAlign (s : State) : Host.Outcome State Fault Refusal := runCommand align s

end Sys2Proof.Machine
end

