-- ==== Sys2Proof/Machine/Canonical.lean ====
section
/-! DEFINITION. Canonical Huffman codes as functions of a length list (42_huffman.md R170 to R175). -/

namespace Sys2Proof.Machine

/-- max_code_len, the largest length; 0 when every entry is 0 (R170). -/
def maxCodeLen (lens : List Nibble) : Nat := lens.foldr (fun l m => max l.toNat m) 0

/-- count[L]: the number of symbols with length L; length 0 is not counted (R170). -/
def lenCount (lens : List Nibble) (L : Nat) : Nat :=
  if L = 0 then 0 else lens.countP fun l => l.toNat = L

/-- next_code[L], the first code of length L (R171). -/
def nextCode (lens : List Nibble) : Nat → Nat
  | 0 => 0
  | 1 => 0
  | L + 2 => (nextCode lens (L + 1) + lenCount lens (L + 1)) <<< 1

/-- The codes of length L do not fit in L bits (R172). -/
def overAt (lens : List Nibble) (L : Nat) : Bool := decide (nextCode lens L + lenCount lens L > 2 ^ L)

/-- The smallest over-subscribed length in 1..15, if the list is over-subscribed (R172). -/
def overSubscribed (lens : List Nibble) : Option Nat := (List.range' 1 15).find? (overAt lens)

/-- The assignment of R173: (length, code) of every symbol in ascending order, from the working copy
`nc` of next_code indexed by length; (0, 0) for an unused symbol. -/
def assignFrom (nc : List Nat) : List Nibble → List (Nat × Nat)
  | [] => []
  | l :: ls =>
    if l = 0 then (0, 0) :: assignFrom nc ls
    else (l.toNat, nc.getD l.toNat 0) :: assignFrom (nc.set l.toNat (nc.getD l.toNat 0 + 1)) ls

/-- The working copy nc[L] <- next_code[L] (R173). -/
def firstCodes (lens : List Nibble) : List Nat := (List.range 16).map (nextCode lens)

/-- The (length, code) pair of every symbol of a length list (R173). -/
def codesOf (lens : List Nibble) : List (Nat × Nat) := assignFrom (firstCodes lens) lens

/-- MAP(L, c): the symbol with length L and code c, for L at least 1 (R173). -/
def symbolOf (codes : List (Nat × Nat)) (L c : Nat) : Option Nat :=
  codes.findIdx? fun p => p.1 == L && p.2 == c

end Sys2Proof.Machine
end

