-- ==== Sys2Proof/Machine/Flags.lean ====
section
/-! DEFINITION. The register words: STATUS, CONFIG, TBL_STATUS and the other registers with fields as the
host reads them, what a host write of STATUS or CONFIG does, and the interrupt line
(10_state.md R24 to R55, 60_exceptions.md R271, R282). -/

namespace Sys2Proof.Machine

/-- The STATUS word (R25). -/
def Status.word (f : Status) : Word :=
  (0#25 ++ BitVec.ofBool f.crcWarn ++ BitVec.ofBool f.unknownSeen ++ BitVec.ofBool f.iendSeen ++
    BitVec.ofBool f.final ++ BitVec.ofBool f.error ++ BitVec.ofBool f.done ++ BitVec.ofBool f.busy : BitVec 32)

/-- A host write of STATUS: writing 1 to DONE, ERROR, IEND_SEEN, UNKNOWN_SEEN or CRC_WARN clears it,
writing 0 leaves it; BUSY, FINAL and the reserved bits ignore the write (R25). -/
def Status.writeOneClear (f : Status) (v : Word) : Status :=
  { f with
    done := f.done && !v.getLsbD 1
    error := f.error && !v.getLsbD 2
    iendSeen := f.iendSeen && !v.getLsbD 4
    unknownSeen := f.unknownSeen && !v.getLsbD 5
    crcWarn := f.crcWarn && !v.getLsbD 6 }

/-- The number of a CRC mode (R24). -/
def CrcMode.bits : CrcMode → BitVec 2
  | .ignore => 0
  | .warn => 1
  | .strict => 2

/-- The CRC mode a host write stores: a write of 3 stores 2 (R24, WARL). -/
def CrcMode.ofBits (b : BitVec 2) : CrcMode :=
  if b = 0 then .ignore else if b = 1 then .warn else .strict

/-- The CONFIG word (R24). -/
def ConfigReg.word (c : ConfigReg) : Word :=
  (0#27 ++ BitVec.ofBool c.ie ++ c.crcMode.bits ++ BitVec.ofBool c.adlerCheck ++ BitVec.ofBool c.srcSel : BitVec 32)

/-- What a host write of CONFIG stores; the reserved bits are ignored (R24). -/
def ConfigReg.ofWord (v : Word) : ConfigReg where
  srcSel := v.getLsbD 0
  adlerCheck := v.getLsbD 1
  crcMode := CrcMode.ofBits (v.extractLsb' 2 2)
  ie := v.getLsbD 4

/-- The number of an error code (60_exceptions.md R271). -/
def ErrCode.number : ErrCode → Byte
  | .none => 0x00
  | .streamTooShort => 0x01
  | .headerChecksumMismatch => 0x02
  | .unsupportedCompressionMethod => 0x03
  | .unsupportedWindowSize => 0x04
  | .presetDictionaryUnsupported => 0x05
  | .storedBlockLengthMismatch => 0x06
  | .invalidBlockType => 0x07
  | .huffmanDecodeFailed => 0x08
  | .unexpectedRepeatSymbol => 0x09
  | .unsupportedPngFeature => 0x0A
  | .unknownChunkType => 0x0B
  | .malformedChunkFraming => 0x0C
  | .chunkCrcMismatch => 0x0D
  | .ioError => 0x0E
  | .outOfData => 0x0F
  | .buildError => 0x10
  | .checksumMismatch => 0x11
  | .distanceTooFar => 0x12
  | .outputOverflow => 0x13
  | .invalidLengthSymbol => 0x14
  | .invalidDistanceSymbol => 0x15
  | .repeatOverflow => 0x16
  | .signatureMismatch => 0x17
  | .tableNotBuilt => 0x18
  | .illegalCommand => 0x19

/-- The ERR_CODE word: the code in [7:0] (R27). -/
def ErrCode.word (c : ErrCode) : Word := c.number.setWidth 32

/-- The BLOCK word (R39). -/
def BlockReg.word (b : BlockReg) : Word := (b.len ++ 0#13 ++ b.btype ++ BitVec.ofBool b.bfinal : BitVec 32)

/-- The DYN word (R40). -/
def DynReg.word (d : DynReg) : Word := (0#12 ++ d.hclen ++ d.hdist ++ d.hlit : BitVec 32)

/-- The ZHDR word: CMF in [7:0], FLG in [15:8] (R41). -/
def ZhdrReg.word (z : ZhdrReg) : Word := (0#16 ++ z.flg ++ z.cmf : BitVec 32)

/-- The number of a chunk class (R50). -/
def ChunkClass.number : ChunkClass → Nat
  | .ihdr => 0
  | .plte => 1
  | .idat => 2
  | .iend => 3
  | .unknown => 4
  | .none => 7

/-- The contents of a table slot: slots 3 and 4 are the fixed tables, always valid (R46, R47). -/
def State.slot (s : State) : TableId → Slot
  | .cl => s.cl
  | .ll => s.ll
  | .dist => s.dist
  | .fll => ⟨true, fixedLLLens⟩
  | .fdist => ⟨true, fixedDistLens⟩

/-- MAXLENt: max_code_len of a valid slot, 0 otherwise (R44). -/
def Slot.maxLen (t : Slot) : BitVec 4 := if t.valid then BitVec.ofNat 4 (maxCodeLen t.lens) else 0

/-- The TBL_STATUS word: VALID[4:0], MAXLEN0 in [11:8] up to MAXLEN4 in [27:24] (R44). -/
def State.tblStatus (s : State) : Word :=
  (0#4 ++ (s.slot .fdist).maxLen ++ (s.slot .fll).maxLen ++ (s.slot .dist).maxLen ++ (s.slot .ll).maxLen ++
    (s.slot .cl).maxLen ++ 0#3 ++ BitVec.ofBool (s.slot .fdist).valid ++ BitVec.ofBool (s.slot .fll).valid ++
    BitVec.ofBool (s.slot .dist).valid ++ BitVec.ofBool (s.slot .ll).valid ++ BitVec.ofBool (s.slot .cl).valid : BitVec 32)

/-- The interrupt line: `irq = STATUS.DONE & CONFIG.IE`, a level (60_exceptions.md R282). -/
def State.irq (s : State) : Bool := s.status.done && s.config.ie

/-- bit_depth of HDR_FMT (R53). -/
def State.bitDepth (s : State) : Byte := s.hdrFmt.extractLsb' 0 8
/-- color_type of HDR_FMT (R53). -/
def State.colorType (s : State) : Byte := s.hdrFmt.extractLsb' 8 8
/-- compression of HDR_FMT (R53). -/
def State.compression (s : State) : Byte := s.hdrFmt.extractLsb' 16 8
/-- filter_method of HDR_FMT (R53). -/
def State.filterMethod (s : State) : Byte := s.hdrFmt.extractLsb' 24 8

end Sys2Proof.Machine
end

