-- ==== Sys2Proof/Machine/Huffman.lean ====
section
/-! DEFINITION. The Huffman unit: `Build` and `Decode`, and the commands HT_BUILD and HT_DECODE
(42_huffman.md R176 to R178). -/

namespace Sys2Proof.Machine

/-- Write a table slot; slots 3 and 4 cannot be named here (10_state.md R46, R47). -/
def State.setSlot (s : State) : BuildTarget → Slot → State
  | .cl, v => { s with cl := v }
  | .ll, v => { s with ll := v }
  | .dist, v => { s with dist := v }

/-- The snapshot `[ LENS[base + k] for k in 0 .. m ]` of a build (R177). -/
def State.lensSnapshot (s : State) (m base : Nat) : List Nibble :=
  (List.range (m + 1)).map fun k => s.lensAt (base + k)

/-- `Build(t, m, base)`: the slot from LENS, or BuildError with the slot invalidated, which is the one write
of a failing micro-step (R177, 60_exceptions.md R274). -/
def build (t : BuildTarget) (m base : Nat) : Act Nat := do
  let s ← getState
  match overSubscribed (s.lensSnapshot m base) with
  | some L => do
    update fun s => s.setSlot t { s.slot t.table with valid := false }
    raise .buildError (t.table.number <<< 8 ||| L)
  | none => do
    update fun s => s.setSlot t ⟨true, s.lensSnapshot m base⟩
    pure (maxCodeLen (s.lensSnapshot m base))

/-- The loop of `Decode`: `k` bits may still be read, L bits read so far make `code`, most significant
first (R176). -/
def decodeLoop (t : TableId) (codes : List (Nat × Nat)) : Nat → Nat → Nat → Act Nat
  | 0, L, code => raise .huffmanDecodeFailed (t.number <<< 24 ||| L <<< 16 ||| code)
  | k + 1, L, code => do
    let b ← readBit
    match symbolOf codes (L + 1) (code <<< 1 ||| b.toNat) with
    | some sym => pure sym
    | none => decodeLoop t codes k (L + 1) (code <<< 1 ||| b.toNat)

/-- `Decode(t)`: one symbol with table slot t (R176). -/
def decodeSymbol (t : TableId) : Act Nat := do
  let s ← getState
  check ((s.slot t).valid = false) .tableNotBuilt t.number
  decodeLoop t (codesOf (s.slot t).lens) (maxCodeLen (s.slot t).lens) 0 0

/-- HT_BUILD (R177). -/
def execHtBuild (t : BuildTarget) (maxsym base : BitVec 9) (s : State) : Host.Outcome State Fault Refusal :=
  runCommand (do let v ← build t maxsym.toNat base.toNat; setResult v) s

/-- HT_DECODE (R178). -/
def execHtDecode (t : TableId) (s : State) : Host.Outcome State Fault Refusal :=
  runCommand (do let v ← decodeSymbol t; setResult v) s

end Sys2Proof.Machine
end

