-- ==== Sys2Proof/Machine/Lz77.lean ====
section
/-! DEFINITION. The LZ77 copy engine: output primitives, length and distance resolution, the block-data
loop, and the commands LZ_LITERAL, LZ_COPY, LZ_LENGTH, LZ_DIST and LZ_BLOCK_DATA (43_lz77.md). -/

namespace Sys2Proof.Machine

/-- `R.OUT_POS <- p`. OUT_POS never passes DST_CAP by an engine write (R190, R191), so 32 bits hold it (log 15). -/
def State.setOutPos (p : Nat) (s : State) : State := { s with outPos := BitVec.ofNat 32 p }

/-- `EmitByte(x)` (R190). -/
def emitByte (x : Byte) : Act Unit := do
  let s ← getState
  check (s.outPos.toNat ≥ s.dstCap.toNat) .outputOverflow 0
  update fun s => s.poke .dst s.outPos.toNat x
  update fun s => s.setOutPos (s.outPos.toNat + 1)

/-- One byte of a copy at distance d: read after the previous byte is written (R191). -/
def copyByte (d : Nat) (s : State) : State :=
  (s.poke .dst s.outPos.toNat (s.peek .dst (s.outPos.toNat - d))).setOutPos (s.outPos.toNat + 1)

/-- The `repeat len times` of a copy (R191). -/
def copyLoop (d : Nat) : Nat → State → State
  | 0, s => s
  | n + 1, s => copyLoop d n (copyByte d s)

/-- `Copy(len, d)`: both checks before any byte is written, then byte by byte (R191). -/
def copy (len d : Nat) : Act Unit := do
  let s ← getState
  check (d > s.outPos.toNat) .distanceTooFar d
  check (s.outPos.toNat + len > s.dstCap.toNat) .outputOverflow 0
  update (copyLoop d len)

/-- `LengthOf(sym)`, for a symbol of 257 and above (R192). -/
def lengthOf (sym : Nat) : Act Nat := do
  check (sym > 285) .invalidLengthSymbol sym
  let e ← readBits (lengthRow sym).2
  pure ((lengthRow sym).1 + e)

/-- `DistOf(dsym)` (R193). -/
def distOf (dsym : Nat) : Act Nat := do
  check (dsym > 29) .invalidDistanceSymbol dsym
  let e ← readBits (distRow dsym).2
  pure ((distRow dsym).1 + e)

/-- One pass of the loop of `BlockData`; it answers whether the end of the block was met (R194). -/
def blockPass (lt dt : TableId) : Act Bool := do
  let sym ← decodeSymbol lt
  if sym < 256 then do
    emitByte (BitVec.ofNat 8 sym)
    pure false
  else if sym = 256 then pure true
  else do
    let len ← lengthOf sym
    let ds ← decodeSymbol dt
    let d ← distOf ds
    copy len d
    pure false

/-- The loop of `BlockData` (R194). A pass reads at least one bit or raises, so as many passes as bits are
left suffice (R308): with no bit left the pass raises. DEDUCED, safe (log 16). -/
def blockLoop (lt dt : TableId) : Nat → Act Unit
  | 0 => do
    let _ ← blockPass lt dt
    pure ()
  | n + 1 => do
    let ended ← blockPass lt dt
    if ended then pure () else blockLoop lt dt n

/-- `BlockData(ll, dd)` (R194). -/
def blockData (lt dt : TableId) : Act Unit := do
  let s ← getState
  blockLoop lt dt s.bitsLeft

/-- `R.RESULT <- R.OUT_POS` (R199). -/
def resultOutPos : Act Unit := update fun s => { s with result := s.outPos }

/-- LZ_LITERAL (R195). -/
def execLzLiteral (byte : BitVec 8) (s : State) : Host.Outcome State Fault Refusal := runCommand (emitByte byte) s

/-- LZ_COPY (R196). -/
def execLzCopy (l3 : BitVec 8) (d1 : BitVec 15) (s : State) : Host.Outcome State Fault Refusal :=
  runCommand (copy (copyLength l3) (copyDistance d1)) s

/-- LZ_LENGTH (R197). -/
def execLzLength (sym : BitVec 5) (s : State) : Host.Outcome State Fault Refusal :=
  runCommand (do let v ← lengthOf (lengthSymbol sym); setResult v) s

/-- LZ_DIST (R198). -/
def execLzDist (sym : BitVec 5) (s : State) : Host.Outcome State Fault Refusal :=
  runCommand (do let v ← distOf (distSymbol sym); setResult v) s

/-- LZ_BLOCK_DATA (R199). -/
def execLzBlockData (fixed : Bool) (s : State) : Host.Outcome State Fault Refusal :=
  runCommand (do blockData (blockLL fixed) (blockDist fixed); resultOutPos) s

end Sys2Proof.Machine
end

