-- ==== Sys2Proof/Machine/Dispatcher.lean ====
section
/-! DEFINITION. The DEFLATE block dispatcher: the zlib header and trailer, the stored and dynamic blocks,
block dispatch and the whole-stream inflate, and the commands DF_ZLIB_HEADER, DF_BLOCK, DF_STORED,
DF_DYN_HEADER, DF_TRAILER and DF_INFLATE (44_dispatcher.md; R224's state machine is these procedures). -/

namespace Sys2Proof.Machine

/-- `ZlibHeader()` (R210; the fields are 30_encoding.md R116's). -/
def zlibHeader : Act Unit := do
  let s ← getState
  check (s.bufLen < 3) .streamTooShort s.bufLen
  let cmf := s.peek s.bufSpace 0
  let flg := s.peek s.bufSpace 1
  let d := cmf.toNat ||| flg.toNat <<< 8
  check ((cmf.toNat * 256 + flg.toNat) % 31 ≠ 0) .headerChecksumMismatch d
  check (cmf.extractLsb' 0 4 ≠ 8) .unsupportedCompressionMethod d
  check ((cmf.extractLsb' 4 4).toNat > 7) .unsupportedWindowSize d
  check (flg.getLsbD 5 = true) .presetDictionaryUnsupported d
  update fun s => { s with zhdr := ⟨cmf, flg⟩ }
  update (State.setBitPos 16)

/-- `BlockHeader()`: BFINAL, then BTYPE, captured in BLOCK once both are read (R211). -/
def blockHeader : Act (Bool × Nat) := do
  let bf ← readBit
  let bt ← readBits 2
  update fun s => { s with block := { s.block with bfinal := bf, btype := BitVec.ofNat 2 bt } }
  pure (bf, bt)

/-- `Stored()` (R212). -/
def stored : Act Unit := do
  align
  let len ← readBits 16
  let nlen ← readBits 16
  update fun s => { s with block := { s.block with len := BitVec.ofNat 16 len } }
  check (nlen ≠ 0xFFFF - len) .storedBlockLengthMismatch (len ||| nlen <<< 16)
  let s ← getState
  let p := s.bitPos.toNat / 8
  check (p + len > s.bufLen) .outOfData (8 * len % 2 ^ 32)
  check (s.outPos.toNat + len > s.dstCap.toNat) .outputOverflow 0
  update (blit s.bufSpace .dst len p s.outPos.toNat)
  update fun s => s.setOutPos (s.outPos.toNat + len)
  update fun s => s.setBitPos (s.bitPos.toNat + 8 * len)

/-- `for i in 0 .. hclen-1: LENS[CL_ORDER[i]] <- ReadBits(3)` (R213, 40_tables_and_checksums.md R132). -/
def readClLens : List Nat → Act Unit
  | [] => pure ()
  | c :: cs => do
    let l ← readBits 3
    update fun s => s.setLens c (BitVec.ofNat 4 l)
    readClLens cs

/-- The repeat count and the repeated length of the symbols 16, 17 and 18 at index i (R214, R133). -/
def repeatOf (sym i : Nat) : Act (Nat × Nibble) :=
  if sym = 16 then do
    check (i = 0) .unexpectedRepeatSymbol 0
    let e ← readBits 2
    let s ← getState
    pure (3 + e, s.lensAt (i - 1))
  else if sym = 17 then do
    let e ← readBits 3
    pure (3 + e, 0)
  else do
    let e ← readBits 7
    pure (11 + e, 0)

/-- The loop of `CodeLengths` (R214): `k` is at least `total - i`, and a pass raises i by at least 1, so k
passes reach `total` (R308; log 16). -/
def codeLengthsLoop (total : Nat) : Nat → Nat → Act Unit
  | 0, _ => pure ()
  | k + 1, i =>
    if i < total then do
      let sym ← decodeSymbol .cl
      if sym ≤ 15 then do
        update fun s => s.setLens i (BitVec.ofNat 4 sym)
        codeLengthsLoop total k (i + 1)
      else do
        let rv ← repeatOf sym i
        check (i + rv.1 > total) .repeatOverflow (i <<< 16 ||| rv.1)
        update (fillLens rv.2 rv.1 i)
        codeLengthsLoop total k (i + rv.1)
    else pure ()

/-- `CodeLengths(total)` (R214). -/
def codeLengths (total : Nat) : Act Unit := codeLengthsLoop total total 0

/-- `DynHeader()` (R213). -/
def dynHeader : Act Unit := do
  let a ← readBits 5
  let b ← readBits 5
  let c ← readBits 4
  let hlit := a + 257
  let hdist := b + 1
  let hclen := c + 4
  update fun s => { s with dyn := ⟨BitVec.ofNat 9 hlit, BitVec.ofNat 6 hdist, BitVec.ofNat 5 hclen⟩ }
  update (fillLens 0 19 0)
  readClLens (clOrder.take hclen)
  let _ ← build .cl 18 0
  codeLengths (hlit + hdist)
  let _ ← build .ll (hlit - 1) 0
  let _ ← build .dist (hdist - 1) hlit
  pure ()

/-- The four 8-bit reads of the trailer, most significant byte first (R215). -/
def trailerBytes : Nat → Nat → Act Nat
  | 0, t => pure t
  | k + 1, t => do
    let x ← readBits 8
    trailerBytes k (t <<< 8 ||| x)

/-- `adler32(DST[0 .. OUT_POS-1])` (R215). -/
def State.outputAdler (s : State) : Word := adler32 (s.bytesAt .dst 0 s.outPos.toNat)

/-- `Trailer()` (R215). -/
def trailer : Act Unit := do
  align
  let t ← trailerBytes 4 0
  update fun s => { s with adlerTrailer := BitVec.ofNat 32 t }
  update fun s => { s with adlerCalc := s.outputAdler }
  let s ← getState
  check (s.adlerTrailer ≠ s.adlerCalc) .checksumMismatch s.adlerCalc.toNat

/-- The body of a block by its type (R216, 30_encoding.md R117). -/
def blockBody (bt : Nat) : Act Unit :=
  if bt = 0 then stored
  else if bt = 1 then blockData .fll .fdist
  else if bt = 2 then do
    dynHeader
    blockData .ll .dist
  else raise .invalidBlockType 3

/-- `Block()`: FINAL and BLOCK_COUNT change only when the block completes (R216). -/
def block : Act Unit := do
  let h ← blockHeader
  blockBody h.2
  update fun s => { s with status := { s.status with final := h.1 } }
  update fun s => { s with blockCount := s.blockCount + 1 }

/-- The `repeat Block() until STATUS.FINAL = 1` of Inflate (R217). A block reads at least 3 bits or raises, so
as many passes as bits are left suffice (R308): with no bit left the block raises. DEDUCED, safe (log 16). -/
def inflateLoop : Nat → Act Unit
  | 0 => block
  | n + 1 => do
    block
    let s ← getState
    if s.status.final then pure () else inflateLoop n

/-- The block loop of Inflate from the present state (R217). -/
def inflateBlocks : Act Unit := do
  let s ← getState
  inflateLoop s.bitsLeft

/-- `Inflate()` (R217). -/
def inflate : Act Unit := do
  update (State.setBitPos 0)
  update (State.setOutPos 0)
  update fun s => { s with blockCount := 0 }
  update fun s => { s with status := { s.status with final := false } }
  zlibHeader
  inflateBlocks
  let s ← getState
  if s.config.adlerCheck then trailer
  else update fun s => { s with adlerCalc := s.outputAdler }
  resultOutPos

/-- DF_ZLIB_HEADER (R218). -/
def execDfZlibHeader (s : State) : Host.Outcome State Fault Refusal := runCommand zlibHeader s

/-- DF_BLOCK (R219). -/
def execDfBlock (s : State) : Host.Outcome State Fault Refusal :=
  runCommand (do block; resultOutPos) s

/-- DF_STORED (R220). -/
def execDfStored (s : State) : Host.Outcome State Fault Refusal :=
  runCommand (do stored; resultOutPos) s

/-- DF_DYN_HEADER (R221). -/
def execDfDynHeader (s : State) : Host.Outcome State Fault Refusal := runCommand dynHeader s

/-- DF_TRAILER (R222). -/
def execDfTrailer (s : State) : Host.Outcome State Fault Refusal := runCommand trailer s

/-- DF_INFLATE (R223). -/
def execDfInflate (s : State) : Host.Outcome State Fault Refusal := runCommand inflate s

end Sys2Proof.Machine
end

