-- ==== Sys2Proof/Machine/Framer.lean ====
section
/-! DEFINITION. The PNG chunk framer: the read path, the write path and the supported subset, and the
commands PF_SIGNATURE to PF_EMIT_IHDR (45_png_framer.md). -/

namespace Sys2Proof.Machine

/-- `be32(SRC, a)` (00_scope.md R14). -/
def State.srcWord (s : State) (a : Nat) : Word :=
  be32 (s.peek .src a) (s.peek .src (a + 1)) (s.peek .src (a + 2)) (s.peek .src (a + 3))

/-- `Signature()` (R240). -/
def signature : Act Unit := do
  let s ← getState
  check (s.srcLen.toNat < 8 ∨ s.bytesAt .src 0 8 ≠ pngSignature) .signatureMismatch 0
  update fun s => { s with frPos := 8 }

/-- `Classify(ty)` (R242). -/
def classify (ty : Word) : ChunkClass :=
  if ty = typeIHDR then .ihdr
  else if ty = typePLTE then .plte
  else if ty = typeIDAT then .idat
  else if ty = typeIEND then .iend
  else .unknown

/-- `CrcPolicy(crc_s, crc_c)` (R243). -/
def crcPolicy (crcS crcC : Word) : Act Unit := do
  let s ← getState
  if crcS = crcC then pure ()
  else match s.config.crcMode with
    | .ignore => pure ()
    | .warn => update fun s => { s with status := { s.status with crcWarn := true } }
    | .strict => raise .chunkCrcMismatch crcC.toNat

/-- The fields of the 13-byte payload at q (R244, 30_encoding.md R123). -/
def captureIhdr (q : Nat) (s : State) : State :=
  { s with
    hdrWidth := s.srcWord q
    hdrHeight := s.srcWord (q + 4)
    hdrFmt := (s.peek .src (q + 11) ++ s.peek .src (q + 10) ++ s.peek .src (q + 9) ++ s.peek .src (q + 8) : BitVec 32)
    hdrInterlace := s.peek .src (q + 12) }

/-- `IhdrParse(p, len)` (R244). -/
def ihdrParse (p len : Nat) : Act Unit := do
  check (len ≠ 13) .malformedChunkFraming p
  update (captureIhdr (p + 8))

/-- `IdatAppend(p, len)` (R245). -/
def idatAppend (p len : Nat) : Act Unit := do
  let s ← getState
  check (s.catLen.toNat + len > s.sizes.cat) .outputOverflow 1
  update (blit .src .cat len (p + 8) s.catLen.toNat)
  update fun s => { s with catLen := BitVec.ofNat 32 (s.catLen.toNat + len) }

/-- `R.CHUNK_COUNT <- R.CHUNK_COUNT + 1` (R241). The spec states no value for 2^32 in the 32-bit register:
a free value. DESIGN CHOICE, safe (log 12). -/
def State.bumpChunkCount (s : State) : State :=
  if s.chunkCount.toNat + 1 < 2 ^ 32 then { s with chunkCount := s.chunkCount + 1 }
  else { s with chunkCount := Config.chunkCountPast s.draws, draws := s.draws + 1 }

/-- What each class of chunk does (R241). -/
def chunkEffect (cls : ChunkClass) (p len : Nat) : Act Unit :=
  match cls with
  | .ihdr => ihdrParse p len
  | .idat => idatAppend p len
  | .iend => update fun s => { s with status := { s.status with iendSeen := true } }
  | .unknown => update fun s => { s with status := { s.status with unknownSeen := true } }
  | .plte | .none => pure ()

/-- `NextChunk()`: frame one chunk at FR_POS (R241). -/
def nextChunk : Act ChunkClass := do
  let s ← getState
  let p := s.frPos.toNat
  check (p + 8 > s.srcLen.toNat) .malformedChunkFraming p
  let len := (s.srcWord p).toNat
  let ty := s.srcWord (p + 4)
  check (p + 12 + len > s.srcLen.toNat) .malformedChunkFraming p
  let crcS := s.srcWord (p + 8 + len)
  let crcC := crc32 (s.bytesAt .src (p + 4) (4 + len))
  let cls := classify ty
  update fun s => { s with
    chunkLen := BitVec.ofNat 32 len, chunkType := ty, chunkCrc := crcS, chunkCrcCalc := crcC, chunkClass := cls }
  crcPolicy crcS crcC
  check (s.chunkCount = 0 ∧ cls ≠ .ihdr) .malformedChunkFraming p
  chunkEffect cls p len
  update State.bumpChunkCount
  update fun s => { s with frPos := BitVec.ofNat 32 (p + 12 + len) }
  pure cls

/-- `be4(n) ++ type ++ data ++ be4(crc)`: one framed chunk (R246, 30_encoding.md R122). -/
def framed (ty : Word) (data : List Byte) : List Byte :=
  be4 (BitVec.ofNat 32 data.length) ++ be4 ty ++ data ++ be4 (crc32 (be4 ty ++ data))

/-- `Emit(ty, data)` (R246). -/
def emit (ty : Word) (data : List Byte) : Act Unit := do
  let s ← getState
  check (s.wpos.toNat + 12 + data.length > s.sizes.wbuf) .outputOverflow 3
  update (writeBytes .wbuf s.wpos.toNat (framed ty data))
  update fun s => { s with chunkCrcCalc := crc32 (be4 ty ++ data) }
  update fun s => { s with wpos := BitVec.ofNat 32 (s.wpos.toNat + 12 + data.length) }

/-- `R.RESULT <- R.WPOS` (R252 to R254). -/
def resultWpos : Act Unit := update fun s => { s with result := s.wpos }

/-- `R.RESULT <- R.CHUNK_COUNT` (R249, R250). -/
def resultChunkCount : Act Unit := update fun s => { s with result := s.chunkCount }

/-- The clearing of the sticky flags at the start of PF_READ_CHUNKS and PF_READ_HEADER (R249, R250). -/
def State.clearSeen (s : State) : State :=
  { s with status := { s.status with iendSeen := false, unknownSeen := false, crcWarn := false } }

/-- `repeat cls <- NextChunk() until cls = 3` (R249). A pass moves FR_POS by at least 12 within SRC_LEN or
raises, so as many passes as bytes are left suffice (R308): with none left it raises. DEDUCED, safe (log 16). -/
def readChunksLoop : Nat → Act Unit
  | 0 => do
    let _ ← nextChunk
    pure ()
  | n + 1 => do
    let cls ← nextChunk
    if cls = .iend then pure () else readChunksLoop n

/-- The chunk loop of PF_READ_CHUNKS from the present state (R249). -/
def readAllChunks : Act Unit := do
  let s ← getState
  readChunksLoop (s.srcLen.toNat - s.frPos.toNat)

/-- The body of PF_READ_CHUNKS (R249). -/
def readChunks : Act Unit := do
  update fun s => { s with frPos := 0, catLen := 0, chunkCount := 0 }
  update State.clearSeen
  signature
  readAllChunks
  resultChunkCount

/-- The body of PF_READ_HEADER (R250). -/
def readHeader : Act Unit := do
  update fun s => { s with frPos := 0, chunkCount := 0 }
  update State.clearSeen
  signature
  let _ ← nextChunk
  resultChunkCount

/-- `Unsupported()`: the mask of header fields outside the supported subset (R255). -/
def State.unsupported (s : State) : BitVec 5 :=
  (BitVec.ofBool (s.hdrInterlace != 0) ++ BitVec.ofBool (s.filterMethod != 0) ++ BitVec.ofBool (s.compression != 0) ++
    BitVec.ofBool (s.colorType != 2 && s.colorType != 6) ++ BitVec.ofBool (s.bitDepth != 8) : BitVec 5)

/-- `data_size(header)`, unbounded (R251, 10_state.md R55). -/
def State.headerSize (s : State) : Nat :=
  s.hdrHeight.toNat + bytesPerPixel s.colorType * s.hdrWidth.toNat * s.hdrHeight.toNat

/-- The body of PF_CHECK_HEADER (R251). -/
def checkHeader : Act Unit := do
  let s ← getState
  check (s.unsupported ≠ 0) .unsupportedPngFeature s.unsupported.toNat
  let ds := s.headerSize
  check (ds > s.sizes.dst) .outputOverflow 2
  update fun s => { s with dataSize := BitVec.ofNat 32 ds, dstCap := BitVec.ofNat 32 ds }
  setResult ds

/-- The body of PF_EMIT_SIGNATURE (R252). -/
def emitSignature : Act Unit := do
  let s ← getState
  check (s.wpos.toNat + 8 > s.sizes.wbuf) .outputOverflow 3
  update (writeBytes .wbuf s.wpos.toNat pngSignature)
  update fun s => { s with wpos := BitVec.ofNat 32 (s.wpos.toNat + 8) }
  resultWpos

/-- The body of PF_EMIT_CHUNK: type in ARG0, data `SRC[ARG1 .. ARG1+ARG2-1]` (R253). -/
def emitChunk : Act Unit := do
  let s ← getState
  check (s.arg1.toNat + s.arg2.toNat > s.srcLen.toNat) .outOfData (8 * s.arg2.toNat % 2 ^ 32)
  emit s.arg0 (s.bytesAt .src s.arg1.toNat s.arg2.toNat)
  resultWpos

/-- The 13 data bytes of an IHDR chunk from the header registers (R254). -/
def State.ihdrBytes (s : State) : List Byte :=
  be4 s.hdrWidth ++ be4 s.hdrHeight ++ [s.bitDepth, s.colorType, s.compression, s.filterMethod, s.hdrInterlace]

/-- The body of PF_EMIT_IHDR (R254). -/
def emitIhdr : Act Unit := do
  let s ← getState
  emit typeIHDR s.ihdrBytes
  resultWpos

/-- PF_SIGNATURE (R247). -/
def execPfSignature (s : State) : Host.Outcome State Fault Refusal := runCommand signature s

/-- PF_NEXT_CHUNK (R248). -/
def execPfNextChunk (s : State) : Host.Outcome State Fault Refusal :=
  runCommand (do let cls ← nextChunk; setResult cls.number) s

/-- PF_READ_CHUNKS (R249). -/
def execPfReadChunks (s : State) : Host.Outcome State Fault Refusal := runCommand readChunks s

/-- PF_READ_HEADER (R250). -/
def execPfReadHeader (s : State) : Host.Outcome State Fault Refusal := runCommand readHeader s

/-- PF_CHECK_HEADER (R251). -/
def execPfCheckHeader (s : State) : Host.Outcome State Fault Refusal := runCommand checkHeader s

/-- PF_EMIT_SIGNATURE (R252). -/
def execPfEmitSignature (s : State) : Host.Outcome State Fault Refusal := runCommand emitSignature s

/-- PF_EMIT_CHUNK (R253). -/
def execPfEmitChunk (s : State) : Host.Outcome State Fault Refusal := runCommand emitChunk s

/-- PF_EMIT_IHDR (R254). -/
def execPfEmitIhdr (s : State) : Host.Outcome State Fault Refusal := runCommand emitIhdr s

end Sys2Proof.Machine
end

