-- ==== Sys2Proof/Machine/Dispatch.lean ====
section
/-! DEFINITION. One arm per command of 30_encoding.md R111, each one call of the command's meaning. -/

namespace Sys2Proof.Machine

def exec (i : Instr) (s : State) : Host.Outcome State Fault Refusal :=
  match i with
  | .nop => Sys2Proof.Machine.execNop s
  | .bcReset => Sys2Proof.Machine.execBcReset s
  | .bcNextBit => Sys2Proof.Machine.execBcNextBit s
  | .bcNextN n => Sys2Proof.Machine.execBcNextN n s
  | .bcAlign => Sys2Proof.Machine.execBcAlign s
  | .htBuild t maxsym base => Sys2Proof.Machine.execHtBuild t maxsym base s
  | .htDecode t => Sys2Proof.Machine.execHtDecode t s
  | .lzLiteral byte => Sys2Proof.Machine.execLzLiteral byte s
  | .lzCopy l3 d1 => Sys2Proof.Machine.execLzCopy l3 d1 s
  | .lzLength sym => Sys2Proof.Machine.execLzLength sym s
  | .lzDist sym => Sys2Proof.Machine.execLzDist sym s
  | .lzBlockData fixed => Sys2Proof.Machine.execLzBlockData fixed s
  | .dfZlibHeader => Sys2Proof.Machine.execDfZlibHeader s
  | .dfBlock => Sys2Proof.Machine.execDfBlock s
  | .dfStored => Sys2Proof.Machine.execDfStored s
  | .dfDynHeader => Sys2Proof.Machine.execDfDynHeader s
  | .dfTrailer => Sys2Proof.Machine.execDfTrailer s
  | .dfInflate => Sys2Proof.Machine.execDfInflate s
  | .pfSignature => Sys2Proof.Machine.execPfSignature s
  | .pfNextChunk => Sys2Proof.Machine.execPfNextChunk s
  | .pfReadChunks => Sys2Proof.Machine.execPfReadChunks s
  | .pfReadHeader => Sys2Proof.Machine.execPfReadHeader s
  | .pfCheckHeader => Sys2Proof.Machine.execPfCheckHeader s
  | .pfEmitSignature => Sys2Proof.Machine.execPfEmitSignature s
  | .pfEmitChunk => Sys2Proof.Machine.execPfEmitChunk s
  | .pfEmitIhdr => Sys2Proof.Machine.execPfEmitIhdr s

end Sys2Proof.Machine
end

