-- ==== Sys2Proof/Machine/HostPort.lean ====
section
/-! DEFINITION. The host's ports and the reset input: the register map (10_state.md R23 to R58), the memory
and LENS ports (R22, R45), and reset (70_reset_and_hazards.md R300 to R303). -/

namespace Sys2Proof.Machine

/-- The register at a byte offset; none for the reserved offsets 0x8C to 0xFC (R23, R56). -/
def Reg.ofOffset : Nat → Option Reg
  | 0x00 => some .cmd
  | 0x04 => some .status
  | 0x08 => some .config
  | 0x0C => some .errCode
  | 0x10 => some .errBitPos
  | 0x14 => some .errData
  | 0x18 => some .result
  | 0x1C => some .bitPos
  | 0x20 => some .srcLen
  | 0x24 => some .catLen
  | 0x28 => some .dstCap
  | 0x2C => some .outPos
  | 0x30 => some .frPos
  | 0x34 => some .wpos
  | 0x38 => some .arg0
  | 0x3C => some .arg1
  | 0x40 => some .arg2
  | 0x44 => some .block
  | 0x48 => some .dyn
  | 0x4C => some .zhdr
  | 0x50 => some .adlerCalc
  | 0x54 => some .adlerTrailer
  | 0x58 => some .blockCount
  | 0x5C => some .tblStatus
  | 0x60 => some .chunkLen
  | 0x64 => some .chunkType
  | 0x68 => some .chunkCrc
  | 0x6C => some .chunkCrcCalc
  | 0x70 => some .chunkClass
  | 0x74 => some .chunkCount
  | 0x78 => some .hdrWidth
  | 0x7C => some .hdrHeight
  | 0x80 => some .hdrFmt
  | 0x84 => some .hdrInterlace
  | 0x88 => some .dataSize
  | _ => none

/-- What a host read of a register returns while IDLE (R23 to R55); CMD reads 0 (R26). -/
def State.readReg (s : State) : Reg → Word
  | .cmd => 0
  | .status => s.status.word
  | .config => s.config.word
  | .errCode => s.errCode.word
  | .errBitPos => s.errBitPos
  | .errData => s.errData
  | .result => s.result
  | .bitPos => s.bitPos
  | .srcLen => s.srcLen
  | .catLen => s.catLen
  | .dstCap => s.dstCap
  | .outPos => s.outPos
  | .frPos => s.frPos
  | .wpos => s.wpos
  | .arg0 => s.arg0
  | .arg1 => s.arg1
  | .arg2 => s.arg2
  | .block => s.block.word
  | .dyn => s.dyn.word
  | .zhdr => s.zhdr.word
  | .adlerCalc => s.adlerCalc
  | .adlerTrailer => s.adlerTrailer
  | .blockCount => s.blockCount
  | .tblStatus => s.tblStatus
  | .chunkLen => s.chunkLen
  | .chunkType => s.chunkType
  | .chunkCrc => s.chunkCrc
  | .chunkCrcCalc => s.chunkCrcCalc
  | .chunkClass => BitVec.ofNat 32 s.chunkClass.number
  | .chunkCount => s.chunkCount
  | .hdrWidth => s.hdrWidth
  | .hdrHeight => s.hdrHeight
  | .hdrFmt => s.hdrFmt
  | .hdrInterlace => s.hdrInterlace.setWidth 32
  | .dataSize => s.dataSize

/-- What a clamped register stores for a host write of v (R57). -/
def clampTo (bound : Nat) (v : Word) : Word := BitVec.ofNat 32 (min v.toNat bound)

/-- A host write of a register while IDLE (R23 to R57): CMD issues (R26), STATUS bits are write-one-to-clear
(R25), the WARL registers clamp (R57), read-only registers ignore the write (R23). -/
def State.writeReg (s : State) (v : Word) : Reg → State
  | .cmd => s.issue v
  | .status => { s with status := s.status.writeOneClear v }
  | .config => { s with config := ConfigReg.ofWord v }
  | .bitPos => { s with bitPos := clampTo (2 ^ 31) v }
  | .srcLen => { s with srcLen := clampTo s.sizes.src v }
  | .catLen => { s with catLen := clampTo s.sizes.cat v }
  | .dstCap => { s with dstCap := clampTo s.sizes.dst v }
  | .outPos => { s with outPos := clampTo s.sizes.dst v }
  | .frPos => { s with frPos := v }
  | .wpos => { s with wpos := v }
  | .arg0 => { s with arg0 := v }
  | .arg1 => { s with arg1 := v }
  | .arg2 => { s with arg2 := v }
  | .chunkCount => { s with chunkCount := v }
  | .hdrWidth => { s with hdrWidth := v }
  | .hdrHeight => { s with hdrHeight := v }
  | .hdrFmt => { s with hdrFmt := v }
  | .hdrInterlace => { s with hdrInterlace := v.extractLsb' 0 8 }
  | .errCode | .errBitPos | .errData | .result | .block | .dyn | .zhdr => s
  | .adlerCalc | .adlerTrailer | .blockCount | .tblStatus => s
  | .chunkLen | .chunkType | .chunkCrc | .chunkCrcCalc | .chunkClass | .dataSize => s

/-- Put the read data of the register port (R22). -/
def State.setRegData (s : State) (v : Word) : State := { s with ports := { s.ports with reg := v } }

/-- Put the read data of a memory port (R22). -/
def State.setMemData (s : State) (m : Space) (v : Byte) : State :=
  { s with ports := match m with
      | .src => { s.ports with src := v }
      | .cat => { s.ports with cat := v }
      | .dst => { s.ports with dst := v }
      | .wbuf => { s.ports with wbuf := v } }

/-- Put the read data of the LENS port (R22). -/
def State.setLensData (s : State) (v : Byte) : State := { s with ports := { s.ports with lens := v } }

/-- Draw a free value: the next index. -/
def State.draw (s : State) : State := { s with draws := s.draws + 1 }

/-- Whether the engine is BUSY. -/
def Eng.isBusy : Eng → Bool
  | .idle => false
  | .busy _ => true

/-- A whole, aligned register write: dropped while BUSY (R58), ignored at a reserved offset (R56). -/
def hostRegWrite (off : Nat) (v : Word) (s : State) : State :=
  if s.eng.isBusy then s
  else match Reg.ofOffset off with
    | some r => s.writeReg v r
    | none => s

/-- A whole, aligned register read: while BUSY any value, for STATUS one with BUSY = 1 (R58; log 8); a
reserved offset reads 0 (R56). -/
def hostRegRead (off : Nat) (s : State) : State :=
  if s.eng.isBusy then
    if off = 0x04 then (s.setRegData (Config.busyWord s.draws ||| 1#32)).draw
    else (s.setRegData (Config.busyWord s.draws)).draw
  else match Reg.ofOffset off with
    | some r => s.setRegData (s.readReg r)
    | none => s.setRegData 0

/-- A memory byte write: dropped while BUSY (R22, R58). -/
def hostMemWrite (m : Space) (a : Nat) (v : Byte) (s : State) : State :=
  if s.eng.isBusy then s else s.poke m a v

/-- A memory byte read: any value while BUSY (R22, R58; log 8). -/
def hostMemRead (m : Space) (a : Nat) (s : State) : State :=
  if s.eng.isBusy then (s.setMemData m (Config.busyByte s.draws)).draw else s.setMemData m (s.peek m a)

/-- A LENS write stores the low 4 bits; dropped while BUSY (R45, R58). -/
def hostLensWrite (i : Nat) (v : Byte) (s : State) : State :=
  if s.eng.isBusy then s else s.setLens i (v.extractLsb' 0 4)

/-- A LENS read returns the entry zero-extended; any value while BUSY (R45, R58; log 8). -/
def hostLensRead (i : Nat) (s : State) : State :=
  if s.eng.isBusy then (s.setLensData (Config.busyByte s.draws)).draw else s.setLensData ((s.lensAt i).setWidth 8)

/-- Whether a memory or LENS port takes an access: at an index it has, or at any index while BUSY, where the access
is dropped (R58, R70, R45). -/
abbrev State.takes (s : State) (idx size : Nat) : Prop := s.eng.isBusy = true ∨ idx < size

/-- One transaction of the host. A misaligned or sub-word register access is refused (R56, R80; log 10). While BUSY
every write is dropped and every read returns any value, whatever the address (R58); while IDLE an address its memory
does not have faults (R70; log 11). -/
def hostStep (op : HostOp) (s : State) : Host.Outcome State Fault Refusal :=
  match op with
  | .regWrite off v =>
    if off.toNat % 4 ≠ 0 then .refused (.misalignedRegister off.toNat) else .next (hostRegWrite off.toNat v s)
  | .regRead off =>
    if off.toNat % 4 ≠ 0 then .refused (.misalignedRegister off.toNat) else .next (hostRegRead off.toNat s)
  | .regSubWord off => .refused (.subWordRegister off.toNat)
  | .memWrite m a v =>
    if s.takes a.toNat (s.sizes.of m) then .next (hostMemWrite m a.toNat v s) else .fault (.noSuchAddress m a.toNat)
  | .memRead m a =>
    if s.takes a.toNat (s.sizes.of m) then .next (hostMemRead m a.toNat s) else .fault (.noSuchAddress m a.toNat)
  | .lensWrite i v =>
    if s.takes i.toNat 320 then .next (hostLensWrite i.toNat v s) else .fault (.noSuchLensEntry i.toNat)
  | .lensRead i =>
    if s.takes i.toNat 320 then .next (hostLensRead i.toNat s) else .fault (.noSuchLensEntry i.toNat)

/-- Reset, at any time, also while BUSY: every register its reset value, slots 0 to 2 invalid, the memories
unspecified again, which is a new index of their free values (R300 to R303; logs 3, 13). -/
def applyReset (s : State) : State :=
  { State.resetWith s.sizes with agenda := s.agenda, resets := s.resets + 1, draws := s.draws }

end Sys2Proof.Machine
end

