-- ==== Sys2Proof/Machine/Step.lean ====
section
/-! DEFINITION. One step of the block: the move the agenda names, and the engine's move where it names none
(10_state.md R20, R21, 60_exceptions.md R270). -/

namespace Sys2Proof.Machine

/-- The engine's move: an IDLE engine does nothing (60_exceptions.md R289); a BUSY one runs its command to
the end (R270), and a word that is no command raises IllegalCommand(w) (R278). -/
def engineStep (s : State) : Host.Outcome State Fault Refusal :=
  match s.eng with
  | .idle => .next s
  | .busy w =>
    match decode w with
    | .ok i => exec i s
    | .error _ => illegalCommand w s

/-- One step: the oldest move of the agenda, or the engine's where the agenda is empty (log 6). -/
def step (s : State) : Host.Outcome State Fault Refusal :=
  match s.agenda with
  | [] => engineStep s
  | .engine :: rest => engineStep { s with agenda := rest }
  | .host op :: rest => hostStep op { s with agenda := rest }
  | .rst :: rest => .next (applyReset { s with agenda := rest })

/-- The state in which the very next step runs the command word w: commands are not fetched from memory
(20_memory.md R91), the word is latched by a CMD write, so this is the issue of R26 with nothing else to
come first (log 7). -/
def State.withFetchWord (s : State) (nbits w : Nat) : State :=
  { s.issue (BitVec.ofNat 32 (w % 2 ^ nbits)) with agenda := [] }

end Sys2Proof.Machine
end

