-- ==== Sys2Proof/Machine/Assembler.lean ====
section
/-! DEFINITION. Host sequences as lists of moves: the host operations of 30_encoding.md R114, the
pseudo-commands of R115 and the sequences of 70_reset_and_hazards.md R305 and R306. -/

namespace Sys2Proof.Machine

/-- `WR reg, value` at a register's offset (R114). -/
def wr (off : BitVec 8) (v : Word) : Event := .host (.regWrite off v)

/-- `MEMW M, addr, b0 b1 ...`: byte writes from addr upward (R114). -/
def memw (m : Space) : BitVec 28 → List Byte → List Event
  | _, [] => []
  | a, b :: bs => .host (.memWrite m a b) :: memw m (a + 1) bs

/-- `ISSUE c`: the CMD write, then the engine's step that WAIT waits for (R115). -/
def issueEvents (i : Instr) : List Event := [wr 0x00 (encode i), .engine]

/-- `LZ_COPY length, distance` with the unbiased values (R114). -/
def asmLzCopy (length distance : Nat) : Instr := .lzCopy (copyL3 length) (copyD1 distance)

/-- `LZ_LENGTH sym` with sym in 257..287 (R114). -/
def asmLzLength (sym : Nat) : Instr := .lzLength (lengthS sym)

/-- DF_FIXED (R115). -/
def dfFixed : List Event := issueEvents (.lzBlockData true)

/-- DF_DYNAMIC (R115). -/
def dfDynamic : List Event := issueEvents .dfDynHeader ++ issueEvents (.lzBlockData false)

/-- BC_READ_BYTE (R115). -/
def bcReadByte : List Event := issueEvents (.bcNextN 8)

/-- INFLATE_SRC len, cap; `config` is the CONFIG word the host holds (R115). -/
def inflateSrc (config len cap : Word) : List Event :=
  [wr 0x20 len, wr 0x28 cap, wr 0x08 (config &&& ~~~1#32)] ++ issueEvents .dfInflate

/-- PNG_READ; `config` is the CONFIG word the host holds (R115, R305). -/
def pngRead (config : Word) : List Event :=
  issueEvents .pfReadChunks ++ issueEvents .pfCheckHeader ++ [wr 0x08 (config ||| 1#32)] ++ issueEvents .dfInflate

/-- The sequence that writes a PNG file: the zlib stream `z` staged in SRC at address `a` (R306). -/
def pngWrite (width height fmt : Word) (a : BitVec 28) (z : List Byte) : List Event :=
  [wr 0x34 0, wr 0x78 width, wr 0x7C height, wr 0x80 fmt, wr 0x84 0] ++
  issueEvents .pfEmitSignature ++ issueEvents .pfEmitIhdr ++ memw .src a z ++
  [wr 0x20 (BitVec.ofNat 32 (a.toNat + z.length)), wr 0x38 typeIDAT, wr 0x3C (a.setWidth 32),
    wr 0x40 (BitVec.ofNat 32 z.length)] ++
  issueEvents .pfEmitChunk ++ [wr 0x38 typeIEND, wr 0x40 0] ++ issueEvents .pfEmitChunk

end Sys2Proof.Machine
end

