-- ==== Sys2Proof/Safety.lean ====
section
/-! DEFINITION. The invariant of the block: what the bounds, the write-any-read-legal registers and the
control flags promise of every state a step can reach (00_scope.md R8, 10_state.md R25, R31 to R46, R57,
20_memory.md R70, 60_exceptions.md R271, R276, R277). -/

namespace Sys2Proof.Machine

/-- Each size lies in 1..2^28 (R8). -/
def Sizes.wf (z : Sizes) : Prop :=
  ∀ m : Space, 1 ≤ z.of m ∧ z.of m ≤ 2 ^ 28

/-- A memory in canonical form that lists addresses below its size only (R70). -/
def cellsWithin {w : Nat} (m : List (Nat × BitVec w)) (size : Nat) : Prop :=
  risingCells m ∧ ∀ c ∈ m, c.1 < size

/-- A valid slot holds at least one and at most `cap` lengths, and they are not over-subscribed (R46, 42_huffman.md R172). -/
def Slot.wf (t : Slot) (cap : Nat) : Prop :=
  t.valid = true → 1 ≤ t.lens.length ∧ t.lens.length ≤ cap ∧ overSubscribed t.lens = none

/-- DYN is its reset value or counts a header can hold (R40). -/
def DynReg.wf (d : DynReg) : Prop :=
  d = ⟨0, 0, 0⟩ ∨
    (257 ≤ d.hlit.toNat ∧ d.hlit.toNat ≤ 288 ∧ 1 ≤ d.hdist.toNat ∧ d.hdist.toNat ≤ 32 ∧
      4 ≤ d.hclen.toNat ∧ d.hclen.toNat ≤ 19)

/-- The header checks of 44_dispatcher.md R210 hold of the bytes CMF and FLG. -/
def zlibHeaderOk (cmf flg : Byte) : Prop :=
  (cmf.toNat * 256 + flg.toNat) % 31 = 0 ∧ cmf.extractLsb' 0 4 = 8 ∧ (cmf.extractLsb' 4 4).toNat ≤ 7 ∧
    flg.getLsbD 5 = false

/-- ZHDR is its reset value or a header that passed validation (R41). -/
def ZhdrReg.wf (z : ZhdrReg) : Prop := z = ⟨0, 0⟩ ∨ zlibHeaderOk z.cmf z.flg

/-- The registers, the memories and the table slots are within their bounds. -/
structure State.Bounded (s : State) : Prop where
  /-- R8. -/
  sizes : s.sizes.wf
  /-- SRC_LEN is clamped at SRC_SIZE (R32). -/
  srcLen : s.srcLen.toNat ≤ s.sizes.src
  /-- CAT_LEN never passes CAT_SIZE (R33). -/
  catLen : s.catLen.toNat ≤ s.sizes.cat
  /-- DST_CAP never passes DST_SIZE (R34). -/
  dstCap : s.dstCap.toNat ≤ s.sizes.dst
  /-- OUT_POS never passes DST_SIZE (R35). -/
  outPos : s.outPos.toNat ≤ s.sizes.dst
  /-- BIT_POS never passes 2^31 (R31). -/
  bitPos : s.bitPos.toNat ≤ 2 ^ 31
  /-- DATA_SIZE never passes DST_SIZE (R251). -/
  dataSize : s.dataSize.toNat ≤ s.sizes.dst
  /-- SRC (R70). -/
  src : cellsWithin s.src s.sizes.src
  /-- CAT (R70). -/
  cat : cellsWithin s.cat s.sizes.cat
  /-- DST (R70). -/
  dst : cellsWithin s.dst s.sizes.dst
  /-- WBUF (R70). -/
  wbuf : cellsWithin s.wbuf s.sizes.wbuf
  /-- LENS has 320 entries (R45). -/
  lens : cellsWithin s.lens 320
  /-- SLOT[0] (R46). -/
  cl : s.cl.wf 19
  /-- SLOT[1] (R46). -/
  ll : s.ll.wf 288
  /-- SLOT[2] (R46). -/
  dist : s.dist.wf 32
  /-- DYN (R40). -/
  dyn : s.dyn.wf
  /-- ZHDR (R41). -/
  zhdr : s.zhdr.wf

/-- The invariant every step keeps. -/
structure State.Inv (s : State) : Prop extends s.Bounded where
  /-- STATUS.BUSY tells whether ENG is BUSY (R25, R26). -/
  busyFlag : s.status.busy = s.eng.isBusy
  /-- While BUSY the report of the last command is cleared (R26). -/
  busyClear : s.eng.isBusy = true →
    s.status.done = false ∧ s.status.error = false ∧ s.errCode = .none ∧ s.errData = 0 ∧ s.errBitPos = 0
  /-- UnknownChunkType is never raised (R276). -/
  noUnknownChunkType : s.errCode ≠ .unknownChunkType
  /-- IoError is never raised (R277). -/
  noIoError : s.errCode ≠ .ioError

/-- The value of the n bits of the cursor buffer from bit p, the first one least significant (20_memory.md R77,
41_bitcursor.md R151). -/
def State.bitsFrom (s : State) (p : Nat) : Nat → Nat
  | 0 => 0
  | n + 1 => (s.bufBit p).toNat + 2 * s.bitsFrom (p + 1) n

/-- The value of the n bits of the cursor buffer from bit p, the first one most significant, as Huffman codes are read
(42_huffman.md R176). -/
def State.codeBits (s : State) (p : Nat) : Nat → Nat
  | 0 => 0
  | n + 1 => 2 * s.codeBits p n + (s.bufBit (p + n)).toNat

/-- No code of the table is among the first n bits from bit p (42_huffman.md R176). -/
def State.noCode (s : State) (codes : List (Nat × Nat)) (p n : Nat) : Prop :=
  ∀ x l c : Nat, codes[x]? = some (l, c) → l ≠ 0 → l ≤ n → s.codeBits p l ≠ c

/-- The bits from bit p to bit q are the code of symbol x (42_huffman.md R173, R176). -/
def State.showsSymbol (s : State) (codes : List (Nat × Nat)) (x p q : Nat) : Prop :=
  ∃ l c : Nat, codes[x]? = some (l, c) ∧ l ≠ 0 ∧ s.codeBits p l = c ∧ q = p + l

/-! ### The LZ77 reference model (00_scope.md R5) -/

/-- What a Huffman block holds before its end: literals, and back-references by their symbols and extra bits
(43_lz77.md R194). -/
inductive Token where
  | literal (byte : Byte)
  | backRef (sym extra dsym dextra : Nat)
deriving DecidableEq, Repr

/-- The length of a back-reference (43_lz77.md R192). -/
def tokenLength (sym extra : Nat) : Nat := (lengthRow sym).1 + extra

/-- The distance of a back-reference (43_lz77.md R193). -/
def tokenDistance (dsym dextra : Nat) : Nat := (distRow dsym).1 + dextra

/-- n bytes copied one at a time from distance d, each read after the one before it is written (43_lz77.md R191). -/
def replayCopy (d : Nat) : Nat → List Byte → List Byte
  | 0, out => out
  | n + 1, out => replayCopy d n (out ++ [out.getD (out.length - d) 0])

/-- The output after one token, the output so far given; none where the distance reaches before the first byte
(43_lz77.md R190, R191). -/
def replayToken (out : List Byte) : Token → Option (List Byte)
  | .literal b => some (out ++ [b])
  | .backRef sym extra dsym dextra =>
    if tokenDistance dsym dextra ≤ out.length then
      some (replayCopy (tokenDistance dsym dextra) (tokenLength sym extra) out)
    else none

/-- The output after a list of tokens. -/
def replay (out : List Byte) : List Token → Option (List Byte)
  | [] => some out
  | k :: ks => (replayToken out k).bind fun o => replay o ks

/-- The bits from bit p to bit q spell one token with the codes of the two tables (43_lz77.md R192 to R194). -/
def State.showsToken (s : State) (lt dt : List (Nat × Nat)) (p q : Nat) : Token → Prop
  | .literal b => s.showsSymbol lt b.toNat p q
  | .backRef sym extra dsym dextra =>
    257 ≤ sym ∧ sym ≤ 285 ∧ dsym ≤ 29 ∧
    ∃ a b, s.showsSymbol lt sym p a ∧ s.bitsFrom a (lengthRow sym).2 = extra ∧
      s.showsSymbol dt dsym (a + (lengthRow sym).2) b ∧ s.bitsFrom b (distRow dsym).2 = dextra ∧ q = b + (distRow dsym).2

/-- The bits from bit p to bit q spell a list of tokens and the end-of-block symbol (43_lz77.md R194). -/
def State.showsBlock (s : State) (lt dt : List (Nat × Nat)) : Nat → List Token → Nat → Prop
  | p, [], q => s.showsSymbol lt 256 p q
  | p, k :: ks, q => ∃ r, s.showsToken lt dt p r k ∧ s.showsBlock lt dt r ks q

/-! ### Code lengths of a dynamic header -/

/-- What the code-length sequence of a dynamic header holds (44_dispatcher.md R214): a length, or one of the three repeats. -/
inductive LenToken where
  | length (l : Nat)
  | previous (extra : Nat)
  | zeros (extra : Nat)
  | manyZeros (extra : Nat)
deriving DecidableEq, Repr

/-- The lengths after one token, the lengths so far given; none for a repeat of nothing (44_dispatcher.md R214). -/
def expandToken (lens : List Nibble) : LenToken → Option (List Nibble)
  | .length l => some (lens ++ [BitVec.ofNat 4 l])
  | .previous e => lens.getLast?.map fun v => lens ++ List.replicate (3 + e) v
  | .zeros e => some (lens ++ List.replicate (3 + e) 0)
  | .manyZeros e => some (lens ++ List.replicate (11 + e) 0)

/-- The lengths after a list of tokens. -/
def expandLens (lens : List Nibble) : List LenToken → Option (List Nibble)
  | [] => some lens
  | k :: ks => (expandToken lens k).bind fun o => expandLens o ks

/-- The bits from bit p to bit q spell one token with the code-length table (44_dispatcher.md R214). -/
def State.showsLen (s : State) (codes : List (Nat × Nat)) (p q : Nat) : LenToken → Prop
  | .length l => l ≤ 15 ∧ s.showsSymbol codes l p q
  | .previous e => ∃ a, s.showsSymbol codes 16 p a ∧ s.bitsFrom a 2 = e ∧ q = a + 2
  | .zeros e => ∃ a, s.showsSymbol codes 17 p a ∧ s.bitsFrom a 3 = e ∧ q = a + 3
  | .manyZeros e => ∃ a, s.showsSymbol codes 18 p a ∧ s.bitsFrom a 7 = e ∧ q = a + 7

/-- The bits from bit p to bit q spell a list of tokens. -/
def State.showsLens (s : State) (codes : List (Nat × Nat)) : Nat → List LenToken → Nat → Prop
  | p, [], q => p = q
  | p, k :: ks, q => ∃ r, s.showsLen codes p r k ∧ s.showsLens codes r ks q

/-- The code-length lengths a dynamic header whose first one stands at bit p gives: the first `hclen` symbols of the
permuted order have 3-bit lengths, the others length 0 (44_dispatcher.md R213, 40_tables_and_checksums.md R132). -/
def State.clLensAt (s : State) (p hclen : Nat) : List Nibble :=
  (List.range 19).map fun c =>
    if clOrder.idxOf c < hclen then BitVec.ofNat 4 (s.bitsFrom (p + 3 * clOrder.idxOf c) 3) else 0

/-! ### The chunk at FR_POS -/

/-- The length field of the chunk at FR_POS (45_png_framer.md R241). -/
def State.nextLen (s : State) : Nat := (s.srcWord s.frPos.toNat).toNat
/-- The type field of the chunk at FR_POS (R241). -/
def State.nextType (s : State) : Word := s.srcWord (s.frPos.toNat + 4)
/-- The stored CRC of the chunk at FR_POS (R241). -/
def State.nextCrc (s : State) : Word := s.srcWord (s.frPos.toNat + 8 + s.nextLen)
/-- The CRC of the chunk at FR_POS, over type and data (R241). -/
def State.nextCrcCalc (s : State) : Word := crc32 (s.bytesAt .src (s.frPos.toNat + 4) (4 + s.nextLen))
/-- The chunk at FR_POS lies within SRC_LEN (R241). -/
def State.nextFits (s : State) : Prop := s.frPos.toNat + 12 + s.nextLen ≤ s.srcLen.toNat

/-- The state once a chunk that fits is captured (R241). -/
def State.captured (s : State) : State :=
  { s with
    chunkLen := BitVec.ofNat 32 s.nextLen, chunkType := s.nextType, chunkCrc := s.nextCrc,
    chunkCrcCalc := s.nextCrcCalc, chunkClass := classify s.nextType }

/-- The CRC policy lets the chunk at FR_POS pass (R243). -/
def State.crcPasses (s : State) : Prop := s.nextCrc = s.nextCrcCalc ∨ s.config.crcMode ≠ .strict

/-- The state once the CRC policy has let the captured chunk pass: CRC_WARN set where the mode is WARN and the CRCs
differ (R243). -/
def State.afterCrc (s : State) : State :=
  { s.captured with
    status := { s.status with
      crcWarn := s.status.crcWarn || (decide (s.nextCrc ≠ s.nextCrcCalc) && decide (s.config.crcMode = .warn)) } }

/-! ### The end of a command -/

/-- s with the report of t: what the end of any command writes (60_exceptions.md R270, R272). -/
def State.withReport (s t : State) : State :=
  { s with
    eng := t.eng
    status := { s.status with busy := t.status.busy, done := t.status.done, error := t.status.error }
    errCode := t.errCode
    errBitPos := t.errBitPos
    errData := t.errData }

/-- Every byte of every memory reads as before, but for those at which `hit` holds. -/
def State.sameBytes (s t : State) (hit : Space → Nat → Prop) : Prop :=
  ∀ m a, ¬hit m a → t.peek m a = s.peek m a

end Sys2Proof.Machine
end

