-- ==== Sys2Proof/Certificates/Slice0/Obligations.lean ====
section
/-! DEFINITION. The statements for the provers: one `def Obligations.<Name> : Prop` each, listed in OBLIGATIONS.json.
Each docstring names the rules of spec/ the statement formalises. -/

open Sys2Proof Sys2Proof.Machine

/-! ### Encoding -/

/-- Decoding the word of a well-formed command gives the command back (30_encoding.md R100, R101, R112). -/
def Obligations.DecodeEncodeAgree : Prop :=
  ∀ i : Instr, i.wf = true → decode (encode i) = .ok i

/-- A word that decodes is the word of the well-formed command it decodes to, and of no other well-formed command (R100,
R101, R112). -/
def Obligations.DecodedWordIsEncoding : Prop :=
  ∀ (w : Word) (i : Instr), decode w = .ok i →
    i.wf = true ∧ encode i = w ∧ ∀ j : Instr, j.wf = true → encode j = w → j = i

/-- Which words are which command, format by format: the opcode, every field's bits, the reserved bits and the bounds
(R101 to R109, R111). -/
def Obligations.FormatsExact : Prop :=
  (∀ w : Word,
    (decode w = .ok .nop ↔ w = 0x00) ∧ (decode w = .ok .bcReset ↔ w = 0x01) ∧
    (decode w = .ok .bcNextBit ↔ w = 0x02) ∧ (decode w = .ok .bcAlign ↔ w = 0x04) ∧
    (decode w = .ok .dfZlibHeader ↔ w = 0x30) ∧ (decode w = .ok .dfBlock ↔ w = 0x31) ∧
    (decode w = .ok .dfStored ↔ w = 0x32) ∧ (decode w = .ok .dfDynHeader ↔ w = 0x33) ∧
    (decode w = .ok .dfTrailer ↔ w = 0x34) ∧ (decode w = .ok .dfInflate ↔ w = 0x35) ∧
    (decode w = .ok .pfSignature ↔ w = 0x40) ∧ (decode w = .ok .pfNextChunk ↔ w = 0x41) ∧
    (decode w = .ok .pfReadChunks ↔ w = 0x42) ∧ (decode w = .ok .pfReadHeader ↔ w = 0x43) ∧
    (decode w = .ok .pfCheckHeader ↔ w = 0x44) ∧ (decode w = .ok .pfEmitSignature ↔ w = 0x48) ∧
    (decode w = .ok .pfEmitChunk ↔ w = 0x49) ∧ (decode w = .ok .pfEmitIhdr ↔ w = 0x4A)) ∧
  (∀ (w : Word) (n : BitVec 6), decode w = .ok (.bcNextN n) ↔
    w.extractLsb' 0 8 = 0x03 ∧ w.extractLsb' 14 18 = 0 ∧ w.extractLsb' 8 6 = n ∧ n.toNat ≤ 32) ∧
  (∀ (w : Word) (t : TableId), decode w = .ok (.htDecode t) ↔
    w.extractLsb' 0 8 = 0x11 ∧ w.extractLsb' 11 21 = 0 ∧
    w.extractLsb' 8 3 = (match t with | .cl => 0 | .ll => 1 | .dist => 2 | .fll => 3 | .fdist => 4)) ∧
  (∀ (w : Word) (t : BuildTarget) (maxsym base : BitVec 9), decode w = .ok (.htBuild t maxsym base) ↔
    w.extractLsb' 0 8 = 0x10 ∧ w.extractLsb' 28 4 = 0 ∧
    w.extractLsb' 8 2 = (match t with | .cl => 0 | .ll => 1 | .dist => 2) ∧
    w.extractLsb' 10 9 = maxsym ∧ w.extractLsb' 19 9 = base ∧
    maxsym.toNat ≤ (match t with | .cl => 19 | .ll => 288 | .dist => 32) - 1 ∧ base.toNat + maxsym.toNat ≤ 319) ∧
  (∀ (w : Word) (b : BitVec 8), decode w = .ok (.lzLiteral b) ↔
    w.extractLsb' 0 8 = 0x20 ∧ w.extractLsb' 16 16 = 0 ∧ w.extractLsb' 8 8 = b) ∧
  (∀ (w : Word) (l3 : BitVec 8) (d1 : BitVec 15), decode w = .ok (.lzCopy l3 d1) ↔
    w.extractLsb' 0 8 = 0x21 ∧ w.extractLsb' 31 1 = 0 ∧ w.extractLsb' 8 8 = l3 ∧ w.extractLsb' 16 15 = d1) ∧
  (∀ (w : Word) (sym : BitVec 5), decode w = .ok (.lzLength sym) ↔
    w.extractLsb' 0 8 = 0x22 ∧ w.extractLsb' 13 19 = 0 ∧ w.extractLsb' 8 5 = sym ∧ sym.toNat ≠ 31) ∧
  (∀ (w : Word) (sym : BitVec 5), decode w = .ok (.lzDist sym) ↔
    w.extractLsb' 0 8 = 0x23 ∧ w.extractLsb' 13 19 = 0 ∧ w.extractLsb' 8 5 = sym) ∧
  (∀ (w : Word) (fixed : Bool), decode w = .ok (.lzBlockData fixed) ↔
    w.extractLsb' 0 8 = 0x24 ∧ w.extractLsb' 9 23 = 0 ∧ w.getLsbD 8 = fixed)

/-- A few words of the spec's examples, written out, are the commands the examples name; the byte order of be32 and be4
(20_memory.md R79, 00_scope.md R14); and the two checksums, byte by byte and by their check values. Of these the spec
itself marks the CRC's polynomial and bit order, the Adler start values and update order and the CRC's check values as
"[from general knowledge, not in source]" and the Adler check values as "[derived: from this rule]"
(40_tables_and_checksums.md). -/
def Obligations.SanityWords : Prop :=
  decode 0x00000303 = .ok (.bcNextN 3) ∧ decode 0x00000903 = .ok (.bcNextN 9) ∧
  decode 0x00001C10 = .ok (.htBuild .cl 7 0) ∧ decode 0x00000011 = .ok (.htDecode .cl) ∧
  decode 0x00006120 = .ok (.lzLiteral 0x61) ∧ decode 0x00010221 = .ok (asmLzCopy 5 2) ∧
  decode 0x00001B22 = .ok (asmLzLength 284) ∧ decode 0x00001D23 = .ok (.lzDist 29) ∧
  decode 0x00000124 = .ok (.lzBlockData true) ∧ decode 0x00000031 = .ok .dfBlock ∧ decode 0x0000004A = .ok .pfEmitIhdr ∧
  (∀ a b c d : Byte, let v := be32 a b c d
    v.toNat = 2 ^ 24 * a.toNat + 2 ^ 16 * b.toNat + 2 ^ 8 * c.toNat + d.toNat ∧ be4 v = [a, b, c, d]) ∧
  (∀ (b : List Byte) (x : Byte),
    let bit (c : Word) : Word := if c.getLsbD 0 then (c >>> 1) ^^^ 0xEDB88320 else c >>> 1
    crc32 (b ++ [x]) = ~~~(Nat.repeat bit 8 (~~~(crc32 b) ^^^ x.setWidth 32))) ∧
  crc32 [] = 0x00000000 ∧ crc32 [0x31, 0x32, 0x33, 0x34, 0x35, 0x36, 0x37, 0x38, 0x39] = 0xCBF43926 ∧
  crc32 [0x49, 0x45, 0x4E, 0x44] = 0xAE426082 ∧
  (∀ (b : List Byte) (x : Byte),
    let low := (adler32 b).toNat % 65536
    let high := (adler32 b).toNat / 65536
    (adler32 (b ++ [x])).toNat = (high + (low + x.toNat) % 65521) % 65521 * 65536 + (low + x.toNat) % 65521) ∧
  adler32 [] = 0x00000001 ∧ adler32 [0x61, 0x62, 0x63] = 0x024D0127

/-! ### The machine -/

/-- Every reserved opcode is the opcode of no command, and issuing a word that is no command raises IllegalCommand(w)
with nothing else changed (R113, with the decode procedure of R112; 60_exceptions.md R278). -/
def Obligations.IllegalWordRaises : Prop :=
  (∀ (b : Nat), (0x05 ≤ b ∧ b ≤ 0x0F) ∨ (0x12 ≤ b ∧ b ≤ 0x1F) ∨ (0x25 ≤ b ∧ b ≤ 0x2F) ∨ (0x36 ≤ b ∧ b ≤ 0x3F) ∨
      (0x45 ≤ b ∧ b ≤ 0x47) ∨ (0x4B ≤ b ∧ b ≤ 0xFF) →
    ∀ i : Instr, i.opcode.toNat ≠ b) ∧
  (∀ (s : State) (w : Word), s.agenda = [] → s.eng = .busy w → (∀ i : Instr, i.wf = true → encode i ≠ w) →
    step s = .next (s.errorEntry ⟨.illegalCommand, w⟩))

/-- A step runs the decoded command: where the engine moves next and its latched word decodes to i, step is exec of i,
whether the engine's turn is listed or the agenda is empty (the agenda is the model's own form of "who moves next",
log 6); an idle engine does nothing; and the host's placing of a command's word is the issue of that word (log 7). -/
def Obligations.StepRunsDecoded : Prop :=
  (∀ (s : State) (w : Word) (i : Instr), s.eng = .busy w → decode w = .ok i → s.agenda = [] → step s = exec i s) ∧
  (∀ (s : State) (w : Word) (i : Instr) (rest : List Event), s.eng = .busy w → decode w = .ok i →
    s.agenda = .engine :: rest → step s = exec i { s with agenda := rest }) ∧
  (∀ s : State, s.eng = .idle → s.agenda = [] → step s = .next s) ∧
  (∀ (s : State) (i : Instr), i.wf = true →
    step (s.withFetchWord 32 (encode i).toNat) = exec i { s.issue (encode i) with agenda := [] })

/-- Reset, from any state, also while BUSY: the engine is idle, irq is 0, every register reads its reset value, slots
0 to 2 are invalid and slots 3 and 4 hold the fixed tables; and the state a run starts from is of the same values
(70_reset_and_hazards.md R300, R302; 10_state.md R23). -/
def Obligations.ResetValues : Prop :=
  let good : State → Prop := fun t =>
    t.eng = .idle ∧ t.irq = false ∧
    (∀ r : Reg, t.readReg r =
      match r with
      | .config => 0x00000006
      | .tblStatus => 0x05900018
      | .chunkClass => 0x00000007
      | _ => 0) ∧
    t.cl.valid = false ∧ t.ll.valid = false ∧ t.dist.valid = false ∧
    t.slot .fll = ⟨true, fixedLLLens⟩ ∧ t.slot .fdist = ⟨true, fixedDistLens⟩
  (∀ (s : State) (rest : List Event), s.agenda = .rst :: rest → ∃ t, step s = .next t ∧ good t) ∧ good State.reset

/-- The invariant holds after reset, for every choice of the memory sizes within their bounds. The reset contents of
the memories and of the agenda are the model's choice (logs 3, 4, 6). -/
def Obligations.ResetInv : Prop :=
  (∀ z : Sizes, z.wf → (State.resetWith z).Inv) ∧ State.reset.Inv

/-- Every step keeps the invariant: the bounds and the write-any-read-legal registers (10_state.md R31 to R35, R57),
the canonical form and the bounds of the memories (20_memory.md R70), the slots (10_state.md R46), the captured headers
(R40, R41), BUSY and the cleared report (R25, R26), and the codes that are never raised (60_exceptions.md R276, R277). -/
def Obligations.StepKeepsInv : Prop :=
  ∀ s t : State, s.Inv → step s = .next t → t.Inv

/-- Every command ends, on every state, by completion or by a raise: the engine is idle and DONE is set; a completion
leaves the rest of the report as it was, a raise sets ERROR, records a code that may be raised and BIT_POS as it stands,
and leaves RESULT unchanged (R270, R272, R276, R277, R308; 10_state.md R30). -/
def Obligations.EveryCommandEnds : Prop :=
  ∀ (i : Instr) (s : State), ∃ t, exec i s = .next t ∧
    t.eng = .idle ∧ t.status.busy = false ∧ t.status.done = true ∧
    ((t.status.error = s.status.error ∧ t.errCode = s.errCode ∧ t.errData = s.errData ∧ t.errBitPos = s.errBitPos) ∨
     (t.status.error = true ∧ t.errCode ≠ .none ∧ t.errCode ≠ .unknownChunkType ∧ t.errCode ≠ .ioError ∧
      t.errBitPos = t.bitPos ∧ t.result = s.result))

/-- What `raise E(d)` writes, that nothing else is saved or restored, and that errors are precise: a raise itself writes
nothing, no later micro-step runs, and the error entry is made on the state the earlier ones left (60_exceptions.md
R272); the numbers of the codes are those of R271. -/
def Obligations.ErrorEntryEffect : Prop :=
  (∀ (s : State) (c : ErrCode) (d : Word),
    (s.errorEntry ⟨c, d⟩).readReg .errCode = c.number.setWidth 32 ∧
    (s.errorEntry ⟨c, d⟩).readReg .errData = d ∧
    (s.errorEntry ⟨c, d⟩).readReg .errBitPos = s.bitPos ∧
    (s.errorEntry ⟨c, d⟩).readReg .status = (s.readReg .status &&& 0x78) ||| 0x06 ∧
    (s.errorEntry ⟨c, d⟩).eng = .idle ∧
    (∀ r : Reg, r ≠ .errCode → r ≠ .errData → r ≠ .errBitPos → r ≠ .status →
      (s.errorEntry ⟨c, d⟩).readReg r = s.readReg r) ∧
    (∀ (m : Space) (a : Nat), (s.errorEntry ⟨c, d⟩).peek m a = s.peek m a) ∧
    (∀ i : Nat, (s.errorEntry ⟨c, d⟩).lensAt i = s.lensAt i) ∧
    (∀ k : TableId, (s.errorEntry ⟨c, d⟩).slot k = s.slot k)) ∧
  (∀ (s : State) (c : ErrCode) (d : Nat), (raise c d : Act Unit) s = .error ⟨c, BitVec.ofNat 32 d⟩ s) ∧
  (∀ (x : Act Unit) (f : Unit → Act Unit) (s t : State) (r : Raise), x s = .error r t → (x >>= f) s = .error r t) ∧
  (∀ (x : Act Unit) (s t : State) (r : Raise), x s = .error r t → runCommand x s = .next (t.errorEntry r)) ∧
  (∀ c : ErrCode, c.number = match c with
    | .none => 0x00
    | .streamTooShort => 0x01
    | .headerChecksumMismatch => 0x02
    | .unsupportedCompressionMethod => 0x03
    | .unsupportedWindowSize => 0x04
    | .presetDictionaryUnsupported => 0x05
    | .storedBlockLengthMismatch => 0x06
    | .invalidBlockType => 0x07
    | .huffmanDecodeFailed => 0x08
    | .unexpectedRepeatSymbol => 0x09
    | .unsupportedPngFeature => 0x0A
    | .unknownChunkType => 0x0B
    | .malformedChunkFraming => 0x0C
    | .chunkCrcMismatch => 0x0D
    | .ioError => 0x0E
    | .outOfData => 0x0F
    | .buildError => 0x10
    | .checksumMismatch => 0x11
    | .distanceTooFar => 0x12
    | .outputOverflow => 0x13
    | .invalidLengthSymbol => 0x14
    | .invalidDistanceSymbol => 0x15
    | .repeatOverflow => 0x16
    | .signatureMismatch => 0x17
    | .tableNotBuilt => 0x18
    | .illegalCommand => 0x19)

/-- The host's write of CMD: while IDLE it latches the word, sets BUSY and clears DONE, ERROR and the three error
registers; while BUSY it is dropped; a read returns 0 (10_state.md R26). -/
def Obligations.IssueEffect : Prop :=
  (∀ (s : State) (w : Word) (rest : List Event), s.agenda = wr 0x00 w :: rest → s.eng = .idle →
    ∃ t, step s = .next t ∧
      t = { s with
        agenda := rest, eng := .busy w, errCode := .none, errBitPos := 0, errData := 0
        status := { s.status with busy := true, done := false, error := false } }) ∧
  (∀ (s : State) (w : Word) (rest : List Event), s.agenda = wr 0x00 w :: rest → s.eng ≠ .idle →
    step s = .next { s with agenda := rest }) ∧
  (∀ s : State, s.readReg .cmd = 0)

/-- While BUSY a host transaction that the port accepts changes the port's data alone, and STATUS reads with BUSY = 1
(10_state.md R58); every aligned register access and every access of a memory or of LENS, whatever its address, is
accepted. The read data is a free value (log 8). -/
def Obligations.BusyDropsHost : Prop :=
  ∀ (s : State) (op : HostOp) (rest : List Event), s.eng ≠ .idle → s.agenda = .host op :: rest →
    (∀ t, step s = .next t → t = { s with agenda := rest, ports := t.ports, draws := t.draws } ∧
      (op = .regRead 0x04 → t.ports.reg.getLsbD 0 = true)) ∧
    ((∃ off v, op = .regWrite off v ∧ off.toNat % 4 = 0) ∨ (∃ off, op = .regRead off ∧ off.toNat % 4 = 0) ∨
      (∃ m a v, op = .memWrite m a v) ∨ (∃ m a, op = .memRead m a) ∨
      (∃ i v, op = .lensWrite i v) ∨ (∃ i, op = .lensRead i) → ∃ t, step s = .next t) ∧
    ((∃ off v, op = .regWrite off v ∧ off.toNat % 4 = 0) ∨ (∃ m a v, op = .memWrite m a v) ∨
      (∃ i v, op = .lensWrite i v) → step s = .next { s with agenda := rest })

/-- While IDLE: what a host read of each offset returns, field by field of each register, and that it changes nothing
but the port's data; what each register holds after a host write: the clamped registers, CONFIG with CRC_MODE 3 stored
as 2, the write-one-to-clear bits of STATUS, the registers that store the value, and the read-only ones; no other
register changes, but by an issue; and TBL_STATUS has its hardwired bits (10_state.md R57, R24, R25, and the offsets of
R23, spelled out in `registers`). -/
def Obligations.RegisterWrites : Prop :=
  let registers : List (BitVec 8 × Reg) :=
    [(0x00, .cmd), (0x04, .status), (0x08, .config), (0x0C, .errCode), (0x10, .errBitPos), (0x14, .errData)] ++
    [(0x18, .result), (0x1C, .bitPos), (0x20, .srcLen), (0x24, .catLen), (0x28, .dstCap), (0x2C, .outPos)] ++
    [(0x30, .frPos), (0x34, .wpos), (0x38, .arg0), (0x3C, .arg1), (0x40, .arg2), (0x44, .block), (0x48, .dyn)] ++
    [(0x4C, .zhdr), (0x50, .adlerCalc), (0x54, .adlerTrailer), (0x58, .blockCount), (0x5C, .tblStatus)] ++
    [(0x60, .chunkLen), (0x64, .chunkType), (0x68, .chunkCrc), (0x6C, .chunkCrcCalc), (0x70, .chunkClass)] ++
    [(0x74, .chunkCount), (0x78, .hdrWidth), (0x7C, .hdrHeight), (0x80, .hdrFmt), (0x84, .hdrInterlace)] ++
    [(0x88, .dataSize)]
  (∀ (s : State) (off : BitVec 8) (r : Reg), s.eng = .idle → (off, r) ∈ registers →
    hostStep (.regRead off) s = .next { s with ports := { s.ports with reg := s.readReg r } }) ∧
  (∀ (s : State) (r : Reg),
      s.readReg r = (match r with
        | .cmd => 0
        | .status => 0#25 ++ BitVec.ofBool s.status.crcWarn ++ BitVec.ofBool s.status.unknownSeen ++
            BitVec.ofBool s.status.iendSeen ++ BitVec.ofBool s.status.final ++ BitVec.ofBool s.status.error ++
            BitVec.ofBool s.status.done ++ BitVec.ofBool s.status.busy
        | .config => 0#27 ++ BitVec.ofBool s.config.ie ++
            (match s.config.crcMode with | .ignore => 0#2 | .warn => 1#2 | .strict => 2#2) ++
            BitVec.ofBool s.config.adlerCheck ++ BitVec.ofBool s.config.srcSel
        | .errCode => 0#24 ++ s.errCode.number
        | .errBitPos => s.errBitPos
        | .errData => s.errData
        | .result => s.result
        | .bitPos => s.bitPos
        | .srcLen => s.srcLen
        | .catLen => s.catLen
        | .dstCap => s.dstCap
        | .outPos => s.outPos
        | .frPos => s.frPos
        | .wpos => s.wpos
        | .arg0 => s.arg0
        | .arg1 => s.arg1
        | .arg2 => s.arg2
        | .block => s.block.len ++ 0#13 ++ s.block.btype ++ BitVec.ofBool s.block.bfinal
        | .dyn => 0#12 ++ s.dyn.hclen ++ s.dyn.hdist ++ s.dyn.hlit
        | .zhdr => 0#16 ++ s.zhdr.flg ++ s.zhdr.cmf
        | .adlerCalc => s.adlerCalc
        | .adlerTrailer => s.adlerTrailer
        | .blockCount => s.blockCount
        | .tblStatus => s.tblStatus
        | .chunkLen => s.chunkLen
        | .chunkType => s.chunkType
        | .chunkCrc => s.chunkCrc
        | .chunkCrcCalc => s.chunkCrcCalc
        | .chunkClass => (match s.chunkClass with
            | .ihdr => 0
            | .plte => 1
            | .idat => 2
            | .iend => 3
            | .unknown => 4
            | .none => 7)
        | .chunkCount => s.chunkCount
        | .hdrWidth => s.hdrWidth
        | .hdrHeight => s.hdrHeight
        | .hdrFmt => s.filterMethod ++ s.compression ++ s.colorType ++ s.bitDepth
        | .hdrInterlace => 0#24 ++ s.hdrInterlace
        | .dataSize => s.dataSize : Word)) ∧
  (∀ (s : State) (off : BitVec 8) (r : Reg) (v : Word), s.Inv → s.eng = .idle → (off, r) ∈ registers →
    ∃ t, hostStep (.regWrite off v) s = .next t ∧
      t.readReg r = (match r with
        | .cmd => 0
        | .status => s.readReg .status &&& ~~~(v &&& 0x76)
        | .config => (v &&& 0x13) ||| (if v.extractLsb' 2 2 = 3 then 0x08 else v &&& 0x0C)
        | .bitPos => BitVec.ofNat 32 (min v.toNat (2 ^ 31))
        | .srcLen => BitVec.ofNat 32 (min v.toNat s.sizes.src)
        | .catLen => BitVec.ofNat 32 (min v.toNat s.sizes.cat)
        | .dstCap => BitVec.ofNat 32 (min v.toNat s.sizes.dst)
        | .outPos => BitVec.ofNat 32 (min v.toNat s.sizes.dst)
        | .frPos | .wpos | .arg0 | .arg1 | .arg2 | .chunkCount | .hdrWidth | .hdrHeight | .hdrFmt => v
        | .hdrInterlace => v &&& 0xFF
        | _ => s.readReg r) ∧
      (r ≠ .cmd → ∀ q : Reg, q ≠ r → t.readReg q = s.readReg q)) ∧
  (∀ s : State, (s.readReg .tblStatus).extractLsb' 3 2 = 3 ∧ (s.readReg .tblStatus).extractLsb' 20 4 = 9 ∧
    (s.readReg .tblStatus).extractLsb' 24 4 = 5)

/-- A reserved offset reads 0 and ignores writes while IDLE; the bits that read 0 do; a misaligned or sub-word access
has no transition (10_state.md R56). -/
def Obligations.ReservedAccess : Prop :=
  (∀ (s : State) (off : BitVec 8) (v : Word), s.eng = .idle → off.toNat % 4 = 0 → 0x8C ≤ off.toNat →
    hostStep (.regWrite off v) s = .next s ∧
    ∃ t, hostStep (.regRead off) s = .next t ∧ t.ports.reg = 0 ∧ t = { s with ports := t.ports }) ∧
  (∀ s : State, (s.readReg .status).extractLsb' 7 25 = 0 ∧ (s.readReg .config).extractLsb' 5 27 = 0 ∧
    (s.readReg .errCode).extractLsb' 8 24 = 0 ∧ (s.readReg .block).extractLsb' 3 13 = 0 ∧
    (s.readReg .dyn).extractLsb' 20 12 = 0 ∧ (s.readReg .zhdr).extractLsb' 16 16 = 0 ∧
    (s.readReg .tblStatus).extractLsb' 5 3 = 0 ∧ (s.readReg .tblStatus).extractLsb' 28 4 = 0 ∧
    (s.readReg .chunkClass).extractLsb' 3 29 = 0 ∧ (s.readReg .hdrInterlace).extractLsb' 8 24 = 0) ∧
  (∀ (s : State) (off : BitVec 8), off.toNat % 4 ≠ 0 →
    hostStep (.regRead off) s = .refused (.misalignedRegister off.toNat) ∧
    ∀ v, hostStep (.regWrite off v) s = .refused (.misalignedRegister off.toNat)) ∧
  (∀ (s : State) (off : BitVec 8), hostStep (.regSubWord off) s = .refused (.subWordRegister off.toNat))

/-- The memory and LENS ports while IDLE: a read returns the last byte written, a LENS entry keeps the low four bits and
reads zero-extended, a write changes that one byte or entry and nothing else of the state, a read only the port's data
(10_state.md R22, R45, 20_memory.md R70, R84, R90); an address that does not exist faults, which is the model's reading
(log 11). -/
def Obligations.MemoryPorts : Prop :=
  (∀ (s : State) (m : Space) (a : BitVec 28) (v : Byte), s.eng = .idle → a.toNat < s.sizes.of m →
    ∃ t, hostStep (.memWrite m a v) s = .next t ∧
      t = { s with src := t.src, cat := t.cat, dst := t.dst, wbuf := t.wbuf } ∧ t.peek m a.toNat = v ∧
      (∀ (k : Space) (b : Nat), (k ≠ m ∨ b ≠ a.toNat) → t.peek k b = s.peek k b) ∧ (∀ i, t.lensAt i = s.lensAt i)) ∧
  (∀ (s : State) (m : Space) (a : BitVec 28), s.eng = .idle → a.toNat < s.sizes.of m →
    ∃ t, hostStep (.memRead m a) s = .next t ∧ t = { s with ports := t.ports } ∧
      (match m with
        | .src => t.ports.src
        | .cat => t.ports.cat
        | .dst => t.ports.dst
        | .wbuf => t.ports.wbuf) = s.peek m a.toNat) ∧
  (∀ (s : State) (i : BitVec 9) (v : Byte), s.eng = .idle → i.toNat < 320 →
    ∃ t, hostStep (.lensWrite i v) s = .next t ∧ t = { s with lens := t.lens } ∧
      (t.lensAt i.toNat).toNat = v.toNat % 16 ∧
      (∀ j, j ≠ i.toNat → t.lensAt j = s.lensAt j) ∧ (∀ (k : Space) (b : Nat), t.peek k b = s.peek k b)) ∧
  (∀ (s : State) (i : BitVec 9), s.eng = .idle → i.toNat < 320 →
    ∃ t, hostStep (.lensRead i) s = .next t ∧ t = { s with ports := t.ports } ∧
      t.ports.lens.toNat = (s.lensAt i.toNat).toNat) ∧
  (∀ (s : State) (m : Space) (a : BitVec 28), s.eng = .idle → s.sizes.of m ≤ a.toNat →
    hostStep (.memRead m a) s = .fault (.noSuchAddress m a.toNat) ∧
    ∀ v, hostStep (.memWrite m a v) s = .fault (.noSuchAddress m a.toNat)) ∧
  (∀ (s : State) (i : BitVec 9), s.eng = .idle → 320 ≤ i.toNat →
    hostStep (.lensRead i) s = .fault (.noSuchLensEntry i.toNat) ∧
    ∀ v, hostStep (.lensWrite i v) s = .fault (.noSuchLensEntry i.toNat))

/-- irq is the level `STATUS.DONE & CONFIG.IE`: it is high after a command's end exactly where IE = 1, and a W1C of
DONE, an issue, or IE = 0 lowers it; setting IE while DONE = 1 raises it (60_exceptions.md R282, R283). -/
def Obligations.IrqLevel : Prop :=
  (∀ s : State, s.irq = ((s.readReg .status).getLsbD 1 && (s.readReg .config).getLsbD 4)) ∧
  (∀ (i : Instr) (s t : State), exec i s = .next t → t.irq = s.config.ie) ∧
  (∀ (s : State) (v : Word), s.eng = .idle →
    (∃ t, hostStep (.regWrite 0x04 v) s = .next t ∧ t.irq = (s.irq && !v.getLsbD 1)) ∧
    (∃ t, hostStep (.regWrite 0x00 v) s = .next t ∧ t.irq = false) ∧
    (∃ t, hostStep (.regWrite 0x08 v) s = .next t ∧ t.irq = (s.status.done && v.getLsbD 4)))

/-! ### BitCursor -/

/-- NOP completes with no effect, BC_RESET sets BIT_POS to 0, BC_ALIGN moves it to the next byte boundary and never
raises (41_bitcursor.md R152, R153, R154). -/
def Obligations.CursorMoves : Prop :=
  encode .nop = 0x00000000 ∧ encode .bcReset = 0x00000001 ∧ encode .bcAlign = 0x00000004 ∧
  (∀ s : State, exec .nop s = .next s.complete) ∧
  (∀ s : State, exec .bcReset s = .next { s with bitPos := 0 }.complete) ∧
  (∀ s : State, s.Inv → ∃ t, exec .bcAlign s = .next t ∧ t = { s.complete with bitPos := t.bitPos } ∧
    t.bitPos.toNat = (s.bitPos.toNat + 7) / 8 * 8 ∧ t.bitPos.toNat ≤ 2 ^ 31)

/-- BC_NEXT_BIT: bit `p mod 8` of byte `BUF[p div 8]`, and the cursor advanced by one; OutOfData(1) past the end, with
RESULT and BIT_POS unchanged; and BUF is SRC or CAT by CONFIG.SRCSEL (R150; 20_memory.md R74, R77). -/
def Obligations.NextBit : Prop :=
  (∀ s : State, s.Inv → s.bitPos.toNat / 8 < s.bufLen →
    ∃ t, exec .bcNextBit s = .next t ∧ t = { s.complete with bitPos := t.bitPos, result := t.result } ∧
      t.bitPos.toNat = s.bitPos.toNat + 1 ∧ t.bitPos.toNat ≤ 8 * s.bufLen ∧
      t.result.toNat = (s.peek s.bufSpace (s.bitPos.toNat / 8)).toNat / 2 ^ (s.bitPos.toNat % 8) % 2) ∧
  (∀ s : State, s.bufLen ≤ s.bitPos.toNat / 8 → exec .bcNextBit s = .next (s.errorEntry ⟨.outOfData, 1⟩)) ∧
  (∀ s : State, (s.config.srcSel = false → s.bufSpace = .src ∧ s.bufLen = s.srcLen.toNat) ∧
    (s.config.srcSel = true → s.bufSpace = .cat ∧ s.bufLen = s.catLen.toNat))

/-- BC_NEXT_N: bit k of RESULT is the k-th bit read, the bits above N are 0, the cursor is advanced by N; a short read
raises OutOfData(N) and consumes nothing (R151). -/
def Obligations.NextN : Prop :=
  ∀ (s : State) (n : BitVec 6), s.Inv → n.toNat ≤ 32 →
    (s.bitPos.toNat + n.toNat ≤ 8 * s.bufLen →
      ∃ t, exec (.bcNextN n) s = .next t ∧ t = { s.complete with bitPos := t.bitPos, result := t.result } ∧
        t.bitPos.toNat = s.bitPos.toNat + n.toNat ∧
        ∀ k, k < 32 → t.result.getLsbD k = (decide (k < n.toNat) && s.bufBit (s.bitPos.toNat + k))) ∧
    (8 * s.bufLen < s.bitPos.toNat + n.toNat →
      exec (.bcNextN n) s = .next (s.errorEntry ⟨.outOfData, n.setWidth 32⟩))

/-! ### Canonical Huffman -/

/-- HT_BUILD: the slot becomes the snapshot of LENS and RESULT its largest length; where the lengths are over-subscribed
it raises BuildError(t<<8 | L) for the smallest such L and the slot is invalid; and TBL_STATUS shows each slot's VALID
and MAXLEN, the slots numbered 0 to 4 (42_huffman.md R172, R177; 60_exceptions.md R274; 10_state.md R44, R46). -/
def Obligations.HtBuildResult : Prop :=
  (∀ (s : State) (t : BuildTarget) (maxsym base : BitVec 9), (Instr.htBuild t maxsym base).wf = true →
    let lens := (List.range (maxsym.toNat + 1)).map fun k => s.lensAt (base.toNat + k)
    ((∀ L, 1 ≤ L → L ≤ 15 → nextCode lens L + lenCount lens L ≤ 2 ^ L) →
      exec (.htBuild t maxsym base) s =
        .next { s.setSlot t ⟨true, lens⟩ with result := BitVec.ofNat 32 (maxCodeLen lens) }.complete) ∧
    (∀ L, 1 ≤ L → L ≤ 15 → 2 ^ L < nextCode lens L + lenCount lens L →
      (∀ K, 1 ≤ K → K < L → nextCode lens K + lenCount lens K ≤ 2 ^ K) →
      exec (.htBuild t maxsym base) s =
        .next ((s.setSlot t { s.slot t.table with valid := false }).errorEntry
          ⟨.buildError, BitVec.ofNat 32 (256 * t.table.number + L)⟩))) ∧
  (∀ (s : State) (k : TableId), (s.readReg .tblStatus).getLsbD k.number = (s.slot k).valid ∧
    ((s.readReg .tblStatus).extractLsb' (8 + 4 * k.number) 4).toNat =
      if (s.slot k).valid then maxCodeLen (s.slot k).lens else 0) ∧
  (∀ k : TableId, k.number = match k with | .cl => 0 | .ll => 1 | .dist => 2 | .fll => 3 | .fdist => 4)

/-- HT_DECODE of a symbol's own code answers the symbol and consumes exactly its bits, for every valid slot and every
symbol of nonzero length (R176, R178, R180(1), the spec's "[derived]" property). -/
def Obligations.HtDecodeOwnCode : Prop :=
  ∀ (s : State) (t : TableId) (x l c : Nat), s.Inv → (s.slot t).valid = true →
    (codesOf (s.slot t).lens)[x]? = some (l, c) → l ≠ 0 → s.codeBits s.bitPos.toNat l = c →
    s.bitPos.toNat + l ≤ 8 * s.bufLen →
    ∃ u, exec (.htDecode t) s = .next u ∧ u = { s.complete with bitPos := u.bitPos, result := u.result } ∧
      u.bitPos.toNat = s.bitPos.toNat + l ∧ u.result.toNat = x

/-- HT_DECODE raises TableNotBuilt(t) on an invalid slot before any bit is read; HuffmanDecodeFailed(t<<24 | L<<16 |
code) after max_code_len bits without a match, at once where max_code_len is 0; OutOfData(1) where the buffer ends
before a match, the bits read so far consumed (R174, R176, R178, R279). -/
def Obligations.HtDecodeRaises : Prop :=
  ∀ (s : State) (t : TableId), s.Inv →
    let maxlen := maxCodeLen (s.slot t).lens
    ((s.slot t).valid = false →
      exec (.htDecode t) s = .next (s.errorEntry ⟨.tableNotBuilt, BitVec.ofNat 32 t.number⟩)) ∧
    ((s.slot t).valid = true → s.noCode (codesOf (s.slot t).lens) s.bitPos.toNat maxlen →
      (maxlen = 0 ∨ s.bitPos.toNat + maxlen ≤ 8 * s.bufLen) →
      exec (.htDecode t) s = .next ({ s with bitPos := BitVec.ofNat 32 (s.bitPos.toNat + maxlen) }.errorEntry
        ⟨.huffmanDecodeFailed,
          BitVec.ofNat 32 (2 ^ 24 * t.number + 2 ^ 16 * maxlen + s.codeBits s.bitPos.toNat maxlen)⟩)) ∧
    ((s.slot t).valid = true → maxlen ≠ 0 → 8 * s.bufLen < s.bitPos.toNat + maxlen →
      s.noCode (codesOf (s.slot t).lens) s.bitPos.toNat (8 * s.bufLen - s.bitPos.toNat) →
      exec (.htDecode t) s = .next ({ s with bitPos := BitVec.ofNat 32 (max s.bitPos.toNat (8 * s.bufLen)) }.errorEntry
        ⟨.outOfData, 1⟩))

/-- Canonical codes: the counts, the first code of each length, the largest length, and the codes given out in the order
of the symbols (R170, R171, R173); and the codes of a length list that is not over-subscribed fit in their lengths, no
two symbols share a (length, code) pair and no code is a prefix of another (R173, R180(3), the spec's "[derived]"
properties). -/
def Obligations.CodesPrefixFree : Prop :=
  (∀ lens : List Nibble,
    (∀ L, 1 ≤ L → lenCount lens L = (lens.filter fun l => decide (l.toNat = L)).length) ∧
    nextCode lens 1 = 0 ∧
    (∀ L, 2 ≤ L → nextCode lens L = 2 * (nextCode lens (L - 1) + lenCount lens (L - 1))) ∧
    (∀ L, maxCodeLen lens ≤ L ↔ ∀ l ∈ lens, l.toNat ≤ L) ∧
    (∀ (x : Nat) (l : Nibble), lens[x]? = some l → (codesOf lens)[x]? = some (
      if l = 0 then (0, 0)
      else (l.toNat, nextCode lens l.toNat + ((lens.take x).filter fun k => decide (k = l)).length)))) ∧
  ∀ lens : List Nibble, (∀ L, 1 ≤ L → L ≤ 15 → nextCode lens L + lenCount lens L ≤ 2 ^ L) →
    ∀ x y lx cx ly cy : Nat, (codesOf lens)[x]? = some (lx, cx) → lx ≠ 0 → (codesOf lens)[y]? = some (ly, cy) → ly ≠ 0 →
      cx < 2 ^ lx ∧ (x ≠ y → lx ≤ ly → cy / 2 ^ (ly - lx) ≠ cx)

/-- The fixed tables' codes, and that a decode with them never fails for want of a code (R179, "[derived]"). -/
def Obligations.FixedCodes : Prop :=
  (∀ x, x < 288 → (codesOf fixedLLLens)[x]? = some
    (if x < 144 then (8, 0x30 + x) else if x < 256 then (9, 0x190 + (x - 144))
      else if x < 280 then (7, x - 256) else (8, 0xC0 + (x - 280)))) ∧
  (∀ x, x < 32 → (codesOf fixedDistLens)[x]? = some (5, x)) ∧
  (∀ (s t : State) (k : TableId), s.Inv → k = .fll ∨ k = .fdist → s.errCode = .none → exec (.htDecode k) s = .next t →
    t.errCode = .none ∨ t.errCode = .outOfData)

/-! ### LZ77 -/

/-- LZ_LITERAL writes one byte at OUT_POS and advances it; at the capacity it raises OutputOverflow(0) with nothing
written (43_lz77.md R190). -/
def Obligations.LzLiteralResult : Prop :=
  ∀ (s : State) (b : Byte),
    (s.outPos.toNat < s.dstCap.toNat →
      ∃ t, exec (.lzLiteral b) s = .next t ∧ t = { s.complete with outPos := t.outPos, dst := t.dst } ∧
        t.outPos.toNat = s.outPos.toNat + 1 ∧ t.peek .dst s.outPos.toNat = b ∧
        ∀ a, a ≠ s.outPos.toNat → t.peek .dst a = s.peek .dst a) ∧
    (s.dstCap.toNat ≤ s.outPos.toNat → exec (.lzLiteral b) s = .next (s.errorEntry ⟨.outputOverflow, 0⟩))

/-- LZ_COPY: each byte of the copy is the byte at the distance before it, as it stands after the bytes before it are
written; DistanceTooFar before OutputOverflow, and a failing copy writes nothing (R191). -/
def Obligations.LzCopyResult : Prop :=
  ∀ (s : State) (l3 : BitVec 8) (d1 : BitVec 15),
    let len := l3.toNat + 3
    let d := d1.toNat + 1
    (d ≤ s.outPos.toNat → s.outPos.toNat + len ≤ s.dstCap.toNat →
      ∃ t, exec (.lzCopy l3 d1) s = .next t ∧ t = { s.complete with outPos := t.outPos, dst := t.dst } ∧
        t.outPos.toNat = s.outPos.toNat + len ∧
        (∀ k, k < len → t.peek .dst (s.outPos.toNat + k) = t.peek .dst (s.outPos.toNat + k - d)) ∧
        ∀ a, a < s.outPos.toNat ∨ s.outPos.toNat + len ≤ a → t.peek .dst a = s.peek .dst a) ∧
    (s.outPos.toNat < d → exec (.lzCopy l3 d1) s = .next (s.errorEntry ⟨.distanceTooFar, BitVec.ofNat 32 d⟩)) ∧
    (d ≤ s.outPos.toNat → s.dstCap.toNat < s.outPos.toNat + len →
      exec (.lzCopy l3 d1) s = .next (s.errorEntry ⟨.outputOverflow, 0⟩))

/-- LZ_LENGTH: base plus extra bits of the length table's row, the table being 257..264 -> 3..10 with no extra bits,
then four symbols for each number of extra bits from 1 to 5, and 285 -> 258; InvalidLengthSymbol for 286 and 287 before
any bit is read (R192; 40_tables_and_checksums.md R130). -/
def Obligations.LzLengthResult : Prop :=
  ∀ (s : State) (sym : BitVec 5), s.Inv → sym.toNat ≠ 31 →
    let extra := if sym.toNat < 8 ∨ sym.toNat = 28 then 0 else sym.toNat / 4 - 1
    let base := if sym.toNat < 8 then sym.toNat + 3 else if sym.toNat = 28 then 258
      else 3 + (4 + sym.toNat % 4) * 2 ^ extra
    (sym.toNat ≤ 28 → s.bitPos.toNat + extra ≤ 8 * s.bufLen →
      ∃ t, exec (.lzLength sym) s = .next t ∧ t = { s.complete with bitPos := t.bitPos, result := t.result } ∧
        t.bitPos.toNat = s.bitPos.toNat + extra ∧ t.result.toNat = base + s.bitsFrom s.bitPos.toNat extra ∧
        3 ≤ t.result.toNat ∧ t.result.toNat ≤ 258) ∧
    (sym.toNat ≤ 28 → 8 * s.bufLen < s.bitPos.toNat + extra →
      exec (.lzLength sym) s = .next (s.errorEntry ⟨.outOfData, BitVec.ofNat 32 extra⟩)) ∧
    (29 ≤ sym.toNat →
      exec (.lzLength sym) s = .next (s.errorEntry ⟨.invalidLengthSymbol, BitVec.ofNat 32 (sym.toNat + 257)⟩))

/-- LZ_DIST: base plus extra bits of the distance table's row, the table being 0..3 -> 1..4 with no extra bits, then two
symbols for each number of extra bits from 1 to 13; InvalidDistanceSymbol for 30 and 31 before any bit is read (R193;
40_tables_and_checksums.md R131). -/
def Obligations.LzDistResult : Prop :=
  ∀ (s : State) (sym : BitVec 5), s.Inv →
    let extra := if sym.toNat < 4 then 0 else sym.toNat / 2 - 1
    let base := if sym.toNat < 4 then sym.toNat + 1 else 1 + (2 + sym.toNat % 2) * 2 ^ extra
    (sym.toNat ≤ 29 → s.bitPos.toNat + extra ≤ 8 * s.bufLen →
      ∃ t, exec (.lzDist sym) s = .next t ∧ t = { s.complete with bitPos := t.bitPos, result := t.result } ∧
        t.bitPos.toNat = s.bitPos.toNat + extra ∧ t.result.toNat = base + s.bitsFrom s.bitPos.toNat extra ∧
        1 ≤ t.result.toNat ∧ t.result.toNat ≤ 32768) ∧
    (sym.toNat ≤ 29 → 8 * s.bufLen < s.bitPos.toNat + extra →
      exec (.lzDist sym) s = .next (s.errorEntry ⟨.outOfData, BitVec.ofNat 32 extra⟩)) ∧
    (30 ≤ sym.toNat →
      exec (.lzDist sym) s = .next (s.errorEntry ⟨.invalidDistanceSymbol, BitVec.ofNat 32 sym.toNat⟩))

/-- The loop of BlockData is the spec's unbounded loop: the model's count of passes never ends it early (R194, R308;
log 16). -/
def Obligations.BlockDataLoop : Prop :=
  ∀ (s : State) (lt dt : TableId), s.Inv →
    blockData lt dt s =
      match blockPass lt dt s with
      | .ok true t => .ok () t
      | .ok false t => blockData lt dt t
      | .error r t => .error r t

/-- LZ_BLOCK_DATA on the codes of a list of literals and back-references followed by the end-of-block symbol appends
exactly their LZ77 replay to the output, with the fixed and with the dynamic tables (R190 to R194, R199). -/
def Obligations.BlockDataReplay : Prop :=
  ∀ (s : State) (fixed : Bool) (toks : List Token) (out : List Byte) (q : Nat), s.Inv →
    let lt := if fixed then TableId.fll else .ll
    let dt := if fixed then TableId.fdist else .dist
    (s.slot lt).valid = true → (s.slot dt).valid = true →
    s.showsBlock (codesOf (s.slot lt).lens) (codesOf (s.slot dt).lens) s.bitPos.toNat toks q → q ≤ 8 * s.bufLen →
    replay (s.bytesAt .dst 0 s.outPos.toNat) toks = some out → out.length ≤ s.dstCap.toNat →
    ∃ t, exec (.lzBlockData fixed) s = .next t ∧
      t = { s.complete with bitPos := t.bitPos, outPos := t.outPos, result := t.result, dst := t.dst } ∧
      t.bitPos.toNat = q ∧ t.outPos.toNat = out.length ∧ t.result = t.outPos ∧
      t.bytesAt .dst 0 out.length = out ∧ ∀ a, out.length ≤ a → t.peek .dst a = s.peek .dst a

/-! ### Dispatcher -/

/-- DF_ZLIB_HEADER: the five checks in order, each with its code and detail, then ZHDR and BIT_POS = 16
(44_dispatcher.md R210, R218). -/
def Obligations.ZlibHeaderResult : Prop :=
  encode .dfZlibHeader = 0x00000030 ∧
  ∀ s : State,
    let cmf := s.peek s.bufSpace 0
    let flg := s.peek s.bufSpace 1
    let d := BitVec.ofNat 32 (cmf.toNat + 256 * flg.toNat)
    exec .dfZlibHeader s = .next (
      if s.bufLen < 3 then s.errorEntry ⟨.streamTooShort, BitVec.ofNat 32 s.bufLen⟩
      else if (cmf.toNat * 256 + flg.toNat) % 31 ≠ 0 then s.errorEntry ⟨.headerChecksumMismatch, d⟩
      else if cmf.toNat % 16 ≠ 8 then s.errorEntry ⟨.unsupportedCompressionMethod, d⟩
      else if 7 < cmf.toNat / 16 then s.errorEntry ⟨.unsupportedWindowSize, d⟩
      else if flg.toNat / 32 % 2 = 1 then s.errorEntry ⟨.presetDictionaryUnsupported, d⟩
      else { s with zhdr := ⟨cmf, flg⟩, bitPos := 16 }.complete) ∧
    (⟨cmf, flg⟩ : ZhdrReg).word = d

/-- DF_STORED: LEN and NLEN after the byte boundary, little-endian; the four checks in order; then the bytes copied to
DST (R212, R220). `a` is the byte after the boundary. -/
def Obligations.StoredResult : Prop :=
  encode .dfStored = 0x00000032 ∧
  ∀ s : State, s.Inv →
    let a := (s.bitPos.toNat + 7) / 8
    let len := (s.peek s.bufSpace a).toNat + 256 * (s.peek s.bufSpace (a + 1)).toNat
    let nlen := (s.peek s.bufSpace (a + 2)).toNat + 256 * (s.peek s.bufSpace (a + 3)).toNat
    let read : State := { s with bitPos := BitVec.ofNat 32 (8 * a + 32), block := { s.block with len := BitVec.ofNat 16 len } }
    (s.bufLen < a + 2 →
      exec .dfStored s = .next ({ s with bitPos := BitVec.ofNat 32 (8 * a) }.errorEntry ⟨.outOfData, 16⟩)) ∧
    (a + 2 ≤ s.bufLen → s.bufLen < a + 4 →
      exec .dfStored s = .next ({ s with bitPos := BitVec.ofNat 32 (8 * a + 16) }.errorEntry ⟨.outOfData, 16⟩)) ∧
    (a + 4 ≤ s.bufLen →
      (nlen ≠ 0xFFFF - len →
        exec .dfStored s = .next (read.errorEntry ⟨.storedBlockLengthMismatch, BitVec.ofNat 32 (len + 65536 * nlen)⟩)) ∧
      (nlen = 0xFFFF - len → s.bufLen < a + 4 + len →
        exec .dfStored s = .next (read.errorEntry ⟨.outOfData, BitVec.ofNat 32 (8 * len)⟩)) ∧
      (nlen = 0xFFFF - len → a + 4 + len ≤ s.bufLen → s.dstCap.toNat < s.outPos.toNat + len →
        exec .dfStored s = .next (read.errorEntry ⟨.outputOverflow, 0⟩)) ∧
      (nlen = 0xFFFF - len → a + 4 + len ≤ s.bufLen → s.outPos.toNat + len ≤ s.dstCap.toNat →
        ∃ t, exec .dfStored s = .next t ∧
          t = { read.complete with bitPos := t.bitPos, outPos := t.outPos, result := t.outPos, dst := t.dst } ∧
          t.bitPos.toNat = 8 * (a + 4 + len) ∧ t.outPos.toNat = s.outPos.toNat + len ∧
          (∀ k, k < len → t.peek .dst (s.outPos.toNat + k) = s.peek s.bufSpace (a + 4 + k)) ∧
          ∀ b, b < s.outPos.toNat ∨ s.outPos.toNat + len ≤ b → t.peek .dst b = s.peek .dst b))

/-- DF_BLOCK: the header errors with nothing captured, InvalidBlockType(3) after the three header bits; a stored block
that is well formed completes with FINAL, BLOCK_COUNT and RESULT; a block of type 1 is BlockData(3, 4), and one of type 2
DynHeader then BlockData(1, 2), after the header, followed by FINAL, BLOCK_COUNT and RESULT, or by the error of the one
that raises; these are the procedures LZ_BLOCK_DATA and DF_DYN_HEADER run (R211, R212, R216, R219). -/
def Obligations.BlockResult : Prop :=
  ∀ s : State, s.Inv →
    let p := s.bitPos.toNat
    let a := (p + 10) / 8
    let len := (s.peek s.bufSpace a).toNat + 256 * (s.peek s.bufSpace (a + 1)).toNat
    let nlen := (s.peek s.bufSpace (a + 2)).toNat + 256 * (s.peek s.bufSpace (a + 3)).toNat
    let header (btype : BitVec 2) : State := { s with
      bitPos := BitVec.ofNat 32 (p + 3), block := { s.block with bfinal := s.bufBit p, btype := btype } }
    let ended (t : State) : State := State.complete { t with
      status := { t.status with final := s.bufBit p }, blockCount := t.blockCount + 1, result := t.outPos }
    (s.bufLen ≤ p / 8 → exec .dfBlock s = .next (s.errorEntry ⟨.outOfData, 1⟩)) ∧
    (p < 8 * s.bufLen → 8 * s.bufLen < p + 3 →
      exec .dfBlock s = .next ({ s with bitPos := BitVec.ofNat 32 (p + 1) }.errorEntry ⟨.outOfData, 2⟩)) ∧
    (p + 3 ≤ 8 * s.bufLen → s.bufBit (p + 1) = true → s.bufBit (p + 2) = true →
      exec .dfBlock s = .next ({ s with
          bitPos := BitVec.ofNat 32 (p + 3), block := { s.block with bfinal := s.bufBit p, btype := 3 } }.errorEntry
        ⟨.invalidBlockType, 3⟩)) ∧
    (p + 3 ≤ 8 * s.bufLen → s.bufBit (p + 1) = false → s.bufBit (p + 2) = false →
      a + 4 ≤ s.bufLen → nlen = 0xFFFF - len → a + 4 + len ≤ s.bufLen → s.outPos.toNat + len ≤ s.dstCap.toNat →
      ∃ t, exec .dfBlock s = .next t ∧
        t = { s.complete with
          status := { s.complete.status with final := s.bufBit p }
          block := ⟨s.bufBit p, 0, BitVec.ofNat 16 len⟩, blockCount := s.blockCount + 1
          bitPos := t.bitPos, outPos := t.outPos, result := t.outPos, dst := t.dst } ∧
        t.bitPos.toNat = 8 * (a + 4 + len) ∧ t.outPos.toNat = s.outPos.toNat + len ∧
        (∀ k, k < len → t.peek .dst (s.outPos.toNat + k) = s.peek s.bufSpace (a + 4 + k)) ∧
        ∀ b, b < s.outPos.toNat ∨ s.outPos.toNat + len ≤ b → t.peek .dst b = s.peek .dst b) ∧
    (p + 3 ≤ 8 * s.bufLen → s.bufBit (p + 1) = true → s.bufBit (p + 2) = false →
      exec .dfBlock s =
        match blockData .fll .fdist (header 1) with
        | .ok () t => .next (ended t)
        | .error r t => .next (t.errorEntry r)) ∧
    (p + 3 ≤ 8 * s.bufLen → s.bufBit (p + 1) = false → s.bufBit (p + 2) = true →
      exec .dfBlock s =
        match dynHeader (header 2) with
        | .ok () u =>
          (match blockData .ll .dist u with
          | .ok () t => .next (ended t)
          | .error r t => .next (t.errorEntry r))
        | .error r u => .next (u.errorEntry r)) ∧
    (exec .dfDynHeader s =
      match dynHeader s with
      | .ok () t => .next t.complete
      | .error r t => .next (t.errorEntry r)) ∧
    (∀ fixed : Bool, exec (.lzBlockData fixed) s =
      match blockData (if fixed then .fll else .ll) (if fixed then .fdist else .dist) s with
      | .ok () t => .next { t with result := t.outPos }.complete
      | .error r t => .next (t.errorEntry r))

/-- DF_DYN_HEADER on a well-formed header: the counts go to DYN, the code-length lengths in the permuted order build
slot 0, the tokens they spell expand to the literal/length and distance lengths, which stand in LENS and build slots
1 and 2; RESULT is unchanged (R213, R214, R221). The permuted order is that of R132. -/
def Obligations.DynHeaderDecodes : Prop :=
  clOrder = [16, 17, 18, 0, 8, 7, 9, 6, 10, 5, 11, 4, 12, 3, 13, 2, 14, 1, 15] ∧
  ∀ (s : State) (toks : List LenToken) (lens : List Nibble) (q : Nat), s.Inv →
    let p := s.bitPos.toNat
    let hlit := s.bitsFrom p 5 + 257
    let hdist := s.bitsFrom (p + 5) 5 + 1
    let hclen := s.bitsFrom (p + 10) 4 + 4
    let cl := s.clLensAt (p + 14) hclen
    s.showsLens (codesOf cl) (p + 14 + 3 * hclen) toks q → q ≤ 8 * s.bufLen →
    expandLens [] toks = some lens → lens.length = hlit + hdist →
    overSubscribed cl = none → overSubscribed (lens.take hlit) = none → overSubscribed (lens.drop hlit) = none →
    ∃ t, exec .dfDynHeader s = .next t ∧
      t = { s.complete with
        bitPos := BitVec.ofNat 32 q, dyn := ⟨BitVec.ofNat 9 hlit, BitVec.ofNat 6 hdist, BitVec.ofNat 5 hclen⟩
        cl := ⟨true, cl⟩, ll := ⟨true, lens.take hlit⟩, dist := ⟨true, lens.drop hlit⟩, lens := t.lens } ∧
      (∀ i, i < lens.length → t.lensAt i = lens.getD i 0) ∧ (∀ i, lens.length ≤ i → t.lensAt i = s.lensAt i)

/-- DF_DYN_HEADER's first three reads: a header that is cut short in them raises OutOfData with DYN unchanged, and any
other end leaves the counts, offsets added, in DYN (R213, R273; 10_state.md R40). -/
def Obligations.DynHeaderCounts : Prop :=
  ∀ s t : State, s.Inv → exec .dfDynHeader s = .next t →
    (s.bitPos.toNat + 14 ≤ 8 * s.bufLen →
      t.dyn.hlit.toNat = s.bitsFrom s.bitPos.toNat 5 + 257 ∧ t.dyn.hdist.toNat = s.bitsFrom (s.bitPos.toNat + 5) 5 + 1 ∧
      t.dyn.hclen.toNat = s.bitsFrom (s.bitPos.toNat + 10) 4 + 4) ∧
    (8 * s.bufLen < s.bitPos.toNat + 14 →
      t.dyn = s.dyn ∧ t.errCode = .outOfData ∧ t.status.error = true ∧
      t.errData = if 8 * s.bufLen < s.bitPos.toNat + 10 then 5 else 4)

/-- DF_TRAILER: four bytes after the byte boundary, most significant first, against the Adler-32 of the output; a trailer
cut short consumes the bytes present and raises OutOfData(8) (R215, R222). `a` is the byte after the boundary. -/
def Obligations.TrailerResult : Prop :=
  encode .dfTrailer = 0x00000034 ∧
  ∀ s : State, s.Inv →
    let a := (s.bitPos.toNat + 7) / 8
    let found := BitVec.ofNat 32 (2 ^ 24 * (s.peek s.bufSpace a).toNat + 2 ^ 16 * (s.peek s.bufSpace (a + 1)).toNat +
      2 ^ 8 * (s.peek s.bufSpace (a + 2)).toNat + (s.peek s.bufSpace (a + 3)).toNat)
    let sum := adler32 (s.bytesAt .dst 0 s.outPos.toNat)
    let read : State := { s with bitPos := BitVec.ofNat 32 (8 * (a + 4)), adlerTrailer := found, adlerCalc := sum }
    (a + 4 ≤ s.bufLen → found = sum → exec .dfTrailer s = .next read.complete) ∧
    (a + 4 ≤ s.bufLen → found ≠ sum → exec .dfTrailer s = .next (read.errorEntry ⟨.checksumMismatch, sum⟩)) ∧
    (s.bufLen < a + 4 →
      exec .dfTrailer s = .next ({ s with bitPos := BitVec.ofNat 32 (8 * max a s.bufLen) }.errorEntry ⟨.outOfData, 8⟩))

/-- DF_INFLATE gives back the data of a zlib stream of one stored block, whatever BIT_POS and OUT_POS held, checking the
trailer where ADLER_CHECK = 1 and reading none where it is 0 (R210 to R217, R223). -/
def Obligations.InflateStored : Prop :=
  ∀ (s : State) (data : List Byte), s.Inv → data.length ≤ 65535 → data.length ≤ s.dstCap.toNat →
    let n := data.length
    let stream : List Byte := [0x78, 0x01, 0x01, BitVec.ofNat 8 (n % 256), BitVec.ofNat 8 (n / 256),
      BitVec.ofNat 8 (255 - n % 256), BitVec.ofNat 8 (255 - n / 256)] ++ data ++
      if s.config.adlerCheck then be4 (adler32 data) else []
    stream.length ≤ s.bufLen → (∀ k, k < stream.length → s.peek s.bufSpace k = stream.getD k 0) →
    ∃ t, exec .dfInflate s = .next t ∧
      t = { s.complete with
        status := { s.complete.status with final := true }
        bitPos := BitVec.ofNat 32 (8 * stream.length), outPos := BitVec.ofNat 32 n, result := BitVec.ofNat 32 n
        zhdr := ⟨0x78, 0x01⟩, block := ⟨true, 0, BitVec.ofNat 16 n⟩, blockCount := 1, adlerCalc := adler32 data
        adlerTrailer := if s.config.adlerCheck then adler32 data else s.adlerTrailer, dst := t.dst } ∧
      t.bytesAt .dst 0 n = data ∧ ∀ a, n ≤ a → t.peek .dst a = s.peek .dst a

/-- The block loop of Inflate is the spec's unbounded loop: one block after another until FINAL = 1; the model's count
of passes never ends it early (R217, R308; log 16). -/
def Obligations.InflateLoop : Prop :=
  ∀ s : State, s.Inv →
    inflateBlocks s =
      match block s with
      | .ok () t => if t.status.final then .ok () t else inflateBlocks t
      | .error r t => .error r t

/-! ### Framer -/

/-- PF_SIGNATURE checks the eight bytes at SRC[0] and sets FR_POS to 8, or raises SignatureMismatch(0) with FR_POS
unchanged (45_png_framer.md R240, R247). -/
def Obligations.SignatureResult : Prop :=
  encode .pfSignature = 0x00000040 ∧
  ∀ s : State,
    (8 ≤ s.srcLen.toNat → s.bytesAt .src 0 8 = [0x89, 0x50, 0x4E, 0x47, 0x0D, 0x0A, 0x1A, 0x0A] →
      exec .pfSignature s = .next { s with frPos := 8 }.complete) ∧
    (s.srcLen.toNat < 8 ∨ s.bytesAt .src 0 8 ≠ [0x89, 0x50, 0x4E, 0x47, 0x0D, 0x0A, 0x1A, 0x0A] →
      exec .pfSignature s = .next (s.errorEntry ⟨.signatureMismatch, 0⟩))

/-- PF_NEXT_CHUNK's errors in their order: the head, the body, the CRC in STRICT mode, a first chunk that is not IHDR,
an IHDR whose length is not 13, and a full CAT; the errors after the capture keep what was captured (R241, R243, R244,
R245, R273, R279). -/
def Obligations.NextChunkRaises : Prop :=
  ∀ s : State,
    (s.srcLen.toNat < s.frPos.toNat + 8 →
      exec .pfNextChunk s = .next (s.errorEntry ⟨.malformedChunkFraming, s.frPos⟩)) ∧
    (s.frPos.toNat + 8 ≤ s.srcLen.toNat → ¬s.nextFits →
      exec .pfNextChunk s = .next (s.errorEntry ⟨.malformedChunkFraming, s.frPos⟩)) ∧
    (s.nextFits → ¬s.crcPasses →
      exec .pfNextChunk s = .next (s.captured.errorEntry ⟨.chunkCrcMismatch, s.nextCrcCalc⟩)) ∧
    (s.nextFits → s.crcPasses → s.chunkCount = 0 → s.nextType ≠ 0x49484452 →
      exec .pfNextChunk s = .next (s.afterCrc.errorEntry ⟨.malformedChunkFraming, s.frPos⟩)) ∧
    (s.nextFits → s.crcPasses → s.nextType = 0x49484452 → s.nextLen ≠ 13 →
      exec .pfNextChunk s = .next (s.afterCrc.errorEntry ⟨.malformedChunkFraming, s.frPos⟩)) ∧
    (s.nextFits → s.crcPasses → s.chunkCount ≠ 0 → s.nextType = 0x49444154 → s.sizes.cat < s.catLen.toNat + s.nextLen →
      exec .pfNextChunk s = .next (s.afterCrc.errorEntry ⟨.outputOverflow, 1⟩))

/-- PF_NEXT_CHUNK on an IHDR of length 13: the header registers hold its big-endian fields (R241, R244, R248). The value
of CHUNK_COUNT past 2^32 - 1 is open (log 12). -/
def Obligations.NextChunkIhdr : Prop :=
  ∀ s : State, s.nextFits → s.crcPasses → s.nextType = 0x49484452 → s.nextLen = 13 →
    ∃ t, exec .pfNextChunk s = .next t ∧
      t = { s.afterCrc.complete with
        hdrWidth := s.srcWord (s.frPos.toNat + 8), hdrHeight := s.srcWord (s.frPos.toNat + 12), hdrFmt := t.hdrFmt
        hdrInterlace := s.peek .src (s.frPos.toNat + 20), chunkCount := t.chunkCount, draws := t.draws
        frPos := t.frPos, chunkClass := .ihdr, result := 0 } ∧
      t.bitDepth = s.peek .src (s.frPos.toNat + 16) ∧ t.colorType = s.peek .src (s.frPos.toNat + 17) ∧
      t.compression = s.peek .src (s.frPos.toNat + 18) ∧ t.filterMethod = s.peek .src (s.frPos.toNat + 19) ∧
      t.frPos.toNat = s.frPos.toNat + 25 ∧
      (s.chunkCount.toNat + 1 < 2 ^ 32 → t.chunkCount.toNat = s.chunkCount.toNat + 1 ∧ t.draws = s.draws)

/-- PF_NEXT_CHUNK on an IDAT that fits: its bytes are appended to CAT (R241, R245, R248). The value of CHUNK_COUNT past
2^32 - 1 is open (log 12). -/
def Obligations.NextChunkIdat : Prop :=
  ∀ s : State, s.Inv → s.nextFits → s.crcPasses → s.nextType = 0x49444154 → s.chunkCount ≠ 0 →
    s.catLen.toNat + s.nextLen ≤ s.sizes.cat →
    ∃ t, exec .pfNextChunk s = .next t ∧
      t = { s.afterCrc.complete with
        cat := t.cat, catLen := t.catLen, chunkCount := t.chunkCount, draws := t.draws, frPos := t.frPos
        chunkClass := .idat, result := 2 } ∧
      t.catLen.toNat = s.catLen.toNat + s.nextLen ∧
      (∀ k, k < s.nextLen → t.peek .cat (s.catLen.toNat + k) = s.peek .src (s.frPos.toNat + 8 + k)) ∧
      (∀ a, a < s.catLen.toNat ∨ s.catLen.toNat + s.nextLen ≤ a → t.peek .cat a = s.peek .cat a) ∧
      t.frPos.toNat = s.frPos.toNat + 12 + s.nextLen ∧
      (s.chunkCount.toNat + 1 < 2 ^ 32 → t.chunkCount.toNat = s.chunkCount.toNat + 1 ∧ t.draws = s.draws)

/-- PF_NEXT_CHUNK on a PLTE, an IEND or a chunk of any other type: PLTE is skipped, IEND sets IEND_SEEN, any other sets
UNKNOWN_SEEN and is no error (R241, R242, R248). The value of CHUNK_COUNT past 2^32 - 1 is open (log 12). -/
def Obligations.NextChunkOther : Prop :=
  ∀ s : State, s.nextFits → s.crcPasses → s.chunkCount ≠ 0 → s.nextType ≠ 0x49484452 → s.nextType ≠ 0x49444154 →
    ∃ t, exec .pfNextChunk s = .next t ∧
      t = { s.afterCrc.complete with
        status := { s.afterCrc.complete.status with
          iendSeen := s.status.iendSeen || decide (s.nextType = 0x49454E44)
          unknownSeen := s.status.unknownSeen || (decide (s.nextType ≠ 0x49454E44) && decide (s.nextType ≠ 0x504C5445)) }
        chunkCount := t.chunkCount, draws := t.draws, frPos := t.frPos
        chunkClass := if s.nextType = 0x504C5445 then .plte else if s.nextType = 0x49454E44 then .iend else .unknown
        result := if s.nextType = 0x504C5445 then 1 else if s.nextType = 0x49454E44 then 3 else 4 } ∧
      t.frPos.toNat = s.frPos.toNat + 12 + s.nextLen ∧
      (s.chunkCount.toNat + 1 < 2 ^ 32 → t.chunkCount.toNat = s.chunkCount.toNat + 1 ∧ t.draws = s.draws)

/-- PF_READ_HEADER: the sticky flags and positions cleared, the signature checked, and the first chunk framed, which must
be an IHDR of length 13; CAT and CAT_LEN are not changed (R250). -/
def Obligations.ReadHeaderResult : Prop :=
  ∀ s : State,
    let cleared : State := { s with
      frPos := 0, chunkCount := 0
      status := { s.status with iendSeen := false, unknownSeen := false, crcWarn := false } }
    let u : State := { cleared with frPos := 8 }
    (s.srcLen.toNat < 8 ∨ s.bytesAt .src 0 8 ≠ pngSignature →
      exec .pfReadHeader s = .next (cleared.errorEntry ⟨.signatureMismatch, 0⟩)) ∧
    (s.bytesAt .src 0 8 = pngSignature → 33 ≤ s.srcLen.toNat → u.nextType = 0x49484452 → u.nextLen = 13 → u.crcPasses →
      ∃ t, exec .pfReadHeader s = .next t ∧
        t = { u.afterCrc.complete with
          hdrWidth := s.srcWord 16, hdrHeight := s.srcWord 20, hdrFmt := t.hdrFmt, hdrInterlace := s.peek .src 28
          frPos := 33, chunkCount := 1, result := 1 } ∧
        t.bitDepth = s.peek .src 24 ∧ t.colorType = s.peek .src 25 ∧ t.compression = s.peek .src 26 ∧
        t.filterMethod = s.peek .src 27)

/-- PF_READ_CHUNKS reads back a PNG file of the chunks the write path emits, IHDR, any number of IDATs, IEND: CAT holds
the concatenated IDAT payloads and RESULT counts the chunks; bytes after IEND are ignored (R240 to R246, R249). -/
def Obligations.ReadChunksConcatenates : Prop :=
  ∀ (s : State) (hdr : List Byte) (parts : List (List Byte)), s.Inv → hdr.length = 13 →
    let file := pngSignature ++ framed typeIHDR hdr ++ parts.flatMap (framed typeIDAT) ++ framed typeIEND []
    file.length ≤ s.srcLen.toNat → (∀ k, k < file.length → s.peek .src k = file.getD k 0) →
    parts.flatten.length ≤ s.sizes.cat →
    ∃ t, exec .pfReadChunks s = .next t ∧
      t = { s.complete with
        status := { s.complete.status with iendSeen := true, unknownSeen := false, crcWarn := false }
        catLen := t.catLen, cat := t.cat, frPos := BitVec.ofNat 32 file.length
        chunkCount := BitVec.ofNat 32 (2 + parts.length), result := BitVec.ofNat 32 (2 + parts.length)
        chunkLen := 0, chunkType := typeIEND, chunkCrc := crc32 (be4 typeIEND), chunkCrcCalc := crc32 (be4 typeIEND)
        chunkClass := .iend, hdrWidth := s.srcWord 16, hdrHeight := s.srcWord 20
        hdrFmt := (hdr.getD 11 0 ++ hdr.getD 10 0 ++ hdr.getD 9 0 ++ hdr.getD 8 0 : BitVec 32)
        hdrInterlace := hdr.getD 12 0 } ∧
      t.catLen.toNat = parts.flatten.length ∧ t.bytesAt .cat 0 parts.flatten.length = parts.flatten ∧
      ∀ a, parts.flatten.length ≤ a → t.peek .cat a = s.peek .cat a

/-- The chunk loop of PF_READ_CHUNKS is the spec's unbounded loop: one chunk after another until IEND; the model's count
of passes never ends it early (R249, R308; log 16). -/
def Obligations.ReadChunksLoop : Prop :=
  ∀ s : State,
    readAllChunks s =
      match nextChunk s with
      | .ok .iend t => .ok () t
      | .ok _ t => readAllChunks t
      | .error r t => .error r t

/-- PF_CHECK_HEADER: the mask of unsupported fields, then the unbounded data size against DST_SIZE, then DATA_SIZE,
DST_CAP and RESULT (R251, R255). -/
def Obligations.CheckHeaderResult : Prop :=
  encode .pfCheckHeader = 0x00000044 ∧
  ∀ s : State,
    let mask := (if s.bitDepth ≠ 8 then 1 else 0) + (if s.colorType ≠ 2 ∧ s.colorType ≠ 6 then 2 else 0) +
      (if s.compression ≠ 0 then 4 else 0) + (if s.filterMethod ≠ 0 then 8 else 0) + (if s.hdrInterlace ≠ 0 then 16 else 0)
    let size := s.hdrHeight.toNat + (if s.colorType = 2 then 3 else 4) * s.hdrWidth.toNat * s.hdrHeight.toNat
    exec .pfCheckHeader s = .next (
      if mask ≠ 0 then s.errorEntry ⟨.unsupportedPngFeature, BitVec.ofNat 32 mask⟩
      else if s.sizes.dst < size then s.errorEntry ⟨.outputOverflow, 2⟩
      else { s with
        dataSize := BitVec.ofNat 32 size, dstCap := BitVec.ofNat 32 size, result := BitVec.ofNat 32 size }.complete)

/-- PF_EMIT_SIGNATURE writes the signature at WPOS, or raises OutputOverflow(3) with nothing written (R252). -/
def Obligations.EmitSignatureResult : Prop :=
  encode .pfEmitSignature = 0x00000048 ∧
  ∀ s : State, s.Inv →
    (s.wpos.toNat + 8 ≤ s.sizes.wbuf →
      ∃ t, exec .pfEmitSignature s = .next t ∧ t = { s.complete with wpos := t.wpos, result := t.wpos, wbuf := t.wbuf } ∧
        t.wpos.toNat = s.wpos.toNat + 8 ∧
        t.bytesAt .wbuf s.wpos.toNat 8 = [0x89, 0x50, 0x4E, 0x47, 0x0D, 0x0A, 0x1A, 0x0A] ∧
        ∀ a, a < s.wpos.toNat ∨ s.wpos.toNat + 8 ≤ a → t.peek .wbuf a = s.peek .wbuf a) ∧
    (s.sizes.wbuf < s.wpos.toNat + 8 → exec .pfEmitSignature s = .next (s.errorEntry ⟨.outputOverflow, 3⟩))

/-- PF_EMIT_CHUNK writes length, type, data and CRC-32 of type and data at WPOS, each big-endian; OutOfData(8*ARG2) is
checked before OutputOverflow(3) (R246, R253). -/
def Obligations.EmitChunkResult : Prop :=
  encode .pfEmitChunk = 0x00000049 ∧
  ∀ s : State, s.Inv →
    let n := s.arg2.toNat
    let data := s.bytesAt .src s.arg1.toNat n
    let crc := crc32 (be4 s.arg0 ++ data)
    (s.arg1.toNat + n ≤ s.srcLen.toNat → s.wpos.toNat + 12 + n ≤ s.sizes.wbuf →
      ∃ t, exec .pfEmitChunk s = .next t ∧
        t = { s.complete with wpos := t.wpos, result := t.wpos, chunkCrcCalc := crc, wbuf := t.wbuf } ∧
        t.wpos.toNat = s.wpos.toNat + 12 + n ∧
        t.bytesAt .wbuf s.wpos.toNat (12 + n) = be4 s.arg2 ++ be4 s.arg0 ++ data ++ be4 crc ∧
        ∀ a, a < s.wpos.toNat ∨ s.wpos.toNat + 12 + n ≤ a → t.peek .wbuf a = s.peek .wbuf a) ∧
    (s.srcLen.toNat < s.arg1.toNat + n →
      exec .pfEmitChunk s = .next (s.errorEntry ⟨.outOfData, BitVec.ofNat 32 (8 * n % 2 ^ 32)⟩)) ∧
    (s.arg1.toNat + n ≤ s.srcLen.toNat → s.sizes.wbuf < s.wpos.toNat + 12 + n →
      exec .pfEmitChunk s = .next (s.errorEntry ⟨.outputOverflow, 3⟩))

/-- PF_EMIT_IHDR writes an IHDR chunk of the header registers at WPOS, the inverse of the parse (R246, R254). -/
def Obligations.EmitIhdrResult : Prop :=
  encode .pfEmitIhdr = 0x0000004A ∧
  ∀ s : State, s.Inv →
    let data := be4 s.hdrWidth ++ be4 s.hdrHeight ++
      [s.bitDepth, s.colorType, s.compression, s.filterMethod, s.hdrInterlace]
    let crc := crc32 (be4 0x49484452 ++ data)
    (s.wpos.toNat + 25 ≤ s.sizes.wbuf →
      ∃ t, exec .pfEmitIhdr s = .next t ∧
        t = { s.complete with wpos := t.wpos, result := t.wpos, chunkCrcCalc := crc, wbuf := t.wbuf } ∧
        t.wpos.toNat = s.wpos.toNat + 25 ∧
        t.bytesAt .wbuf s.wpos.toNat 25 = be4 13 ++ be4 0x49484452 ++ data ++ be4 crc ∧
        ∀ a, a < s.wpos.toNat ∨ s.wpos.toNat + 25 ≤ a → t.peek .wbuf a = s.peek .wbuf a) ∧
    (s.sizes.wbuf < s.wpos.toNat + 25 → exec .pfEmitIhdr s = .next (s.errorEntry ⟨.outputOverflow, 3⟩))

/-! ### Frames -/

/-- The frame of NOP, BC_RESET, BC_NEXT_BIT, BC_NEXT_N, BC_ALIGN, HT_DECODE, LZ_LENGTH and LZ_DIST: the cursor and RESULT,
the report of the command's end, and nothing else; NOP moves neither, BC_RESET and BC_ALIGN have no result. -/
def Obligations.CursorFrames : Prop :=
  ∀ (i : Instr) (s t : State),
    (i = .nop ∨ i = .bcReset ∨ i = .bcNextBit ∨ i = .bcAlign ∨ (∃ n, i = .bcNextN n) ∨ (∃ k, i = .htDecode k) ∨
      (∃ x, i = .lzLength x) ∨ (∃ x, i = .lzDist x)) →
    exec i s = .next t →
    t = { s.withReport t with bitPos := t.bitPos, result := t.result } ∧
    (i = .nop → t.bitPos = s.bitPos) ∧ (i = .nop ∨ i = .bcReset ∨ i = .bcAlign → t.result = s.result) ∧
    s.sameBytes t (fun _ _ => False) ∧ ∀ k, t.lensAt k = s.lensAt k

/-- The frames of the commands that write registers or one slot: DF_ZLIB_HEADER BIT_POS and ZHDR, DF_TRAILER BIT_POS and
the Adler registers, PF_SIGNATURE FR_POS, PF_CHECK_HEADER DATA_SIZE, DST_CAP and RESULT, HT_BUILD its slot and RESULT;
with the report of the command's end, and nothing else: no byte of any memory and no entry of LENS. -/
def Obligations.RegisterFrames : Prop :=
  ∀ (s t : State),
    (exec .dfZlibHeader s = .next t → t = { s.withReport t with bitPos := t.bitPos, zhdr := t.zhdr } ∧
      s.sameBytes t (fun _ _ => False) ∧ ∀ k, t.lensAt k = s.lensAt k) ∧
    (exec .dfTrailer s = .next t →
      t = { s.withReport t with bitPos := t.bitPos, adlerCalc := t.adlerCalc, adlerTrailer := t.adlerTrailer } ∧
      s.sameBytes t (fun _ _ => False) ∧ ∀ k, t.lensAt k = s.lensAt k) ∧
    (exec .pfSignature s = .next t → t = { s.withReport t with frPos := t.frPos } ∧
      s.sameBytes t (fun _ _ => False) ∧ ∀ k, t.lensAt k = s.lensAt k) ∧
    (exec .pfCheckHeader s = .next t →
      t = { s.withReport t with dataSize := t.dataSize, dstCap := t.dstCap, result := t.result } ∧
      s.sameBytes t (fun _ _ => False) ∧ ∀ k, t.lensAt k = s.lensAt k) ∧
    (∀ (g : BuildTarget) (m b : BitVec 9), exec (.htBuild g m b) s = .next t →
      t = { (s.withReport t).setSlot g (t.slot g.table) with result := t.result } ∧
      (∀ k, k ≠ g.table → t.slot k = s.slot k) ∧
      s.sameBytes t (fun _ _ => False) ∧ ∀ k, t.lensAt k = s.lensAt k)

/-- The frame of LZ_LITERAL, LZ_COPY, LZ_BLOCK_DATA and DF_STORED: OUT_POS, the bytes of DST from the OUT_POS before to the
OUT_POS after, and the report; LZ_BLOCK_DATA and DF_STORED also the cursor and RESULT, DF_STORED also BLOCK.LEN; and
nothing else. -/
def Obligations.OutputFrames : Prop :=
  ∀ (i : Instr) (s t : State),
    ((∃ b, i = .lzLiteral b) ∨ (∃ l d, i = .lzCopy l d) ∨ (∃ f, i = .lzBlockData f) ∨ i = .dfStored) →
    exec i s = .next t →
    t = { s.withReport t with
      bitPos := t.bitPos, outPos := t.outPos, result := t.result, dst := t.dst
      block := { s.block with len := t.block.len } } ∧
    ((∃ b, i = .lzLiteral b) ∨ (∃ l d, i = .lzCopy l d) → t.bitPos = s.bitPos ∧ t.result = s.result) ∧
    (i ≠ .dfStored → t.block = s.block) ∧
    s.outPos.toNat ≤ t.outPos.toNat ∧
    s.sameBytes t (fun m a => m = .dst ∧ s.outPos.toNat ≤ a ∧ a < t.outPos.toNat) ∧
    ∀ k, t.lensAt k = s.lensAt k

/-- The frame of DF_DYN_HEADER: BIT_POS, DYN, the slots 0 to 2, the entries of LENS below 19 and below HLIT + HDIST, and
the report; no byte of any memory. -/
def Obligations.DynHeaderFrame : Prop :=
  ∀ s t : State, s.Inv → exec .dfDynHeader s = .next t →
    t = { s.withReport t with
      bitPos := t.bitPos, dyn := t.dyn, cl := t.cl, ll := t.ll, dist := t.dist, lens := t.lens } ∧
    s.sameBytes t (fun _ _ => False) ∧
    ∀ k, 19 ≤ k → t.dyn.hlit.toNat + t.dyn.hdist.toNat ≤ k → t.lensAt k = s.lensAt k

/-- The frames of DF_BLOCK and DF_INFLATE: BIT_POS, OUT_POS, RESULT, BLOCK, DYN, BLOCK_COUNT, STATUS.FINAL, the slots 0 to
2, LENS within its 320 entries, DST from the OUT_POS before (for DF_INFLATE from 0) to the OUT_POS after, and the report;
DF_INFLATE also ZHDR and the Adler registers; and nothing else. -/
def Obligations.BlockFrames : Prop :=
  ∀ s t : State,
    (exec .dfBlock s = .next t →
      t = { s.withReport t with
        status := { (s.withReport t).status with final := t.status.final }
        bitPos := t.bitPos, outPos := t.outPos, result := t.result, block := t.block, dyn := t.dyn
        blockCount := t.blockCount, cl := t.cl, ll := t.ll, dist := t.dist, lens := t.lens, dst := t.dst } ∧
      s.outPos.toNat ≤ t.outPos.toNat ∧
      s.sameBytes t (fun m a => m = .dst ∧ s.outPos.toNat ≤ a ∧ a < t.outPos.toNat) ∧
      ∀ k, 320 ≤ k → t.lensAt k = s.lensAt k) ∧
    (exec .dfInflate s = .next t →
      t = { s.withReport t with
        status := { (s.withReport t).status with final := t.status.final }
        bitPos := t.bitPos, outPos := t.outPos, result := t.result, block := t.block, dyn := t.dyn
        blockCount := t.blockCount, zhdr := t.zhdr, adlerCalc := t.adlerCalc, adlerTrailer := t.adlerTrailer
        cl := t.cl, ll := t.ll, dist := t.dist, lens := t.lens, dst := t.dst } ∧
      s.sameBytes t (fun m a => m = .dst ∧ a < t.outPos.toNat) ∧
      ∀ k, 320 ≤ k → t.lensAt k = s.lensAt k)

/-- The frames of PF_NEXT_CHUNK, PF_READ_CHUNKS and PF_READ_HEADER: FR_POS, the CHUNK and header registers, CHUNK_COUNT,
the three sticky flags, CAT_LEN, RESULT, the bytes of CAT from the CAT_LEN before (for PF_READ_CHUNKS from 0) to the
CAT_LEN after, and the report; PF_READ_HEADER changes neither CAT nor CAT_LEN; the model's count of free values may
advance (log 12); and nothing else. -/
def Obligations.ReadFrames : Prop :=
  ∀ (i : Instr) (s t : State), s.Inv → i = .pfNextChunk ∨ i = .pfReadChunks ∨ i = .pfReadHeader → exec i s = .next t →
    t = { s.withReport t with
      status := { (s.withReport t).status with
        iendSeen := t.status.iendSeen, unknownSeen := t.status.unknownSeen, crcWarn := t.status.crcWarn }
      frPos := t.frPos, catLen := t.catLen, chunkLen := t.chunkLen, chunkType := t.chunkType, chunkCrc := t.chunkCrc
      chunkCrcCalc := t.chunkCrcCalc, chunkClass := t.chunkClass, chunkCount := t.chunkCount, hdrWidth := t.hdrWidth
      hdrHeight := t.hdrHeight, hdrFmt := t.hdrFmt, hdrInterlace := t.hdrInterlace, result := t.result, cat := t.cat
      draws := t.draws } ∧
    (i = .pfReadHeader → t.catLen = s.catLen) ∧
    s.sameBytes t (fun m a => m = .cat ∧ a < t.catLen.toNat ∧
      (i = .pfNextChunk ∧ s.catLen.toNat ≤ a ∨ i = .pfReadChunks)) ∧
    ∀ k, t.lensAt k = s.lensAt k

/-- The frames of PF_EMIT_SIGNATURE, PF_EMIT_CHUNK and PF_EMIT_IHDR: WPOS, RESULT, the bytes of WBUF from the WPOS before
to the WPOS after, and the report; the two chunk emitters also CHUNK_CRC_CALC; and nothing else. -/
def Obligations.EmitFrames : Prop :=
  ∀ (i : Instr) (s t : State), s.Inv → i = .pfEmitSignature ∨ i = .pfEmitChunk ∨ i = .pfEmitIhdr → exec i s = .next t →
    t = { s.withReport t with wpos := t.wpos, result := t.result, chunkCrcCalc := t.chunkCrcCalc, wbuf := t.wbuf } ∧
    (i = .pfEmitSignature → t.chunkCrcCalc = s.chunkCrcCalc) ∧
    s.wpos.toNat ≤ t.wpos.toNat ∧
    s.sameBytes t (fun m a => m = .wbuf ∧ s.wpos.toNat ≤ a ∧ a < t.wpos.toNat) ∧
    ∀ k, t.lensAt k = s.lensAt k

/-! ### Rules of the whole machine -/

/-- What no command writes: SRC, SRC_LEN, CONFIG and the argument registers; DST at or above DST_CAP; WBUF but by the
emit commands, LENS but by DF_DYN_HEADER and the block commands, CAT but by PF_NEXT_CHUNK and PF_READ_CHUNKS
(10_state.md R32, R38, 20_memory.md R71, R72, R73, R75, R76). -/
def Obligations.EngineWrites : Prop :=
  ∀ (i : Instr) (s t : State), s.Inv → exec i s = .next t →
    t.srcLen = s.srcLen ∧ t.config = s.config ∧ t.arg0 = s.arg0 ∧ t.arg1 = s.arg1 ∧ t.arg2 = s.arg2 ∧
    t.sizes = s.sizes ∧ t.ports = s.ports ∧ t.agenda = s.agenda ∧ t.resets = s.resets ∧
    (∀ a, t.peek .src a = s.peek .src a) ∧
    (∀ a, s.dstCap.toNat ≤ a → t.peek .dst a = s.peek .dst a) ∧
    (i ≠ .pfEmitSignature → i ≠ .pfEmitChunk → i ≠ .pfEmitIhdr → ∀ a, t.peek .wbuf a = s.peek .wbuf a) ∧
    (i ≠ .pfNextChunk → i ≠ .pfReadChunks → ∀ a, t.peek .cat a = s.peek .cat a) ∧
    (i ≠ .dfDynHeader → i ≠ .dfBlock → i ≠ .dfInflate → ∀ k, t.lensAt k = s.lensAt k)

/-- Within one command BIT_POS never decreases, but for the three commands that start a new cursor (10_state.md R31). -/
def Obligations.CursorNeverBack : Prop :=
  ∀ (i : Instr) (s t : State), s.Inv → i ≠ .bcReset → i ≠ .dfZlibHeader → i ≠ .dfInflate → exec i s = .next t →
    s.bitPos.toNat ≤ t.bitPos.toNat
end

