-- ==== Sys2Proof/Laws/Act.lean ====
section
/-! SUPPORT. The micro-step language: what each piece answers, and the rules by which a property of a whole
command body follows from the properties of its micro-steps. -/

namespace Sys2Proof.Machine

variable {α β : Type}

theorem bind_apply (x : Act α) (f : α → Act β) (s : State) :
    (x >>= f) s = match x s with
      | .ok a t => f a t
      | .error r t => .error r t := by
  simp only [Bind.bind, EStateM.bind]
  cases x s <;> rfl

theorem pure_apply (a : α) (s : State) : (pure a : Act α) s = .ok a s := rfl
theorem update_apply (f : State → State) (s : State) : update f s = .ok () (f s) := rfl
theorem getState_apply (s : State) : getState s = .ok s s := rfl
theorem raise_apply (c : ErrCode) (d : Nat) (s : State) : (raise c d : Act α) s = .error ⟨c, BitVec.ofNat 32 d⟩ s := rfl
theorem check_apply (bad : Prop) [Decidable bad] (c : ErrCode) (d : Nat) (s : State) :
    check bad c d s = if bad then .error ⟨c, BitVec.ofNat 32 d⟩ s else .ok () s := rfl

/-- A check that passes is no micro-step. -/
theorem check_bind_pass {bad : Prop} [Decidable bad] (h : ¬bad) (c : ErrCode) (d : Nat) (f : Unit → Act β) (s : State) :
    (check bad c d >>= f) s = f () s := by
  simp [bind_apply, check_apply, h]

/-- A check that fails ends the command. -/
theorem check_bind_fail {bad : Prop} [Decidable bad] (h : bad) (c : ErrCode) (d : Nat) (f : Unit → Act β) (s : State) :
    (check bad c d >>= f) s = .error ⟨c, BitVec.ofNat 32 d⟩ s := by
  simp [bind_apply, check_apply, h]

theorem getState_bind (f : State → Act β) (s : State) : (getState >>= f) s = f s s := rfl
theorem update_bind (g : State → State) (f : Unit → Act β) (s : State) : (update g >>= f) s = f () (g s) := rfl

/-! ### Properties of a body -/

/-- From every state with `P`, the body answers a value and state with `Q` or raises in a state with `E`. -/
def Act.Spec (P : State → Prop) (x : Act α) (Q : α → State → Prop) (E : Raise → State → Prop) : Prop :=
  ∀ s, P s → match x s with
    | .ok a t => Q a t
    | .error r t => E r t

theorem Act.Spec.bind {P : State → Prop} {x : Act α} {Q : α → State → Prop} {E : Raise → State → Prop}
    {f : α → Act β} {R : β → State → Prop} (hx : Act.Spec P x Q E) (hf : ∀ a, Act.Spec (Q a) (f a) R E) :
    Act.Spec P (x >>= f) R E := by
  intro s hs
  have h := hx s hs
  rw [bind_apply]
  cases hxs : x s with
  | ok a t =>
    rw [hxs] at h
    exact hf a t h
  | error r t =>
    rw [hxs] at h
    exact h

theorem Act.Spec.pure {P : State → Prop} {E : Raise → State → Prop} {a : α} {Q : α → State → Prop}
    (h : ∀ s, P s → Q a s) : Act.Spec P (Pure.pure a : Act α) Q E := fun s hs => h s hs

theorem Act.Spec.update {P : State → Prop} {E : Raise → State → Prop} {g : State → State} {Q : Unit → State → Prop}
    (h : ∀ s, P s → Q () (g s)) : Act.Spec P (Machine.update g) Q E := fun s hs => h s hs

/-- Reading the state: the rest may use that the value read is the present state. -/
theorem Act.Spec.get {P : State → Prop} {E : Raise → State → Prop} {f : State → Act β} {R : β → State → Prop}
    (h : ∀ v, Act.Spec (fun s => s = v ∧ P s) (f v) R E) : Act.Spec P (getState >>= f) R E :=
  fun s hs => h s s ⟨rfl, hs⟩

theorem Act.Spec.raise {P : State → Prop} {Q : α → State → Prop} {E : Raise → State → Prop} {c : ErrCode} {d : Nat}
    (h : ∀ s, P s → E ⟨c, BitVec.ofNat 32 d⟩ s) : Act.Spec P (Machine.raise c d : Act α) Q E := fun s hs => h s hs

theorem Act.Spec.check {P : State → Prop} {Q : Unit → State → Prop} {E : Raise → State → Prop} {bad : Prop} [Decidable bad]
    {c : ErrCode} {d : Nat} (hok : ∀ s, P s → ¬bad → Q () s) (herr : ∀ s, P s → bad → E ⟨c, BitVec.ofNat 32 d⟩ s) :
    Act.Spec P (Machine.check bad c d) Q E := by
  intro s hs
  rw [check_apply]
  by_cases h : bad
  · simpa [h] using herr s hs h
  · simpa [h] using hok s hs h

theorem Act.Spec.ite {P : State → Prop} {Q : α → State → Prop} {E : Raise → State → Prop} {c : Prop} [Decidable c]
    {x y : Act α} (hx : c → Act.Spec P x Q E) (hy : ¬c → Act.Spec P y Q E) : Act.Spec P (if c then x else y) Q E := by
  by_cases h : c
  · simpa [h] using hx h
  · simpa [h] using hy h

theorem Act.Spec.pre {P P' : State → Prop} {x : Act α} {Q : α → State → Prop} {E : Raise → State → Prop}
    (h : ∀ s, P' s → P s) (hx : Act.Spec P x Q E) : Act.Spec P' x Q E := fun s hs => hx s (h s hs)

theorem Act.Spec.post {P : State → Prop} {x : Act α} {Q Q' : α → State → Prop} {E E' : Raise → State → Prop}
    (hq : ∀ a s, Q a s → Q' a s) (he : ∀ r s, E r s → E' r s) (hx : Act.Spec P x Q E) : Act.Spec P x Q' E' := by
  intro s hs
  have h := hx s hs
  cases hxs : x s with
  | ok a t =>
    rw [hxs] at h
    exact hq a t h
  | error r t =>
    rw [hxs] at h
    exact he r t h

/-- What holds of every state a command's body ends in. -/
theorem Act.Spec.finish {P : State → Prop} {body : Act Unit} {Q : Unit → State → Prop} {E : Raise → State → Prop}
    {R : State → Prop} (hx : Act.Spec P body Q E) (hq : ∀ s, Q () s → R s.complete) (he : ∀ r s, E r s → R (s.errorEntry r))
    {s t : State} (hs : P s) (h : runCommand body s = .next t) : R t := by
  have hb := hx s hs
  have ht : Machine.finish (body s) = t := by simpa [runCommand] using h
  cases hbs : body s with
  | ok a u =>
    rw [hbs] at hb ht
    exact ht ▸ hq u hb
  | error r u =>
    rw [hbs] at hb ht
    exact ht ▸ he r u hb

/-! ### Frames -/

/-- Every state the body reaches is related to the one it started from. -/
def Act.Keeps (R : State → State → Prop) (x : Act α) : Prop :=
  ∀ s, match x s with
    | .ok _ t => R s t
    | .error _ t => R s t

/-- The relations a frame may be: reflexive and transitive. -/
structure IsFrame (R : State → State → Prop) : Prop where
  refl : ∀ s, R s s
  trans : ∀ s t u, R s t → R t u → R s u

variable {R : State → State → Prop}

theorem Act.Keeps.bind (hR : IsFrame R) {x : Act α} {f : α → Act β} (hx : Act.Keeps R x) (hf : ∀ a, Act.Keeps R (f a)) :
    Act.Keeps R (x >>= f) := by
  intro s
  have h := hx s
  rw [bind_apply]
  cases hxs : x s with
  | ok a t =>
    rw [hxs] at h
    have h2 := hf a t
    cases hft : f a t with
    | ok b u =>
      rw [hft] at h2
      simpa [hft] using hR.trans _ _ _ h h2
    | error r u =>
      rw [hft] at h2
      simpa [hft] using hR.trans _ _ _ h h2
  | error r t =>
    rw [hxs] at h
    exact h

theorem Act.Keeps.pure (hR : IsFrame R) (a : α) : Act.Keeps R (Pure.pure a : Act α) := fun s => hR.refl s
theorem Act.Keeps.get (hR : IsFrame R) : Act.Keeps R getState := fun s => hR.refl s
theorem Act.Keeps.update {g : State → State} (h : ∀ s, R s (g s)) : Act.Keeps R (Machine.update g) := h
theorem Act.Keeps.raise (hR : IsFrame R) (c : ErrCode) (d : Nat) : Act.Keeps R (Machine.raise c d : Act α) :=
  fun s => hR.refl s
theorem Act.Keeps.check (hR : IsFrame R) (bad : Prop) [Decidable bad] (c : ErrCode) (d : Nat) :
    Act.Keeps R (Machine.check bad c d) := by
  intro s
  rw [check_apply]
  by_cases h : bad <;> simp [h, hR.refl]
theorem Act.Keeps.ite {c : Prop} [Decidable c] {x y : Act α} (hx : Act.Keeps R x) (hy : Act.Keeps R y) :
    Act.Keeps R (if c then x else y) := by
  by_cases h : c
  · simpa [h] using hx
  · simpa [h] using hy

/-- What holds between a state and the one a command leaves. -/
theorem Act.Keeps.finish {body : Act Unit} {R' : State → State → Prop} (hx : Act.Keeps R body)
    (hq : ∀ s t, R s t → R' s t.complete) (he : ∀ r s t, R s t → R' s (t.errorEntry r))
    {s t : State} (h : runCommand body s = .next t) : R' s t := by
  have hb := hx s
  have ht : Machine.finish (body s) = t := by simpa [runCommand] using h
  cases hbs : body s with
  | ok a u =>
    rw [hbs] at hb ht
    exact ht ▸ hq s u hb
  | error r u =>
    rw [hbs] at hb ht
    exact ht ▸ he r s u hb

/-- A body that completes. -/
theorem runCommand_ok {body : Act Unit} {s t : State} (h : body s = .ok () t) : runCommand body s = .next t.complete := by
  simp [runCommand, finish, h]

/-- A body that raises. -/
theorem runCommand_error {body : Act Unit} {s t : State} {r : Raise} (h : body s = .error r t) :
    runCommand body s = .next (t.errorEntry r) := by
  simp [runCommand, finish, h]

end Sys2Proof.Machine
end

