-- ==== Sys2Proof/Laws/State.lean ====
section
/-! SUPPORT. What each shared update of the state does to each field, one lemma per field per update. -/

namespace Sys2Proof.Machine

variable (s : State)

/-! ### issue -/

@[simp] theorem State.issue_sizes (w : Word) : (s.issue w).sizes = s.sizes := rfl
@[simp] theorem State.issue_eng (w : Word) : (s.issue w).eng = .busy w := rfl
@[simp] theorem State.issue_status (w : Word) : (s.issue w).status = { s.status with busy := true, done := false, error := false } := rfl
@[simp] theorem State.issue_config (w : Word) : (s.issue w).config = s.config := rfl
@[simp] theorem State.issue_errCode (w : Word) : (s.issue w).errCode = .none := rfl
@[simp] theorem State.issue_errBitPos (w : Word) : (s.issue w).errBitPos = 0 := rfl
@[simp] theorem State.issue_errData (w : Word) : (s.issue w).errData = 0 := rfl
@[simp] theorem State.issue_result (w : Word) : (s.issue w).result = s.result := rfl
@[simp] theorem State.issue_bitPos (w : Word) : (s.issue w).bitPos = s.bitPos := rfl
@[simp] theorem State.issue_srcLen (w : Word) : (s.issue w).srcLen = s.srcLen := rfl
@[simp] theorem State.issue_catLen (w : Word) : (s.issue w).catLen = s.catLen := rfl
@[simp] theorem State.issue_dstCap (w : Word) : (s.issue w).dstCap = s.dstCap := rfl
@[simp] theorem State.issue_outPos (w : Word) : (s.issue w).outPos = s.outPos := rfl
@[simp] theorem State.issue_frPos (w : Word) : (s.issue w).frPos = s.frPos := rfl
@[simp] theorem State.issue_wpos (w : Word) : (s.issue w).wpos = s.wpos := rfl
@[simp] theorem State.issue_arg0 (w : Word) : (s.issue w).arg0 = s.arg0 := rfl
@[simp] theorem State.issue_arg1 (w : Word) : (s.issue w).arg1 = s.arg1 := rfl
@[simp] theorem State.issue_arg2 (w : Word) : (s.issue w).arg2 = s.arg2 := rfl
@[simp] theorem State.issue_block (w : Word) : (s.issue w).block = s.block := rfl
@[simp] theorem State.issue_dyn (w : Word) : (s.issue w).dyn = s.dyn := rfl
@[simp] theorem State.issue_zhdr (w : Word) : (s.issue w).zhdr = s.zhdr := rfl
@[simp] theorem State.issue_adlerCalc (w : Word) : (s.issue w).adlerCalc = s.adlerCalc := rfl
@[simp] theorem State.issue_adlerTrailer (w : Word) : (s.issue w).adlerTrailer = s.adlerTrailer := rfl
@[simp] theorem State.issue_blockCount (w : Word) : (s.issue w).blockCount = s.blockCount := rfl
@[simp] theorem State.issue_chunkLen (w : Word) : (s.issue w).chunkLen = s.chunkLen := rfl
@[simp] theorem State.issue_chunkType (w : Word) : (s.issue w).chunkType = s.chunkType := rfl
@[simp] theorem State.issue_chunkCrc (w : Word) : (s.issue w).chunkCrc = s.chunkCrc := rfl
@[simp] theorem State.issue_chunkCrcCalc (w : Word) : (s.issue w).chunkCrcCalc = s.chunkCrcCalc := rfl
@[simp] theorem State.issue_chunkClass (w : Word) : (s.issue w).chunkClass = s.chunkClass := rfl
@[simp] theorem State.issue_chunkCount (w : Word) : (s.issue w).chunkCount = s.chunkCount := rfl
@[simp] theorem State.issue_hdrWidth (w : Word) : (s.issue w).hdrWidth = s.hdrWidth := rfl
@[simp] theorem State.issue_hdrHeight (w : Word) : (s.issue w).hdrHeight = s.hdrHeight := rfl
@[simp] theorem State.issue_hdrFmt (w : Word) : (s.issue w).hdrFmt = s.hdrFmt := rfl
@[simp] theorem State.issue_hdrInterlace (w : Word) : (s.issue w).hdrInterlace = s.hdrInterlace := rfl
@[simp] theorem State.issue_dataSize (w : Word) : (s.issue w).dataSize = s.dataSize := rfl
@[simp] theorem State.issue_cl (w : Word) : (s.issue w).cl = s.cl := rfl
@[simp] theorem State.issue_ll (w : Word) : (s.issue w).ll = s.ll := rfl
@[simp] theorem State.issue_dist (w : Word) : (s.issue w).dist = s.dist := rfl
@[simp] theorem State.issue_src (w : Word) : (s.issue w).src = s.src := rfl
@[simp] theorem State.issue_cat (w : Word) : (s.issue w).cat = s.cat := rfl
@[simp] theorem State.issue_dst (w : Word) : (s.issue w).dst = s.dst := rfl
@[simp] theorem State.issue_wbuf (w : Word) : (s.issue w).wbuf = s.wbuf := rfl
@[simp] theorem State.issue_lens (w : Word) : (s.issue w).lens = s.lens := rfl
@[simp] theorem State.issue_ports (w : Word) : (s.issue w).ports = s.ports := rfl
@[simp] theorem State.issue_agenda (w : Word) : (s.issue w).agenda = s.agenda := rfl
@[simp] theorem State.issue_resets (w : Word) : (s.issue w).resets = s.resets := rfl
@[simp] theorem State.issue_draws (w : Word) : (s.issue w).draws = s.draws := rfl

/-! ### complete -/

@[simp] theorem State.complete_sizes : s.complete.sizes = s.sizes := rfl
@[simp] theorem State.complete_eng : s.complete.eng = .idle := rfl
@[simp] theorem State.complete_status : s.complete.status = { s.status with busy := false, done := true } := rfl
@[simp] theorem State.complete_config : s.complete.config = s.config := rfl
@[simp] theorem State.complete_errCode : s.complete.errCode = s.errCode := rfl
@[simp] theorem State.complete_errBitPos : s.complete.errBitPos = s.errBitPos := rfl
@[simp] theorem State.complete_errData : s.complete.errData = s.errData := rfl
@[simp] theorem State.complete_result : s.complete.result = s.result := rfl
@[simp] theorem State.complete_bitPos : s.complete.bitPos = s.bitPos := rfl
@[simp] theorem State.complete_srcLen : s.complete.srcLen = s.srcLen := rfl
@[simp] theorem State.complete_catLen : s.complete.catLen = s.catLen := rfl
@[simp] theorem State.complete_dstCap : s.complete.dstCap = s.dstCap := rfl
@[simp] theorem State.complete_outPos : s.complete.outPos = s.outPos := rfl
@[simp] theorem State.complete_frPos : s.complete.frPos = s.frPos := rfl
@[simp] theorem State.complete_wpos : s.complete.wpos = s.wpos := rfl
@[simp] theorem State.complete_arg0 : s.complete.arg0 = s.arg0 := rfl
@[simp] theorem State.complete_arg1 : s.complete.arg1 = s.arg1 := rfl
@[simp] theorem State.complete_arg2 : s.complete.arg2 = s.arg2 := rfl
@[simp] theorem State.complete_block : s.complete.block = s.block := rfl
@[simp] theorem State.complete_dyn : s.complete.dyn = s.dyn := rfl
@[simp] theorem State.complete_zhdr : s.complete.zhdr = s.zhdr := rfl
@[simp] theorem State.complete_adlerCalc : s.complete.adlerCalc = s.adlerCalc := rfl
@[simp] theorem State.complete_adlerTrailer : s.complete.adlerTrailer = s.adlerTrailer := rfl
@[simp] theorem State.complete_blockCount : s.complete.blockCount = s.blockCount := rfl
@[simp] theorem State.complete_chunkLen : s.complete.chunkLen = s.chunkLen := rfl
@[simp] theorem State.complete_chunkType : s.complete.chunkType = s.chunkType := rfl
@[simp] theorem State.complete_chunkCrc : s.complete.chunkCrc = s.chunkCrc := rfl
@[simp] theorem State.complete_chunkCrcCalc : s.complete.chunkCrcCalc = s.chunkCrcCalc := rfl
@[simp] theorem State.complete_chunkClass : s.complete.chunkClass = s.chunkClass := rfl
@[simp] theorem State.complete_chunkCount : s.complete.chunkCount = s.chunkCount := rfl
@[simp] theorem State.complete_hdrWidth : s.complete.hdrWidth = s.hdrWidth := rfl
@[simp] theorem State.complete_hdrHeight : s.complete.hdrHeight = s.hdrHeight := rfl
@[simp] theorem State.complete_hdrFmt : s.complete.hdrFmt = s.hdrFmt := rfl
@[simp] theorem State.complete_hdrInterlace : s.complete.hdrInterlace = s.hdrInterlace := rfl
@[simp] theorem State.complete_dataSize : s.complete.dataSize = s.dataSize := rfl
@[simp] theorem State.complete_cl : s.complete.cl = s.cl := rfl
@[simp] theorem State.complete_ll : s.complete.ll = s.ll := rfl
@[simp] theorem State.complete_dist : s.complete.dist = s.dist := rfl
@[simp] theorem State.complete_src : s.complete.src = s.src := rfl
@[simp] theorem State.complete_cat : s.complete.cat = s.cat := rfl
@[simp] theorem State.complete_dst : s.complete.dst = s.dst := rfl
@[simp] theorem State.complete_wbuf : s.complete.wbuf = s.wbuf := rfl
@[simp] theorem State.complete_lens : s.complete.lens = s.lens := rfl
@[simp] theorem State.complete_ports : s.complete.ports = s.ports := rfl
@[simp] theorem State.complete_agenda : s.complete.agenda = s.agenda := rfl
@[simp] theorem State.complete_resets : s.complete.resets = s.resets := rfl
@[simp] theorem State.complete_draws : s.complete.draws = s.draws := rfl

/-! ### errorEntry -/

@[simp] theorem State.errorEntry_sizes (r : Raise) : (s.errorEntry r).sizes = s.sizes := rfl
@[simp] theorem State.errorEntry_eng (r : Raise) : (s.errorEntry r).eng = .idle := rfl
@[simp] theorem State.errorEntry_status (r : Raise) : (s.errorEntry r).status = { s.status with error := true, done := true, busy := false } := rfl
@[simp] theorem State.errorEntry_config (r : Raise) : (s.errorEntry r).config = s.config := rfl
@[simp] theorem State.errorEntry_errCode (r : Raise) : (s.errorEntry r).errCode = r.code := rfl
@[simp] theorem State.errorEntry_errBitPos (r : Raise) : (s.errorEntry r).errBitPos = s.bitPos := rfl
@[simp] theorem State.errorEntry_errData (r : Raise) : (s.errorEntry r).errData = r.data := rfl
@[simp] theorem State.errorEntry_result (r : Raise) : (s.errorEntry r).result = s.result := rfl
@[simp] theorem State.errorEntry_bitPos (r : Raise) : (s.errorEntry r).bitPos = s.bitPos := rfl
@[simp] theorem State.errorEntry_srcLen (r : Raise) : (s.errorEntry r).srcLen = s.srcLen := rfl
@[simp] theorem State.errorEntry_catLen (r : Raise) : (s.errorEntry r).catLen = s.catLen := rfl
@[simp] theorem State.errorEntry_dstCap (r : Raise) : (s.errorEntry r).dstCap = s.dstCap := rfl
@[simp] theorem State.errorEntry_outPos (r : Raise) : (s.errorEntry r).outPos = s.outPos := rfl
@[simp] theorem State.errorEntry_frPos (r : Raise) : (s.errorEntry r).frPos = s.frPos := rfl
@[simp] theorem State.errorEntry_wpos (r : Raise) : (s.errorEntry r).wpos = s.wpos := rfl
@[simp] theorem State.errorEntry_arg0 (r : Raise) : (s.errorEntry r).arg0 = s.arg0 := rfl
@[simp] theorem State.errorEntry_arg1 (r : Raise) : (s.errorEntry r).arg1 = s.arg1 := rfl
@[simp] theorem State.errorEntry_arg2 (r : Raise) : (s.errorEntry r).arg2 = s.arg2 := rfl
@[simp] theorem State.errorEntry_block (r : Raise) : (s.errorEntry r).block = s.block := rfl
@[simp] theorem State.errorEntry_dyn (r : Raise) : (s.errorEntry r).dyn = s.dyn := rfl
@[simp] theorem State.errorEntry_zhdr (r : Raise) : (s.errorEntry r).zhdr = s.zhdr := rfl
@[simp] theorem State.errorEntry_adlerCalc (r : Raise) : (s.errorEntry r).adlerCalc = s.adlerCalc := rfl
@[simp] theorem State.errorEntry_adlerTrailer (r : Raise) : (s.errorEntry r).adlerTrailer = s.adlerTrailer := rfl
@[simp] theorem State.errorEntry_blockCount (r : Raise) : (s.errorEntry r).blockCount = s.blockCount := rfl
@[simp] theorem State.errorEntry_chunkLen (r : Raise) : (s.errorEntry r).chunkLen = s.chunkLen := rfl
@[simp] theorem State.errorEntry_chunkType (r : Raise) : (s.errorEntry r).chunkType = s.chunkType := rfl
@[simp] theorem State.errorEntry_chunkCrc (r : Raise) : (s.errorEntry r).chunkCrc = s.chunkCrc := rfl
@[simp] theorem State.errorEntry_chunkCrcCalc (r : Raise) : (s.errorEntry r).chunkCrcCalc = s.chunkCrcCalc := rfl
@[simp] theorem State.errorEntry_chunkClass (r : Raise) : (s.errorEntry r).chunkClass = s.chunkClass := rfl
@[simp] theorem State.errorEntry_chunkCount (r : Raise) : (s.errorEntry r).chunkCount = s.chunkCount := rfl
@[simp] theorem State.errorEntry_hdrWidth (r : Raise) : (s.errorEntry r).hdrWidth = s.hdrWidth := rfl
@[simp] theorem State.errorEntry_hdrHeight (r : Raise) : (s.errorEntry r).hdrHeight = s.hdrHeight := rfl
@[simp] theorem State.errorEntry_hdrFmt (r : Raise) : (s.errorEntry r).hdrFmt = s.hdrFmt := rfl
@[simp] theorem State.errorEntry_hdrInterlace (r : Raise) : (s.errorEntry r).hdrInterlace = s.hdrInterlace := rfl
@[simp] theorem State.errorEntry_dataSize (r : Raise) : (s.errorEntry r).dataSize = s.dataSize := rfl
@[simp] theorem State.errorEntry_cl (r : Raise) : (s.errorEntry r).cl = s.cl := rfl
@[simp] theorem State.errorEntry_ll (r : Raise) : (s.errorEntry r).ll = s.ll := rfl
@[simp] theorem State.errorEntry_dist (r : Raise) : (s.errorEntry r).dist = s.dist := rfl
@[simp] theorem State.errorEntry_src (r : Raise) : (s.errorEntry r).src = s.src := rfl
@[simp] theorem State.errorEntry_cat (r : Raise) : (s.errorEntry r).cat = s.cat := rfl
@[simp] theorem State.errorEntry_dst (r : Raise) : (s.errorEntry r).dst = s.dst := rfl
@[simp] theorem State.errorEntry_wbuf (r : Raise) : (s.errorEntry r).wbuf = s.wbuf := rfl
@[simp] theorem State.errorEntry_lens (r : Raise) : (s.errorEntry r).lens = s.lens := rfl
@[simp] theorem State.errorEntry_ports (r : Raise) : (s.errorEntry r).ports = s.ports := rfl
@[simp] theorem State.errorEntry_agenda (r : Raise) : (s.errorEntry r).agenda = s.agenda := rfl
@[simp] theorem State.errorEntry_resets (r : Raise) : (s.errorEntry r).resets = s.resets := rfl
@[simp] theorem State.errorEntry_draws (r : Raise) : (s.errorEntry r).draws = s.draws := rfl

/-! ### setBitPos -/

@[simp] theorem State.setBitPos_sizes (p : Nat) : (State.setBitPos p s).sizes = s.sizes := rfl
@[simp] theorem State.setBitPos_eng (p : Nat) : (State.setBitPos p s).eng = s.eng := rfl
@[simp] theorem State.setBitPos_status (p : Nat) : (State.setBitPos p s).status = s.status := rfl
@[simp] theorem State.setBitPos_config (p : Nat) : (State.setBitPos p s).config = s.config := rfl
@[simp] theorem State.setBitPos_errCode (p : Nat) : (State.setBitPos p s).errCode = s.errCode := rfl
@[simp] theorem State.setBitPos_errBitPos (p : Nat) : (State.setBitPos p s).errBitPos = s.errBitPos := rfl
@[simp] theorem State.setBitPos_errData (p : Nat) : (State.setBitPos p s).errData = s.errData := rfl
@[simp] theorem State.setBitPos_result (p : Nat) : (State.setBitPos p s).result = s.result := rfl
@[simp] theorem State.setBitPos_bitPos (p : Nat) : (State.setBitPos p s).bitPos = BitVec.ofNat 32 p := rfl
@[simp] theorem State.setBitPos_srcLen (p : Nat) : (State.setBitPos p s).srcLen = s.srcLen := rfl
@[simp] theorem State.setBitPos_catLen (p : Nat) : (State.setBitPos p s).catLen = s.catLen := rfl
@[simp] theorem State.setBitPos_dstCap (p : Nat) : (State.setBitPos p s).dstCap = s.dstCap := rfl
@[simp] theorem State.setBitPos_outPos (p : Nat) : (State.setBitPos p s).outPos = s.outPos := rfl
@[simp] theorem State.setBitPos_frPos (p : Nat) : (State.setBitPos p s).frPos = s.frPos := rfl
@[simp] theorem State.setBitPos_wpos (p : Nat) : (State.setBitPos p s).wpos = s.wpos := rfl
@[simp] theorem State.setBitPos_arg0 (p : Nat) : (State.setBitPos p s).arg0 = s.arg0 := rfl
@[simp] theorem State.setBitPos_arg1 (p : Nat) : (State.setBitPos p s).arg1 = s.arg1 := rfl
@[simp] theorem State.setBitPos_arg2 (p : Nat) : (State.setBitPos p s).arg2 = s.arg2 := rfl
@[simp] theorem State.setBitPos_block (p : Nat) : (State.setBitPos p s).block = s.block := rfl
@[simp] theorem State.setBitPos_dyn (p : Nat) : (State.setBitPos p s).dyn = s.dyn := rfl
@[simp] theorem State.setBitPos_zhdr (p : Nat) : (State.setBitPos p s).zhdr = s.zhdr := rfl
@[simp] theorem State.setBitPos_adlerCalc (p : Nat) : (State.setBitPos p s).adlerCalc = s.adlerCalc := rfl
@[simp] theorem State.setBitPos_adlerTrailer (p : Nat) : (State.setBitPos p s).adlerTrailer = s.adlerTrailer := rfl
@[simp] theorem State.setBitPos_blockCount (p : Nat) : (State.setBitPos p s).blockCount = s.blockCount := rfl
@[simp] theorem State.setBitPos_chunkLen (p : Nat) : (State.setBitPos p s).chunkLen = s.chunkLen := rfl
@[simp] theorem State.setBitPos_chunkType (p : Nat) : (State.setBitPos p s).chunkType = s.chunkType := rfl
@[simp] theorem State.setBitPos_chunkCrc (p : Nat) : (State.setBitPos p s).chunkCrc = s.chunkCrc := rfl
@[simp] theorem State.setBitPos_chunkCrcCalc (p : Nat) : (State.setBitPos p s).chunkCrcCalc = s.chunkCrcCalc := rfl
@[simp] theorem State.setBitPos_chunkClass (p : Nat) : (State.setBitPos p s).chunkClass = s.chunkClass := rfl
@[simp] theorem State.setBitPos_chunkCount (p : Nat) : (State.setBitPos p s).chunkCount = s.chunkCount := rfl
@[simp] theorem State.setBitPos_hdrWidth (p : Nat) : (State.setBitPos p s).hdrWidth = s.hdrWidth := rfl
@[simp] theorem State.setBitPos_hdrHeight (p : Nat) : (State.setBitPos p s).hdrHeight = s.hdrHeight := rfl
@[simp] theorem State.setBitPos_hdrFmt (p : Nat) : (State.setBitPos p s).hdrFmt = s.hdrFmt := rfl
@[simp] theorem State.setBitPos_hdrInterlace (p : Nat) : (State.setBitPos p s).hdrInterlace = s.hdrInterlace := rfl
@[simp] theorem State.setBitPos_dataSize (p : Nat) : (State.setBitPos p s).dataSize = s.dataSize := rfl
@[simp] theorem State.setBitPos_cl (p : Nat) : (State.setBitPos p s).cl = s.cl := rfl
@[simp] theorem State.setBitPos_ll (p : Nat) : (State.setBitPos p s).ll = s.ll := rfl
@[simp] theorem State.setBitPos_dist (p : Nat) : (State.setBitPos p s).dist = s.dist := rfl
@[simp] theorem State.setBitPos_src (p : Nat) : (State.setBitPos p s).src = s.src := rfl
@[simp] theorem State.setBitPos_cat (p : Nat) : (State.setBitPos p s).cat = s.cat := rfl
@[simp] theorem State.setBitPos_dst (p : Nat) : (State.setBitPos p s).dst = s.dst := rfl
@[simp] theorem State.setBitPos_wbuf (p : Nat) : (State.setBitPos p s).wbuf = s.wbuf := rfl
@[simp] theorem State.setBitPos_lens (p : Nat) : (State.setBitPos p s).lens = s.lens := rfl
@[simp] theorem State.setBitPos_ports (p : Nat) : (State.setBitPos p s).ports = s.ports := rfl
@[simp] theorem State.setBitPos_agenda (p : Nat) : (State.setBitPos p s).agenda = s.agenda := rfl
@[simp] theorem State.setBitPos_resets (p : Nat) : (State.setBitPos p s).resets = s.resets := rfl
@[simp] theorem State.setBitPos_draws (p : Nat) : (State.setBitPos p s).draws = s.draws := rfl

/-! ### setOutPos -/

@[simp] theorem State.setOutPos_sizes (p : Nat) : (State.setOutPos p s).sizes = s.sizes := rfl
@[simp] theorem State.setOutPos_eng (p : Nat) : (State.setOutPos p s).eng = s.eng := rfl
@[simp] theorem State.setOutPos_status (p : Nat) : (State.setOutPos p s).status = s.status := rfl
@[simp] theorem State.setOutPos_config (p : Nat) : (State.setOutPos p s).config = s.config := rfl
@[simp] theorem State.setOutPos_errCode (p : Nat) : (State.setOutPos p s).errCode = s.errCode := rfl
@[simp] theorem State.setOutPos_errBitPos (p : Nat) : (State.setOutPos p s).errBitPos = s.errBitPos := rfl
@[simp] theorem State.setOutPos_errData (p : Nat) : (State.setOutPos p s).errData = s.errData := rfl
@[simp] theorem State.setOutPos_result (p : Nat) : (State.setOutPos p s).result = s.result := rfl
@[simp] theorem State.setOutPos_bitPos (p : Nat) : (State.setOutPos p s).bitPos = s.bitPos := rfl
@[simp] theorem State.setOutPos_srcLen (p : Nat) : (State.setOutPos p s).srcLen = s.srcLen := rfl
@[simp] theorem State.setOutPos_catLen (p : Nat) : (State.setOutPos p s).catLen = s.catLen := rfl
@[simp] theorem State.setOutPos_dstCap (p : Nat) : (State.setOutPos p s).dstCap = s.dstCap := rfl
@[simp] theorem State.setOutPos_outPos (p : Nat) : (State.setOutPos p s).outPos = BitVec.ofNat 32 p := rfl
@[simp] theorem State.setOutPos_frPos (p : Nat) : (State.setOutPos p s).frPos = s.frPos := rfl
@[simp] theorem State.setOutPos_wpos (p : Nat) : (State.setOutPos p s).wpos = s.wpos := rfl
@[simp] theorem State.setOutPos_arg0 (p : Nat) : (State.setOutPos p s).arg0 = s.arg0 := rfl
@[simp] theorem State.setOutPos_arg1 (p : Nat) : (State.setOutPos p s).arg1 = s.arg1 := rfl
@[simp] theorem State.setOutPos_arg2 (p : Nat) : (State.setOutPos p s).arg2 = s.arg2 := rfl
@[simp] theorem State.setOutPos_block (p : Nat) : (State.setOutPos p s).block = s.block := rfl
@[simp] theorem State.setOutPos_dyn (p : Nat) : (State.setOutPos p s).dyn = s.dyn := rfl
@[simp] theorem State.setOutPos_zhdr (p : Nat) : (State.setOutPos p s).zhdr = s.zhdr := rfl
@[simp] theorem State.setOutPos_adlerCalc (p : Nat) : (State.setOutPos p s).adlerCalc = s.adlerCalc := rfl
@[simp] theorem State.setOutPos_adlerTrailer (p : Nat) : (State.setOutPos p s).adlerTrailer = s.adlerTrailer := rfl
@[simp] theorem State.setOutPos_blockCount (p : Nat) : (State.setOutPos p s).blockCount = s.blockCount := rfl
@[simp] theorem State.setOutPos_chunkLen (p : Nat) : (State.setOutPos p s).chunkLen = s.chunkLen := rfl
@[simp] theorem State.setOutPos_chunkType (p : Nat) : (State.setOutPos p s).chunkType = s.chunkType := rfl
@[simp] theorem State.setOutPos_chunkCrc (p : Nat) : (State.setOutPos p s).chunkCrc = s.chunkCrc := rfl
@[simp] theorem State.setOutPos_chunkCrcCalc (p : Nat) : (State.setOutPos p s).chunkCrcCalc = s.chunkCrcCalc := rfl
@[simp] theorem State.setOutPos_chunkClass (p : Nat) : (State.setOutPos p s).chunkClass = s.chunkClass := rfl
@[simp] theorem State.setOutPos_chunkCount (p : Nat) : (State.setOutPos p s).chunkCount = s.chunkCount := rfl
@[simp] theorem State.setOutPos_hdrWidth (p : Nat) : (State.setOutPos p s).hdrWidth = s.hdrWidth := rfl
@[simp] theorem State.setOutPos_hdrHeight (p : Nat) : (State.setOutPos p s).hdrHeight = s.hdrHeight := rfl
@[simp] theorem State.setOutPos_hdrFmt (p : Nat) : (State.setOutPos p s).hdrFmt = s.hdrFmt := rfl
@[simp] theorem State.setOutPos_hdrInterlace (p : Nat) : (State.setOutPos p s).hdrInterlace = s.hdrInterlace := rfl
@[simp] theorem State.setOutPos_dataSize (p : Nat) : (State.setOutPos p s).dataSize = s.dataSize := rfl
@[simp] theorem State.setOutPos_cl (p : Nat) : (State.setOutPos p s).cl = s.cl := rfl
@[simp] theorem State.setOutPos_ll (p : Nat) : (State.setOutPos p s).ll = s.ll := rfl
@[simp] theorem State.setOutPos_dist (p : Nat) : (State.setOutPos p s).dist = s.dist := rfl
@[simp] theorem State.setOutPos_src (p : Nat) : (State.setOutPos p s).src = s.src := rfl
@[simp] theorem State.setOutPos_cat (p : Nat) : (State.setOutPos p s).cat = s.cat := rfl
@[simp] theorem State.setOutPos_dst (p : Nat) : (State.setOutPos p s).dst = s.dst := rfl
@[simp] theorem State.setOutPos_wbuf (p : Nat) : (State.setOutPos p s).wbuf = s.wbuf := rfl
@[simp] theorem State.setOutPos_lens (p : Nat) : (State.setOutPos p s).lens = s.lens := rfl
@[simp] theorem State.setOutPos_ports (p : Nat) : (State.setOutPos p s).ports = s.ports := rfl
@[simp] theorem State.setOutPos_agenda (p : Nat) : (State.setOutPos p s).agenda = s.agenda := rfl
@[simp] theorem State.setOutPos_resets (p : Nat) : (State.setOutPos p s).resets = s.resets := rfl
@[simp] theorem State.setOutPos_draws (p : Nat) : (State.setOutPos p s).draws = s.draws := rfl

/-! ### setLens -/

@[simp] theorem State.setLens_sizes (i : Nat) (v : Nibble) : (s.setLens i v).sizes = s.sizes := rfl
@[simp] theorem State.setLens_eng (i : Nat) (v : Nibble) : (s.setLens i v).eng = s.eng := rfl
@[simp] theorem State.setLens_status (i : Nat) (v : Nibble) : (s.setLens i v).status = s.status := rfl
@[simp] theorem State.setLens_config (i : Nat) (v : Nibble) : (s.setLens i v).config = s.config := rfl
@[simp] theorem State.setLens_errCode (i : Nat) (v : Nibble) : (s.setLens i v).errCode = s.errCode := rfl
@[simp] theorem State.setLens_errBitPos (i : Nat) (v : Nibble) : (s.setLens i v).errBitPos = s.errBitPos := rfl
@[simp] theorem State.setLens_errData (i : Nat) (v : Nibble) : (s.setLens i v).errData = s.errData := rfl
@[simp] theorem State.setLens_result (i : Nat) (v : Nibble) : (s.setLens i v).result = s.result := rfl
@[simp] theorem State.setLens_bitPos (i : Nat) (v : Nibble) : (s.setLens i v).bitPos = s.bitPos := rfl
@[simp] theorem State.setLens_srcLen (i : Nat) (v : Nibble) : (s.setLens i v).srcLen = s.srcLen := rfl
@[simp] theorem State.setLens_catLen (i : Nat) (v : Nibble) : (s.setLens i v).catLen = s.catLen := rfl
@[simp] theorem State.setLens_dstCap (i : Nat) (v : Nibble) : (s.setLens i v).dstCap = s.dstCap := rfl
@[simp] theorem State.setLens_outPos (i : Nat) (v : Nibble) : (s.setLens i v).outPos = s.outPos := rfl
@[simp] theorem State.setLens_frPos (i : Nat) (v : Nibble) : (s.setLens i v).frPos = s.frPos := rfl
@[simp] theorem State.setLens_wpos (i : Nat) (v : Nibble) : (s.setLens i v).wpos = s.wpos := rfl
@[simp] theorem State.setLens_arg0 (i : Nat) (v : Nibble) : (s.setLens i v).arg0 = s.arg0 := rfl
@[simp] theorem State.setLens_arg1 (i : Nat) (v : Nibble) : (s.setLens i v).arg1 = s.arg1 := rfl
@[simp] theorem State.setLens_arg2 (i : Nat) (v : Nibble) : (s.setLens i v).arg2 = s.arg2 := rfl
@[simp] theorem State.setLens_block (i : Nat) (v : Nibble) : (s.setLens i v).block = s.block := rfl
@[simp] theorem State.setLens_dyn (i : Nat) (v : Nibble) : (s.setLens i v).dyn = s.dyn := rfl
@[simp] theorem State.setLens_zhdr (i : Nat) (v : Nibble) : (s.setLens i v).zhdr = s.zhdr := rfl
@[simp] theorem State.setLens_adlerCalc (i : Nat) (v : Nibble) : (s.setLens i v).adlerCalc = s.adlerCalc := rfl
@[simp] theorem State.setLens_adlerTrailer (i : Nat) (v : Nibble) : (s.setLens i v).adlerTrailer = s.adlerTrailer := rfl
@[simp] theorem State.setLens_blockCount (i : Nat) (v : Nibble) : (s.setLens i v).blockCount = s.blockCount := rfl
@[simp] theorem State.setLens_chunkLen (i : Nat) (v : Nibble) : (s.setLens i v).chunkLen = s.chunkLen := rfl
@[simp] theorem State.setLens_chunkType (i : Nat) (v : Nibble) : (s.setLens i v).chunkType = s.chunkType := rfl
@[simp] theorem State.setLens_chunkCrc (i : Nat) (v : Nibble) : (s.setLens i v).chunkCrc = s.chunkCrc := rfl
@[simp] theorem State.setLens_chunkCrcCalc (i : Nat) (v : Nibble) : (s.setLens i v).chunkCrcCalc = s.chunkCrcCalc := rfl
@[simp] theorem State.setLens_chunkClass (i : Nat) (v : Nibble) : (s.setLens i v).chunkClass = s.chunkClass := rfl
@[simp] theorem State.setLens_chunkCount (i : Nat) (v : Nibble) : (s.setLens i v).chunkCount = s.chunkCount := rfl
@[simp] theorem State.setLens_hdrWidth (i : Nat) (v : Nibble) : (s.setLens i v).hdrWidth = s.hdrWidth := rfl
@[simp] theorem State.setLens_hdrHeight (i : Nat) (v : Nibble) : (s.setLens i v).hdrHeight = s.hdrHeight := rfl
@[simp] theorem State.setLens_hdrFmt (i : Nat) (v : Nibble) : (s.setLens i v).hdrFmt = s.hdrFmt := rfl
@[simp] theorem State.setLens_hdrInterlace (i : Nat) (v : Nibble) : (s.setLens i v).hdrInterlace = s.hdrInterlace := rfl
@[simp] theorem State.setLens_dataSize (i : Nat) (v : Nibble) : (s.setLens i v).dataSize = s.dataSize := rfl
@[simp] theorem State.setLens_cl (i : Nat) (v : Nibble) : (s.setLens i v).cl = s.cl := rfl
@[simp] theorem State.setLens_ll (i : Nat) (v : Nibble) : (s.setLens i v).ll = s.ll := rfl
@[simp] theorem State.setLens_dist (i : Nat) (v : Nibble) : (s.setLens i v).dist = s.dist := rfl
@[simp] theorem State.setLens_src (i : Nat) (v : Nibble) : (s.setLens i v).src = s.src := rfl
@[simp] theorem State.setLens_cat (i : Nat) (v : Nibble) : (s.setLens i v).cat = s.cat := rfl
@[simp] theorem State.setLens_dst (i : Nat) (v : Nibble) : (s.setLens i v).dst = s.dst := rfl
@[simp] theorem State.setLens_wbuf (i : Nat) (v : Nibble) : (s.setLens i v).wbuf = s.wbuf := rfl
@[simp] theorem State.setLens_lens (i : Nat) (v : Nibble) : (s.setLens i v).lens = writeCell s.lens i v := rfl
@[simp] theorem State.setLens_ports (i : Nat) (v : Nibble) : (s.setLens i v).ports = s.ports := rfl
@[simp] theorem State.setLens_agenda (i : Nat) (v : Nibble) : (s.setLens i v).agenda = s.agenda := rfl
@[simp] theorem State.setLens_resets (i : Nat) (v : Nibble) : (s.setLens i v).resets = s.resets := rfl
@[simp] theorem State.setLens_draws (i : Nat) (v : Nibble) : (s.setLens i v).draws = s.draws := rfl

/-! ### poke -/

@[simp] theorem State.poke_sizes (m : Space) (a : Nat) (v : Byte) : (s.poke m a v).sizes = s.sizes := by cases m <;> rfl
@[simp] theorem State.poke_eng (m : Space) (a : Nat) (v : Byte) : (s.poke m a v).eng = s.eng := by cases m <;> rfl
@[simp] theorem State.poke_status (m : Space) (a : Nat) (v : Byte) : (s.poke m a v).status = s.status := by cases m <;> rfl
@[simp] theorem State.poke_config (m : Space) (a : Nat) (v : Byte) : (s.poke m a v).config = s.config := by cases m <;> rfl
@[simp] theorem State.poke_errCode (m : Space) (a : Nat) (v : Byte) : (s.poke m a v).errCode = s.errCode := by cases m <;> rfl
@[simp] theorem State.poke_errBitPos (m : Space) (a : Nat) (v : Byte) : (s.poke m a v).errBitPos = s.errBitPos := by cases m <;> rfl
@[simp] theorem State.poke_errData (m : Space) (a : Nat) (v : Byte) : (s.poke m a v).errData = s.errData := by cases m <;> rfl
@[simp] theorem State.poke_result (m : Space) (a : Nat) (v : Byte) : (s.poke m a v).result = s.result := by cases m <;> rfl
@[simp] theorem State.poke_bitPos (m : Space) (a : Nat) (v : Byte) : (s.poke m a v).bitPos = s.bitPos := by cases m <;> rfl
@[simp] theorem State.poke_srcLen (m : Space) (a : Nat) (v : Byte) : (s.poke m a v).srcLen = s.srcLen := by cases m <;> rfl
@[simp] theorem State.poke_catLen (m : Space) (a : Nat) (v : Byte) : (s.poke m a v).catLen = s.catLen := by cases m <;> rfl
@[simp] theorem State.poke_dstCap (m : Space) (a : Nat) (v : Byte) : (s.poke m a v).dstCap = s.dstCap := by cases m <;> rfl
@[simp] theorem State.poke_outPos (m : Space) (a : Nat) (v : Byte) : (s.poke m a v).outPos = s.outPos := by cases m <;> rfl
@[simp] theorem State.poke_frPos (m : Space) (a : Nat) (v : Byte) : (s.poke m a v).frPos = s.frPos := by cases m <;> rfl
@[simp] theorem State.poke_wpos (m : Space) (a : Nat) (v : Byte) : (s.poke m a v).wpos = s.wpos := by cases m <;> rfl
@[simp] theorem State.poke_arg0 (m : Space) (a : Nat) (v : Byte) : (s.poke m a v).arg0 = s.arg0 := by cases m <;> rfl
@[simp] theorem State.poke_arg1 (m : Space) (a : Nat) (v : Byte) : (s.poke m a v).arg1 = s.arg1 := by cases m <;> rfl
@[simp] theorem State.poke_arg2 (m : Space) (a : Nat) (v : Byte) : (s.poke m a v).arg2 = s.arg2 := by cases m <;> rfl
@[simp] theorem State.poke_block (m : Space) (a : Nat) (v : Byte) : (s.poke m a v).block = s.block := by cases m <;> rfl
@[simp] theorem State.poke_dyn (m : Space) (a : Nat) (v : Byte) : (s.poke m a v).dyn = s.dyn := by cases m <;> rfl
@[simp] theorem State.poke_zhdr (m : Space) (a : Nat) (v : Byte) : (s.poke m a v).zhdr = s.zhdr := by cases m <;> rfl
@[simp] theorem State.poke_adlerCalc (m : Space) (a : Nat) (v : Byte) : (s.poke m a v).adlerCalc = s.adlerCalc := by cases m <;> rfl
@[simp] theorem State.poke_adlerTrailer (m : Space) (a : Nat) (v : Byte) : (s.poke m a v).adlerTrailer = s.adlerTrailer := by cases m <;> rfl
@[simp] theorem State.poke_blockCount (m : Space) (a : Nat) (v : Byte) : (s.poke m a v).blockCount = s.blockCount := by cases m <;> rfl
@[simp] theorem State.poke_chunkLen (m : Space) (a : Nat) (v : Byte) : (s.poke m a v).chunkLen = s.chunkLen := by cases m <;> rfl
@[simp] theorem State.poke_chunkType (m : Space) (a : Nat) (v : Byte) : (s.poke m a v).chunkType = s.chunkType := by cases m <;> rfl
@[simp] theorem State.poke_chunkCrc (m : Space) (a : Nat) (v : Byte) : (s.poke m a v).chunkCrc = s.chunkCrc := by cases m <;> rfl
@[simp] theorem State.poke_chunkCrcCalc (m : Space) (a : Nat) (v : Byte) : (s.poke m a v).chunkCrcCalc = s.chunkCrcCalc := by cases m <;> rfl
@[simp] theorem State.poke_chunkClass (m : Space) (a : Nat) (v : Byte) : (s.poke m a v).chunkClass = s.chunkClass := by cases m <;> rfl
@[simp] theorem State.poke_chunkCount (m : Space) (a : Nat) (v : Byte) : (s.poke m a v).chunkCount = s.chunkCount := by cases m <;> rfl
@[simp] theorem State.poke_hdrWidth (m : Space) (a : Nat) (v : Byte) : (s.poke m a v).hdrWidth = s.hdrWidth := by cases m <;> rfl
@[simp] theorem State.poke_hdrHeight (m : Space) (a : Nat) (v : Byte) : (s.poke m a v).hdrHeight = s.hdrHeight := by cases m <;> rfl
@[simp] theorem State.poke_hdrFmt (m : Space) (a : Nat) (v : Byte) : (s.poke m a v).hdrFmt = s.hdrFmt := by cases m <;> rfl
@[simp] theorem State.poke_hdrInterlace (m : Space) (a : Nat) (v : Byte) : (s.poke m a v).hdrInterlace = s.hdrInterlace := by cases m <;> rfl
@[simp] theorem State.poke_dataSize (m : Space) (a : Nat) (v : Byte) : (s.poke m a v).dataSize = s.dataSize := by cases m <;> rfl
@[simp] theorem State.poke_cl (m : Space) (a : Nat) (v : Byte) : (s.poke m a v).cl = s.cl := by cases m <;> rfl
@[simp] theorem State.poke_ll (m : Space) (a : Nat) (v : Byte) : (s.poke m a v).ll = s.ll := by cases m <;> rfl
@[simp] theorem State.poke_dist (m : Space) (a : Nat) (v : Byte) : (s.poke m a v).dist = s.dist := by cases m <;> rfl
@[simp] theorem State.poke_lens (m : Space) (a : Nat) (v : Byte) : (s.poke m a v).lens = s.lens := by cases m <;> rfl
@[simp] theorem State.poke_ports (m : Space) (a : Nat) (v : Byte) : (s.poke m a v).ports = s.ports := by cases m <;> rfl
@[simp] theorem State.poke_agenda (m : Space) (a : Nat) (v : Byte) : (s.poke m a v).agenda = s.agenda := by cases m <;> rfl
@[simp] theorem State.poke_resets (m : Space) (a : Nat) (v : Byte) : (s.poke m a v).resets = s.resets := by cases m <;> rfl
@[simp] theorem State.poke_draws (m : Space) (a : Nat) (v : Byte) : (s.poke m a v).draws = s.draws := by cases m <;> rfl

/-! ### setSlot -/

@[simp] theorem State.setSlot_sizes (t : BuildTarget) (v : Slot) : (s.setSlot t v).sizes = s.sizes := by cases t <;> rfl
@[simp] theorem State.setSlot_eng (t : BuildTarget) (v : Slot) : (s.setSlot t v).eng = s.eng := by cases t <;> rfl
@[simp] theorem State.setSlot_status (t : BuildTarget) (v : Slot) : (s.setSlot t v).status = s.status := by cases t <;> rfl
@[simp] theorem State.setSlot_config (t : BuildTarget) (v : Slot) : (s.setSlot t v).config = s.config := by cases t <;> rfl
@[simp] theorem State.setSlot_errCode (t : BuildTarget) (v : Slot) : (s.setSlot t v).errCode = s.errCode := by cases t <;> rfl
@[simp] theorem State.setSlot_errBitPos (t : BuildTarget) (v : Slot) : (s.setSlot t v).errBitPos = s.errBitPos := by cases t <;> rfl
@[simp] theorem State.setSlot_errData (t : BuildTarget) (v : Slot) : (s.setSlot t v).errData = s.errData := by cases t <;> rfl
@[simp] theorem State.setSlot_result (t : BuildTarget) (v : Slot) : (s.setSlot t v).result = s.result := by cases t <;> rfl
@[simp] theorem State.setSlot_bitPos (t : BuildTarget) (v : Slot) : (s.setSlot t v).bitPos = s.bitPos := by cases t <;> rfl
@[simp] theorem State.setSlot_srcLen (t : BuildTarget) (v : Slot) : (s.setSlot t v).srcLen = s.srcLen := by cases t <;> rfl
@[simp] theorem State.setSlot_catLen (t : BuildTarget) (v : Slot) : (s.setSlot t v).catLen = s.catLen := by cases t <;> rfl
@[simp] theorem State.setSlot_dstCap (t : BuildTarget) (v : Slot) : (s.setSlot t v).dstCap = s.dstCap := by cases t <;> rfl
@[simp] theorem State.setSlot_outPos (t : BuildTarget) (v : Slot) : (s.setSlot t v).outPos = s.outPos := by cases t <;> rfl
@[simp] theorem State.setSlot_frPos (t : BuildTarget) (v : Slot) : (s.setSlot t v).frPos = s.frPos := by cases t <;> rfl
@[simp] theorem State.setSlot_wpos (t : BuildTarget) (v : Slot) : (s.setSlot t v).wpos = s.wpos := by cases t <;> rfl
@[simp] theorem State.setSlot_arg0 (t : BuildTarget) (v : Slot) : (s.setSlot t v).arg0 = s.arg0 := by cases t <;> rfl
@[simp] theorem State.setSlot_arg1 (t : BuildTarget) (v : Slot) : (s.setSlot t v).arg1 = s.arg1 := by cases t <;> rfl
@[simp] theorem State.setSlot_arg2 (t : BuildTarget) (v : Slot) : (s.setSlot t v).arg2 = s.arg2 := by cases t <;> rfl
@[simp] theorem State.setSlot_block (t : BuildTarget) (v : Slot) : (s.setSlot t v).block = s.block := by cases t <;> rfl
@[simp] theorem State.setSlot_dyn (t : BuildTarget) (v : Slot) : (s.setSlot t v).dyn = s.dyn := by cases t <;> rfl
@[simp] theorem State.setSlot_zhdr (t : BuildTarget) (v : Slot) : (s.setSlot t v).zhdr = s.zhdr := by cases t <;> rfl
@[simp] theorem State.setSlot_adlerCalc (t : BuildTarget) (v : Slot) : (s.setSlot t v).adlerCalc = s.adlerCalc := by cases t <;> rfl
@[simp] theorem State.setSlot_adlerTrailer (t : BuildTarget) (v : Slot) : (s.setSlot t v).adlerTrailer = s.adlerTrailer := by cases t <;> rfl
@[simp] theorem State.setSlot_blockCount (t : BuildTarget) (v : Slot) : (s.setSlot t v).blockCount = s.blockCount := by cases t <;> rfl
@[simp] theorem State.setSlot_chunkLen (t : BuildTarget) (v : Slot) : (s.setSlot t v).chunkLen = s.chunkLen := by cases t <;> rfl
@[simp] theorem State.setSlot_chunkType (t : BuildTarget) (v : Slot) : (s.setSlot t v).chunkType = s.chunkType := by cases t <;> rfl
@[simp] theorem State.setSlot_chunkCrc (t : BuildTarget) (v : Slot) : (s.setSlot t v).chunkCrc = s.chunkCrc := by cases t <;> rfl
@[simp] theorem State.setSlot_chunkCrcCalc (t : BuildTarget) (v : Slot) : (s.setSlot t v).chunkCrcCalc = s.chunkCrcCalc := by cases t <;> rfl
@[simp] theorem State.setSlot_chunkClass (t : BuildTarget) (v : Slot) : (s.setSlot t v).chunkClass = s.chunkClass := by cases t <;> rfl
@[simp] theorem State.setSlot_chunkCount (t : BuildTarget) (v : Slot) : (s.setSlot t v).chunkCount = s.chunkCount := by cases t <;> rfl
@[simp] theorem State.setSlot_hdrWidth (t : BuildTarget) (v : Slot) : (s.setSlot t v).hdrWidth = s.hdrWidth := by cases t <;> rfl
@[simp] theorem State.setSlot_hdrHeight (t : BuildTarget) (v : Slot) : (s.setSlot t v).hdrHeight = s.hdrHeight := by cases t <;> rfl
@[simp] theorem State.setSlot_hdrFmt (t : BuildTarget) (v : Slot) : (s.setSlot t v).hdrFmt = s.hdrFmt := by cases t <;> rfl
@[simp] theorem State.setSlot_hdrInterlace (t : BuildTarget) (v : Slot) : (s.setSlot t v).hdrInterlace = s.hdrInterlace := by cases t <;> rfl
@[simp] theorem State.setSlot_dataSize (t : BuildTarget) (v : Slot) : (s.setSlot t v).dataSize = s.dataSize := by cases t <;> rfl
@[simp] theorem State.setSlot_src (t : BuildTarget) (v : Slot) : (s.setSlot t v).src = s.src := by cases t <;> rfl
@[simp] theorem State.setSlot_cat (t : BuildTarget) (v : Slot) : (s.setSlot t v).cat = s.cat := by cases t <;> rfl
@[simp] theorem State.setSlot_dst (t : BuildTarget) (v : Slot) : (s.setSlot t v).dst = s.dst := by cases t <;> rfl
@[simp] theorem State.setSlot_wbuf (t : BuildTarget) (v : Slot) : (s.setSlot t v).wbuf = s.wbuf := by cases t <;> rfl
@[simp] theorem State.setSlot_lens (t : BuildTarget) (v : Slot) : (s.setSlot t v).lens = s.lens := by cases t <;> rfl
@[simp] theorem State.setSlot_ports (t : BuildTarget) (v : Slot) : (s.setSlot t v).ports = s.ports := by cases t <;> rfl
@[simp] theorem State.setSlot_agenda (t : BuildTarget) (v : Slot) : (s.setSlot t v).agenda = s.agenda := by cases t <;> rfl
@[simp] theorem State.setSlot_resets (t : BuildTarget) (v : Slot) : (s.setSlot t v).resets = s.resets := by cases t <;> rfl
@[simp] theorem State.setSlot_draws (t : BuildTarget) (v : Slot) : (s.setSlot t v).draws = s.draws := by cases t <;> rfl

end Sys2Proof.Machine
end

