-- ==== Sys2Proof/Laws/Memory.lean ====
section
/-! SUPPORT. Memories: read after write, the canonical form, and what the byte-by-byte copies do. -/

namespace Sys2Proof.Machine

/-! ### Cells -/

theorem readCell_writeCell_same {w : Nat} (m : List (Nat × BitVec w)) (a : Nat) (v : BitVec w) :
    readCell (writeCell m a v) a = some v := by
  induction m with
  | nil => simp [writeCell, readCell]
  | cons c m ih =>
    obtain ⟨b, u⟩ := c
    simp only [writeCell]
    split
    · simp [readCell]
    · split
      · simp [readCell]
      · simp [readCell, *]

theorem readCell_writeCell_other {w : Nat} (m : List (Nat × BitVec w)) {a b : Nat} (v : BitVec w) (h : b ≠ a) :
    readCell (writeCell m a v) b = readCell m b := by
  induction m with
  | nil => simp [writeCell, readCell, h]
  | cons c m ih =>
    obtain ⟨k, u⟩ := c
    simp only [writeCell]
    split
    · simp [readCell, h]
    · split
      · subst_vars
        simp [readCell, h]
      · simp [readCell, ih]

theorem mem_writeCell {w : Nat} {m : List (Nat × BitVec w)} {a : Nat} {v : BitVec w} {c : Nat × BitVec w}
    (h : c ∈ writeCell m a v) : c = (a, v) ∨ c ∈ m := by
  induction m with
  | nil => simpa [writeCell] using h
  | cons k m ih =>
    obtain ⟨b, u⟩ := k
    simp only [writeCell] at h
    split at h
    · simpa using h
    · split at h
      · rcases List.mem_cons.1 h with h | h
        · exact .inl h
        · exact .inr (List.mem_cons_of_mem _ h)
      · rcases List.mem_cons.1 h with h | h
        · exact .inr (by simp [h])
        · exact (ih h).imp_right (List.mem_cons_of_mem _)

/-- A write keeps the canonical form. -/
theorem risingCells_writeCell {w : Nat} {m : List (Nat × BitVec w)} (a : Nat) (v : BitVec w)
    (h : risingCells m) : risingCells (writeCell m a v) := by
  induction m with
  | nil => simp [writeCell, risingCells]
  | cons c m ih =>
    obtain ⟨b, u⟩ := c
    obtain ⟨hb, hm⟩ := List.pairwise_cons.1 h
    simp only [writeCell]
    split
    · rename_i hab
      refine List.pairwise_cons.2 ⟨fun x hx => ?_, h⟩
      rcases List.mem_cons.1 hx with rfl | hx
      · exact hab
      · exact lt_trans hab (hb x hx)
    · split
      · rename_i _ hab
        subst hab
        exact List.pairwise_cons.2 ⟨hb, hm⟩
      · rename_i h1 h2
        refine List.pairwise_cons.2 ⟨fun x hx => ?_, ih hm⟩
        rcases mem_writeCell hx with rfl | hx
        · simp only; omega
        · exact hb x hx

/-- A write below the size keeps a memory canonical and within its size. -/
theorem cellsWithin_writeCell {w : Nat} {m : List (Nat × BitVec w)} {size a : Nat} (v : BitVec w)
    (h : cellsWithin m size) (ha : a < size) : cellsWithin (writeCell m a v) size :=
  ⟨risingCells_writeCell a v h.1, fun c hc => by
    rcases mem_writeCell hc with rfl | hc
    · exact ha
    · exact h.2 c hc⟩

/-- Writing the same cell twice keeps the last value only. -/
theorem writeCell_writeCell {w : Nat} (m : List (Nat × BitVec w)) (a : Nat) (u v : BitVec w) :
    writeCell (writeCell m a u) a v = writeCell m a v := by
  induction m with
  | nil => simp [writeCell]
  | cons c m ih =>
    obtain ⟨b, x⟩ := c
    simp only [writeCell]
    split
    · simp [writeCell]
    · split
      · simp [writeCell]
      · rename_i h1 h2
        simp [writeCell, h1, h2, ih]

/-! ### Bytes of the state -/

theorem State.mem_poke (s : State) (m k : Space) (a : Nat) (v : Byte) :
    (s.poke m a v).mem k = if k = m then writeCell (s.mem m) a v else s.mem k := by
  cases m <;> cases k <;> rfl

theorem State.peek_poke_same (s : State) (m : Space) (a : Nat) (v : Byte) : (s.poke m a v).peek m a = v := by
  simp [State.peek, State.mem_poke, readCell_writeCell_same]

theorem State.peek_poke_other (s : State) {m k : Space} {a b : Nat} (v : Byte) (h : k ≠ m ∨ b ≠ a) :
    (s.poke m a v).peek k b = s.peek k b := by
  unfold State.peek
  rw [State.mem_poke, State.poke_resets]
  split
  · rename_i hk
    subst hk
    rw [readCell_writeCell_other _ _ (h.resolve_left (by simp))]
  · rfl

theorem State.lensAt_setLens (s : State) (i j : Nat) (v : Nibble) :
    (s.setLens i v).lensAt j = if j = i then v else s.lensAt j := by
  unfold State.lensAt State.setLens
  split
  · rename_i h
    subst h
    simp [readCell_writeCell_same]
  · rename_i h
    simp [readCell_writeCell_other _ _ h]

/-- A write of one memory leaves every other field alone. -/
theorem State.poke_dst_eq (s : State) (a : Nat) (v : Byte) :
    s.poke .dst a v = { s with dst := (s.poke .dst a v).dst } := rfl
theorem State.poke_cat_eq (s : State) (a : Nat) (v : Byte) :
    s.poke .cat a v = { s with cat := (s.poke .cat a v).cat } := rfl
theorem State.poke_wbuf_eq (s : State) (a : Nat) (v : Byte) :
    s.poke .wbuf a v = { s with wbuf := (s.poke .wbuf a v).wbuf } := rfl

/-! ### writeBytes -/

theorem writeBytes_other (m k : Space) (bs : List Byte) :
    ∀ (a b : Nat) (s : State), (k ≠ m ∨ b < a ∨ a + bs.length ≤ b) → (writeBytes m a bs s).peek k b = s.peek k b := by
  induction bs with
  | nil => intros; rfl
  | cons x bs ih =>
    intro a b s h
    simp only [writeBytes]
    simp only [List.length_cons] at h
    rw [ih (a + 1) b _ (h.imp_right fun h => by omega), State.peek_poke_other _ _ (h.imp_right fun h => by omega)]

theorem writeBytes_at (m : Space) (bs : List Byte) :
    ∀ (a k : Nat) (s : State) (h : k < bs.length), (writeBytes m a bs s).peek m (a + k) = bs[k] := by
  induction bs with
  | nil => intro a k s h; simp at h
  | cons x bs ih =>
    intro a k s h
    simp only [writeBytes]
    cases k with
    | zero =>
      rw [writeBytes_other m m bs (a + 1) (a + 0) _ (.inr (by omega))]
      simpa using State.peek_poke_same s m a x
    | succ k =>
      have := ih (a + 1) k (s.poke m a x) (by simpa using h)
      rw [show a + (k + 1) = a + 1 + k by omega, this]
      simp

/-- Writing WBUF changes WBUF alone. -/
theorem writeBytes_wbuf_eq (bs : List Byte) :
    ∀ (a : Nat) (s : State), writeBytes .wbuf a bs s = { s with wbuf := (writeBytes .wbuf a bs s).wbuf } := by
  induction bs with
  | nil => intros; rfl
  | cons x bs ih =>
    intro a s
    simp only [writeBytes]
    rw [ih]
    rfl

theorem writeBytes_wbuf_within (bs : List Byte) :
    ∀ (a : Nat) (s : State), cellsWithin s.wbuf s.sizes.wbuf → a + bs.length ≤ s.sizes.wbuf →
      cellsWithin (writeBytes .wbuf a bs s).wbuf s.sizes.wbuf := by
  induction bs with
  | nil => intro a s h _; exact h
  | cons x bs ih =>
    intro a s h ha
    simp only [List.length_cons] at ha
    exact ih (a + 1) (s.poke .wbuf a x) (cellsWithin_writeCell (size := s.sizes.wbuf) x h (by omega)) (show a + 1 + bs.length ≤ s.sizes.wbuf by omega)

/-! ### blit -/

theorem blit_other (f m k : Space) (n : Nat) :
    ∀ (a b c : Nat) (s : State), (k ≠ m ∨ c < b ∨ b + n ≤ c) → (blit f m n a b s).peek k c = s.peek k c := by
  induction n with
  | zero => intros; rfl
  | succ n ih =>
    intro a b c s h
    simp only [blit]
    rw [ih (a + 1) (b + 1) c _ (h.imp_right fun h => by omega), State.peek_poke_other _ _ (h.imp_right fun h => by omega)]

/-- A copy between two different memories moves the bytes. -/
theorem blit_at (f m : Space) (hfm : f ≠ m) (n : Nat) :
    ∀ (a b k : Nat) (s : State), k < n → (blit f m n a b s).peek m (b + k) = s.peek f (a + k) := by
  induction n with
  | zero => intro a b k s h; omega
  | succ n ih =>
    intro a b k s h
    simp only [blit]
    cases k with
    | zero =>
      rw [blit_other f m m n (a + 1) (b + 1) (b + 0) _ (.inr (by omega))]
      simpa using State.peek_poke_same s m b (s.peek f a)
    | succ k =>
      rw [show b + (k + 1) = b + 1 + k by omega, ih (a + 1) (b + 1) k _ (by omega),
        State.peek_poke_other _ _ (.inl hfm), show a + 1 + k = a + (k + 1) by omega]

theorem blit_dst_eq (f : Space) (n : Nat) :
    ∀ (a b : Nat) (s : State), blit f .dst n a b s = { s with dst := (blit f .dst n a b s).dst } := by
  induction n with
  | zero => intros; rfl
  | succ n ih =>
    intro a b s
    simp only [blit]
    rw [ih]
    rfl

theorem blit_cat_eq (f : Space) (n : Nat) :
    ∀ (a b : Nat) (s : State), blit f .cat n a b s = { s with cat := (blit f .cat n a b s).cat } := by
  induction n with
  | zero => intros; rfl
  | succ n ih =>
    intro a b s
    simp only [blit]
    rw [ih]
    rfl

theorem blit_dst_within (f : Space) (n : Nat) :
    ∀ (a b : Nat) (s : State), cellsWithin s.dst s.sizes.dst → b + n ≤ s.sizes.dst →
      cellsWithin (blit f .dst n a b s).dst s.sizes.dst := by
  induction n with
  | zero => intro a b s h _; exact h
  | succ n ih =>
    intro a b s h hb
    exact ih (a + 1) (b + 1) (s.poke .dst b (s.peek f a)) (cellsWithin_writeCell (size := s.sizes.dst) _ h (by omega))
      (show b + 1 + n ≤ s.sizes.dst by omega)

theorem blit_cat_within (f : Space) (n : Nat) :
    ∀ (a b : Nat) (s : State), cellsWithin s.cat s.sizes.cat → b + n ≤ s.sizes.cat →
      cellsWithin (blit f .cat n a b s).cat s.sizes.cat := by
  induction n with
  | zero => intro a b s h _; exact h
  | succ n ih =>
    intro a b s h hb
    exact ih (a + 1) (b + 1) (s.poke .cat b (s.peek f a)) (cellsWithin_writeCell (size := s.sizes.cat) _ h (by omega))
      (show b + 1 + n ≤ s.sizes.cat by omega)

/-! ### fillLens -/

theorem fillLens_lensAt (v : Nibble) (n : Nat) :
    ∀ (i j : Nat) (s : State), (fillLens v n i s).lensAt j = if i ≤ j ∧ j < i + n then v else s.lensAt j := by
  induction n with
  | zero => intro i j s; simp [fillLens]
  | succ n ih =>
    intro i j s
    simp only [fillLens]
    rw [ih, State.lensAt_setLens]
    by_cases h1 : j = i
    · subst h1
      simp
    · simp only [h1, if_false]
      by_cases h2 : i + 1 ≤ j ∧ j < i + 1 + n
      · rw [if_pos h2, if_pos (by omega)]
      · rw [if_neg h2, if_neg (by omega)]

theorem fillLens_eq (v : Nibble) (n : Nat) :
    ∀ (i : Nat) (s : State), fillLens v n i s = { s with lens := (fillLens v n i s).lens } := by
  induction n with
  | zero => intros; rfl
  | succ n ih =>
    intro i s
    simp only [fillLens]
    rw [ih]
    rfl

theorem fillLens_within (v : Nibble) (n : Nat) :
    ∀ (i : Nat) (s : State), cellsWithin s.lens 320 → i + n ≤ 320 → cellsWithin (fillLens v n i s).lens 320 := by
  induction n with
  | zero => intro i s h _; exact h
  | succ n ih =>
    intro i s h hi
    exact ih (i + 1) (s.setLens i v) (cellsWithin_writeCell v h (by omega)) (by omega)

/-! ### copyLoop -/

theorem copyByte_eq (d : Nat) (s : State) :
    copyByte d s = { s with dst := (copyByte d s).dst, outPos := (copyByte d s).outPos } := rfl

theorem copyLoop_eq (d n : Nat) :
    ∀ s : State, copyLoop d n s = { s with dst := (copyLoop d n s).dst, outPos := (copyLoop d n s).outPos } := by
  induction n with
  | zero => intros; rfl
  | succ n ih =>
    intro s
    simp only [copyLoop]
    rw [ih]
    rfl

theorem copyLoop_outPos (d n : Nat) :
    ∀ s : State, s.outPos.toNat + n < 2 ^ 32 → (copyLoop d n s).outPos.toNat = s.outPos.toNat + n := by
  induction n with
  | zero => intros; rfl
  | succ n ih =>
    intro s h
    have h1 : (copyByte d s).outPos.toNat = s.outPos.toNat + 1 := by
      simp [copyByte]; omega
    simp only [copyLoop]
    rw [ih _ (by omega), h1]
    omega

theorem copyLoop_within (d n : Nat) :
    ∀ s : State, cellsWithin s.dst s.sizes.dst → s.outPos.toNat + n ≤ s.sizes.dst → s.sizes.dst < 2 ^ 32 →
      cellsWithin (copyLoop d n s).dst s.sizes.dst := by
  induction n with
  | zero => intro s h _ _; exact h
  | succ n ih =>
    intro s h hn hz
    have h1 : (copyByte d s).outPos.toNat = s.outPos.toNat + 1 := by
      simp [copyByte]; omega
    exact ih (copyByte d s) (cellsWithin_writeCell (size := s.sizes.dst) _ h (by omega))
      (by rw [h1]; show _ ≤ s.sizes.dst; omega) hz

/-- A copy leaves every byte outside the copied range alone. -/
theorem copyLoop_other (d n : Nat) (k : Space) (c : Nat) :
    ∀ s : State, s.outPos.toNat + n < 2 ^ 32 → (k ≠ .dst ∨ c < s.outPos.toNat ∨ s.outPos.toNat + n ≤ c) →
      (copyLoop d n s).peek k c = s.peek k c := by
  induction n with
  | zero => intros; rfl
  | succ n ih =>
    intro s hs h
    have h1 : (copyByte d s).outPos.toNat = s.outPos.toNat + 1 := by
      simp [copyByte]; omega
    simp only [copyLoop]
    rw [ih _ (by omega) (h.imp_right fun h => by omega)]
    exact State.peek_poke_other s _ (h.imp_right fun h => by omega)

/-- A copy at distance d repeats the d bytes before the output position. -/
theorem copyLoop_at (d : Nat) (hd : 0 < d) (n : Nat) :
    ∀ (s : State) (k : Nat), s.outPos.toNat + n < 2 ^ 32 → d ≤ s.outPos.toNat → k < n →
      (copyLoop d n s).peek .dst (s.outPos.toNat + k) = s.peek .dst (s.outPos.toNat - d + k % d) := by
  induction n with
  | zero => intro s k _ _ h; omega
  | succ n ih =>
    intro s k hs hds hk
    have h1 : (copyByte d s).outPos.toNat = s.outPos.toNat + 1 := by
      simp [copyByte]; omega
    have h0 : (copyByte d s).peek .dst s.outPos.toNat = s.peek .dst (s.outPos.toNat - d) :=
      State.peek_poke_same s .dst _ _
    have hother : ∀ c, c ≠ s.outPos.toNat → (copyByte d s).peek .dst c = s.peek .dst c :=
      fun c hc => State.peek_poke_other (m := .dst) (k := .dst) (a := s.outPos.toNat) s _ (.inr hc)
    simp only [copyLoop]
    cases k with
    | zero =>
      rw [copyLoop_other _ _ _ _ _ (by omega) (.inr (.inl (by omega)))]
      simpa using h0
    | succ k =>
      have := ih (copyByte d s) k (by omega) (by omega) (by omega)
      rw [h1] at this
      rw [show s.outPos.toNat + (k + 1) = s.outPos.toNat + 1 + k by omega, this]
      have hlt := Nat.mod_lt k hd
      by_cases hw : k % d = d - 1
      · have hz : (k + 1) % d = 0 := by
          rw [Nat.add_mod, hw]
          rcases Nat.eq_or_lt_of_le (show 1 ≤ d from hd) with h | h
          · subst h; simp
          · rw [Nat.mod_eq_of_lt h, show d - 1 + 1 = d by omega, Nat.mod_self]
        rw [hz, hw, show s.outPos.toNat + 1 - d + (d - 1) = s.outPos.toNat by omega, h0]
        simp
      · have hz : (k + 1) % d = k % d + 1 := by
          have h2 : 1 % d = 1 := Nat.mod_eq_of_lt (by omega)
          rw [Nat.add_mod, h2, Nat.mod_eq_of_lt (by omega)]
        rw [hz, hother _ (by omega)]
        congr 1
        omega

end Sys2Proof.Machine
end

