-- ==== Sys2Proof/Laws/Cursor.lean ====
section
/-! SUPPORT. The cursor: what ReadBit, ReadBits, Align and Decode answer, and that they move BIT_POS alone. -/

namespace Sys2Proof.Machine

/-- The state with another cursor position is the same cursor buffer. -/
theorem State.bufBit_setBitPos (s : State) (p q : Nat) : (s.setBitPos p).bufBit q = s.bufBit q := rfl
theorem State.bufLen_setBitPos (s : State) (p : Nat) : (s.setBitPos p).bufLen = s.bufLen := rfl

theorem State.setBitPos_setBitPos (s : State) (p q : Nat) : (s.setBitPos p).setBitPos q = s.setBitPos q := rfl

theorem State.setBitPos_self (s : State) : s.setBitPos s.bitPos.toNat = s := by
  simp [State.setBitPos]

theorem State.bitsFrom_setBitPos (s : State) (p : Nat) (n : Nat) :
    ∀ q, (s.setBitPos p).bitsFrom q n = s.bitsFrom q n := by
  induction n with
  | zero => intro; rfl
  | succ n ih =>
    intro q
    simp only [State.bitsFrom, ih, State.bufBit_setBitPos]

theorem State.bitsFrom_lt (s : State) (n : Nat) : ∀ p, s.bitsFrom p n < 2 ^ n := by
  induction n with
  | zero => intro; simp [State.bitsFrom]
  | succ n ih =>
    intro p
    have h1 := ih (p + 1)
    have h2 : (s.bufBit p).toNat < 2 := Bool.toNat_lt _
    simp only [State.bitsFrom, pow_succ]
    omega

/-- A buffer the invariant bounds ends below bit 2^31. -/
theorem State.Inv.bufLen_le {s : State} (h : s.Inv) : s.bufLen ≤ 2 ^ 28 := by
  unfold State.bufLen
  split
  · exact le_trans h.catLen (h.sizes .cat).2
  · exact le_trans h.srcLen (h.sizes .src).2

/-! ### ReadBit and ReadBits -/

theorem readBit_ok {s : State} (h : s.bitPos.toNat / 8 < s.bufLen) :
    readBit s = .ok (s.bufBit s.bitPos.toNat) (s.setBitPos (s.bitPos.toNat + 1)) := by
  unfold readBit
  rw [getState_bind, check_bind_pass (by omega), update_bind]
  rfl

theorem readBit_error {s : State} (h : s.bufLen ≤ s.bitPos.toNat / 8) :
    readBit s = .error ⟨.outOfData, 1⟩ s := by
  unfold readBit
  rw [getState_bind, check_bind_fail (by omega)]
  rfl

theorem readBitsLoop_ok (k : Nat) :
    ∀ (i v : Nat) (s : State), s.bufLen ≤ 2 ^ 28 → s.bitPos.toNat + k ≤ 8 * s.bufLen →
      readBitsLoop k i v s =
        .ok (v ||| s.bitsFrom s.bitPos.toNat k <<< i) (s.setBitPos (s.bitPos.toNat + k)) := by
  induction k with
  | zero =>
    intro i v s _ _
    simp [readBitsLoop, pure_apply, State.bitsFrom, State.setBitPos]
  | succ k ih =>
    intro i v s hb hk
    have hp : (s.setBitPos (s.bitPos.toNat + 1)).bitPos.toNat = s.bitPos.toNat + 1 := by
      simp; omega
    unfold readBitsLoop
    rw [bind_apply, readBit_ok (by omega)]
    simp only
    rw [ih _ _ _ (by simpa [State.bufLen_setBitPos] using hb) (by rw [hp, State.bufLen_setBitPos]; omega), hp]
    rw [State.bitsFrom_setBitPos, State.setBitPos_setBitPos]
    congr 1
    · simp only [State.bitsFrom]
      rw [Nat.or_assoc]
      congr 1
      have h2 : (s.bufBit s.bitPos.toNat).toNat < 2 := Bool.toNat_lt _
      have h3 : (s.bufBit s.bitPos.toNat).toNat + 2 * s.bitsFrom (s.bitPos.toNat + 1) k =
          (s.bitsFrom (s.bitPos.toNat + 1) k) <<< 1 ||| (s.bufBit s.bitPos.toNat).toNat := by
        rw [← Nat.shiftLeft_add_eq_or_of_lt (by simpa using h2), Nat.shiftLeft_eq]
        omega
      rw [h3, Nat.or_comm, Nat.shiftLeft_or_distrib, ← Nat.shiftLeft_add]
      congr 2
      omega
    · congr 1
      omega

/-- ReadBits(n) answers the n bits, the first one least significant, and moves the cursor by n (R151). -/
theorem readBits_ok {n : Nat} {s : State} (hb : s.bufLen ≤ 2 ^ 28) (h : s.bitPos.toNat + n ≤ 8 * s.bufLen) :
    readBits n s = .ok (s.bitsFrom s.bitPos.toNat n) (s.setBitPos (s.bitPos.toNat + n)) := by
  unfold readBits
  rw [getState_bind, check_bind_pass (by omega), readBitsLoop_ok n 0 0 s hb h]
  simp

/-- A short read raises OutOfData(n) and consumes nothing (R151). -/
theorem readBits_error {n : Nat} {s : State} (h : 8 * s.bufLen < s.bitPos.toNat + n) :
    readBits n s = .error ⟨.outOfData, BitVec.ofNat 32 n⟩ s := by
  unfold readBits
  rw [getState_bind, check_bind_fail (by omega)]

/-! ### The cursor's frame -/

/-- Only BIT_POS may differ. -/
def CursorFrame (s t : State) : Prop := t = { s with bitPos := t.bitPos }

theorem cursorFrame_isFrame : IsFrame CursorFrame where
  refl _ := rfl
  trans s t u h1 h2 := by
    unfold CursorFrame at *
    rw [h2, h1]

theorem readBit_keeps : Act.Keeps CursorFrame readBit :=
  .bind cursorFrame_isFrame (.get cursorFrame_isFrame) fun _ =>
    .bind cursorFrame_isFrame (.check cursorFrame_isFrame _ _ _) fun _ =>
      .bind cursorFrame_isFrame (.update fun _ => rfl) fun _ => .pure cursorFrame_isFrame _

theorem readBitsLoop_keeps (k : Nat) : ∀ i v, Act.Keeps CursorFrame (readBitsLoop k i v) := by
  induction k with
  | zero => exact fun i v => .pure cursorFrame_isFrame v
  | succ k ih => exact fun i v => .bind cursorFrame_isFrame readBit_keeps fun b => ih _ _

theorem readBits_keeps (n : Nat) : Act.Keeps CursorFrame (readBits n) :=
  .bind cursorFrame_isFrame (.get cursorFrame_isFrame) fun _ =>
    .bind cursorFrame_isFrame (.check cursorFrame_isFrame _ _ _) fun _ => readBitsLoop_keeps n 0 0

theorem align_keeps : Act.Keeps CursorFrame align := .update fun _ => rfl

theorem decodeLoop_keeps (t : TableId) (codes : List (Nat × Nat)) (k : Nat) :
    ∀ L code, Act.Keeps CursorFrame (decodeLoop t codes k L code) := by
  induction k with
  | zero => exact fun L code => .raise cursorFrame_isFrame _ _
  | succ k ih =>
    intro L code
    unfold decodeLoop
    refine .bind cursorFrame_isFrame readBit_keeps fun b => ?_
    cases symbolOf codes (L + 1) (code <<< 1 ||| b.toNat) with
    | some sym => exact .pure cursorFrame_isFrame sym
    | none => exact ih _ _

theorem decodeSymbol_keeps (t : TableId) : Act.Keeps CursorFrame (decodeSymbol t) :=
  .bind cursorFrame_isFrame (.get cursorFrame_isFrame) fun _ =>
    .bind cursorFrame_isFrame (.check cursorFrame_isFrame _ _ _) fun _ => decodeLoop_keeps _ _ _ _ _

theorem lengthOf_keeps (sym : Nat) : Act.Keeps CursorFrame (lengthOf sym) := by
  unfold lengthOf
  generalize lengthRow sym = row
  exact .bind cursorFrame_isFrame (.check cursorFrame_isFrame _ _ _) fun _ =>
    .bind cursorFrame_isFrame (readBits_keeps row.2) fun e => .pure cursorFrame_isFrame (row.1 + e)

theorem distOf_keeps (sym : Nat) : Act.Keeps CursorFrame (distOf sym) := by
  unfold distOf
  generalize distRow sym = row
  exact .bind cursorFrame_isFrame (.check cursorFrame_isFrame _ _ _) fun _ =>
    .bind cursorFrame_isFrame (readBits_keeps row.2) fun e => .pure cursorFrame_isFrame (row.1 + e)

end Sys2Proof.Machine
end

