-- ==== Sys2Proof/Laws/Huffman.lean ====
section
/-! SUPPORT. Canonical codes: where a symbol's code lies, that codes are unique and prefix-free, and what Decode and
Build answer (42_huffman.md R170 to R177). -/

namespace Sys2Proof.Machine

/-! ### Canonical codes -/

theorem nextCode_succ (lens : List Nibble) {L : Nat} (h : 1 ≤ L) :
    nextCode lens (L + 1) = 2 * (nextCode lens L + lenCount lens L) := by
  obtain ⟨K, rfl⟩ : ∃ K, L = K + 1 := ⟨L - 1, by omega⟩
  simp only [nextCode, Nat.shiftLeft_eq]
  omega

/-- The codes of a longer length start past every extension of the codes of a shorter one. -/
theorem nextCode_ge (lens : List Nibble) {L : Nat} (h : 1 ≤ L) (k : Nat) :
    (nextCode lens L + lenCount lens L) * 2 ^ (k + 1) ≤ nextCode lens (L + k + 1) := by
  induction k with
  | zero =>
    rw [Nat.add_zero, nextCode_succ lens h]
    omega
  | succ k ih =>
    rw [show L + (k + 1) + 1 = (L + k + 1) + 1 from by omega, nextCode_succ lens (by omega),
      pow_succ 2 (k + 1), ← Nat.mul_assoc]
    omega

/-- The code of symbol x before the counters were touched is its counter plus the earlier symbols of its length. -/
theorem assignFrom_getElem? (lens : List Nibble) :
    ∀ (nc : List Nat) (x : Nat), nc.length = 16 → x < lens.length →
      (assignFrom nc lens)[x]? = some (if lens.getD x 0 = 0 then (0, 0)
        else ((lens.getD x 0).toNat,
          nc.getD (lens.getD x 0).toNat 0 + (lens.take x).countP fun l => l = lens.getD x 0)) := by
  induction lens with
  | nil => intro nc x _ hx; simp at hx
  | cons l ls ih =>
    intro nc x hn hx
    cases x with
    | zero =>
      by_cases hl : l = 0
      · simp [assignFrom, hl]
      · simp only [assignFrom, hl, if_false, List.getElem?_cons_zero, List.getD_cons_zero, List.take_zero,
          List.countP_nil, Nat.add_zero]
    | succ x =>
      have hx' : x < ls.length := by simpa using hx
      by_cases hl : l = 0
      · simp only [assignFrom, hl, if_true, List.getElem?_cons_succ, List.getD_cons_succ]
        rw [ih nc x hn hx']
        by_cases h0 : ls.getD x 0 = 0
        · rw [if_pos h0, if_pos h0]
        · rw [if_neg h0, if_neg h0, List.take_succ_cons, List.countP_cons_of_neg (by simpa using fun h => h0 h.symm)]
      · simp only [assignFrom, hl, if_false, List.getElem?_cons_succ, List.getD_cons_succ]
        rw [ih _ x (by simpa using hn) hx']
        by_cases h0 : ls.getD x 0 = 0
        · rw [if_pos h0, if_pos h0]
        · rw [if_neg h0, if_neg h0]
          by_cases he : l = ls.getD x 0
          · rw [List.take_succ_cons, List.countP_cons_of_pos (by simpa using he), ← he]
            have hlt : l.toNat < nc.length := by rw [hn]; exact l.isLt
            simp only [List.getD_eq_getElem?_getD, List.getElem?_set_self hlt, Option.getD_some]
            congr 2
            omega
          · rw [List.take_succ_cons, List.countP_cons_of_neg (by simpa using he)]
            have hne : l.toNat ≠ (ls.getD x 0).toNat := fun h => he (BitVec.eq_of_toNat_eq h)
            simp only [List.getD_eq_getElem?_getD] at hne ⊢
            rw [List.getElem?_set_ne hne]

/-- The (length, code) pair of symbol x (R171, R173). -/
theorem codesOf_getElem? (lens : List Nibble) {x : Nat} (hx : x < lens.length) :
    (codesOf lens)[x]? = some (if lens.getD x 0 = 0 then (0, 0)
      else ((lens.getD x 0).toNat,
        nextCode lens (lens.getD x 0).toNat + (lens.take x).countP fun l => l = lens.getD x 0)) := by
  unfold codesOf
  rw [assignFrom_getElem? lens _ x (by simp [firstCodes]) hx]
  have h : (lens.getD x 0).toNat < 16 := (lens.getD x 0).isLt
  have hf : (firstCodes lens).getD (lens.getD x 0).toNat 0 = nextCode lens (lens.getD x 0).toNat := by
    unfold firstCodes
    rw [List.getD_eq_getElem?_getD, List.getElem?_map, List.getElem?_range h]
    rfl
  rw [hf]

theorem assignFrom_length (lens : List Nibble) : ∀ nc, (assignFrom nc lens).length = lens.length := by
  induction lens with
  | nil => intro nc; rfl
  | cons l ls ih =>
    intro nc
    by_cases hl : l = 0 <;> simp only [assignFrom, hl, if_true, if_false, List.length_cons, ih]

theorem codesOf_length (lens : List Nibble) : (codesOf lens).length = lens.length := assignFrom_length lens _

/-- What a used symbol's entry says: its length, and that its code is its length's first code plus its rank. -/
theorem codesOf_used {lens : List Nibble} {x l c : Nat} (h : (codesOf lens)[x]? = some (l, c)) (hl : l ≠ 0) :
    x < lens.length ∧ l = (lens.getD x 0).toNat ∧ l < 16 ∧
      c = nextCode lens l + (lens.take x).countP fun y => y = lens.getD x 0 := by
  have hx : x < lens.length := by
    have := (List.getElem?_eq_some_iff.mp h).1
    rwa [codesOf_length] at this
  rw [codesOf_getElem? lens hx] at h
  by_cases h0 : lens.getD x 0 = 0
  · rw [if_pos h0] at h
    simp only [Option.some.injEq, Prod.mk.injEq] at h
    exact absurd h.1.symm hl
  · rw [if_neg h0] at h
    simp only [Option.some.injEq, Prod.mk.injEq] at h
    obtain ⟨rfl, rfl⟩ := h
    exact ⟨hx, rfl, (lens.getD x 0).isLt, rfl⟩

/-- Two symbols of one length: the rank of the earlier one is the smaller. -/
theorem countP_take_lt {lens : List Nibble} {x y : Nat} {v : Nibble} (hxy : x < y) (hx : x < lens.length)
    (hv : lens.getD x 0 = v) :
    (lens.take x).countP (fun l => l = v) < (lens.take y).countP fun l => l = v := by
  have h1 : (lens.take (x + 1)).countP (fun l => l = v) = (lens.take x).countP (fun l => l = v) + 1 := by
    rw [List.take_add_one, List.countP_append]
    have : lens[x]? = some v := by
      rw [List.getElem?_eq_getElem hx]
      rw [List.getD_eq_getElem?_getD, List.getElem?_eq_getElem hx] at hv
      simpa using hv
    simp [this]
  have h2 : (lens.take (x + 1)).countP (fun l => l = v) ≤ (lens.take y).countP fun l => l = v := by
    refine List.Sublist.countP_le ?_
    rw [show x + 1 = min (x + 1) y from by omega, ← List.take_take]
    exact List.take_sublist _ _
  omega

theorem lenCount_eq_countP {lens : List Nibble} {L : Nat} (h : L ≠ 0) {v : Nibble} (hv : v.toNat = L) :
    lenCount lens L = lens.countP fun l => l = v := by
  unfold lenCount
  rw [if_neg h]
  refine List.countP_congr fun l _ => ?_
  simp only [decide_eq_true_eq, ← hv]
  exact ⟨fun h => BitVec.eq_of_toNat_eq h, fun h => by rw [h]⟩

/-- The code of a used symbol lies among its length's codes (R173). -/
theorem codesOf_bounds {lens : List Nibble} {x l c : Nat} (h : (codesOf lens)[x]? = some (l, c)) (hl : l ≠ 0) :
    nextCode lens l ≤ c ∧ c < nextCode lens l + lenCount lens l := by
  obtain ⟨hx, h1, h2, h3⟩ := codesOf_used h hl
  have hc : lenCount lens l = lens.countP fun y => y = lens.getD x 0 := lenCount_eq_countP hl h1.symm
  have h4 := countP_take_lt (v := lens.getD x 0) (show x < lens.length from hx) hx rfl
  rw [List.take_length] at h4
  omega

theorem overSubscribed_none {lens : List Nibble} (h : overSubscribed lens = none) {L : Nat} (h1 : 1 ≤ L) (h2 : L ≤ 15) :
    nextCode lens L + lenCount lens L ≤ 2 ^ L := by
  unfold overSubscribed at h
  have := List.find?_eq_none.mp h L (by simp [List.mem_range'_1]; omega)
  simpa [overAt] using this

/-- Every code fits in its length when the list is not over-subscribed (R173). -/
theorem codesOf_fits {lens : List Nibble} (ho : overSubscribed lens = none) {x l c : Nat}
    (h : (codesOf lens)[x]? = some (l, c)) (hl : l ≠ 0) : c < 2 ^ l := by
  have h1 := (codesOf_bounds h hl).2
  have h2 := overSubscribed_none ho (L := l) (by omega) (by have := (codesOf_used h hl).2.2.1; omega)
  omega

/-- No code is a proper extension of a shorter code (R173). -/
theorem codesOf_no_extension {lens : List Nibble} {x y lx cx ly cy : Nat}
    (hx : (codesOf lens)[x]? = some (lx, cx)) (hlx : lx ≠ 0) (hy : (codesOf lens)[y]? = some (ly, cy)) (hly : ly ≠ 0)
    (h : lx < ly) : cx < cy / 2 ^ (ly - lx) := by
  have h1 := (codesOf_bounds hx hlx).2
  have h2 := (codesOf_bounds hy hly).1
  have h3 := nextCode_ge lens (L := lx) (by omega) (ly - lx - 1)
  rw [show ly - lx - 1 + 1 = ly - lx from by omega, show lx + (ly - lx - 1) + 1 = ly from by omega] at h3
  have h4 : nextCode lens lx + lenCount lens lx ≤ cy / 2 ^ (ly - lx) := by
    rw [Nat.le_div_iff_mul_le (by positivity)]
    exact le_trans h3 h2
  omega

/-- Two symbols share no (length, code) pair (R173). -/
theorem codesOf_unique {lens : List Nibble} {x y l c : Nat}
    (hx : (codesOf lens)[x]? = some (l, c)) (hy : (codesOf lens)[y]? = some (l, c)) (hl : l ≠ 0) : x = y := by
  obtain ⟨hx1, hx2, _, hx4⟩ := codesOf_used hx hl
  obtain ⟨hy1, hy2, _, hy4⟩ := codesOf_used hy hl
  have hv : lens.getD x 0 = lens.getD y 0 := BitVec.eq_of_toNat_eq (by omega)
  rcases Nat.lt_trichotomy x y with hlt | heq | hgt
  · have := countP_take_lt (v := lens.getD y 0) hlt hx1 hv
    rw [hv] at hx4
    omega
  · exact heq
  · have := countP_take_lt (v := lens.getD y 0) hgt hy1 rfl
    rw [hv] at hx4
    omega

/-- MAP(l, c) is the symbol that has the code (R173). -/
theorem symbolOf_codesOf {lens : List Nibble} {x l c : Nat} (hx : (codesOf lens)[x]? = some (l, c)) (hl : l ≠ 0) :
    symbolOf (codesOf lens) l c = some x := by
  unfold symbolOf
  rw [List.findIdx?_eq_some_iff_getElem]
  obtain ⟨hlt, hget⟩ := List.getElem?_eq_some_iff.mp hx
  refine ⟨hlt, by simp [hget], fun j hj => ?_⟩
  have hjl : j < (codesOf lens).length := by omega
  intro hcon
  have hj2 : (codesOf lens)[j]? = some (l, c) := by
    rw [List.getElem?_eq_getElem hjl]
    simp only [Bool.and_eq_true, beq_iff_eq] at hcon
    rw [← hcon.1, ← hcon.2]
  have := codesOf_unique hj2 hx hl
  omega

/-- A symbol MAP answers has that length and code. -/
theorem symbolOf_some {codes : List (Nat × Nat)} {l c x : Nat} (h : symbolOf codes l c = some x) :
    codes[x]? = some (l, c) := by
  unfold symbolOf at h
  rw [List.findIdx?_eq_some_iff_getElem] at h
  obtain ⟨hlt, hp, -⟩ := h
  rw [List.getElem?_eq_getElem hlt]
  simp only [Bool.and_eq_true, beq_iff_eq] at hp
  rw [← hp.1, ← hp.2]

theorem symbolOf_lt {lens : List Nibble} {l c x : Nat} (h : symbolOf (codesOf lens) l c = some x) : x < lens.length := by
  have := (List.getElem?_eq_some_iff.mp (symbolOf_some h)).1
  rwa [codesOf_length] at this

/-- max_code_len is the largest length (R170). -/
theorem le_maxCodeLen {lens : List Nibble} {x : Nat} : (lens.getD x 0).toNat ≤ maxCodeLen lens := by
  induction lens generalizing x with
  | nil => simp [maxCodeLen]
  | cons l ls ih =>
    cases x with
    | zero => simp [maxCodeLen]
    | succ x =>
      have := ih (x := x)
      simp only [List.getD_cons_succ, maxCodeLen, List.foldr_cons] at this ⊢
      exact le_trans this (Nat.le_max_right _ _)

theorem maxCodeLen_lt (lens : List Nibble) : maxCodeLen lens < 16 := by
  induction lens with
  | nil => simp [maxCodeLen]
  | cons l ls ih =>
    simp only [maxCodeLen, List.foldr_cons] at ih ⊢
    exact Nat.max_lt.mpr ⟨l.isLt, ih⟩

/-! ### Decode -/

theorem State.codeBits_setBitPos (s : State) (p q n : Nat) : (s.setBitPos p).codeBits q n = s.codeBits q n := by
  induction n with
  | zero => rfl
  | succ n ih => simp only [State.codeBits, ih, State.bufBit_setBitPos]

theorem State.codeBits_lt (s : State) (p n : Nat) : s.codeBits p n < 2 ^ n := by
  induction n with
  | zero => simp [State.codeBits]
  | succ n ih =>
    have : (s.bufBit (p + n)).toNat < 2 := Bool.toNat_lt _
    simp only [State.codeBits, pow_succ]
    omega

/-- The first n of n + k code bits. -/
theorem State.codeBits_prefix (s : State) (p n k : Nat) : s.codeBits p (n + k) / 2 ^ k = s.codeBits p n := by
  induction k with
  | zero => simp
  | succ k ih =>
    have : (s.bufBit (p + (n + k))).toNat < 2 := Bool.toNat_lt _
    rw [← Nat.add_assoc, State.codeBits, pow_succ, Nat.mul_comm (2 ^ k) 2, ← Nat.div_div_eq_div_mul]
    rw [show (2 * s.codeBits p (n + k) + (s.bufBit (p + (n + k))).toNat) / 2 = s.codeBits p (n + k) from by omega, ih]

theorem shiftLeft_one_or_bit (c : Nat) (b : Bool) : (c <<< 1 ||| b.toNat) = 2 * c + b.toNat := by
  have h : b.toNat < 2 ^ 1 := by simpa using Bool.toNat_lt b
  rw [← Nat.shiftLeft_add_eq_or_of_lt h, Nat.shiftLeft_eq]
  omega

/-- The state of the cursor after L code bits from p were read. -/
def State.atCode (s : State) (p L : Nat) : State := s.setBitPos (p + L)

theorem State.bitPos_setBitPos {s : State} {p : Nat} (h : p < 2 ^ 32) : (s.setBitPos p).bitPos.toNat = p := by
  simp only [State.setBitPos, BitVec.toNat_ofNat]
  exact Nat.mod_eq_of_lt h

/-- One pass of the loop of Decode with a bit to read. -/
theorem decodeLoop_step (t : TableId) (codes : List (Nat × Nat)) (k : Nat) {s : State} {p L : Nat}
    (hb : s.bufLen ≤ 2 ^ 28) (h : p + L < 8 * s.bufLen) :
    decodeLoop t codes (k + 1) L (s.codeBits p L) (s.setBitPos (p + L)) =
      match symbolOf codes (L + 1) (s.codeBits p (L + 1)) with
      | some sym => .ok sym (s.setBitPos (p + (L + 1)))
      | none => decodeLoop t codes k (L + 1) (s.codeBits p (L + 1)) (s.setBitPos (p + (L + 1))) := by
  have hp : (s.setBitPos (p + L)).bitPos.toNat = p + L := State.bitPos_setBitPos (by omega)
  rw [decodeLoop, bind_apply, readBit_ok (by rw [hp, State.bufLen_setBitPos]; omega), hp]
  simp only [State.bufBit_setBitPos, shiftLeft_one_or_bit, State.setBitPos_setBitPos]
  rw [show 2 * s.codeBits p L + (s.bufBit (p + L)).toNat = s.codeBits p (L + 1) from rfl, Nat.add_assoc]
  cases symbolOf codes (L + 1) (s.codeBits p (L + 1)) <;> rfl

/-- The loop of Decode past j bits without a match. -/
theorem decodeLoop_skip (t : TableId) (codes : List (Nat × Nat)) {s : State} {p : Nat} (hb : s.bufLen ≤ 2 ^ 28) (j : Nat) :
    ∀ (k L : Nat), p + L + j ≤ 8 * s.bufLen →
      (∀ i, L < i → i ≤ L + j → symbolOf codes i (s.codeBits p i) = none) →
      decodeLoop t codes (k + j) L (s.codeBits p L) (s.setBitPos (p + L)) =
        decodeLoop t codes k (L + j) (s.codeBits p (L + j)) (s.setBitPos (p + (L + j))) := by
  induction j with
  | zero => intro k L _ _; rfl
  | succ j ih =>
    intro k L h hn
    rw [← Nat.add_assoc, decodeLoop_step t codes (k + j) hb (by omega), hn (L + 1) (by omega) (by omega)]
    simp only
    rw [ih k (L + 1) (by omega) (fun i h1 h2 => hn i (by omega) (by omega))]
    rw [show L + 1 + j = L + (j + 1) from by omega]

/-- The first match at length L + j + 1. -/
theorem decodeLoop_match (t : TableId) (codes : List (Nat × Nat)) {s : State} {p k L j sym : Nat} (hb : s.bufLen ≤ 2 ^ 28)
    (h : p + L + j + 1 ≤ 8 * s.bufLen) (hn : ∀ i, L < i → i ≤ L + j → symbolOf codes i (s.codeBits p i) = none)
    (hm : symbolOf codes (L + j + 1) (s.codeBits p (L + j + 1)) = some sym) :
    decodeLoop t codes (k + 1 + j) L (s.codeBits p L) (s.setBitPos (p + L)) = .ok sym (s.setBitPos (p + (L + j + 1))) := by
  rw [decodeLoop_skip t codes hb j (k + 1) L (by omega) hn, decodeLoop_step t codes k hb (by omega), hm]

/-- No match within the longest code. -/
theorem decodeLoop_fail (t : TableId) (codes : List (Nat × Nat)) {s : State} {p L j : Nat} (hb : s.bufLen ≤ 2 ^ 28)
    (h : p + L + j ≤ 8 * s.bufLen) (hn : ∀ i, L < i → i ≤ L + j → symbolOf codes i (s.codeBits p i) = none) :
    decodeLoop t codes j L (s.codeBits p L) (s.setBitPos (p + L)) =
      .error ⟨.huffmanDecodeFailed, BitVec.ofNat 32 (t.number <<< 24 ||| (L + j) <<< 16 ||| s.codeBits p (L + j))⟩
        (s.setBitPos (p + (L + j))) := by
  have := decodeLoop_skip t codes hb j 0 L h hn
  rw [Nat.zero_add] at this
  rw [this]
  rfl

/-- The buffer ends before a match. -/
theorem decodeLoop_short (t : TableId) (codes : List (Nat × Nat)) {s : State} {p k L j : Nat} (hb : s.bufLen ≤ 2 ^ 28)
    (h : p + L + j = 8 * s.bufLen) (hn : ∀ i, L < i → i ≤ L + j → symbolOf codes i (s.codeBits p i) = none) :
    decodeLoop t codes (k + 1 + j) L (s.codeBits p L) (s.setBitPos (p + L)) = .error ⟨.outOfData, 1⟩ (s.setBitPos (p + (L + j))) := by
  rw [decodeLoop_skip t codes hb j (k + 1) L (by omega) hn]
  have hp : (s.setBitPos (p + (L + j))).bitPos.toNat = p + (L + j) := State.bitPos_setBitPos (by omega)
  rw [decodeLoop, bind_apply, readBit_error (by rw [hp, State.bufLen_setBitPos]; omega)]

/-- Decode on a valid slot runs its loop from the present position. -/
theorem decodeSymbol_valid {t : TableId} {s : State} (h : (s.slot t).valid = true) :
    decodeSymbol t s =
      decodeLoop t (codesOf (s.slot t).lens) (maxCodeLen (s.slot t).lens) 0 (s.codeBits s.bitPos.toNat 0)
        (s.setBitPos (s.bitPos.toNat + 0)) := by
  unfold decodeSymbol
  rw [getState_bind, check_bind_pass (by simp [h]), Nat.add_zero, State.setBitPos_self]
  rfl

theorem decodeSymbol_notBuilt {t : TableId} {s : State} (h : (s.slot t).valid = false) :
    decodeSymbol t s = .error ⟨.tableNotBuilt, BitVec.ofNat 32 t.number⟩ s := by
  unfold decodeSymbol
  rw [getState_bind, check_bind_fail (by simp [h])]

/-- Decode of a symbol's own code answers the symbol and reads exactly its bits (R180). -/
theorem decodeSymbol_own {t : TableId} {s : State} {x l c : Nat} (hb : s.bufLen ≤ 2 ^ 28) (hv : (s.slot t).valid = true)
    (hx : (codesOf (s.slot t).lens)[x]? = some (l, c)) (hl : l ≠ 0) (hfit : s.bitPos.toNat + l ≤ 8 * s.bufLen)
    (hc : s.codeBits s.bitPos.toNat l = c) :
    decodeSymbol t s = .ok x (s.setBitPos (s.bitPos.toNat + l)) := by
  rw [decodeSymbol_valid hv]
  have hmax : l ≤ maxCodeLen (s.slot t).lens := by
    rw [(codesOf_used hx hl).2.1]
    exact le_maxCodeLen
  have hnone : ∀ i, 0 < i → i ≤ 0 + (l - 1) → symbolOf (codesOf (s.slot t).lens) i (s.codeBits s.bitPos.toNat i) = none := by
    intro i h1 h2
    cases hs : symbolOf (codesOf (s.slot t).lens) i (s.codeBits s.bitPos.toNat i) with
    | none => rfl
    | some y =>
      have h3 := codesOf_no_extension (symbolOf_some hs) (by omega) hx hl (by omega)
      have h4 := s.codeBits_prefix s.bitPos.toNat i (l - i)
      rw [show i + (l - i) = l from by omega, hc] at h4
      omega
  have h := decodeLoop_match t (codesOf (s.slot t).lens) (s := s) (p := s.bitPos.toNat) (L := 0) (j := l - 1)
    (k := maxCodeLen (s.slot t).lens - l) (sym := x) hb (by omega) hnone
    (by rw [show 0 + (l - 1) + 1 = l from by omega, hc]; exact symbolOf_codesOf hx hl)
  rw [show maxCodeLen (s.slot t).lens - l + 1 + (l - 1) = maxCodeLen (s.slot t).lens from by omega,
    show 0 + (l - 1) + 1 = l from by omega] at h
  exact h

/-- What a Decode that answers has done: it read a symbol's own code, of at least one bit, within the buffer. -/
theorem decodeSymbol_inv {t : TableId} {s u : State} {x : Nat} (hb : s.bufLen ≤ 2 ^ 28) (h : decodeSymbol t s = .ok x u) :
    ∃ l, 1 ≤ l ∧ l ≤ 15 ∧ s.bitPos.toNat + l ≤ 8 * s.bufLen ∧ u = s.setBitPos (s.bitPos.toNat + l) ∧
      (s.slot t).valid = true ∧ (codesOf (s.slot t).lens)[x]? = some (l, s.codeBits s.bitPos.toNat l) := by
  cases hv : (s.slot t).valid with
  | false =>
    rw [decodeSymbol_notBuilt hv] at h
    cases h
  | true =>
    rw [decodeSymbol_valid hv] at h
    have key : ∀ k L, L + k ≤ 15 →
        decodeLoop t (codesOf (s.slot t).lens) k L (s.codeBits s.bitPos.toNat L) (s.setBitPos (s.bitPos.toNat + L)) = .ok x u →
        s.bitPos.toNat + L < 2 ^ 32 →
        ∃ l, 1 ≤ l ∧ l ≤ 15 ∧ s.bitPos.toNat + l ≤ 8 * s.bufLen ∧ u = s.setBitPos (s.bitPos.toNat + l) ∧
          (codesOf (s.slot t).lens)[x]? = some (l, s.codeBits s.bitPos.toNat l) := by
      intro k
      induction k with
      | zero => intro L _ hk _; cases hk
      | succ k ih =>
        intro L hL hk hp
        by_cases hin : s.bitPos.toNat + L < 8 * s.bufLen
        · rw [decodeLoop_step t _ k hb hin] at hk
          cases hs : symbolOf (codesOf (s.slot t).lens) (L + 1) (s.codeBits s.bitPos.toNat (L + 1)) with
          | some y =>
            rw [hs] at hk
            cases hk
            exact ⟨L + 1, by omega, by omega, by omega, rfl, symbolOf_some hs⟩
          | none =>
            rw [hs] at hk
            exact ih (L + 1) (by omega) hk (by omega)
        · rw [decodeLoop, bind_apply, readBit_error (by
            rw [State.bitPos_setBitPos hp, State.bufLen_setBitPos]; omega)] at hk
          cases hk
    obtain ⟨l, h1, h2, h3, h4, h5⟩ := key _ 0 (by have := maxCodeLen_lt (s.slot t).lens; omega) h (by omega)
    exact ⟨l, h1, h2, h3, h4, rfl, h5⟩

/-- The symbol a Decode answers is one of its table's. -/
theorem decodeSymbol_lt {t : TableId} {s u : State} {x : Nat} (hb : s.bufLen ≤ 2 ^ 28) (h : decodeSymbol t s = .ok x u) :
    x < (s.slot t).lens.length := by
  obtain ⟨l, h1, -, -, -, -, h5⟩ := decodeSymbol_inv hb h
  exact (codesOf_used h5 (by omega)).1

/-! ### Build -/

theorem build_ok {t : BuildTarget} {m base : Nat} {s : State} (h : overSubscribed (s.lensSnapshot m base) = none) :
    build t m base s = .ok (maxCodeLen (s.lensSnapshot m base)) (s.setSlot t ⟨true, s.lensSnapshot m base⟩) := by
  unfold build
  rw [getState_bind, h]
  rfl

theorem build_error {t : BuildTarget} {m base L : Nat} {s : State} (h : overSubscribed (s.lensSnapshot m base) = some L) :
    build t m base s = .error ⟨.buildError, BitVec.ofNat 32 (t.table.number <<< 8 ||| L)⟩
      (s.setSlot t { s.slot t.table with valid := false }) := by
  unfold build
  rw [getState_bind, h]
  rfl

theorem lensSnapshot_length (s : State) (m base : Nat) : (s.lensSnapshot m base).length = m + 1 := by
  simp [State.lensSnapshot]

end Sys2Proof.Machine
end

