-- ==== Sys2Proof/Laws/Lz77.lean ====
section
/-! SUPPORT. The copy engine: what EmitByte, Copy, LengthOf and DistOf answer, the frame of the output, and that
the loop of BlockData has passes enough (43_lz77.md R190 to R194, 70_reset_and_hazards.md R308). -/

namespace Sys2Proof.Machine

/-! ### Single operations -/

theorem emitByte_ok {x : Byte} {s : State} (h : s.outPos.toNat < s.dstCap.toNat) :
    emitByte x s = .ok () ((s.poke .dst s.outPos.toNat x).setOutPos (s.outPos.toNat + 1)) := by
  unfold emitByte
  rw [getState_bind, check_bind_pass (by omega), update_bind, update_apply]
  rfl

theorem emitByte_error {x : Byte} {s : State} (h : s.dstCap.toNat ≤ s.outPos.toNat) :
    emitByte x s = .error ⟨.outputOverflow, 0⟩ s := by
  unfold emitByte
  rw [getState_bind, check_bind_fail (by omega)]
  rfl

theorem copy_ok {len d : Nat} {s : State} (h1 : d ≤ s.outPos.toNat) (h2 : s.outPos.toNat + len ≤ s.dstCap.toNat) :
    copy len d s = .ok () (copyLoop d len s) := by
  unfold copy
  rw [getState_bind, check_bind_pass (by omega), check_bind_pass (by omega)]
  rfl

theorem copy_tooFar {len d : Nat} {s : State} (h : s.outPos.toNat < d) :
    copy len d s = .error ⟨.distanceTooFar, BitVec.ofNat 32 d⟩ s := by
  unfold copy
  rw [getState_bind, check_bind_fail (by omega)]

theorem copy_overflow {len d : Nat} {s : State} (h1 : d ≤ s.outPos.toNat) (h2 : s.dstCap.toNat < s.outPos.toNat + len) :
    copy len d s = .error ⟨.outputOverflow, 0⟩ s := by
  unfold copy
  rw [getState_bind, check_bind_pass (by omega), check_bind_fail (by omega)]
  rfl

theorem lengthOf_invalid {sym : Nat} {s : State} (h : 285 < sym) :
    lengthOf sym s = .error ⟨.invalidLengthSymbol, BitVec.ofNat 32 sym⟩ s := by
  unfold lengthOf
  rw [check_bind_fail (by omega)]

theorem lengthOf_valid {sym : Nat} {s : State} (h : sym ≤ 285) :
    lengthOf sym s = (readBits (lengthRow sym).2 >>= fun e => pure ((lengthRow sym).1 + e)) s := by
  unfold lengthOf
  rw [check_bind_pass (by omega)]

theorem distOf_invalid {dsym : Nat} {s : State} (h : 29 < dsym) :
    distOf dsym s = .error ⟨.invalidDistanceSymbol, BitVec.ofNat 32 dsym⟩ s := by
  unfold distOf
  rw [check_bind_fail (by omega)]

theorem distOf_valid {dsym : Nat} {s : State} (h : dsym ≤ 29) :
    distOf dsym s = (readBits (distRow dsym).2 >>= fun e => pure ((distRow dsym).1 + e)) s := by
  unfold distOf
  rw [check_bind_pass (by omega)]

/-! ### The output's frame -/

/-- Only the cursor, the output position and DST differ; DST only between the two output positions, below the capacity. -/
structure OutputFrame (s t : State) : Prop where
  rest : t = { s with bitPos := t.bitPos, outPos := t.outPos, dst := t.dst }
  mono : s.outPos.toNat ≤ t.outPos.toNat
  cap : t.outPos.toNat = s.outPos.toNat ∨ t.outPos.toNat ≤ s.dstCap.toNat
  other : ∀ a, a < s.outPos.toNat ∨ t.outPos.toNat ≤ a → t.peek .dst a = s.peek .dst a

theorem OutputFrame.dstCap {s t : State} (h : OutputFrame s t) : t.dstCap = s.dstCap := by rw [h.rest]
theorem OutputFrame.config {s t : State} (h : OutputFrame s t) : t.config = s.config := by rw [h.rest]
theorem OutputFrame.bufLen {s t : State} (h : OutputFrame s t) : t.bufLen = s.bufLen := by
  rw [h.rest]
  rfl
theorem OutputFrame.bufSpace {s t : State} (h : OutputFrame s t) : t.bufSpace = s.bufSpace := by
  rw [h.rest]
  rfl
theorem OutputFrame.slot {s t : State} (h : OutputFrame s t) (k : TableId) : t.slot k = s.slot k := by
  rw [h.rest]
  cases k <;> rfl

theorem outputFrame_isFrame : IsFrame OutputFrame where
  refl s := ⟨rfl, le_refl _, .inl rfl, fun _ _ => rfl⟩
  trans s t u h1 h2 := by
    refine ⟨?_, le_trans h1.mono h2.mono, ?_, fun a ha => ?_⟩
    · rw [h2.rest, h1.rest]
    · have := h1.dstCap
      have := h1.cap
      have := h2.cap
      have := h2.mono
      rw [h1.dstCap] at *
      omega
    · have := h1.mono
      have := h2.mono
      rw [h2.other a (by omega), h1.other a (by omega)]

theorem OutputFrame.ofCursor {s t : State} (h : CursorFrame s t) : OutputFrame s t := by
  unfold CursorFrame at h
  have ho : t.outPos = s.outPos := by rw [h]
  refine ⟨?_, by rw [ho], .inl (by rw [ho]), fun a _ => ?_⟩
  · rw [h]
  · rw [h]
    rfl

theorem Act.Keeps.mono {α : Type} {R R' : State → State → Prop} {x : Act α} (hx : Act.Keeps R x)
    (h : ∀ s t, R s t → R' s t) : Act.Keeps R' x := by
  intro s
  have hs := hx s
  cases hxs : x s with
  | ok a t =>
    rw [hxs] at hs
    exact h _ _ hs
  | error r t =>
    rw [hxs] at hs
    exact h _ _ hs

theorem emitByte_keeps (x : Byte) : Act.Keeps OutputFrame (emitByte x) := by
  intro s
  by_cases h : s.outPos.toNat < s.dstCap.toNat
  · rw [emitByte_ok h]
    have h1 : ((s.poke .dst s.outPos.toNat x).setOutPos (s.outPos.toNat + 1)).outPos.toNat = s.outPos.toNat + 1 := by
      simp
      omega
    refine ⟨rfl, by omega, .inr (by omega), fun a ha => ?_⟩
    exact State.peek_poke_other s (m := .dst) (k := .dst) (a := s.outPos.toNat) (b := a) x (.inr (by omega))
  · rw [emitByte_error (by omega)]
    exact outputFrame_isFrame.refl s

theorem copy_keeps (len d : Nat) : Act.Keeps OutputFrame (copy len d) := by
  intro s
  by_cases h1 : d ≤ s.outPos.toNat
  · by_cases h2 : s.outPos.toNat + len ≤ s.dstCap.toNat
    · rw [copy_ok h1 h2]
      have h3 := copyLoop_outPos d len s (by omega)
      refine ⟨?_, by omega, .inr (by omega), fun a ha => ?_⟩
      · rw [copyLoop_eq]
      · exact copyLoop_other d len .dst a s (by omega) (.inr (by omega))
    · rw [copy_overflow h1 (by omega)]
      exact outputFrame_isFrame.refl s
  · rw [copy_tooFar (by omega)]
    exact outputFrame_isFrame.refl s

theorem blockPass_keeps (lt dt : TableId) : Act.Keeps OutputFrame (blockPass lt dt) := by
  have hF := outputFrame_isFrame
  unfold blockPass
  refine .bind hF ((decodeSymbol_keeps lt).mono fun _ _ => .ofCursor) fun sym => ?_
  refine .ite (.bind hF (emitByte_keeps _) fun _ => .pure hF _) ?_
  refine .ite (.pure hF _) ?_
  refine .bind hF ((lengthOf_keeps sym).mono fun _ _ => .ofCursor) fun len => ?_
  refine .bind hF ((decodeSymbol_keeps dt).mono fun _ _ => .ofCursor) fun ds => ?_
  refine .bind hF ((distOf_keeps ds).mono fun _ _ => .ofCursor) fun d => ?_
  exact .bind hF (copy_keeps len d) fun _ => .pure hF _

theorem blockLoop_keeps (lt dt : TableId) (n : Nat) : Act.Keeps OutputFrame (blockLoop lt dt n) := by
  have hF := outputFrame_isFrame
  induction n with
  | zero => exact .bind hF (blockPass_keeps lt dt) fun _ => .pure hF _
  | succ n ih => exact .bind hF (blockPass_keeps lt dt) fun _ => .ite (.pure hF _) ih

theorem blockData_keeps (lt dt : TableId) : Act.Keeps OutputFrame (blockData lt dt) := by
  have hF := outputFrame_isFrame
  exact .bind hF (.get hF) fun s => blockLoop_keeps lt dt _

/-! ### The cursor moves forward -/

/-- The cursor has not moved back, and a read has not taken it past the buffer. -/
def Forward (s t : State) : Prop :=
  t.bufLen = s.bufLen ∧ s.bitPos.toNat ≤ t.bitPos.toNat ∧ t.bitPos.toNat ≤ max s.bitPos.toNat (8 * s.bufLen)

/-- Forward, where the buffer is of a possible length. -/
def Forwards (s t : State) : Prop := s.bufLen ≤ 2 ^ 28 → Forward s t

theorem forwards_isFrame : IsFrame Forwards where
  refl _ _ := ⟨rfl, le_refl _, Nat.le_max_left _ _⟩
  trans s t u h1 h2 hb := by
    obtain ⟨a1, a2, a3⟩ := h1 hb
    obtain ⟨b1, b2, b3⟩ := h2 (by rw [a1]; exact hb)
    rw [a1] at b1 b3
    exact ⟨b1, le_trans a2 b2, by omega⟩

theorem readBit_forwards : Act.Keeps Forwards readBit := by
  intro s
  by_cases h : s.bitPos.toNat / 8 < s.bufLen
  · rw [readBit_ok h]
    intro hb
    have hp : (s.setBitPos (s.bitPos.toNat + 1)).bitPos.toNat = s.bitPos.toNat + 1 := State.bitPos_setBitPos (by omega)
    exact ⟨rfl, by omega, by omega⟩
  · rw [readBit_error (by omega)]
    exact forwards_isFrame.refl s

theorem readBits_forwards (n : Nat) : Act.Keeps Forwards (readBits n) := by
  intro s
  by_cases hb : s.bufLen ≤ 2 ^ 28
  · by_cases h : s.bitPos.toNat + n ≤ 8 * s.bufLen
    · rw [readBits_ok hb h]
      intro _
      have hp : (s.setBitPos (s.bitPos.toNat + n)).bitPos.toNat = s.bitPos.toNat + n := State.bitPos_setBitPos (by omega)
      exact ⟨rfl, by omega, by omega⟩
    · rw [readBits_error (by omega)]
      exact forwards_isFrame.refl s
  · cases readBits n s <;> exact fun h => absurd h hb

theorem decodeLoop_forwards (t : TableId) (codes : List (Nat × Nat)) (k : Nat) :
    ∀ L code, Act.Keeps Forwards (decodeLoop t codes k L code) := by
  induction k with
  | zero => exact fun L code => .raise forwards_isFrame _ _
  | succ k ih =>
    intro L code
    unfold decodeLoop
    refine .bind forwards_isFrame readBit_forwards fun b => ?_
    cases symbolOf codes (L + 1) (code <<< 1 ||| b.toNat) with
    | some sym => exact .pure forwards_isFrame sym
    | none => exact ih _ _

theorem decodeSymbol_forwards (t : TableId) : Act.Keeps Forwards (decodeSymbol t) :=
  .bind forwards_isFrame (.get forwards_isFrame) fun _ =>
    .bind forwards_isFrame (.check forwards_isFrame _ _ _) fun _ => decodeLoop_forwards _ _ _ _ _

theorem lengthOf_forwards (sym : Nat) : Act.Keeps Forwards (lengthOf sym) := by
  unfold lengthOf
  generalize lengthRow sym = row
  exact .bind forwards_isFrame (.check forwards_isFrame _ _ _) fun _ =>
    .bind forwards_isFrame (readBits_forwards row.2) fun e => .pure forwards_isFrame (row.1 + e)

theorem distOf_forwards (sym : Nat) : Act.Keeps Forwards (distOf sym) := by
  unfold distOf
  generalize distRow sym = row
  exact .bind forwards_isFrame (.check forwards_isFrame _ _ _) fun _ =>
    .bind forwards_isFrame (readBits_forwards row.2) fun e => .pure forwards_isFrame (row.1 + e)

theorem Forwards.same {s t : State} (h1 : t.bufLen = s.bufLen) (h2 : t.bitPos = s.bitPos) : Forwards s t :=
  fun _ => ⟨h1, by rw [h2], by rw [h2]; exact Nat.le_max_left _ _⟩

theorem emitByte_forwards (x : Byte) : Act.Keeps Forwards (emitByte x) := by
  intro s
  by_cases h : s.outPos.toNat < s.dstCap.toNat
  · rw [emitByte_ok h]
    exact .same rfl rfl
  · rw [emitByte_error (by omega)]
    exact forwards_isFrame.refl s

theorem copy_forwards (len d : Nat) : Act.Keeps Forwards (copy len d) := by
  intro s
  by_cases h1 : d ≤ s.outPos.toNat
  · by_cases h2 : s.outPos.toNat + len ≤ s.dstCap.toNat
    · rw [copy_ok h1 h2]
      exact .same (by rw [copyLoop_eq]; rfl) (by rw [copyLoop_eq])
    · rw [copy_overflow h1 (by omega)]
      exact forwards_isFrame.refl s
  · rw [copy_tooFar (by omega)]
    exact forwards_isFrame.refl s

/-- What follows the first symbol of a pass. -/
theorem blockPass_rest_forwards (dt : TableId) (sym : Nat) :
    Act.Keeps Forwards (if sym < 256 then do
        emitByte (BitVec.ofNat 8 sym)
        pure false
      else if sym = 256 then pure true
      else do
        let len ← lengthOf sym
        let ds ← decodeSymbol dt
        let d ← distOf ds
        copy len d
        pure false) := by
  have hF := forwards_isFrame
  refine .ite (.bind hF (emitByte_forwards _) fun _ => .pure hF _) ?_
  refine .ite (.pure hF _) ?_
  refine .bind hF (lengthOf_forwards sym) fun len => ?_
  refine .bind hF (decodeSymbol_forwards dt) fun ds => ?_
  refine .bind hF (distOf_forwards ds) fun d => ?_
  exact .bind hF (copy_forwards len d) fun _ => .pure hF _

theorem blockPass_forwards (lt dt : TableId) : Act.Keeps Forwards (blockPass lt dt) :=
  .bind forwards_isFrame (decodeSymbol_forwards lt) fun sym => blockPass_rest_forwards dt sym

/-- A pass that does not raise has read at least one bit within the buffer (R308). -/
theorem blockPass_reads {lt dt : TableId} {s t : State} {e : Bool} (hb : s.bufLen ≤ 2 ^ 28) (h : blockPass lt dt s = .ok e t) :
    s.bitPos.toNat < t.bitPos.toNat ∧ t.bitPos.toNat ≤ 8 * s.bufLen ∧ t.bufLen = s.bufLen := by
  unfold blockPass at h
  rw [bind_apply] at h
  cases hd : decodeSymbol lt s with
  | error r u =>
    rw [hd] at h
    cases h
  | ok sym u =>
    rw [hd] at h
    obtain ⟨l, h1, h2, h3, rfl, -⟩ := decodeSymbol_inv hb hd
    have hp : (s.setBitPos (s.bitPos.toNat + l)).bitPos.toNat = s.bitPos.toNat + l := State.bitPos_setBitPos (by omega)
    have hr := blockPass_rest_forwards dt sym (s.setBitPos (s.bitPos.toNat + l))
    simp only at h
    rw [h] at hr
    obtain ⟨r1, r2, r3⟩ := hr hb
    rw [State.bufLen_setBitPos] at r1 r3
    exact ⟨by omega, by omega, r1⟩

/-- More passes than bits are left change nothing (R308). -/
theorem blockLoop_stable (lt dt : TableId) (n : Nat) :
    ∀ s : State, s.bufLen ≤ 2 ^ 28 → s.bitsLeft ≤ n → blockLoop lt dt (n + 1) s = blockLoop lt dt n s := by
  induction n with
  | zero =>
    intro s hb hn
    simp only [blockLoop]
    rw [bind_apply, bind_apply]
    cases hp : blockPass lt dt s with
    | error r t => rfl
    | ok e t =>
      have := blockPass_reads hb hp
      unfold State.bitsLeft at hn
      omega
  | succ n ih =>
    intro s hb hn
    rw [blockLoop, blockLoop, bind_apply, bind_apply]
    cases hp : blockPass lt dt s with
    | error r t => rfl
    | ok e t =>
      obtain ⟨h1, h2, h3⟩ := blockPass_reads hb hp
      cases e with
      | true => rfl
      | false =>
        simp only [Bool.false_eq_true, if_false]
        refine ih t (by rw [h3]; exact hb) ?_
        unfold State.bitsLeft at hn ⊢
        omega

theorem blockLoop_enough (lt dt : TableId) {s : State} (hb : s.bufLen ≤ 2 ^ 28) {n : Nat} (hn : s.bitsLeft ≤ n) :
    blockLoop lt dt n s = blockLoop lt dt s.bitsLeft s := by
  obtain ⟨k, rfl⟩ := Nat.exists_eq_add_of_le hn
  induction k with
  | zero => rfl
  | succ k ih => rw [← Nat.add_assoc, blockLoop_stable lt dt _ s hb (by omega), ih (by omega)]

end Sys2Proof.Machine
end

