-- ==== Sys2Proof/Laws/Dispatcher.lean ====
section
/-! SUPPORT. The dispatcher: the frames of the dynamic header and of a whole block, that the cursor never moves back in
a block, and that the block loop of Inflate has passes enough (44_dispatcher.md R211 to R217, R308). -/

namespace Sys2Proof.Machine

/-! ### The cursor never moves back -/

/-- The cursor has not moved back and stays within the range of BIT_POS, where it and the buffer are within theirs. -/
def NotBack (s t : State) : Prop :=
  s.bufLen ≤ 2 ^ 28 → s.bitPos.toNat ≤ 2 ^ 31 →
    t.bufLen = s.bufLen ∧ s.bitPos.toNat ≤ t.bitPos.toNat ∧ t.bitPos.toNat ≤ 2 ^ 31

theorem notBack_isFrame : IsFrame NotBack where
  refl _ _ h := ⟨rfl, le_refl _, h⟩
  trans s t u h1 h2 hb hp := by
    obtain ⟨a1, a2, a3⟩ := h1 hb hp
    obtain ⟨b1, b2, b3⟩ := h2 (by rw [a1]; exact hb) a3
    exact ⟨by rw [b1, a1], le_trans a2 b2, b3⟩

theorem Forwards.notBack {s t : State} (h : Forwards s t) : NotBack s t := by
  intro hb hp
  obtain ⟨a1, a2, a3⟩ := h hb
  exact ⟨a1, a2, by omega⟩

theorem NotBack.same {s t : State} (h1 : t.bufLen = s.bufLen) (h2 : t.bitPos = s.bitPos) : NotBack s t :=
  (Forwards.same h1 h2).notBack

theorem readBit_notBack : Act.Keeps NotBack readBit := readBit_forwards.mono fun _ _ => Forwards.notBack
theorem readBits_notBack (n : Nat) : Act.Keeps NotBack (readBits n) := (readBits_forwards n).mono fun _ _ => Forwards.notBack
theorem decodeSymbol_notBack (t : TableId) : Act.Keeps NotBack (decodeSymbol t) :=
  (decodeSymbol_forwards t).mono fun _ _ => Forwards.notBack

theorem align_notBack : Act.Keeps NotBack align := by
  intro s hb hp
  have h : (s.setBitPos ((s.bitPos.toNat + 7) / 8 * 8)).bitPos.toNat = (s.bitPos.toNat + 7) / 8 * 8 :=
    State.bitPos_setBitPos (by omega)
  exact ⟨rfl, by rw [h]; omega, by rw [h]; omega⟩

theorem blockLoop_forwards (lt dt : TableId) (n : Nat) : Act.Keeps Forwards (blockLoop lt dt n) := by
  have hF := forwards_isFrame
  induction n with
  | zero => exact .bind hF (blockPass_forwards lt dt) fun _ => .pure hF _
  | succ n ih => exact .bind hF (blockPass_forwards lt dt) fun _ => .ite (.pure hF _) ih

theorem blockData_notBack (lt dt : TableId) : Act.Keeps NotBack (blockData lt dt) :=
  .bind notBack_isFrame (.get notBack_isFrame) fun _ => (blockLoop_forwards lt dt _).mono fun _ _ => Forwards.notBack

theorem State.setSlot_bufLen (s : State) (t : BuildTarget) (v : Slot) : (s.setSlot t v).bufLen = s.bufLen := by
  cases t <;> rfl

theorem build_notBack (t : BuildTarget) (m base : Nat) : Act.Keeps NotBack (build t m base) := by
  intro s
  cases h : overSubscribed (s.lensSnapshot m base) with
  | none =>
    rw [build_ok h]
    exact .same (State.setSlot_bufLen _ _ _) (by cases t <;> rfl)
  | some L =>
    rw [build_error h]
    exact .same (State.setSlot_bufLen _ _ _) (by cases t <;> rfl)

theorem blockHeader_notBack : Act.Keeps NotBack blockHeader := by
  have hF := notBack_isFrame
  exact .bind hF readBit_notBack fun bf => .bind hF (readBits_notBack 2) fun bt =>
    .bind hF (.update fun _ => .same rfl rfl) fun _ => .pure hF _

/-- The last part of a stored block: the copy and the two positions. -/
theorem storedMove_bitPos {s : State} {f : Space} {len a b : Nat} :
    (blit f .dst len a b s).bitPos = s.bitPos ∧ (blit f .dst len a b s).bufLen = s.bufLen := by
  rw [blit_dst_eq]
  exact ⟨rfl, rfl⟩

/-- A stored block after its LEN and NLEN reads (R212). -/
def storedRest (len nlen : Nat) : Act Unit := do
  update fun s => { s with block := { s.block with len := BitVec.ofNat 16 len } }
  check (nlen ≠ 0xFFFF - len) .storedBlockLengthMismatch (len ||| nlen <<< 16)
  let s ← getState
  let p := s.bitPos.toNat / 8
  check (p + len > s.bufLen) .outOfData (8 * len % 2 ^ 32)
  check (s.outPos.toNat + len > s.dstCap.toNat) .outputOverflow 0
  update (blit s.bufSpace .dst len p s.outPos.toNat)
  update fun s => s.setOutPos (s.outPos.toNat + len)
  update fun s => s.setBitPos (s.bitPos.toNat + 8 * len)

theorem stored_unfold : stored = (do
    align
    let len ← readBits 16
    let nlen ← readBits 16
    storedRest len nlen) := rfl

theorem storedRest_notBack {len nlen : Nat} {s : State} (ha : s.bitPos.toNat % 8 = 0) :
    match storedRest len nlen s with
    | .ok _ t => NotBack s t
    | .error _ t => NotBack s t := by
  unfold storedRest
  rw [update_bind]
  generalize hu : ({ s with block := { s.block with len := BitVec.ofNat 16 len } } : State) = u
  have hsu : NotBack s u := by subst hu; exact .same rfl rfl
  replace ha : u.bitPos.toNat % 8 = 0 := by subst hu; exact ha
  by_cases h0 : nlen ≠ 0xFFFF - len
  · rw [check_bind_fail h0]
    exact hsu
  rw [check_bind_pass h0, getState_bind]
  by_cases h1 : u.bitPos.toNat / 8 + len > u.bufLen
  · rw [check_bind_fail h1]
    exact hsu
  rw [check_bind_pass h1]
  by_cases h2 : u.outPos.toNat + len > u.dstCap.toNat
  · rw [check_bind_fail h2]
    exact hsu
  rw [check_bind_pass h2, update_bind, update_bind, update_apply]
  refine notBack_isFrame.trans _ _ _ hsu fun hb hp => ?_
  obtain ⟨e1, e2⟩ := storedMove_bitPos (s := u) (f := u.bufSpace) (len := len) (a := u.bitPos.toNat / 8) (b := u.outPos.toNat)
  refine ⟨e2, ?_, ?_⟩ <;>
  · simp only [State.setBitPos, State.setOutPos, e1, BitVec.toNat_ofNat]
    omega

/-- The cursor's position after a read that answers. -/
theorem readBits_pos {n : Nat} {s t : State} {v : Nat} (hb : s.bufLen ≤ 2 ^ 28) (h : readBits n s = .ok v t) :
    t = s.setBitPos (s.bitPos.toNat + n) ∧ s.bitPos.toNat + n ≤ 8 * s.bufLen ∧ v = s.bitsFrom s.bitPos.toNat n := by
  by_cases hn : s.bitPos.toNat + n ≤ 8 * s.bufLen
  · rw [readBits_ok hb hn] at h
    cases h
    exact ⟨rfl, hn, rfl⟩
  · rw [readBits_error (by omega)] at h
    cases h

theorem stored_notBack : Act.Keeps NotBack stored := by
  intro s
  by_cases hb : s.bufLen ≤ 2 ^ 28
  · by_cases hp : s.bitPos.toNat ≤ 2 ^ 31
    · rw [stored_unfold, bind_apply, align, update_apply]
      have hs := align_notBack s
      rw [align, update_apply] at hs
      simp only at hs ⊢
      generalize hu : s.setBitPos ((s.bitPos.toNat + 7) / 8 * 8) = u at hs ⊢
      obtain ⟨u1, u2, u3⟩ := hs hb hp
      have ha : u.bitPos.toNat % 8 = 0 := by
        rw [← hu, State.bitPos_setBitPos (by omega)]
        omega
      have hsu : NotBack s u := fun _ _ => ⟨u1, u2, u3⟩
      rw [← u1] at hb
      rw [bind_apply]
      have hr := readBits_notBack 16 u
      cases h16 : readBits 16 u with
      | error r t =>
        rw [h16] at hr
        exact notBack_isFrame.trans _ _ _ hsu hr
      | ok len v =>
        rw [h16] at hr
        obtain ⟨hv, hv2, -⟩ := readBits_pos hb h16
        have hvp : v.bitPos.toNat = u.bitPos.toNat + 16 := by rw [hv]; exact State.bitPos_setBitPos (by omega)
        have hvb : v.bufLen = u.bufLen := by rw [hv]; rfl
        simp only
        rw [bind_apply]
        have hr2 := readBits_notBack 16 v
        cases h32 : readBits 16 v with
        | error r t =>
          rw [h32] at hr2
          exact notBack_isFrame.trans _ _ _ (notBack_isFrame.trans _ _ _ hsu hr) hr2
        | ok nlen w =>
          rw [h32] at hr2
          obtain ⟨hw, hw2, -⟩ := readBits_pos (by rw [hvb]; exact hb) h32
          have hwp : w.bitPos.toNat = v.bitPos.toNat + 16 := by
            rw [hw]; exact State.bitPos_setBitPos (by rw [hvb] at hw2; omega)
          simp only
          have h3 := storedRest_notBack (len := len) (nlen := nlen) (s := w) (by omega)
          have h4 := notBack_isFrame.trans _ _ _ (notBack_isFrame.trans _ _ _ hsu hr) hr2
          cases hx : storedRest len nlen w with
          | ok a t =>
            rw [hx] at h3
            exact notBack_isFrame.trans _ _ _ h4 h3
          | error r t =>
            rw [hx] at h3
            exact notBack_isFrame.trans _ _ _ h4 h3
    · cases stored s <;> exact fun _ h => absurd h hp
  · cases stored s <;> exact fun h _ => absurd h hb

theorem fillLens_notBack (v : Nibble) (n i : Nat) (s : State) : NotBack s (fillLens v n i s) :=
  .same (by rw [fillLens_eq]; rfl) (by rw [fillLens_eq])

theorem readClLens_notBack (cs : List Nat) : Act.Keeps NotBack (readClLens cs) := by
  have hF := notBack_isFrame
  induction cs with
  | nil => exact .pure hF _
  | cons c cs ih => exact .bind hF (readBits_notBack 3) fun l => .bind hF (.update fun _ => .same rfl rfl) fun _ => ih

theorem repeatOf_notBack (sym i : Nat) : Act.Keeps NotBack (repeatOf sym i) := by
  have hF := notBack_isFrame
  refine .ite (.bind hF (.check hF _ _ _) fun _ => .bind hF (readBits_notBack 2) fun e => .bind hF (.get hF) fun _ => .pure hF _) ?_
  exact .ite (.bind hF (readBits_notBack 3) fun e => .pure hF _) (.bind hF (readBits_notBack 7) fun e => .pure hF _)

theorem codeLengthsLoop_notBack (total k : Nat) : ∀ i, Act.Keeps NotBack (codeLengthsLoop total k i) := by
  have hF := notBack_isFrame
  induction k with
  | zero => exact fun i => .pure hF _
  | succ k ih =>
    intro i
    refine .ite (.bind hF (decodeSymbol_notBack .cl) fun sym => .ite ?_ ?_) (.pure hF _)
    · exact .bind hF (.update fun _ => .same rfl rfl) fun _ => ih _
    · exact .bind hF (repeatOf_notBack sym i) fun rv => .bind hF (.check hF _ _ _) fun _ =>
        .bind hF (.update (fillLens_notBack _ _ _)) fun _ => ih _

theorem codeLengths_notBack (total : Nat) : Act.Keeps NotBack (codeLengths total) := codeLengthsLoop_notBack total total 0

/-- The tables of a dynamic header, from the code-length lengths on (R213). -/
def dynTables (hlit hdist : Nat) (order : List Nat) : Act Unit := do
  readClLens order
  let _ ← build .cl 18 0
  codeLengths (hlit + hdist)
  let _ ← build .ll (hlit - 1) 0
  let _ ← build .dist (hdist - 1) hlit
  pure ()

theorem dynHeader_unfold : dynHeader = (do
    let a ← readBits 5
    let b ← readBits 5
    let c ← readBits 4
    update fun s => { s with dyn := ⟨BitVec.ofNat 9 (a + 257), BitVec.ofNat 6 (b + 1), BitVec.ofNat 5 (c + 4)⟩ }
    update (fillLens 0 19 0)
    dynTables (a + 257) (b + 1) (clOrder.take (c + 4))) := rfl

theorem dynTables_notBack (hlit hdist : Nat) (order : List Nat) : Act.Keeps NotBack (dynTables hlit hdist order) := by
  have hF := notBack_isFrame
  refine .bind hF (readClLens_notBack order) fun _ => .bind hF (build_notBack .cl 18 0) fun _ => ?_
  refine .bind hF (codeLengths_notBack (hlit + hdist)) fun _ => .bind hF (build_notBack .ll (hlit - 1) 0) fun _ => ?_
  exact .bind hF (build_notBack .dist (hdist - 1) hlit) fun _ => .pure hF _

theorem dynHeader_notBack : Act.Keeps NotBack dynHeader := by
  have hF := notBack_isFrame
  rw [dynHeader_unfold]
  refine .bind hF (readBits_notBack 5) fun a => .bind hF (readBits_notBack 5) fun b => .bind hF (readBits_notBack 4) fun c => ?_
  refine .bind hF (.update fun _ => .same rfl rfl) fun _ => ?_
  refine .bind hF (.update (fillLens_notBack 0 19 0)) fun _ => ?_
  exact dynTables_notBack (a + 257) (b + 1) (clOrder.take (c + 4))

theorem blockBody_notBack (bt : Nat) : Act.Keeps NotBack (blockBody bt) := by
  have hF := notBack_isFrame
  exact .ite stored_notBack (.ite (blockData_notBack _ _)
    (.ite (.bind hF dynHeader_notBack fun _ => blockData_notBack _ _) (.raise hF _ _)))

/-- What follows the header of a block. -/
theorem blockTail_notBack (h : Bool × Nat) : Act.Keeps NotBack (do
    blockBody h.2
    update fun s => { s with status := { s.status with final := h.1 } }
    update fun s => { s with blockCount := s.blockCount + 1 }) := by
  have hF := notBack_isFrame
  exact .bind hF (blockBody_notBack _) fun _ => .bind hF (.update fun _ => .same rfl rfl) fun _ => .update fun _ => .same rfl rfl

theorem block_notBack : Act.Keeps NotBack block := .bind notBack_isFrame blockHeader_notBack blockTail_notBack

theorem trailerBytes_notBack (k : Nat) : ∀ t, Act.Keeps NotBack (trailerBytes k t) := by
  induction k with
  | zero => exact fun t => .pure notBack_isFrame _
  | succ k ih => exact fun t => .bind notBack_isFrame (readBits_notBack 8) fun x => ih _

theorem trailer_notBack : Act.Keeps NotBack trailer := by
  have hF := notBack_isFrame
  exact .bind hF align_notBack fun _ => .bind hF (trailerBytes_notBack 4 0) fun t =>
    .bind hF (.update fun _ => .same rfl rfl) fun _ => .bind hF (.update fun _ => .same rfl rfl) fun _ =>
    .bind hF (.get hF) fun _ => .check hF _ _ _

/-! ### The block loop has passes enough -/

/-- The header's three bits: what BlockHeader answers when they are there (R211). -/
theorem blockHeader_ok {s : State} (hb : s.bufLen ≤ 2 ^ 28) (h : s.bitPos.toNat + 3 ≤ 8 * s.bufLen) :
    blockHeader s = .ok (s.bufBit s.bitPos.toNat, s.bitsFrom (s.bitPos.toNat + 1) 2)
      { s.setBitPos (s.bitPos.toNat + 3) with
        block := { s.block with
          bfinal := s.bufBit s.bitPos.toNat, btype := BitVec.ofNat 2 (s.bitsFrom (s.bitPos.toNat + 1) 2) } } := by
  have hp : (s.setBitPos (s.bitPos.toNat + 1)).bitPos.toNat = s.bitPos.toNat + 1 := State.bitPos_setBitPos (by omega)
  unfold blockHeader
  rw [bind_apply, readBit_ok (by omega)]
  simp only
  rw [bind_apply, readBits_ok (by rw [State.bufLen_setBitPos]; exact hb) (by rw [hp, State.bufLen_setBitPos]; omega), hp,
    State.bitsFrom_setBitPos, State.setBitPos_setBitPos]
  rfl

theorem blockHeader_short {s : State} (hb : s.bufLen ≤ 2 ^ 28) (h : 8 * s.bufLen < s.bitPos.toNat + 3) :
    ∃ r t, blockHeader s = .error r t := by
  unfold blockHeader
  by_cases h1 : s.bitPos.toNat / 8 < s.bufLen
  · have hp : (s.setBitPos (s.bitPos.toNat + 1)).bitPos.toNat = s.bitPos.toNat + 1 := State.bitPos_setBitPos (by omega)
    rw [bind_apply, readBit_ok h1]
    simp only
    rw [bind_apply, readBits_error (by rw [hp, State.bufLen_setBitPos]; omega)]
    exact ⟨_, _, rfl⟩
  · rw [bind_apply, readBit_error (by omega)]
    exact ⟨_, _, rfl⟩

/-- A block that does not raise has read at least its header within the buffer (R308). -/
theorem block_reads {s t : State} (hb : s.bufLen ≤ 2 ^ 28) (hp : s.bitPos.toNat ≤ 2 ^ 31) (h : block s = .ok () t) :
    s.bitPos.toNat + 3 ≤ 8 * s.bufLen ∧ s.bitPos.toNat + 3 ≤ t.bitPos.toNat ∧ t.bitPos.toNat ≤ 2 ^ 31 ∧ t.bufLen = s.bufLen := by
  unfold block at h
  rw [bind_apply] at h
  by_cases h3 : s.bitPos.toNat + 3 ≤ 8 * s.bufLen
  · rw [blockHeader_ok hb h3] at h
    simp only at h
    have hk := blockTail_notBack (s.bufBit s.bitPos.toNat, s.bitsFrom (s.bitPos.toNat + 1) 2)
      { s.setBitPos (s.bitPos.toNat + 3) with
        block := { s.block with
          bfinal := s.bufBit s.bitPos.toNat, btype := BitVec.ofNat 2 (s.bitsFrom (s.bitPos.toNat + 1) 2) } }
    rw [h] at hk
    have hq : (s.setBitPos (s.bitPos.toNat + 3)).bitPos.toNat = s.bitPos.toNat + 3 := State.bitPos_setBitPos (by omega)
    obtain ⟨k1, k2, k3⟩ := hk hb (by show (s.setBitPos _).bitPos.toNat ≤ _; rw [hq]; omega)
    exact ⟨h3, le_trans (le_of_eq hq.symm) k2, k3, k1⟩
  · obtain ⟨r, u, hr⟩ := blockHeader_short hb (by omega : 8 * s.bufLen < s.bitPos.toNat + 3)
    rw [hr] at h
    cases h

/-- More passes than bits are left change nothing (R308). -/
theorem inflateLoop_stable (n : Nat) :
    ∀ s : State, s.bufLen ≤ 2 ^ 28 → s.bitPos.toNat ≤ 2 ^ 31 → s.bitsLeft ≤ n → inflateLoop (n + 1) s = inflateLoop n s := by
  induction n with
  | zero =>
    intro s hb hp hn
    simp only [inflateLoop]
    rw [bind_apply]
    cases hk : block s with
    | error r t => rfl
    | ok e t =>
      have := block_reads hb hp hk
      unfold State.bitsLeft at hn
      omega
  | succ n ih =>
    intro s hb hp hn
    rw [inflateLoop, inflateLoop, bind_apply, bind_apply]
    cases hk : block s with
    | error r t => rfl
    | ok e t =>
      obtain ⟨h1, h2, h3, h4⟩ := block_reads hb hp hk
      simp only [getState_bind]
      cases t.status.final with
      | true => rfl
      | false =>
        simp only [Bool.false_eq_true, if_false]
        refine ih t (by rw [h4]; exact hb) h3 ?_
        unfold State.bitsLeft at hn ⊢
        omega

theorem inflateLoop_enough {s : State} (hb : s.bufLen ≤ 2 ^ 28) (hp : s.bitPos.toNat ≤ 2 ^ 31) {n : Nat} (hn : s.bitsLeft ≤ n) :
    inflateLoop n s = inflateLoop s.bitsLeft s := by
  obtain ⟨k, rfl⟩ := Nat.exists_eq_add_of_le hn
  induction k with
  | zero => rfl
  | succ k ih => rw [← Nat.add_assoc, inflateLoop_stable _ s hb hp (by omega), ih (by omega)]

/-! ### Frames -/

/-- Only the cursor and LENS differ, and LENS only below n. -/
structure LensFrame (n : Nat) (s t : State) : Prop where
  rest : t = { s with bitPos := t.bitPos, lens := t.lens }
  other : ∀ i, n ≤ i → t.lensAt i = s.lensAt i

theorem lensFrame_isFrame (n : Nat) : IsFrame (LensFrame n) where
  refl s := ⟨rfl, fun _ _ => rfl⟩
  trans s t u h1 h2 := ⟨by rw [h2.rest, h1.rest], fun i hi => by rw [h2.other i hi, h1.other i hi]⟩

theorem LensFrame.ofCursor {n : Nat} {s t : State} (h : CursorFrame s t) : LensFrame n s t := by
  unfold CursorFrame at h
  exact ⟨by rw [h], fun i _ => by rw [h]; rfl⟩

theorem setLens_lensFrame {n i : Nat} (h : i < n) (v : Nibble) (s : State) : LensFrame n s (s.setLens i v) :=
  ⟨rfl, fun j hj => by rw [State.lensAt_setLens, if_neg (by omega)]⟩

theorem fillLens_lensFrame {n i r : Nat} (h : i + r ≤ n) (v : Nibble) (s : State) : LensFrame n s (fillLens v r i s) :=
  ⟨by rw [fillLens_eq], fun j hj => by rw [fillLens_lensAt, if_neg (by omega)]⟩

theorem readClLens_keeps (cs : List Nat) (h : ∀ c ∈ cs, c < 19) : Act.Keeps (LensFrame 19) (readClLens cs) := by
  have hF := lensFrame_isFrame 19
  induction cs with
  | nil => exact .pure hF _
  | cons c cs ih =>
    refine .bind hF ((readBits_keeps 3).mono fun _ _ => .ofCursor) fun l => ?_
    exact .bind hF (.update fun s => setLens_lensFrame (h c (by simp)) _ s) fun _ => ih fun d hd => h d (by simp [hd])

theorem repeatOf_keeps (sym i : Nat) : Act.Keeps CursorFrame (repeatOf sym i) := by
  have hF := cursorFrame_isFrame
  refine .ite (.bind hF (.check hF _ _ _) fun _ => .bind hF (readBits_keeps 2) fun e => .bind hF (.get hF) fun _ => .pure hF _) ?_
  exact .ite (.bind hF (readBits_keeps 3) fun e => .pure hF _) (.bind hF (readBits_keeps 7) fun e => .pure hF _)

theorem codeLengthsLoop_keeps (total k : Nat) : ∀ i, Act.Keeps (LensFrame total) (codeLengthsLoop total k i) := by
  have hF := lensFrame_isFrame total
  induction k with
  | zero => exact fun i => .pure hF _
  | succ k ih =>
    intro i
    by_cases hi : i < total
    · simp only [codeLengthsLoop, hi, if_true]
      refine .bind hF ((decodeSymbol_keeps .cl).mono fun _ _ => .ofCursor) fun sym => .ite ?_ ?_
      · exact .bind hF (.update fun s => setLens_lensFrame hi _ s) fun _ => ih _
      · refine .bind hF ((repeatOf_keeps sym i).mono fun _ _ => .ofCursor) fun rv => ?_
        intro s
        by_cases h : i + rv.1 > total
        · rw [check_bind_fail h]
          exact hF.refl s
        · rw [check_bind_pass h]
          exact Act.Keeps.bind hF (.update fun s => fillLens_lensFrame (by omega) _ s) (fun _ => ih _) s
    · simp only [codeLengthsLoop, hi, if_false]
      exact .pure hF _

theorem clOrder_lt : ∀ c ∈ clOrder, c < 19 := by decide

/-- Only what a dynamic header writes differs (R213). -/
structure DynFrame (s t : State) : Prop where
  rest : t = { s with bitPos := t.bitPos, dyn := t.dyn, cl := t.cl, ll := t.ll, dist := t.dist, lens := t.lens }
  other : ∀ i, 320 ≤ i → t.lensAt i = s.lensAt i

theorem dynFrame_isFrame : IsFrame DynFrame where
  refl s := ⟨rfl, fun _ _ => rfl⟩
  trans s t u h1 h2 := ⟨by rw [h2.rest, h1.rest], fun i hi => by rw [h2.other i hi, h1.other i hi]⟩

theorem DynFrame.ofLens {n : Nat} (hn : n ≤ 320) {s t : State} (h : LensFrame n s t) : DynFrame s t :=
  ⟨by rw [h.rest], fun i hi => h.other i (by omega)⟩

theorem DynFrame.ofCursor {s t : State} (h : CursorFrame s t) : DynFrame s t :=
  .ofLens (n := 0) (by omega) (.ofCursor h)

theorem build_keeps (t : BuildTarget) (m base : Nat) : Act.Keeps DynFrame (build t m base) := by
  intro s
  cases h : overSubscribed (s.lensSnapshot m base) with
  | none =>
    rw [build_ok h]
    cases t <;> exact ⟨rfl, fun _ _ => rfl⟩
  | some L =>
    rw [build_error h]
    cases t <;> exact ⟨rfl, fun _ _ => rfl⟩

/-- A value a read answers is within its width. -/
theorem readBits_lt {n : Nat} {s t : State} {v : Nat} (hb : s.bufLen ≤ 2 ^ 28) (h : readBits n s = .ok v t) : v < 2 ^ n := by
  by_cases hn : s.bitPos.toNat + n ≤ 8 * s.bufLen
  · rw [readBits_ok hb hn] at h
    cases h
    exact s.bitsFrom_lt n _
  · rw [readBits_error (by omega)] at h
    cases h

end Sys2Proof.Machine
end

