-- ==== Sys2Proof/Laws/Block.lean ====
section
/-! SUPPORT. The frame of a whole block and of a whole stream (44_dispatcher.md R212, R216, R217). -/

namespace Sys2Proof.Machine

/-- Only what a block writes differs; DST only between the two output positions, below the capacity (R216). -/
structure BlockFrame (s t : State) : Prop where
  rest : t = { s with
    status := { s.status with final := t.status.final }
    bitPos := t.bitPos, outPos := t.outPos, block := t.block, dyn := t.dyn, blockCount := t.blockCount
    cl := t.cl, ll := t.ll, dist := t.dist, dst := t.dst, lens := t.lens }
  mono : s.outPos.toNat ≤ t.outPos.toNat
  cap : t.outPos.toNat = s.outPos.toNat ∨ t.outPos.toNat ≤ s.dstCap.toNat
  other : ∀ a, a < s.outPos.toNat ∨ t.outPos.toNat ≤ a → t.peek .dst a = s.peek .dst a
  lens : ∀ i, 320 ≤ i → t.lensAt i = s.lensAt i

theorem BlockFrame.dstCap {s t : State} (h : BlockFrame s t) : t.dstCap = s.dstCap := by rw [h.rest]

theorem blockFrame_isFrame : IsFrame BlockFrame where
  refl _ := ⟨rfl, le_refl _, .inl rfl, fun _ _ => rfl, fun _ _ => rfl⟩
  trans s t u h1 h2 := by
    have a1 := h1.mono
    have a2 := h2.mono
    have c1 := h1.cap
    have c2 := h2.cap
    rw [h1.dstCap] at c2
    refine ⟨by rw [h2.rest, h1.rest], le_trans a1 a2, by omega, fun a ha => ?_, fun i hi => ?_⟩
    · rw [h2.other a (by omega), h1.other a (by omega)]
    · rw [h2.lens i hi, h1.lens i hi]

theorem BlockFrame.ofOutput {s t : State} (h : OutputFrame s t) : BlockFrame s t where
  rest := by rw [h.rest]
  mono := h.mono
  cap := h.cap
  other := h.other
  lens := fun i _ => by rw [h.rest]; rfl

theorem BlockFrame.ofCursor {s t : State} (h : CursorFrame s t) : BlockFrame s t := .ofOutput (.ofCursor h)

theorem BlockFrame.ofDyn {s t : State} (h : DynFrame s t) : BlockFrame s t where
  rest := by rw [h.rest]
  mono := by rw [h.rest]
  cap := .inl (by rw [h.rest])
  other := fun a _ => by rw [h.rest]; rfl
  lens := h.other

theorem BlockFrame.same {s t : State}
    (h : t = { s with
      status := { s.status with final := t.status.final }
      bitPos := t.bitPos, block := t.block, dyn := t.dyn, blockCount := t.blockCount }) : BlockFrame s t where
  rest := by rw [h]
  mono := by rw [h]
  cap := .inl (by rw [h])
  other := fun a _ => by rw [h]; rfl
  lens := fun i _ => by rw [h]; rfl

theorem storedRest_keeps (len nlen : Nat) : Act.Keeps BlockFrame (storedRest len nlen) := by
  have hF := blockFrame_isFrame
  refine .bind hF (.update fun _ => .same rfl) fun _ => .bind hF (.check hF _ _ _) fun _ => ?_
  intro s
  rw [getState_bind]
  by_cases h1 : s.bitPos.toNat / 8 + len > s.bufLen
  · rw [check_bind_fail h1]
    exact hF.refl s
  rw [check_bind_pass h1]
  by_cases h2 : s.outPos.toNat + len > s.dstCap.toNat
  · rw [check_bind_fail h2]
    exact hF.refl s
  rw [check_bind_pass h2, update_bind, update_bind, update_apply]
  have hb := blit_other s.bufSpace .dst .dst len (s.bitPos.toNat / 8) s.outPos.toNat
  have hlen : (BitVec.ofNat 32 (s.outPos.toNat + len)).toNat = s.outPos.toNat + len := by
    have := s.dstCap.isLt
    simp only [BitVec.toNat_ofNat]
    omega
  have key : BlockFrame s ((blit s.bufSpace .dst len (s.bitPos.toNat / 8) s.outPos.toNat s).setOutPos (s.outPos.toNat + len)) := by
    refine ⟨?_, ?_, .inr ?_, fun a ha => ?_, fun i _ => ?_⟩
    · rw [blit_dst_eq]
      rfl
    · show _ ≤ (BitVec.ofNat 32 _).toNat
      omega
    · show (BitVec.ofNat 32 _).toNat ≤ _
      omega
    · refine hb a s (.inr ?_)
      rcases ha with ha | ha
      · exact .inl ha
      · exact .inr (by rw [← hlen]; exact ha)
    · rw [blit_dst_eq]
      rfl
  have ho : (blit s.bufSpace .dst len (s.bitPos.toNat / 8) s.outPos.toNat s).outPos = s.outPos := by rw [blit_dst_eq]
  rw [ho]
  exact hF.trans _ _ _ key (.same rfl)

theorem stored_keeps : Act.Keeps BlockFrame stored := by
  have hF := blockFrame_isFrame
  rw [stored_unfold]
  exact .bind hF (align_keeps.mono fun _ _ => .ofCursor) fun _ => .bind hF ((readBits_keeps 16).mono fun _ _ => .ofCursor) fun len =>
    .bind hF ((readBits_keeps 16).mono fun _ _ => .ofCursor) fun nlen => storedRest_keeps len nlen

theorem dynTables_keeps {hlit hdist : Nat} {order : List Nat} (h : hlit + hdist ≤ 320) (ho : ∀ c ∈ order, c < 19) :
    Act.Keeps DynFrame (dynTables hlit hdist order) := by
  have hF := dynFrame_isFrame
  refine .bind hF ((readClLens_keeps order ho).mono fun _ _ => .ofLens (by omega)) fun _ => .bind hF (build_keeps .cl 18 0) fun _ => ?_
  refine .bind hF ((codeLengthsLoop_keeps (hlit + hdist) (hlit + hdist) 0).mono fun _ _ => .ofLens h) fun _ => ?_
  exact .bind hF (build_keeps .ll (hlit - 1) 0) fun _ => .bind hF (build_keeps .dist (hdist - 1) hlit) fun _ => .pure hF _

/-- A read of at most 5 bits answers less than 32, also where the buffer is too long for BIT_POS. -/
theorem readBitsLoop_lt (k : Nat) : ∀ (i v : Nat) (s t : State) (w : Nat), v < 2 ^ i → readBitsLoop k i v s = .ok w t → w < 2 ^ (i + k) := by
  induction k with
  | zero =>
    intro i v s t w hv h
    cases h
    exact hv
  | succ k ih =>
    intro i v s t w hv h
    rw [readBitsLoop, bind_apply] at h
    cases hb : readBit s with
    | error r u => rw [hb] at h; cases h
    | ok b u =>
      rw [hb] at h
      have hlt : v ||| b.toNat <<< i < 2 ^ (i + 1) := by
        refine Nat.or_lt_two_pow (lt_of_lt_of_le hv (Nat.pow_le_pow_right (by decide) (by omega))) ?_
        rw [Nat.shiftLeft_eq, pow_succ, Nat.mul_comm]
        exact Nat.mul_lt_mul_of_pos_left (Bool.toNat_lt b) (by positivity)
      have := ih (i + 1) _ u t w hlt h
      rwa [show i + 1 + k = i + (k + 1) from by omega] at this

theorem readBits_value_lt {n : Nat} {s t : State} {v : Nat} (h : readBits n s = .ok v t) : v < 2 ^ n := by
  unfold readBits at h
  rw [getState_bind] at h
  by_cases hn : s.bitPos.toNat + n > 8 * s.bufLen
  · rw [check_bind_fail hn] at h
    cases h
  · rw [check_bind_pass hn] at h
    have := readBitsLoop_lt n 0 0 s t v (by simp) h
    rwa [Nat.zero_add] at this

/-- Sequencing where the rest may use a fact about the value. -/
theorem Act.Keeps.bindValue {α β : Type} {R : State → State → Prop} (hR : IsFrame R) {x : Act α} {f : α → Act β} {V : α → Prop}
    (hx : Act.Keeps R x) (hv : ∀ s a t, x s = .ok a t → V a) (hf : ∀ a, V a → Act.Keeps R (f a)) : Act.Keeps R (x >>= f) := by
  intro s
  have h := hx s
  rw [bind_apply]
  cases hxs : x s with
  | error r t =>
    rw [hxs] at h
    exact h
  | ok a t =>
    rw [hxs] at h
    have h2 := hf a (hv s a t hxs) t
    simp only
    cases hft : f a t with
    | ok b u =>
      rw [hft] at h2
      exact hR.trans _ _ _ h h2
    | error r u =>
      rw [hft] at h2
      exact hR.trans _ _ _ h h2

theorem fillLens_dynFrame (v : Nibble) {r i : Nat} (h : i + r ≤ 320) (s : State) : DynFrame s (fillLens v r i s) :=
  .ofLens (le_refl 320) (fillLens_lensFrame h v s)

theorem dynHeader_keeps : Act.Keeps DynFrame dynHeader := by
  have hF := dynFrame_isFrame
  rw [dynHeader_unfold]
  have hr : ∀ n, Act.Keeps DynFrame (readBits n) := fun n => (readBits_keeps n).mono fun _ _ => .ofCursor
  refine .bindValue hF (V := fun a => a < 2 ^ 5) (hr 5) (fun _ _ _ h => readBits_value_lt h) fun a ha => ?_
  refine .bindValue hF (V := fun a => a < 2 ^ 5) (hr 5) (fun _ _ _ h => readBits_value_lt h) fun b hb => ?_
  refine .bind hF (hr 4) fun c => .bind hF (.update fun _ => ⟨rfl, fun _ _ => rfl⟩) fun _ => ?_
  refine .bind hF (.update (fillLens_dynFrame 0 (by omega))) fun _ => ?_
  exact dynTables_keeps (by omega) fun d hd => clOrder_lt d (List.mem_of_mem_take hd)

theorem blockBody_keeps (bt : Nat) : Act.Keeps BlockFrame (blockBody bt) := by
  have hF := blockFrame_isFrame
  exact .ite stored_keeps (.ite ((blockData_keeps _ _).mono fun _ _ => .ofOutput)
    (.ite (.bind hF (dynHeader_keeps.mono fun _ _ => .ofDyn) fun _ => (blockData_keeps _ _).mono fun _ _ => .ofOutput) (.raise hF _ _)))

theorem blockHeader_keeps : Act.Keeps BlockFrame blockHeader := by
  have hF := blockFrame_isFrame
  exact .bind hF (readBit_keeps.mono fun _ _ => .ofCursor) fun bf => .bind hF ((readBits_keeps 2).mono fun _ _ => .ofCursor) fun bt =>
    .bind hF (.update fun _ => .same rfl) fun _ => .pure hF _

theorem block_keeps : Act.Keeps BlockFrame block := by
  have hF := blockFrame_isFrame
  exact .bind hF blockHeader_keeps fun h => .bind hF (blockBody_keeps h.2) fun _ => .bind hF (.update fun _ => .same rfl) fun _ =>
    .update fun _ => .same rfl

theorem inflateLoop_keeps (n : Nat) : Act.Keeps BlockFrame (inflateLoop n) := by
  have hF := blockFrame_isFrame
  induction n with
  | zero => exact block_keeps
  | succ n ih => exact .bind hF block_keeps fun _ => .bind hF (.get hF) fun _ => .ite (.pure hF _) ih

theorem inflateBlocks_keeps : Act.Keeps BlockFrame inflateBlocks :=
  .bind blockFrame_isFrame (.get blockFrame_isFrame) fun _ => inflateLoop_keeps _

/-- The zlib header writes the cursor and ZHDR alone (R210). -/
def HeaderFrame (s t : State) : Prop := t = { s with bitPos := t.bitPos, zhdr := t.zhdr }

theorem headerFrame_isFrame : IsFrame HeaderFrame where
  refl _ := rfl
  trans s t u h1 h2 := by
    unfold HeaderFrame at *
    rw [h2, h1]

theorem zlibHeader_keeps : Act.Keeps HeaderFrame zlibHeader := by
  have hF := headerFrame_isFrame
  exact .bind hF (.get hF) fun _ => .bind hF (.check hF _ _ _) fun _ => .bind hF (.check hF _ _ _) fun _ =>
    .bind hF (.check hF _ _ _) fun _ => .bind hF (.check hF _ _ _) fun _ => .bind hF (.check hF _ _ _) fun _ =>
    .bind hF (.update fun _ => rfl) fun _ => .update fun _ => rfl

/-- The trailer writes the cursor and the two Adler registers alone (R215). -/
def TrailerFrame (s t : State) : Prop :=
  t = { s with bitPos := t.bitPos, adlerCalc := t.adlerCalc, adlerTrailer := t.adlerTrailer }

theorem trailerFrame_isFrame : IsFrame TrailerFrame where
  refl _ := rfl
  trans s t u h1 h2 := by
    unfold TrailerFrame at *
    rw [h2, h1]

theorem TrailerFrame.ofCursor {s t : State} (h : CursorFrame s t) : TrailerFrame s t := by
  unfold CursorFrame at h
  unfold TrailerFrame
  rw [h]

theorem trailerBytes_keeps (k : Nat) : ∀ t, Act.Keeps CursorFrame (trailerBytes k t) := by
  induction k with
  | zero => exact fun t => .pure cursorFrame_isFrame _
  | succ k ih => exact fun t => .bind cursorFrame_isFrame (readBits_keeps 8) fun x => ih _

theorem trailer_keeps : Act.Keeps TrailerFrame trailer := by
  have hF := trailerFrame_isFrame
  exact .bind hF (align_keeps.mono fun _ _ => .ofCursor) fun _ => .bind hF ((trailerBytes_keeps 4 0).mono fun _ _ => .ofCursor) fun t =>
    .bind hF (.update fun _ => rfl) fun _ => .bind hF (.update fun _ => rfl) fun _ => .bind hF (.get hF) fun _ => .check hF _ _ _

end Sys2Proof.Machine
end

