-- ==== Sys2Proof/Laws/Encoding.lean ====
section
/-! SUPPORT. What the two halves of a command's word are, and that they make the word (30_encoding.md R100, R101). -/

namespace Sys2Proof

/-- The opcode of a command's word (R100, R111). -/
theorem encode_opcode (i : Instr) : (encode i).extractLsb' 0 8 = i.opcode := by
  ext k hk
  simp only [encode]
  interval_cases k <;> simp

/-- The operand bits of a command's word (R101). -/
theorem encode_operandBits (i : Instr) : (encode i).extractLsb' 8 24 = i.operandBits := by
  ext k hk
  simp only [encode]
  interval_cases k <;> simp

/-- Two words with the same opcode and the same operand bits are one word. -/
theorem word_ext {w v : Word} (h1 : w.extractLsb' 0 8 = v.extractLsb' 0 8)
    (h2 : w.extractLsb' 8 24 = v.extractLsb' 8 24) : w = v := by
  ext k hk
  by_cases h : k < 8
  · simpa [h, hk] using congrArg (fun b : BitVec 8 => b.getLsbD k) h1
  · have e : 8 + (k - 8) = k := by omega
    have e2 : k - 8 < 24 := by omega
    simpa [e, e2, hk] using congrArg (fun b : BitVec 24 => b.getLsbD (k - 8)) h2

end Sys2Proof
end

