-- ==== Sys2Proof/Laws/Framer.lean ====
section
/-! SUPPORT. The framer: what each procedure answers, what the read path changes, and that the loop of PF_READ_CHUNKS
has passes enough (45_png_framer.md R240 to R251, 70_reset_and_hazards.md R308). -/

namespace Sys2Proof.Machine

/-! ### Bytes and words -/

theorem be32_be4 (v : Word) :
    be32 (v.extractLsb' 24 8) (v.extractLsb' 16 8) (v.extractLsb' 8 8) (v.extractLsb' 0 8) = v := by
  unfold be32
  exact BitVec.eq_of_getLsbD_eq fun i hi => by
    rw [show ((v.extractLsb' 24 8 ++ v.extractLsb' 16 8 ++ v.extractLsb' 8 8 ++ v.extractLsb' 0 8 : BitVec 32)).getLsbD i =
      (v.extractLsb' 24 8 ++ v.extractLsb' 16 8 ++ v.extractLsb' 8 8 ++ v.extractLsb' 0 8).getLsbD i from rfl]
    simp only [BitVec.getLsbD_append, BitVec.getLsbD_extractLsb']
    interval_cases i <;> simp

theorem be4_length (v : Word) : (be4 v).length = 4 := rfl

theorem framed_length (ty : Word) (data : List Byte) : (framed ty data).length = 12 + data.length := by
  simp [framed, be4_length]
  omega

/-! ### Single operations -/

theorem signature_ok {s : State} (h1 : 8 ≤ s.srcLen.toNat) (h2 : s.bytesAt .src 0 8 = pngSignature) :
    signature s = .ok () { s with frPos := 8 } := by
  unfold signature
  rw [getState_bind, check_bind_pass (by rw [h2]; simp; omega)]
  rfl

theorem signature_error {s : State} (h : s.srcLen.toNat < 8 ∨ s.bytesAt .src 0 8 ≠ pngSignature) :
    signature s = .error ⟨.signatureMismatch, 0⟩ s := by
  unfold signature
  rw [getState_bind, check_bind_fail h]
  rfl

theorem emit_ok {ty : Word} {data : List Byte} {s : State} (h : s.wpos.toNat + 12 + data.length ≤ s.sizes.wbuf) :
    emit ty data s = .ok () { writeBytes .wbuf s.wpos.toNat (framed ty data) s with
      chunkCrcCalc := crc32 (be4 ty ++ data), wpos := BitVec.ofNat 32 (s.wpos.toNat + 12 + data.length) } := by
  unfold emit
  rw [getState_bind, check_bind_pass (by omega)]
  have hw : (writeBytes .wbuf s.wpos.toNat (framed ty data) s).wpos = s.wpos := by rw [writeBytes_wbuf_eq]
  rw [update_bind, update_bind, update_apply]
  simp only [hw]

theorem emit_error {ty : Word} {data : List Byte} {s : State} (h : s.sizes.wbuf < s.wpos.toNat + 12 + data.length) :
    emit ty data s = .error ⟨.outputOverflow, 3⟩ s := by
  unfold emit
  rw [getState_bind, check_bind_fail (by omega)]
  rfl

theorem idatAppend_ok {p len : Nat} {s : State} (h : s.catLen.toNat + len ≤ s.sizes.cat) :
    idatAppend p len s = .ok () { blit .src .cat len (p + 8) s.catLen.toNat s with
      catLen := BitVec.ofNat 32 (s.catLen.toNat + len) } := by
  unfold idatAppend
  have hw : (blit .src .cat len (p + 8) s.catLen.toNat s).catLen = s.catLen := by rw [blit_cat_eq]
  rw [getState_bind, check_bind_pass (by omega), update_bind, update_apply]
  simp only [hw]

theorem idatAppend_error {p len : Nat} {s : State} (h : s.sizes.cat < s.catLen.toNat + len) :
    idatAppend p len s = .error ⟨.outputOverflow, 1⟩ s := by
  unfold idatAppend
  rw [getState_bind, check_bind_fail (by omega)]
  rfl

theorem ihdrParse_ok {p : Nat} {s : State} : ihdrParse p 13 s = .ok () (captureIhdr (p + 8) s) := rfl

theorem ihdrParse_error {p len : Nat} {s : State} (h : len ≠ 13) :
    ihdrParse p len s = .error ⟨.malformedChunkFraming, BitVec.ofNat 32 p⟩ s := by
  unfold ihdrParse
  rw [check_bind_fail h]

/-! ### NextChunk -/

/-- NextChunk after the capture. -/
def nextChunkRest (count : Word) (p len : Nat) (crcS crcC : Word) (cls : ChunkClass) : Act ChunkClass := do
  crcPolicy crcS crcC
  check (count = 0 ∧ cls ≠ .ihdr) .malformedChunkFraming p
  chunkEffect cls p len
  update State.bumpChunkCount
  update fun s => { s with frPos := BitVec.ofNat 32 (p + 12 + len) }
  pure cls

theorem nextChunk_head {s : State} (h : s.srcLen.toNat < s.frPos.toNat + 8) :
    nextChunk s = .error ⟨.malformedChunkFraming, s.frPos⟩ s := by
  unfold nextChunk
  rw [getState_bind, check_bind_fail (by omega), BitVec.ofNat_toNat, BitVec.setWidth_eq]

theorem nextChunk_body {s : State} (h1 : s.frPos.toNat + 8 ≤ s.srcLen.toNat)
    (h : s.srcLen.toNat < s.frPos.toNat + 12 + s.nextLen) : nextChunk s = .error ⟨.malformedChunkFraming, s.frPos⟩ s := by
  unfold nextChunk
  rw [getState_bind, check_bind_pass (by omega)]
  unfold State.nextLen at h
  rw [check_bind_fail (by omega), BitVec.ofNat_toNat, BitVec.setWidth_eq]

theorem nextChunk_fits {s : State} (h : s.frPos.toNat + 12 + s.nextLen ≤ s.srcLen.toNat) :
    nextChunk s =
      nextChunkRest s.chunkCount s.frPos.toNat s.nextLen s.nextCrc s.nextCrcCalc (classify s.nextType) s.captured := by
  unfold nextChunk
  rw [getState_bind, check_bind_pass (by omega)]
  unfold State.nextLen at h
  rw [check_bind_pass (by omega), update_bind]
  rfl

/-! ### What the read path changes -/

/-- Only what the read path writes differs; CAT only between the two values of CAT_LEN (R241 to R245). -/
structure ReadFrame (s t : State) : Prop where
  rest : t = { s with
    status := { s.status with iendSeen := t.status.iendSeen, unknownSeen := t.status.unknownSeen, crcWarn := t.status.crcWarn }
    catLen := t.catLen, frPos := t.frPos, chunkLen := t.chunkLen, chunkType := t.chunkType, chunkCrc := t.chunkCrc
    chunkCrcCalc := t.chunkCrcCalc, chunkClass := t.chunkClass, chunkCount := t.chunkCount, hdrWidth := t.hdrWidth
    hdrHeight := t.hdrHeight, hdrFmt := t.hdrFmt, hdrInterlace := t.hdrInterlace, cat := t.cat, draws := t.draws }
  mono : s.sizes.cat < 2 ^ 32 → s.catLen.toNat ≤ t.catLen.toNat
  other : s.sizes.cat < 2 ^ 32 → ∀ a, a < s.catLen.toNat ∨ t.catLen.toNat ≤ a → t.peek .cat a = s.peek .cat a

theorem ReadFrame.sizes {s t : State} (h : ReadFrame s t) : t.sizes = s.sizes := by rw [h.rest]
theorem ReadFrame.srcLen {s t : State} (h : ReadFrame s t) : t.srcLen = s.srcLen := by rw [h.rest]

theorem readFrame_isFrame : IsFrame ReadFrame where
  refl _ := ⟨rfl, fun _ => le_refl _, fun _ _ _ => rfl⟩
  trans s t u h1 h2 := by
    refine ⟨by rw [h2.rest, h1.rest], fun hz => ?_, fun hz a ha => ?_⟩
    · exact le_trans (h1.mono hz) (h2.mono (by rw [h1.sizes]; exact hz))
    · have hz2 : t.sizes.cat < 2 ^ 32 := by rw [h1.sizes]; exact hz
      have := h1.mono hz
      have := h2.mono hz2
      rw [h2.other hz2 a (by omega), h1.other hz a (by omega)]

theorem ReadFrame.same {s t : State}
    (h : t = { s with
      status := { s.status with iendSeen := t.status.iendSeen, unknownSeen := t.status.unknownSeen, crcWarn := t.status.crcWarn }
      frPos := t.frPos, chunkLen := t.chunkLen, chunkType := t.chunkType, chunkCrc := t.chunkCrc
      chunkCrcCalc := t.chunkCrcCalc, chunkClass := t.chunkClass, chunkCount := t.chunkCount, hdrWidth := t.hdrWidth
      hdrHeight := t.hdrHeight, hdrFmt := t.hdrFmt, hdrInterlace := t.hdrInterlace, draws := t.draws }) : ReadFrame s t where
  rest := by rw [h]
  mono := fun _ => by rw [h]
  other := fun _ a _ => by rw [h]; rfl

theorem signature_keeps : Act.Keeps ReadFrame signature := by
  have hF := readFrame_isFrame
  exact .bind hF (.get hF) fun _ => .bind hF (.check hF _ _ _) fun _ => .update fun _ => .same rfl

theorem crcPolicy_keeps (crcS crcC : Word) : Act.Keeps ReadFrame (crcPolicy crcS crcC) := by
  have hF := readFrame_isFrame
  refine .bind hF (.get hF) fun s => .ite (.pure hF _) ?_
  cases s.config.crcMode with
  | ignore => exact .pure hF _
  | warn => exact .update fun _ => .same rfl
  | strict => exact .raise hF _ _

theorem idatAppend_keeps (p len : Nat) : Act.Keeps ReadFrame (idatAppend p len) := by
  intro s
  by_cases h : s.catLen.toNat + len ≤ s.sizes.cat
  · rw [idatAppend_ok h]
    have hl : s.sizes.cat < 2 ^ 32 → (BitVec.ofNat 32 (s.catLen.toNat + len)).toNat = s.catLen.toNat + len := fun hz => by
      simp only [BitVec.toNat_ofNat]
      omega
    refine ⟨by rw [blit_cat_eq], fun hz => ?_, fun hz a ha => ?_⟩
    · have := hl hz
      show s.catLen.toNat ≤ (BitVec.ofNat 32 (s.catLen.toNat + len)).toNat
      omega
    · have := hl hz
      have ha' : a < s.catLen.toNat ∨ s.catLen.toNat + len ≤ a := by
        rcases ha with ha | ha
        · exact .inl ha
        · exact .inr (by rw [← this]; exact ha)
      exact blit_other .src .cat .cat len (p + 8) s.catLen.toNat a s (.inr ha')
  · rw [idatAppend_error (by omega)]
    exact readFrame_isFrame.refl s

theorem chunkEffect_keeps (cls : ChunkClass) (p len : Nat) : Act.Keeps ReadFrame (chunkEffect cls p len) := by
  have hF := readFrame_isFrame
  cases cls with
  | ihdr => exact .bind hF (.check hF _ _ _) fun _ => .update fun _ => .same rfl
  | plte => exact .pure hF _
  | idat => exact idatAppend_keeps p len
  | iend => exact .update fun _ => .same rfl
  | unknown => exact .update fun _ => .same rfl
  | none => exact .pure hF _

theorem bumpChunkCount_readFrame (s : State) : ReadFrame s s.bumpChunkCount := by
  unfold State.bumpChunkCount
  split <;> exact .same rfl

theorem nextChunkRest_keeps (count : Word) (p len : Nat) (crcS crcC : Word) (cls : ChunkClass) :
    Act.Keeps ReadFrame (nextChunkRest count p len crcS crcC cls) := by
  have hF := readFrame_isFrame
  refine .bind hF (crcPolicy_keeps _ _) fun _ => .bind hF (.check hF _ _ _) fun _ => ?_
  refine .bind hF (chunkEffect_keeps _ _ _) fun _ => .bind hF (.update bumpChunkCount_readFrame) fun _ => ?_
  exact .bind hF (.update fun _ => .same rfl) fun _ => .pure hF _

theorem nextChunk_keeps : Act.Keeps ReadFrame nextChunk := by
  intro s
  by_cases h1 : s.frPos.toNat + 8 ≤ s.srcLen.toNat
  · by_cases h2 : s.frPos.toNat + 12 + s.nextLen ≤ s.srcLen.toNat
    · rw [nextChunk_fits h2]
      have h := nextChunkRest_keeps s.chunkCount s.frPos.toNat s.nextLen s.nextCrc s.nextCrcCalc (classify s.nextType) s.captured
      have hc : ReadFrame s s.captured := .same rfl
      cases hx : nextChunkRest s.chunkCount s.frPos.toNat s.nextLen s.nextCrc s.nextCrcCalc (classify s.nextType) s.captured with
      | ok c t =>
        rw [hx] at h
        exact readFrame_isFrame.trans _ _ _ hc h
      | error r t =>
        rw [hx] at h
        exact readFrame_isFrame.trans _ _ _ hc h
    · rw [nextChunk_body h1 (by omega)]
      exact readFrame_isFrame.refl s
  · rw [nextChunk_head (by omega)]
    exact readFrame_isFrame.refl s

/-- A NextChunk that answers has moved FR_POS past its chunk, within SRC_LEN (R308). -/
theorem nextChunk_moves {s t : State} {cls : ChunkClass} (h : nextChunk s = .ok cls t) :
    s.frPos.toNat + 12 + s.nextLen ≤ s.srcLen.toNat ∧ t.frPos.toNat = s.frPos.toNat + 12 + s.nextLen ∧ t.srcLen = s.srcLen ∧
      cls = classify s.nextType := by
  by_cases h1 : s.frPos.toNat + 8 ≤ s.srcLen.toNat
  · by_cases h2 : s.frPos.toNat + 12 + s.nextLen ≤ s.srcLen.toNat
    · have hk := nextChunk_keeps s
      rw [h] at hk
      rw [nextChunk_fits h2] at h
      unfold nextChunkRest at h
      rw [bind_apply] at h
      cases ha : crcPolicy s.nextCrc s.nextCrcCalc s.captured with
      | error r u => rw [ha] at h; cases h
      | ok a u =>
        rw [ha] at h
        simp only at h
        rw [bind_apply, check_apply] at h
        by_cases hc : s.chunkCount = 0 ∧ classify s.nextType ≠ .ihdr
        · rw [if_pos hc] at h
          cases h
        · rw [if_neg hc] at h
          simp only at h
          rw [bind_apply] at h
          cases hb : chunkEffect (classify s.nextType) s.frPos.toNat s.nextLen u with
          | error r v => rw [hb] at h; cases h
          | ok b v =>
            rw [hb] at h
            simp only [update_bind, pure_apply] at h
            cases h
            refine ⟨h2, ?_, hk.srcLen, rfl⟩
            show (BitVec.ofNat 32 _).toNat = _
            have := s.srcLen.isLt
            simp only [BitVec.toNat_ofNat]
            omega
    · rw [nextChunk_body h1 (by omega)] at h
      cases h
  · rw [nextChunk_head (by omega)] at h
    cases h

/-- More passes than bytes are left change nothing (R308). -/
theorem readChunksLoop_stable (n : Nat) :
    ∀ s : State, s.srcLen.toNat - s.frPos.toNat ≤ n → readChunksLoop (n + 1) s = readChunksLoop n s := by
  induction n with
  | zero =>
    intro s hn
    rw [readChunksLoop, readChunksLoop, bind_apply, bind_apply]
    cases hp : nextChunk s with
    | error r t => rfl
    | ok cls t =>
      have := nextChunk_moves hp
      omega
  | succ n ih =>
    intro s hn
    rw [readChunksLoop, readChunksLoop, bind_apply, bind_apply]
    cases hp : nextChunk s with
    | error r t => rfl
    | ok cls t =>
      obtain ⟨h1, h2, h3, -⟩ := nextChunk_moves hp
      simp only
      by_cases hc : cls = .iend
      · rw [if_pos hc, if_pos hc]
      · rw [if_neg hc, if_neg hc]
        exact ih t (by rw [h3, h2]; omega)

theorem readChunksLoop_enough {s : State} {n : Nat} (hn : s.srcLen.toNat - s.frPos.toNat ≤ n) :
    readChunksLoop n s = readChunksLoop (s.srcLen.toNat - s.frPos.toNat) s := by
  obtain ⟨k, rfl⟩ := Nat.exists_eq_add_of_le hn
  induction k with
  | zero => rfl
  | succ k ih => rw [← Nat.add_assoc, readChunksLoop_stable _ s (by omega), ih (by omega)]

theorem readChunksLoop_keeps (n : Nat) : Act.Keeps ReadFrame (readChunksLoop n) := by
  have hF := readFrame_isFrame
  induction n with
  | zero => exact .bind hF nextChunk_keeps fun _ => .pure hF _
  | succ n ih => exact .bind hF nextChunk_keeps fun _ => .ite (.pure hF _) ih

/-! ### What the write path changes -/

/-- Only what an emit writes differs; WBUF only between the two values of WPOS (R246). -/
structure EmitFrame (s t : State) : Prop where
  rest : t = { s with result := t.result, wpos := t.wpos, chunkCrcCalc := t.chunkCrcCalc, wbuf := t.wbuf }
  mono : s.sizes.wbuf < 2 ^ 32 → s.wpos.toNat ≤ t.wpos.toNat
  other : s.sizes.wbuf < 2 ^ 32 → ∀ a, a < s.wpos.toNat ∨ t.wpos.toNat ≤ a → t.peek .wbuf a = s.peek .wbuf a

theorem EmitFrame.sizes {s t : State} (h : EmitFrame s t) : t.sizes = s.sizes := by rw [h.rest]

theorem emitFrame_isFrame : IsFrame EmitFrame where
  refl _ := ⟨rfl, fun _ => le_refl _, fun _ _ _ => rfl⟩
  trans s t u h1 h2 := by
    refine ⟨by rw [h2.rest, h1.rest], fun hz => ?_, fun hz a ha => ?_⟩
    · exact le_trans (h1.mono hz) (h2.mono (by rw [h1.sizes]; exact hz))
    · have hz2 : t.sizes.wbuf < 2 ^ 32 := by rw [h1.sizes]; exact hz
      have := h1.mono hz
      have := h2.mono hz2
      rw [h2.other hz2 a (by omega), h1.other hz a (by omega)]

/-- Writing bytes at WPOS and moving WPOS past them. -/
theorem emitFrame_write {s : State} {bs : List Byte} {c : Word} (h : s.wpos.toNat + bs.length ≤ s.sizes.wbuf) :
    EmitFrame s { writeBytes .wbuf s.wpos.toNat bs s with
      chunkCrcCalc := c, wpos := BitVec.ofNat 32 (s.wpos.toNat + bs.length) } := by
  have hl : s.sizes.wbuf < 2 ^ 32 → (BitVec.ofNat 32 (s.wpos.toNat + bs.length)).toNat = s.wpos.toNat + bs.length := fun hz => by
    simp only [BitVec.toNat_ofNat]
    omega
  refine ⟨by rw [writeBytes_wbuf_eq], fun hz => ?_, fun hz a ha => ?_⟩
  · have := hl hz
    show s.wpos.toNat ≤ (BitVec.ofNat 32 (s.wpos.toNat + bs.length)).toNat
    omega
  · have := hl hz
    have ha' : a < s.wpos.toNat ∨ s.wpos.toNat + bs.length ≤ a := by
      rcases ha with ha | ha
      · exact .inl ha
      · exact .inr (by rw [← this]; exact ha)
    exact writeBytes_other .wbuf .wbuf bs s.wpos.toNat a s (.inr ha')

theorem emit_keeps (ty : Word) (data : List Byte) : Act.Keeps EmitFrame (emit ty data) := by
  intro s
  by_cases h : s.wpos.toNat + 12 + data.length ≤ s.sizes.wbuf
  · rw [emit_ok h]
    have hl := framed_length ty data
    have hw := emitFrame_write (s := s) (bs := framed ty data) (c := crc32 (be4 ty ++ data)) (by omega)
    rw [hl, ← Nat.add_assoc] at hw
    exact hw
  · rw [emit_error (by omega)]
    exact emitFrame_isFrame.refl s

end Sys2Proof.Machine
end

