-- ==== Sys2Proof/Laws/HostPort.lean ====
section
/-! SUPPORT. The host's ports: what a transaction can do, and that it keeps the bounds of the state. -/

namespace Sys2Proof.Machine

theorem clampTo_le {bound : Nat} (h : bound < 2 ^ 32) (v : Word) : (clampTo bound v).toNat ≤ bound := by
  unfold clampTo
  simp only [BitVec.toNat_ofNat]
  omega

theorem clampTo_toNat {bound : Nat} (h : bound < 2 ^ 32) (v : Word) : (clampTo bound v).toNat = min v.toNat bound := by
  unfold clampTo
  simp only [BitVec.toNat_ofNat]
  omega

theorem State.Bounded.size_lt {s : State} (h : s.Bounded) (m : Space) : s.sizes.of m < 2 ^ 32 :=
  lt_of_le_of_lt (h.sizes m).2 (by decide)

theorem State.Bounded.writeReg {s : State} (h : s.Bounded) (v : Word) (r : Reg) : (s.writeReg v r).Bounded := by
  cases r with
  | bitPos => exact { h with bitPos := clampTo_le (by decide) v }
  | srcLen => exact { h with srcLen := clampTo_le (h.size_lt .src) v }
  | catLen => exact { h with catLen := clampTo_le (h.size_lt .cat) v }
  | dstCap => exact { h with dstCap := clampTo_le (h.size_lt .dst) v }
  | outPos => exact { h with outPos := clampTo_le (h.size_lt .dst) v }
  | _ => exact { h with }

theorem State.Bounded.poke {s : State} (h : s.Bounded) {m : Space} {a : Nat} (ha : a < s.sizes.of m) (v : Byte) :
    (s.poke m a v).Bounded := by
  cases m with
  | src => exact { h with src := cellsWithin_writeCell (size := s.sizes.src) v h.src ha }
  | cat => exact { h with cat := cellsWithin_writeCell (size := s.sizes.cat) v h.cat ha }
  | dst => exact { h with dst := cellsWithin_writeCell (size := s.sizes.dst) v h.dst ha }
  | wbuf => exact { h with wbuf := cellsWithin_writeCell (size := s.sizes.wbuf) v h.wbuf ha }

/-- A dropped write of a memory keeps the bounds, and so does one at an address that exists. -/
theorem State.Bounded.hostMemWrite {s : State} (h : s.Bounded) {m : Space} {a : Nat} (ha : s.takes a (s.sizes.of m))
    (v : Byte) : (hostMemWrite m a v s).Bounded := by
  unfold Machine.hostMemWrite
  split
  · exact h
  · exact h.poke (ha.resolve_left ‹_›) v

/-- A dropped write of LENS keeps the bounds, and so does one at an entry that exists. -/
theorem State.Bounded.hostLensWrite {s : State} (h : s.Bounded) {i : Nat} (hi : s.takes i 320) (v : Byte) :
    (hostLensWrite i v s).Bounded := by
  unfold Machine.hostLensWrite
  split
  · exact h
  · exact { h with lens := cellsWithin_writeCell _ h.lens (hi.resolve_left ‹_›) }

/-- What a transaction that answers can be: an aligned register access, or an access of a memory or of LENS at an
address that exists, while BUSY at any. -/
theorem hostStep_cases {op : HostOp} {s t : State} (h : hostStep op s = .next t) :
    (∃ off v, op = .regWrite off v ∧ off.toNat % 4 = 0 ∧ t = hostRegWrite off.toNat v s) ∨
    (∃ off, op = .regRead off ∧ off.toNat % 4 = 0 ∧ t = hostRegRead off.toNat s) ∨
    (∃ m a v, op = .memWrite m a v ∧ s.takes a.toNat (s.sizes.of m) ∧ t = hostMemWrite m a.toNat v s) ∨
    (∃ m a, op = .memRead m a ∧ s.takes a.toNat (s.sizes.of m) ∧ t = hostMemRead m a.toNat s) ∨
    (∃ i v, op = .lensWrite i v ∧ s.takes i.toNat 320 ∧ t = hostLensWrite i.toNat v s) ∨
    (∃ i, op = .lensRead i ∧ s.takes i.toNat 320 ∧ t = hostLensRead i.toNat s) := by
  cases op with
  | regWrite off v =>
    simp only [hostStep] at h
    split at h
    · cases h
    · cases h
      exact .inl ⟨off, v, rfl, by omega, rfl⟩
  | regRead off =>
    simp only [hostStep] at h
    split at h
    · cases h
    · cases h
      exact .inr (.inl ⟨off, rfl, by omega, rfl⟩)
  | regSubWord off => cases h
  | memWrite m a v =>
    simp only [hostStep] at h
    split at h
    · cases h
      exact .inr (.inr (.inl ⟨m, a, v, rfl, by assumption, rfl⟩))
    · cases h
  | memRead m a =>
    simp only [hostStep] at h
    split at h
    · cases h
      exact .inr (.inr (.inr (.inl ⟨m, a, rfl, by assumption, rfl⟩)))
    · cases h
  | lensWrite i v =>
    simp only [hostStep] at h
    split at h
    · cases h
      exact .inr (.inr (.inr (.inr (.inl ⟨i, v, rfl, by assumption, rfl⟩))))
    · cases h
  | lensRead i =>
    simp only [hostStep] at h
    split at h
    · cases h
      exact .inr (.inr (.inr (.inr (.inr ⟨i, rfl, by assumption, rfl⟩))))
    · cases h

/-- A read changes the port's data and the count of free values alone. -/
def PortFrame (s t : State) : Prop := t = { s with ports := t.ports, draws := t.draws }

theorem hostRegRead_frame (off : Nat) (s : State) : PortFrame s (hostRegRead off s) := by
  unfold hostRegRead
  split
  · split <;> rfl
  · split <;> rfl

theorem hostMemRead_frame (m : Space) (a : Nat) (s : State) : PortFrame s (hostMemRead m a s) := by
  unfold hostMemRead
  split <;> rfl

theorem hostLensRead_frame (i : Nat) (s : State) : PortFrame s (hostLensRead i s) := by
  unfold hostLensRead
  split <;> rfl

end Sys2Proof.Machine
end

