-- ==== Sys2Proof/Laws/Invariant.lean ====
section
/-! SUPPORT. The bounds of the state are kept by every micro-step, and which codes a raise may carry. -/

namespace Sys2Proof.Machine

/-- The codes a raise may carry: not NONE, and neither of the two that are never raised (60_exceptions.md R271, R276, R277). -/
def Raisable (c : ErrCode) : Prop := c ≠ .none ∧ c ≠ .unknownChunkType ∧ c ≠ .ioError

/-- From a bounded state the body ends in a bounded state, its value has V and a raise has a code that may be raised. -/
def Act.Bounds {α : Type} (x : Act α) (V : α → Prop) : Prop :=
  Act.Spec State.Bounded x (fun a t => t.Bounded ∧ V a) (fun r t => t.Bounded ∧ Raisable r.code)

variable {α β : Type}

theorem Act.Bounds.bind {x : Act α} {f : α → Act β} {V : α → Prop} {W : β → Prop} (hx : Act.Bounds x V)
    (hf : ∀ a, V a → Act.Bounds (f a) W) : Act.Bounds (x >>= f) W :=
  Act.Spec.bind hx fun a s hs => hf a hs.2 s hs.1

theorem Act.Bounds.pure {a : α} {V : α → Prop} (h : V a) : Act.Bounds (Pure.pure a) V :=
  Act.Spec.pure fun _ hs => ⟨hs, h⟩

theorem Act.Bounds.update {g : State → State} (h : ∀ s : State, s.Bounded → (g s).Bounded) :
    Act.Bounds (Machine.update g) fun _ => True := Act.Spec.update fun s hs => ⟨h s hs, trivial⟩

theorem Act.Bounds.check {bad : Prop} [Decidable bad] {c : ErrCode} {d : Nat} (hc : Raisable c) :
    Act.Bounds (Machine.check bad c d) fun _ => ¬bad :=
  Act.Spec.check (fun _ hs h => ⟨hs, h⟩) fun _ hs _ => ⟨hs, hc⟩

theorem Act.Bounds.raise {c : ErrCode} {d : Nat} {V : α → Prop} (hc : Raisable c) : Act.Bounds (Machine.raise c d) V :=
  Act.Spec.raise fun _ hs => ⟨hs, hc⟩

theorem Act.Bounds.get : Act.Bounds getState fun v => v.Bounded := fun _ hs => ⟨hs, hs⟩

theorem Act.Bounds.ite {c : Prop} [Decidable c] {x y : Act α} {V : α → Prop} (hx : c → Act.Bounds x V)
    (hy : ¬c → Act.Bounds y V) : Act.Bounds (if c then x else y) V := Act.Spec.ite hx hy

theorem Act.Bounds.post {x : Act α} {V W : α → Prop} (hx : Act.Bounds x V) (h : ∀ a, V a → W a) : Act.Bounds x W :=
  Act.Spec.post (fun a _ hs => ⟨hs.1, h a hs.2⟩) (fun _ _ hs => hs) hx

/-- What a command's body ends in. -/
theorem Act.Bounds.ends {body : Act Unit} {V : Unit → Prop} (hx : Act.Bounds body V) {s : State} (hs : s.Bounded) :
    (∃ t, body s = .ok () t ∧ t.Bounded) ∨ ∃ r t, body s = .error r t ∧ t.Bounded ∧ Raisable r.code := by
  have h := hx s hs
  cases hb : body s with
  | ok a t =>
    rw [hb] at h
    exact .inl ⟨t, rfl, h.1⟩
  | error r t =>
    rw [hb] at h
    exact .inr ⟨r, t, rfl, h.1, h.2⟩

theorem raisable (c : ErrCode) (h : c ≠ .none ∧ c ≠ .unknownChunkType ∧ c ≠ .ioError := by simp) : Raisable c := h

theorem State.Bounded.bufLen_le {s : State} (h : s.Bounded) : s.bufLen ≤ 2 ^ 28 := by
  unfold State.bufLen
  split
  · exact le_trans h.catLen (h.sizes .cat).2
  · exact le_trans h.srcLen (h.sizes .src).2

/-! ### The cursor -/

theorem State.Bounded.setBitPos {s : State} (h : s.Bounded) {p : Nat} (hp : p ≤ 2 ^ 31) : (s.setBitPos p).Bounded :=
  { h with bitPos := by rw [State.bitPos_setBitPos (by omega)]; exact hp }

theorem readBit_bounds : Act.Bounds readBit fun _ => True := by
  intro s hs
  have hb := hs.bufLen_le
  by_cases h : s.bitPos.toNat / 8 < s.bufLen
  · rw [readBit_ok h]
    exact ⟨hs.setBitPos (by omega), trivial⟩
  · rw [readBit_error (by omega)]
    exact ⟨hs, raisable _⟩

theorem readBits_bounds (n : Nat) : Act.Bounds (readBits n) fun v => v < 2 ^ n := by
  intro s hs
  have hb := hs.bufLen_le
  by_cases h : s.bitPos.toNat + n ≤ 8 * s.bufLen
  · rw [readBits_ok hb h]
    exact ⟨hs.setBitPos (by omega), s.bitsFrom_lt n _⟩
  · rw [readBits_error (by omega)]
    exact ⟨hs, raisable _⟩

theorem align_bounds : Act.Bounds align fun _ => True :=
  .update fun s hs => hs.setBitPos (by have := hs.bitPos; omega)

theorem decodeLoop_bounds (t : TableId) (codes : List (Nat × Nat)) (k : Nat) :
    ∀ L code, Act.Bounds (decodeLoop t codes k L code) fun x => ∃ l c, codes[x]? = some (l, c) := by
  induction k with
  | zero => exact fun L code => .raise (raisable _)
  | succ k ih =>
    intro L code
    unfold decodeLoop
    refine .bind readBit_bounds fun b _ => ?_
    cases hs : symbolOf codes (L + 1) (code <<< 1 ||| b.toNat) with
    | some sym => exact .pure ⟨_, _, symbolOf_some hs⟩
    | none => exact ih _ _

/-- The most symbols a slot holds (R46, R47). -/
def slotSymbols : TableId → Nat
  | .cl => 19
  | .ll => 288
  | .dist => 32
  | .fll => 288
  | .fdist => 32

theorem State.Bounded.slot_length {s : State} (h : s.Bounded) {t : TableId} (hv : (s.slot t).valid = true) :
    (s.slot t).lens.length ≤ slotSymbols t := by
  cases t with
  | cl => exact (h.cl hv).2.1
  | ll => exact (h.ll hv).2.1
  | dist => exact (h.dist hv).2.1
  | fll =>
    show fixedLLLens.length ≤ 288
    unfold fixedLLLens
    simp only [List.length_append, List.length_replicate]
    omega
  | fdist =>
    show fixedDistLens.length ≤ 32
    unfold fixedDistLens
    simp only [List.length_replicate]
    omega

theorem decodeSymbol_bounds (t : TableId) : Act.Bounds (decodeSymbol t) fun x => x < slotSymbols t := by
  intro s hs
  have hk := Act.Bounds.bind (W := fun x => ∃ l c, (codesOf (s.slot t).lens)[x]? = some (l, c))
    (Act.Bounds.check (bad := (s.slot t).valid = false) (c := .tableNotBuilt) (d := t.number) (raisable _))
    (fun _ _ => decodeLoop_bounds t (codesOf (s.slot t).lens) (maxCodeLen (s.slot t).lens) 0 0) s hs
  unfold decodeSymbol
  rw [getState_bind]
  cases hx : (Machine.check ((s.slot t).valid = false) .tableNotBuilt t.number >>=
      fun _ => decodeLoop t (codesOf (s.slot t).lens) (maxCodeLen (s.slot t).lens) 0 0) s with
  | error r u =>
    rw [hx] at hk
    exact hk
  | ok x u =>
    rw [hx] at hk
    refine ⟨hk.1, ?_⟩
    have hv : (s.slot t).valid = true := by
      cases hv : (s.slot t).valid with
      | true => rfl
      | false =>
        rw [check_bind_fail hv] at hx
        cases hx
    obtain ⟨l, c, hlc⟩ := hk.2
    have := (List.getElem?_eq_some_iff.mp hlc).1
    rw [codesOf_length] at this
    exact lt_of_lt_of_le this (hs.slot_length hv)

theorem lengthOf_bounds (sym : Nat) : Act.Bounds (lengthOf sym) fun _ => True := by
  unfold lengthOf
  generalize lengthRow sym = row
  exact .bind (.check (raisable _)) fun _ _ => .bind (readBits_bounds row.2) fun e _ => .pure (a := row.1 + e) trivial

theorem distOf_bounds (sym : Nat) : Act.Bounds (distOf sym) fun _ => True := by
  unfold distOf
  generalize distRow sym = row
  exact .bind (.check (raisable _)) fun _ _ => .bind (readBits_bounds row.2) fun e _ => .pure (a := row.1 + e) trivial

/-! ### The output -/

theorem State.Bounded.dst_lt {s : State} (h : s.Bounded) : s.sizes.dst < 2 ^ 32 :=
  lt_of_le_of_lt (h.sizes .dst).2 (by decide)

theorem emitByte_bounds (x : Byte) : Act.Bounds (emitByte x) fun _ => True := by
  intro s hs
  by_cases h : s.outPos.toNat < s.dstCap.toNat
  · rw [emitByte_ok h]
    have h1 := hs.dstCap
    have h2 := hs.dst_lt
    refine ⟨{ hs with outPos := ?_, dst := ?_ }, trivial⟩
    · show (BitVec.ofNat 32 (s.outPos.toNat + 1)).toNat ≤ s.sizes.dst
      simp only [BitVec.toNat_ofNat]
      omega
    · exact cellsWithin_writeCell (size := s.sizes.dst) x hs.dst (by omega)
  · rw [emitByte_error (by omega)]
    exact ⟨hs, raisable _⟩

theorem copy_bounds (len d : Nat) : Act.Bounds (copy len d) fun _ => True := by
  intro s hs
  by_cases h1 : d ≤ s.outPos.toNat
  · by_cases h2 : s.outPos.toNat + len ≤ s.dstCap.toNat
    · rw [copy_ok h1 h2]
      have h3 := hs.dstCap
      have h4 := hs.dst_lt
      have h5 := copyLoop_outPos d len s (by omega)
      have h6 := copyLoop_within d len s hs.dst (by omega) h4
      refine ⟨?_, trivial⟩
      rw [copyLoop_eq]
      exact { hs with outPos := by show (copyLoop d len s).outPos.toNat ≤ _; rw [h5]; exact le_trans h2 h3, dst := h6 }
    · rw [copy_overflow h1 (by omega)]
      exact ⟨hs, raisable _⟩
  · rw [copy_tooFar (by omega)]
    exact ⟨hs, raisable _⟩

theorem blockPass_bounds (lt dt : TableId) : Act.Bounds (blockPass lt dt) fun _ => True := by
  unfold blockPass
  refine .bind (decodeSymbol_bounds lt) fun sym _ => .ite (fun _ => ?_) fun _ => .ite (fun _ => .pure trivial) fun _ => ?_
  · exact .bind (emitByte_bounds _) fun _ _ => .pure trivial
  · exact .bind (lengthOf_bounds sym) fun len _ => .bind (decodeSymbol_bounds dt) fun ds _ =>
      .bind (distOf_bounds ds) fun d _ => .bind (copy_bounds len d) fun _ _ => .pure trivial

theorem blockLoop_bounds (lt dt : TableId) (n : Nat) : Act.Bounds (blockLoop lt dt n) fun _ => True := by
  induction n with
  | zero => exact .bind (blockPass_bounds lt dt) fun _ _ => .pure trivial
  | succ n ih => exact .bind (blockPass_bounds lt dt) fun _ _ => .ite (fun _ => .pure trivial) fun _ => ih

theorem blockData_bounds (lt dt : TableId) : Act.Bounds (blockData lt dt) fun _ => True :=
  .bind .get fun _ _ => blockLoop_bounds lt dt _

/-! ### Tables -/

theorem State.Bounded.setSlot {s : State} (h : s.Bounded) {t : BuildTarget} {v : Slot} (hv : v.wf t.capacity) :
    (s.setSlot t v).Bounded := by
  cases t with
  | cl => exact { h with cl := hv }
  | ll => exact { h with ll := hv }
  | dist => exact { h with dist := hv }

theorem build_bounds (t : BuildTarget) {m : Nat} (base : Nat) (hm : m + 1 ≤ t.capacity) :
    Act.Bounds (build t m base) fun _ => True := by
  intro s hs
  cases h : overSubscribed (s.lensSnapshot m base) with
  | none =>
    rw [build_ok h]
    exact ⟨hs.setSlot fun _ => ⟨by rw [lensSnapshot_length]; omega, by rw [lensSnapshot_length]; exact hm, h⟩, trivial⟩
  | some L =>
    rw [build_error h]
    exact ⟨hs.setSlot fun hf => by simp at hf, raisable _⟩

theorem State.Bounded.setLens {s : State} (h : s.Bounded) {i : Nat} (hi : i < 320) (v : Nibble) : (s.setLens i v).Bounded :=
  { h with lens := cellsWithin_writeCell v h.lens hi }

theorem State.Bounded.fillLens {s : State} (h : s.Bounded) {r i : Nat} (hi : i + r ≤ 320) (v : Nibble) :
    (Machine.fillLens v r i s).Bounded := by
  have hl := fillLens_within v r i s h.lens hi
  rw [fillLens_eq]
  exact { h with lens := hl }

theorem readClLens_bounds (cs : List Nat) (h : ∀ c ∈ cs, c < 19) : Act.Bounds (readClLens cs) fun _ => True := by
  induction cs with
  | nil => exact .pure trivial
  | cons c cs ih =>
    have hc := h c (by simp)
    exact .bind (readBits_bounds 3) fun l _ => .bind (.update fun s hs => hs.setLens (by omega) _) fun _ _ =>
      ih fun d hd => h d (by simp [hd])

theorem repeatOf_bounds (sym i : Nat) : Act.Bounds (repeatOf sym i) fun rv => 1 ≤ rv.1 := by
  refine .ite (fun _ => ?_) fun _ => .ite (fun _ => ?_) fun _ => ?_
  · exact .bind (.check (raisable _)) fun _ _ => .bind (readBits_bounds 2) fun e _ => .bind .get fun _ _ => .pure (by simp only; omega)
  · exact .bind (readBits_bounds 3) fun e _ => .pure (by simp only; omega)
  · exact .bind (readBits_bounds 7) fun e _ => .pure (by simp only; omega)

theorem codeLengthsLoop_bounds {total : Nat} (ht : total ≤ 320) (k : Nat) :
    ∀ i, Act.Bounds (codeLengthsLoop total k i) fun _ => True := by
  induction k with
  | zero => exact fun i => .pure trivial
  | succ k ih =>
    intro i
    refine .ite (fun hi => ?_) fun _ => .pure trivial
    refine .bind (decodeSymbol_bounds .cl) fun sym _ => .ite (fun _ => ?_) fun _ => ?_
    · exact .bind (.update fun s hs => hs.setLens (by omega) _) fun _ _ => ih _
    · exact .bind (repeatOf_bounds sym i) fun rv _ => .bind (.check (raisable _)) fun _ hr =>
        .bind (.update fun s hs => hs.fillLens (by omega) _) fun _ _ => ih _

theorem dynTables_bounds {hlit hdist : Nat} {order : List Nat} (h1 : 1 ≤ hlit ∧ hlit ≤ 288) (h2 : 1 ≤ hdist ∧ hdist ≤ 32)
    (h3 : ∀ c ∈ order, c < 19) : Act.Bounds (dynTables hlit hdist order) fun _ => True := by
  refine .bind (readClLens_bounds order h3) fun _ _ => .bind (build_bounds .cl 0 (by decide)) fun _ _ => ?_
  refine .bind (codeLengthsLoop_bounds (by omega : hlit + hdist ≤ 320) (hlit + hdist) 0) fun _ _ => ?_
  refine .bind (build_bounds .ll 0 (m := hlit - 1) (by show hlit - 1 + 1 ≤ 288; omega)) fun _ _ => ?_
  exact .bind (build_bounds .dist hlit (m := hdist - 1) (by show hdist - 1 + 1 ≤ 32; omega)) fun _ _ => .pure trivial

theorem dynHeader_bounds : Act.Bounds dynHeader fun _ => True := by
  rw [dynHeader_unfold]
  refine .bind (readBits_bounds 5) fun a ha => .bind (readBits_bounds 5) fun b hb => .bind (readBits_bounds 4) fun c hc => ?_
  refine .bind (.update fun s hs => { hs with dyn := ?_ }) fun _ _ => ?_
  · refine .inr ?_
    simp only [BitVec.toNat_ofNat]
    omega
  refine .bind (.update fun s hs => hs.fillLens (r := 19) (i := 0) (by omega) 0) fun _ _ => ?_
  exact dynTables_bounds (by omega) (by omega) fun d hd => clOrder_lt d (List.mem_of_mem_take hd)

/-! ### Blocks and streams -/

theorem blockHeader_bounds : Act.Bounds blockHeader fun _ => True :=
  .bind readBit_bounds fun _ _ => .bind (readBits_bounds 2) fun _ _ => .bind (.update fun _ hs => { hs with }) fun _ _ => .pure trivial

/-- The move of a stored block whose two checks have passed (R212). -/
theorem storedMove_bounds {s : State} (hs : s.Bounded) {f : Space} {len a : Nat} (h2 : s.outPos.toNat + len ≤ s.dstCap.toNat)
    (h3 : s.bitPos.toNat + 8 * len ≤ 2 ^ 31) :
    State.Bounded (State.setBitPos
      (((blit f .dst len a s.outPos.toNat s).setOutPos ((blit f .dst len a s.outPos.toNat s).outPos.toNat + len)).bitPos.toNat + 8 * len)
      ((blit f .dst len a s.outPos.toNat s).setOutPos ((blit f .dst len a s.outPos.toNat s).outPos.toNat + len))) := by
  have h4 := hs.dstCap
  have h5 := hs.dst_lt
  have h6 := blit_dst_within f len a s.outPos.toNat s hs.dst (by omega)
  rw [blit_dst_eq]
  refine { hs with outPos := ?_, dst := h6, bitPos := ?_ }
  · show (BitVec.ofNat 32 (s.outPos.toNat + len)).toNat ≤ s.sizes.dst
    simp only [BitVec.toNat_ofNat]
    omega
  · show (BitVec.ofNat 32 (s.bitPos.toNat + 8 * len)).toNat ≤ 2 ^ 31
    simp only [BitVec.toNat_ofNat]
    omega

theorem storedRest_bounds {len nlen : Nat} {s : State} (hs : s.Bounded) (ha : s.bitPos.toNat % 8 = 0) :
    match storedRest len nlen s with
    | .ok _ t => t.Bounded ∧ True
    | .error r t => t.Bounded ∧ Raisable r.code := by
  unfold storedRest
  rw [update_bind]
  have hu : State.Bounded { s with block := { s.block with len := BitVec.ofNat 16 len } } := { hs with }
  generalize he : ({ s with block := { s.block with len := BitVec.ofNat 16 len } } : State) = u at hu ⊢
  replace ha : u.bitPos.toNat % 8 = 0 := by subst he; exact ha
  by_cases h0 : nlen ≠ 0xFFFF - len
  · rw [check_bind_fail h0]
    exact ⟨hu, raisable _⟩
  rw [check_bind_pass h0, getState_bind]
  by_cases h1 : u.bitPos.toNat / 8 + len > u.bufLen
  · rw [check_bind_fail h1]
    exact ⟨hu, raisable _⟩
  rw [check_bind_pass h1]
  by_cases h2 : u.outPos.toNat + len > u.dstCap.toNat
  · rw [check_bind_fail h2]
    exact ⟨hu, raisable _⟩
  rw [check_bind_pass h2, update_bind, update_bind, update_apply]
  have := hu.bufLen_le
  exact ⟨storedMove_bounds hu (by omega) (by omega), trivial⟩

theorem stored_bounds : Act.Bounds stored fun _ => True := by
  intro s hs
  have hp := hs.bitPos
  rw [stored_unfold, bind_apply, align, update_apply]
  have hu : (s.setBitPos ((s.bitPos.toNat + 7) / 8 * 8)).Bounded := hs.setBitPos (by omega)
  have ha : (s.setBitPos ((s.bitPos.toNat + 7) / 8 * 8)).bitPos.toNat % 8 = 0 := by
    rw [State.bitPos_setBitPos (by omega)]
    omega
  simp only
  generalize s.setBitPos ((s.bitPos.toNat + 7) / 8 * 8) = u at hu ha
  rw [bind_apply]
  have hr := readBits_bounds 16 u hu
  cases h16 : readBits 16 u with
  | error r t =>
    rw [h16] at hr
    exact hr
  | ok len v =>
    rw [h16] at hr
    obtain ⟨hv, hv2, -⟩ := readBits_pos hu.bufLen_le h16
    have hub := hu.bufLen_le
    have hvp : v.bitPos.toNat = u.bitPos.toNat + 16 := by rw [hv]; exact State.bitPos_setBitPos (by omega)
    simp only
    rw [bind_apply]
    have hr2 := readBits_bounds 16 v hr.1
    cases h32 : readBits 16 v with
    | error r t =>
      rw [h32] at hr2
      exact hr2
    | ok nlen w =>
      rw [h32] at hr2
      obtain ⟨hw, hw2, -⟩ := readBits_pos hr.1.bufLen_le h32
      have hvb := hr.1.bufLen_le
      have hwp : w.bitPos.toNat = v.bitPos.toNat + 16 := by rw [hw]; exact State.bitPos_setBitPos (by omega)
      simp only
      have h := storedRest_bounds (len := len) (nlen := nlen) hr2.1 (by omega)
      cases hx : storedRest len nlen w <;>
      · rw [hx] at h
        exact h

theorem blockBody_bounds (bt : Nat) : Act.Bounds (blockBody bt) fun _ => True :=
  .ite (fun _ => stored_bounds) fun _ => .ite (fun _ => blockData_bounds _ _) fun _ =>
    .ite (fun _ => .bind dynHeader_bounds fun _ _ => blockData_bounds _ _) fun _ => .raise (raisable _)

theorem block_bounds : Act.Bounds block fun _ => True :=
  .bind blockHeader_bounds fun _ _ => .bind (blockBody_bounds _) fun _ _ =>
    .bind (.update fun _ hs => { hs with }) fun _ _ => .update fun _ hs => { hs with }

theorem inflateLoop_bounds (n : Nat) : Act.Bounds (inflateLoop n) fun _ => True := by
  induction n with
  | zero => exact block_bounds
  | succ n ih => exact .bind block_bounds fun _ _ => .bind .get fun _ _ => .ite (fun _ => .pure trivial) fun _ => ih

theorem trailerBytes_bounds (k : Nat) : ∀ t, Act.Bounds (trailerBytes k t) fun _ => True := by
  induction k with
  | zero => exact fun t => .pure trivial
  | succ k ih => exact fun t => .bind (readBits_bounds 8) fun _ _ => ih _

theorem trailer_bounds : Act.Bounds trailer fun _ => True :=
  .bind align_bounds fun _ _ => .bind (trailerBytes_bounds 4 0) fun _ _ => .bind (.update fun _ hs => { hs with }) fun _ _ =>
    .bind (.update fun _ hs => { hs with }) fun _ _ => .bind .get fun _ _ => .post (.check (raisable _)) fun _ _ => trivial

theorem zlibHeader_bounds : Act.Bounds zlibHeader fun _ => True := by
  refine .bind .get fun s _ => .bind (.check (raisable _)) fun _ _ => ?_
  refine .bind (.check (raisable _)) fun _ h1 => .bind (.check (raisable _)) fun _ h2 => .bind (.check (raisable _)) fun _ h3 =>
    .bind (.check (raisable _)) fun _ h4 => ?_
  refine .bind (.update fun _ hs => { hs with zhdr := .inr ⟨?_, ?_, ?_, ?_⟩ }) fun _ _ => .update fun s hs => hs.setBitPos (by omega)
  · simpa using h1
  · simpa using h2
  · simpa using h3
  · simpa using h4

theorem inflate_bounds : Act.Bounds inflate fun _ => True := by
  refine .bind (.update fun s hs => hs.setBitPos (by omega)) fun _ _ => ?_
  refine .bind (.update fun s hs => { hs with outPos := by show (BitVec.ofNat 32 0).toNat ≤ _; simp }) fun _ _ => ?_
  refine .bind (.update fun _ hs => { hs with }) fun _ _ => .bind (.update fun _ hs => { hs with }) fun _ _ => ?_
  refine .bind zlibHeader_bounds fun _ _ => .bind (.bind .get fun _ _ => inflateLoop_bounds _) fun _ _ => .bind .get fun _ _ => ?_
  have hr : Act.Bounds resultOutPos fun _ => True := .update fun _ hs => { hs with }
  refine .ite (fun _ => .bind trailer_bounds fun _ _ => hr) fun _ => .bind (.update fun _ hs => { hs with }) fun _ _ => hr

/-! ### The framer -/

theorem signature_bounds : Act.Bounds signature fun _ => True :=
  .bind .get fun _ _ => .bind (.check (raisable _)) fun _ _ => .update fun _ hs => { hs with }

theorem crcPolicy_bounds (crcS crcC : Word) : Act.Bounds (crcPolicy crcS crcC) fun _ => True := by
  refine .bind .get fun s _ => .ite (fun _ => .pure trivial) fun _ => ?_
  cases s.config.crcMode with
  | ignore => exact .pure trivial
  | warn => exact .update fun _ hs => { hs with }
  | strict => exact .raise (raisable _)

theorem idatAppend_bounds (p len : Nat) : Act.Bounds (idatAppend p len) fun _ => True := by
  intro s hs
  by_cases h : s.catLen.toNat + len ≤ s.sizes.cat
  · rw [idatAppend_ok h]
    have h1 := blit_cat_within .src len (p + 8) s.catLen.toNat s hs.cat h
    have h2 := (hs.sizes .cat).2
    refine ⟨?_, trivial⟩
    rw [blit_cat_eq]
    refine { hs with cat := h1, catLen := ?_ }
    show (BitVec.ofNat 32 (s.catLen.toNat + len)).toNat ≤ s.sizes.cat
    simp only [BitVec.toNat_ofNat]
    omega
  · rw [idatAppend_error (by omega)]
    exact ⟨hs, raisable _⟩

theorem chunkEffect_bounds (cls : ChunkClass) (p len : Nat) : Act.Bounds (chunkEffect cls p len) fun _ => True := by
  cases cls with
  | ihdr => exact .bind (.check (raisable _)) fun _ _ => .update fun _ hs => { hs with }
  | plte => exact .pure trivial
  | idat => exact idatAppend_bounds p len
  | iend => exact .update fun _ hs => { hs with }
  | unknown => exact .update fun _ hs => { hs with }
  | none => exact .pure trivial

theorem nextChunk_bounds : Act.Bounds nextChunk fun _ => True := by
  refine .bind .get fun s _ => .bind (.check (raisable _)) fun _ _ => .bind (.check (raisable _)) fun _ _ => ?_
  refine .bind (.update fun _ hs => { hs with }) fun _ _ => .bind (crcPolicy_bounds _ _) fun _ _ => ?_
  refine .bind (.check (raisable _)) fun _ _ => .bind (chunkEffect_bounds _ _ _) fun _ _ => ?_
  refine .bind (.update fun s hs => ?_) fun _ _ => .bind (.update fun _ hs => { hs with }) fun _ _ => .pure trivial
  unfold State.bumpChunkCount
  split <;> exact { hs with }

theorem readChunksLoop_bounds (n : Nat) : Act.Bounds (readChunksLoop n) fun _ => True := by
  induction n with
  | zero => exact .bind nextChunk_bounds fun _ _ => .pure trivial
  | succ n ih => exact .bind nextChunk_bounds fun _ _ => .ite (fun _ => .pure trivial) fun _ => ih

theorem readChunks_bounds : Act.Bounds readChunks fun _ => True := by
  refine .bind (.update fun s hs => { hs with catLen := by show (0 : Word).toNat ≤ _; simp }) fun _ _ => ?_
  refine .bind (.update fun _ hs => { hs with }) fun _ _ => .bind signature_bounds fun _ _ => ?_
  exact .bind (.bind .get fun _ _ => readChunksLoop_bounds _) fun _ _ => .update fun _ hs => { hs with }

theorem readHeader_bounds : Act.Bounds readHeader fun _ => True :=
  .bind (.update fun _ hs => { hs with }) fun _ _ => .bind (.update fun _ hs => { hs with }) fun _ _ =>
    .bind signature_bounds fun _ _ => .bind nextChunk_bounds fun _ _ => .update fun _ hs => { hs with }

theorem checkHeader_bounds : Act.Bounds checkHeader fun _ => True := by
  intro s hs
  unfold checkHeader
  rw [getState_bind]
  by_cases h1 : s.unsupported ≠ 0
  · rw [check_bind_fail h1]
    exact ⟨hs, raisable _⟩
  rw [check_bind_pass h1]
  by_cases h2 : s.headerSize > s.sizes.dst
  · rw [check_bind_fail h2]
    exact ⟨hs, raisable _⟩
  rw [check_bind_pass h2, update_bind, setResult, update_apply]
  have h3 := hs.dst_lt
  have h4 : (BitVec.ofNat 32 s.headerSize).toNat ≤ s.sizes.dst := by
    simp only [BitVec.toNat_ofNat]
    omega
  exact ⟨{ hs with dataSize := h4, dstCap := h4 }, trivial⟩

theorem State.Bounded.writeWbuf {s : State} (h : s.Bounded) {bs : List Byte} (hw : s.wpos.toNat + bs.length ≤ s.sizes.wbuf) :
    (writeBytes .wbuf s.wpos.toNat bs s).Bounded := by
  have hc := writeBytes_wbuf_within bs s.wpos.toNat s h.wbuf hw
  rw [writeBytes_wbuf_eq]
  exact { h with wbuf := hc }

theorem emit_bounds (ty : Word) (data : List Byte) : Act.Bounds (emit ty data) fun _ => True := by
  intro s hs
  by_cases h : s.wpos.toNat + 12 + data.length ≤ s.sizes.wbuf
  · rw [emit_ok h]
    exact ⟨{ hs.writeWbuf (bs := framed ty data) (by rw [framed_length]; omega) with }, trivial⟩
  · rw [emit_error (by omega)]
    exact ⟨hs, raisable _⟩

theorem resultWpos_bounds : Act.Bounds resultWpos fun _ => True := .update fun _ hs => { hs with }

theorem emitSignature_bounds : Act.Bounds emitSignature fun _ => True := by
  intro s hs
  unfold emitSignature
  rw [getState_bind]
  by_cases h : s.wpos.toNat + 8 > s.sizes.wbuf
  · rw [check_bind_fail h]
    exact ⟨hs, raisable _⟩
  have hw := hs.writeWbuf (bs := pngSignature) (by show _ + 8 ≤ _; omega)
  rw [check_bind_pass h, update_bind, update_bind, resultWpos, update_apply]
  generalize writeBytes .wbuf s.wpos.toNat pngSignature s = u at hw ⊢
  exact ⟨{ hw with }, trivial⟩

theorem emitChunk_bounds : Act.Bounds emitChunk fun _ => True :=
  .bind .get fun _ _ => .bind (.check (raisable _)) fun _ _ => .bind (emit_bounds _ _) fun _ _ => resultWpos_bounds

theorem emitIhdr_bounds : Act.Bounds emitIhdr fun _ => True :=
  .bind .get fun _ _ => .bind (emit_bounds _ _) fun _ _ => resultWpos_bounds

end Sys2Proof.Machine
end

