-- ==== Sys2Proof/Laws/PerInstr.lean ====
section
/-! SUPPORT. The family of statements about every command as syntax: its word lies in its row of
spec/opcode_table.json, so no reserved bit is set and no other row's opcode is met (30_encoding.md R101, R111). -/

namespace Sys2Proof.Laws.EncodesRow

/-- The word of a well-formed command matches its own row of the opcode table. -/
def Statement (i : Instr) : Prop := i.wf = true → encode i &&& i.row.mask = i.row.pattern

theorem nop : Statement .nop := fun _ => by decide
theorem bcReset : Statement .bcReset := fun _ => by decide
theorem bcNextBit : Statement .bcNextBit := fun _ => by decide
theorem bcNextN (n : BitVec 6) : Statement (.bcNextN n) := fun _ => by
  ext i hi
  simp only [encode, Instr.operandBits, Instr.opcode, Instr.row]
  interval_cases i <;> simp
theorem bcAlign : Statement .bcAlign := fun _ => by decide
theorem htBuild (t : BuildTarget) (maxsym base : BitVec 9) : Statement (.htBuild t maxsym base) := fun _ => by
  have ht : BitVec.ofNat 24 t.table.number = (BitVec.ofNat 2 t.table.number).setWidth 24 := by cases t <;> rfl
  ext i hi
  simp only [encode, Instr.operandBits, Instr.opcode, Instr.row, ht]
  interval_cases i <;> simp
theorem htDecode (t : TableId) : Statement (.htDecode t) := fun _ => by cases t <;> decide
theorem lzLiteral (byte : BitVec 8) : Statement (.lzLiteral byte) := fun _ => by
  ext i hi
  simp only [encode, Instr.operandBits, Instr.opcode, Instr.row]
  interval_cases i <;> simp
theorem lzCopy (l3 : BitVec 8) (d1 : BitVec 15) : Statement (.lzCopy l3 d1) := fun _ => by
  ext i hi
  simp only [encode, Instr.operandBits, Instr.opcode, Instr.row]
  interval_cases i <;> simp
theorem lzLength (sym : BitVec 5) : Statement (.lzLength sym) := fun _ => by
  ext i hi
  simp only [encode, Instr.operandBits, Instr.opcode, Instr.row]
  interval_cases i <;> simp
theorem lzDist (sym : BitVec 5) : Statement (.lzDist sym) := fun _ => by
  ext i hi
  simp only [encode, Instr.operandBits, Instr.opcode, Instr.row]
  interval_cases i <;> simp
theorem lzBlockData (fixed : Bool) : Statement (.lzBlockData fixed) := fun _ => by cases fixed <;> decide
theorem dfZlibHeader : Statement .dfZlibHeader := fun _ => by decide
theorem dfBlock : Statement .dfBlock := fun _ => by decide
theorem dfStored : Statement .dfStored := fun _ => by decide
theorem dfDynHeader : Statement .dfDynHeader := fun _ => by decide
theorem dfTrailer : Statement .dfTrailer := fun _ => by decide
theorem dfInflate : Statement .dfInflate := fun _ => by decide
theorem pfSignature : Statement .pfSignature := fun _ => by decide
theorem pfNextChunk : Statement .pfNextChunk := fun _ => by decide
theorem pfReadChunks : Statement .pfReadChunks := fun _ => by decide
theorem pfReadHeader : Statement .pfReadHeader := fun _ => by decide
theorem pfCheckHeader : Statement .pfCheckHeader := fun _ => by decide
theorem pfEmitSignature : Statement .pfEmitSignature := fun _ => by decide
theorem pfEmitChunk : Statement .pfEmitChunk := fun _ => by decide
theorem pfEmitIhdr : Statement .pfEmitIhdr := fun _ => by decide

end Sys2Proof.Laws.EncodesRow
end

