-- ==== Sys2Proof/Tests/Slice0.lean ====
section
/-! SUPPORT. The model's own tests: the operand checks, the decoder on words written out bit by bit, one step of each
command on a small state with the result a vector of spec/95_test_vectors.md gives, and for every statement of
Certificates/Slice0/Obligations.lean that has hypotheses a state and operands that meet them. -/

namespace Sys2Proof.Tests

open Sys2Proof Sys2Proof.Machine

set_option Elab.async false

/-! ### Small states -/

/-- The bytes at the addresses from 0 up. -/
def listed {w : Nat} (bytes : List (BitVec w)) : List (Nat × BitVec w) := bytes.zipIdx.map fun p => (p.2, p.1)

/-- After reset, with memories of 1024 bytes and DST_CAP = 64 (95_test_vectors.md section 0). -/
def base : State := { State.resetWith ⟨1024, 1024, 1024, 1024⟩ with dstCap := 64 }

/-- SRC holds the bytes, and SRC_LEN is their count. -/
def src (bytes : List Byte) (s : State) : State := { s with src := listed bytes, srcLen := BitVec.ofNat 32 bytes.length }

/-- DST holds the bytes, and OUT_POS is their count. -/
def dst (bytes : List Byte) (s : State) : State := { s with dst := listed bytes, outPos := BitVec.ofNat 32 bytes.length }

/-- LENS holds the lengths. -/
def lens (ls : List Nibble) (s : State) : State := { s with lens := listed ls }

/-- The cursor at bit p. -/
def at_ (p : Nat) (s : State) : State := s.setBitPos p

/-- The engine BUSY with a command word. -/
def busy (w : Word) (s : State) : State := { s with eng := .busy w, status := { s.status with busy := true } }

/-- The outcome is a next state with the property. -/
def passes (o : Host.Outcome State Fault Refusal) (p : State → Bool) : Bool :=
  match o with
  | .next t => p t
  | _ => false

/-- The state's error report is the code with its detail. -/
def raised (t : State) (c : ErrCode) (d : Word) : Bool :=
  t.errCode == c && t.errData == d && t.status.error && t.status.done && t.errBitPos == t.bitPos

/-- The state completed with no error. -/
def good (t : State) : Bool := !t.status.error && t.status.done && t.errCode == .none

/-- The invariant, as a check on a state written out. -/
def invOk (s : State) : Bool :=
  [Space.src, .cat, .dst, .wbuf].all (fun m => decide (1 ≤ s.sizes.of m ∧ s.sizes.of m ≤ 2 ^ 28)) &&
  decide (s.srcLen.toNat ≤ s.sizes.src ∧ s.catLen.toNat ≤ s.sizes.cat ∧ s.dstCap.toNat ≤ s.sizes.dst ∧
    s.outPos.toNat ≤ s.sizes.dst ∧ s.bitPos.toNat ≤ 2 ^ 31 ∧ s.dataSize.toNat ≤ s.sizes.dst) &&
  [Space.src, .cat, .dst, .wbuf].all (fun m => decide (risingCells (s.mem m)) &&
    (s.mem m).all fun c => decide (c.1 < s.sizes.of m)) &&
  (decide (risingCells s.lens) && s.lens.all fun c => decide (c.1 < 320)) &&
  [(s.cl, 19), (s.ll, 288), (s.dist, 32)].all (fun t => !t.1.valid ||
    decide (1 ≤ t.1.lens.length ∧ t.1.lens.length ≤ t.2 ∧ overSubscribed t.1.lens = none)) &&
  decide (s.dyn = ⟨0, 0, 0⟩ ∧ s.zhdr = ⟨0, 0⟩) &&
  decide (s.status.busy = s.eng.isBusy) &&
  decide (s.status.done = false ∧ s.status.error = false ∧ s.errCode = .none ∧ s.errData = 0 ∧ s.errBitPos = 0)

theorem inv_of {s : State} (h : invOk s = true) : s.Inv := by
  simp only [invOk, List.all_cons, List.all_nil, Bool.and_eq_true, decide_eq_true_eq, Bool.or_eq_true,
    Bool.not_eq_true', Bool.and_true, List.all_eq_true] at h
  obtain ⟨⟨⟨⟨⟨⟨⟨h1, h2⟩, h3⟩, h4⟩, h5⟩, h6⟩, h7⟩, h8⟩ := h
  have slot : ∀ {t : Slot} {n : Nat}, t.valid = false ∨ (1 ≤ t.lens.length ∧ t.lens.length ≤ n ∧ overSubscribed t.lens = none) →
      t.wf n := fun h hv => h.resolve_left (by simp [hv])
  exact { sizes := fun m => by cases m <;> tauto
          srcLen := h2.1, catLen := h2.2.1, dstCap := h2.2.2.1, outPos := h2.2.2.2.1, bitPos := h2.2.2.2.2.1
          dataSize := h2.2.2.2.2.2
          src := h3.1, cat := h3.2.1, dst := h3.2.2.1, wbuf := h3.2.2.2, lens := h4
          cl := slot h5.1, ll := slot h5.2.1, dist := slot h5.2.2
          dyn := .inl h6.1, zhdr := .inl h6.2, busyFlag := h7, busyClear := fun _ => h8
          noUnknownChunkType := by simp [h8.2.2.1], noIoError := by simp [h8.2.2.1] }

theorem readCell_listed {w : Nat} (bytes : List (BitVec w)) (n k : Nat) (h : k < bytes.length) :
    readCell ((bytes.zipIdx n).map fun p => (p.2, p.1)) (n + k) = some (bytes.getD k 0) := by
  induction bytes generalizing n k with
  | nil => simp at h
  | cons b bs ih =>
    cases k with
    | zero => simp [readCell]
    | succ k =>
      have := ih (n + 1) k (by simpa using h)
      simpa [readCell, show n + (k + 1) ≠ n by omega, show n + 1 + k = n + (k + 1) by omega] using this

/-- SRC reads back what is listed in it. -/
theorem peek_src (bytes : List Byte) (s : State) {k : Nat} (h : k < bytes.length) :
    (src bytes s).peek .src k = bytes.getD k 0 := by
  have := readCell_listed bytes 0 k h
  simp only [Nat.zero_add] at this
  simp [State.peek, State.mem, src, listed, this]

/-- No code of the table is among the bits, as a check. -/
theorem noCode_of {s : State} {codes : List (Nat × Nat)} {p n : Nat}
    (h : codes.all (fun c => decide (c.1 = 0 ∨ n < c.1 ∨ s.codeBits p c.1 ≠ c.2)) = true) : s.noCode codes p n := by
  intro x l c hx hl hn
  have := List.all_eq_true.mp h (l, c) (List.mem_of_getElem? hx)
  simp only [decide_eq_true_eq] at this
  omega

/-! ### Operand checks -/

/-- 30_encoding.md R103: N = 33 is no count; 32 is. -/
theorem test_wf_count : (Instr.bcNextN 33).wf = false ∧ (Instr.bcNextN 32).wf = true := by decide
/-- R106: MAXSYM above CAPACITY - 1, in each slot; and the bounds themselves. -/
theorem test_wf_maxsym : (Instr.htBuild .cl 19 0).wf = false ∧ (Instr.htBuild .ll 288 0).wf = false ∧
    (Instr.htBuild .dist 32 0).wf = false ∧ (Instr.htBuild .cl 18 0).wf = true ∧ (Instr.htBuild .ll 287 0).wf = true ∧
    (Instr.htBuild .dist 31 0).wf = true := by decide
/-- R106: BASE + MAXSYM = 320 (V-HT18); 319 is legal (V-HT19). -/
theorem test_wf_base : (Instr.htBuild .dist 31 289).wf = false ∧ (Instr.htBuild .dist 31 288).wf = true := by decide
/-- R112: LZ_LENGTH's S = 31; the symbols 286 and 287 are legal commands. -/
theorem test_wf_symbol : (Instr.lzLength 31).wf = false ∧ (Instr.lzLength 30).wf = true ∧ (Instr.lzDist 31).wf = true := by decide

/-! ### Decoding: words written out from 30_encoding.md R101 to R111, high bit first -/

/-- BitCursor; format N is zeros and OPC, format NB zeros, N (6 bits) and OPC. -/
theorem test_decode_cursor :
    decode 0b000000000000000000000000_00000000#32 = .ok .nop ∧
    decode 0b000000000000000000000000_00000001#32 = .ok .bcReset ∧
    decode 0b000000000000000000000000_00000010#32 = .ok .bcNextBit ∧
    decode 0b000000000000000000_001001_00000011#32 = .ok (.bcNextN 9) ∧
    decode 0b000000000000000000000000_00000100#32 = .ok .bcAlign := by decide
/-- Huffman; format BLD is 0000, BASE (9), MAXSYM (9), T2 (2), OPC, format T zeros, T (3) and OPC. -/
theorem test_decode_huffman :
    decode 0b0000_100100000_000011111_10_00010000#32 = .ok (.htBuild .dist 31 288) ∧
    decode 0b0000_000000000_000000111_00_00010000#32 = .ok (.htBuild .cl 7 0) ∧
    decode 0b0000_000000001_100011111_01_00010000#32 = .ok (.htBuild .ll 287 1) ∧
    decode 0b000000000000000000000_011_00010001#32 = .ok (.htDecode .fll) ∧
    decode 0b000000000000000000000_100_00010001#32 = .ok (.htDecode .fdist) := by decide
/-- LZ77; format BY has BYTE in [15:8], CP D1 (15) and L3 (8), SY S (5), FX F (1). -/
theorem test_decode_lz77 :
    decode 0b0000000000000000_01100001_00100000#32 = .ok (.lzLiteral 0x61) ∧
    decode 0b0_000000000000001_00000010_00100001#32 = .ok (.lzCopy 2 1) ∧
    decode 0b0000000000000000000_11011_00100010#32 = .ok (.lzLength 27) ∧
    decode 0b0000000000000000000_11101_00100011#32 = .ok (.lzDist 29) ∧
    decode 0b00000000000000000000000_1_00100100#32 = .ok (.lzBlockData true) ∧
    decode 0b00000000000000000000000_0_00100100#32 = .ok (.lzBlockData false) := by decide
/-- Dispatcher, format N. -/
theorem test_decode_dispatcher :
    decode 0b000000000000000000000000_00110000#32 = .ok .dfZlibHeader ∧
    decode 0b000000000000000000000000_00110001#32 = .ok .dfBlock ∧
    decode 0b000000000000000000000000_00110010#32 = .ok .dfStored ∧
    decode 0b000000000000000000000000_00110011#32 = .ok .dfDynHeader ∧
    decode 0b000000000000000000000000_00110100#32 = .ok .dfTrailer ∧
    decode 0b000000000000000000000000_00110101#32 = .ok .dfInflate := by decide
/-- Framer, format N. -/
theorem test_decode_framer :
    decode 0b000000000000000000000000_01000000#32 = .ok .pfSignature ∧
    decode 0b000000000000000000000000_01000001#32 = .ok .pfNextChunk ∧
    decode 0b000000000000000000000000_01000010#32 = .ok .pfReadChunks ∧
    decode 0b000000000000000000000000_01000011#32 = .ok .pfReadHeader ∧
    decode 0b000000000000000000000000_01000100#32 = .ok .pfCheckHeader ∧
    decode 0b000000000000000000000000_01001000#32 = .ok .pfEmitSignature ∧
    decode 0b000000000000000000000000_01001001#32 = .ok .pfEmitChunk ∧
    decode 0b000000000000000000000000_01001010#32 = .ok .pfEmitIhdr := by decide
/-- Refused words, each by its reason (R112): V-EX1, V-EX2, V-BC14, V-HT15, V-HT16, V-HT18, V-LZ14. -/
theorem test_decode_refuses :
    decode 0x00000005 = .error .reservedOpcode ∧ decode 0x000000FF = .error .reservedOpcode ∧
    decode 0x00000100 = .error .reservedBits ∧ decode 0x00002103 = .error .countTooLarge ∧
    decode 0x00000511 = .error .noSuchSlot ∧ decode 0x00000310 = .error .buildBounds ∧
    decode 0x09087E10 = .error .buildBounds ∧ decode 0x00001F22 = .error .noSuchSymbol ∧
    decode 0x80000021 = .error .reservedBits := by decide
/-- The table's bit order: decodeTableWord and withFetchWord on a word with an operand; the step after it runs it. -/
theorem test_table_word : decodeTableWord 32 0x00000903 = some (.bcNextN 9) ∧
    passes (step ((src [0xB5, 0x01] base).withFetchWord 32 0x00000303)) (fun t => t.result == 5 && t.bitPos == 3) = true := by
  decide +kernel

/-! ### One step of each command (95_test_vectors.md section 2) -/

/-- V-BC13: NOP leaves all but DONE. -/
theorem test_nop : exec .nop base = .next { base with status := { base.status with done := true } } := rfl
/-- V-BC12. -/
theorem test_bcReset : passes (exec .bcReset (at_ 37 base)) (fun t => good t && t.bitPos == 0) = true := by decide +kernel
/-- V-BC7. -/
theorem test_bcNextBit : passes (exec .bcNextBit (at_ 7 (src [0xFF] base)))
    (fun t => good t && t.result == 1 && t.bitPos == 8) = true := by decide +kernel
/-- V-BC8. -/
theorem test_bcNextBit_end : passes (exec .bcNextBit (at_ 8 (src [0xFF] base)))
    (fun t => raised t .outOfData 1 && t.bitPos == 8) = true := by decide +kernel
/-- V-BC2. -/
theorem test_bcNextN : passes (exec (.bcNextN 9) (at_ 3 (src [0xB5, 0x01] base)))
    (fun t => good t && t.result == 0x36 && t.bitPos == 12) = true := by decide +kernel
/-- V-BC6. -/
theorem test_bcNextN_word : passes (exec (.bcNextN 32) (src [0x78, 0x56, 0x34, 0x12] base))
    (fun t => good t && t.result == 0x12345678 && t.bitPos == 32) = true := by decide +kernel
/-- V-BC10. -/
theorem test_bcAlign : passes (exec .bcAlign (at_ 19 base)) (fun t => good t && t.bitPos == 24) = true := by decide +kernel
/-- V-HT1. -/
theorem test_htBuild : passes (exec (.htBuild .cl 7 0) (lens [3, 3, 3, 3, 3, 2, 4, 4] base))
    (fun t => good t && t.result == 4 && t.tblStatus == 0x05900419) = true := by decide +kernel
/-- V-HT5. -/
theorem test_htBuild_over : passes (exec (.htBuild .cl 2 0) (lens [1, 1, 1] base))
    (fun t => raised t .buildError 1 && !t.cl.valid) = true := by decide +kernel
/-- V-HT3, on the slot V-HT1 builds. -/
theorem test_htDecode : passes (exec (.htDecode .cl) { src [0x0F] base with cl := ⟨true, [3, 3, 3, 3, 3, 2, 4, 4]⟩ })
    (fun t => good t && t.result == 7 && t.bitPos == 4) = true := by decide +kernel
/-- V-HT12: the last fixed 9-bit code. -/
theorem test_htDecode_fixed : passes (exec (.htDecode .fll) (src [0xFF, 0x01] base))
    (fun t => good t && t.result == 255 && t.bitPos == 9) = true := by decide +kernel
/-- V-LZ1, but for RESULT (log 17). -/
theorem test_lzLiteral : passes (exec (.lzLiteral 0x61) base)
    (fun t => good t && t.peek .dst 0 == 0x61 && t.outPos == 1) = true := by decide +kernel
/-- V-LZ6. -/
theorem test_lzLiteral_full : passes (exec (.lzLiteral 0) { base with dstCap := 0 }) (fun t => raised t .outputOverflow 0) = true := by
  decide +kernel
/-- V-LZ2: an overlapping copy. -/
theorem test_lzCopy : passes (exec (asmLzCopy 5 2) (dst [0x61, 0x62] base))
    (fun t => good t && t.bytesAt .dst 0 7 == [0x61, 0x62, 0x61, 0x62, 0x61, 0x62, 0x61] && t.outPos == 7) = true := by
  decide +kernel
/-- V-LZ4: nothing is written. -/
theorem test_lzCopy_full : passes (exec (asmLzCopy 3 1) { dst [0x61] base with dstCap := 3 })
    (fun t => raised t .outputOverflow 0 && t.outPos == 1 && t.dst == [(0, 0x61)]) = true := by decide +kernel
/-- V-LZ7. -/
theorem test_lzLength : passes (exec (asmLzLength 284) (src [0x1F] base))
    (fun t => good t && t.result == 258 && t.bitPos == 5) = true := by decide +kernel
/-- V-LZ12. -/
theorem test_lzLength_invalid : passes (exec (asmLzLength 287) base) (fun t => raised t .invalidLengthSymbol 0x11F) = true := by
  decide +kernel
/-- V-LZ8. -/
theorem test_lzDist : passes (exec (.lzDist 29) (src [0xFF, 0x1F] base))
    (fun t => good t && t.result == 32768 && t.bitPos == 13) = true := by decide +kernel
/-- V-LZ13. -/
theorem test_lzDist_invalid : passes (exec (.lzDist 31) base) (fun t => raised t .invalidDistanceSymbol 0x1F) = true := by
  decide +kernel
/-- V-LZ16. -/
theorem test_lzBlockData : passes (exec (.lzBlockData true) (at_ 3 (src [0x4B, 0x04, 0x00] base)))
    (fun t => good t && t.peek .dst 0 == 0x61 && t.outPos == 1 && t.bitPos == 18 && t.result == 1) = true := by decide +kernel
/-- V-LZ17. -/
theorem test_lzBlockData_notBuilt : passes (exec (.lzBlockData false) base)
    (fun t => raised t .tableNotBuilt 1 && t.errBitPos == 0) = true := by decide +kernel

/-- The zlib stream of "abc" in one stored block (V-DF1). -/
def streamAbc : List Byte := [0x78, 0x01, 0x01, 0x03, 0x00, 0xFC, 0xFF, 0x61, 0x62, 0x63, 0x02, 0x4D, 0x01, 0x27]
/-- DYN1: "aa" in one dynamic block. -/
def streamDyn1 : List Byte :=
  [0x78, 0x01, 0x05, 0xC0, 0x81, 0x08, 0x00, 0x00, 0x00, 0x00, 0x20, 0xD6, 0xFD, 0x25, 0x8E, 0x01, 0x25, 0x00, 0xC3]
/-- Z1: the zlib stream of PNG1. -/
def streamZ1 : List Byte := [0x78, 0x01, 0x01, 0x04, 0x00, 0xFB, 0xFF, 0x00, 0xFF, 0x00, 0x00, 0x03, 0x01, 0x01, 0x00]
/-- PNG1: a 1 by 1 RGB image. -/
def png1 : List Byte :=
  [0x89, 0x50, 0x4E, 0x47, 0x0D, 0x0A, 0x1A, 0x0A, 0x00, 0x00, 0x00, 0x0D, 0x49, 0x48, 0x44, 0x52] ++
  [0x00, 0x00, 0x00, 0x01, 0x00, 0x00, 0x00, 0x01, 0x08, 0x02, 0x00, 0x00, 0x00, 0x90, 0x77, 0x53, 0xDE] ++
  [0x00, 0x00, 0x00, 0x0F, 0x49, 0x44, 0x41, 0x54] ++ streamZ1 ++ [0x8D, 0x1D, 0xE5, 0x82] ++
  [0x00, 0x00, 0x00, 0x00, 0x49, 0x45, 0x4E, 0x44, 0xAE, 0x42, 0x60, 0x82]

/-- V-ZH1. -/
theorem test_dfZlibHeader : passes (exec .dfZlibHeader (src [0x78, 0x9C, 0x03, 0x00] base))
    (fun t => good t && t.zhdr.word == 0x00009C78 && t.bitPos == 16) = true := by decide +kernel
/-- V-ZH8. -/
theorem test_dfZlibHeader_window : passes (exec .dfZlibHeader (src [0x88, 0x1C, 0x00] base))
    (fun t => raised t .unsupportedWindowSize 0x1C88 && t.bitPos == 0) = true := by decide +kernel
/-- V-DYN4. -/
theorem test_dfBlock : passes (exec .dfBlock (at_ 16 (src streamDyn1 base)))
    (fun t => good t && t.outPos == 2 && t.bitPos == 120 && t.block.word == 5 && t.status.final) = true := by decide +kernel
/-- P1, step 4. -/
theorem test_dfStored : passes (exec .dfStored (at_ 19 (src streamAbc base)))
    (fun t => good t && t.result == 3 && t.bitPos == 80 && t.block.len == 3 &&
      t.bytesAt .dst 0 3 == [0x61, 0x62, 0x63]) = true := by decide +kernel
/-- S2, on DF_STORED alone: NLEN corrupted. -/
theorem test_dfStored_mismatch : passes (exec .dfStored (at_ 19 (src [0x78, 0x01, 0x01, 0x03, 0x00, 0xFC, 0xFE] base)))
    (fun t => raised t .storedBlockLengthMismatch 0xFEFC0003 && t.errBitPos == 56 && t.outPos == 0) = true := by decide +kernel
/-- V-DYN2. -/
theorem test_dfDynHeader : passes (exec .dfDynHeader (at_ 19 (src streamDyn1 base)))
    (fun t => good t && t.bitPos == 117 && t.dyn.word == 0x00090301 && t.lensAt 97 == 1 && t.lensAt 256 == 1 &&
      t.lensAt 98 == 0 && t.tblStatus == 0x0590121F) = true := by decide +kernel
/-- V-DYN6, on DF_DYN_HEADER alone: the repeat symbol 16 comes first. -/
theorem test_dfDynHeader_repeat :
    passes (exec .dfDynHeader (at_ 19 (src [0x78, 0x01, 0x05, 0xC0, 0x03, 0x01, 0x00, 0x00, 0x00, 0x00, 0x20, 0x00] base)))
      (fun t => raised t .unexpectedRepeatSymbol 0 && t.errBitPos == 88) = true := by decide +kernel
/-- P1, step 5. -/
theorem test_dfTrailer : passes (exec .dfTrailer (at_ 80 (dst [0x61, 0x62, 0x63] (src streamAbc base))))
    (fun t => good t && t.bitPos == 112 && t.adlerTrailer == 0x024D0127 && t.adlerCalc == 0x024D0127) = true := by decide +kernel
/-- V-DE12's trailer: it stops at the third byte. -/
theorem test_dfTrailer_short : passes (exec .dfTrailer (at_ 80 (src (streamAbc.take 12) base)))
    (fun t => raised t .outOfData 8 && t.errBitPos == 96) = true := by decide +kernel
/-- V-DF8: a stored block, then a fixed one. -/
theorem test_dfInflate : passes (exec .dfInflate (src
      [0x78, 0x01, 0x00, 0x02, 0x00, 0xFD, 0xFF, 0x61, 0x62, 0x4B, 0x06, 0x00, 0x02, 0x4D, 0x01, 0x27] base))
    (fun t => good t && t.result == 3 && t.bytesAt .dst 0 3 == [0x61, 0x62, 0x63] && t.bitPos == 128 && t.blockCount == 2) = true := by
  decide +kernel
/-- V-DE3: length symbol 286. -/
theorem test_dfInflate_symbol : passes (exec .dfInflate (src [0x78, 0x01, 0x4B, 0x1C, 0x03, 0x00, 0x00, 0x00, 0x00, 0x01] base))
    (fun t => raised t .invalidLengthSymbol 0x11E && t.errBitPos == 35) = true := by decide +kernel
/-- V-PF1. -/
theorem test_pfSignature : passes (exec .pfSignature (src (png1.take 8) base)) (fun t => good t && t.frPos == 8) = true := by
  decide +kernel
/-- V-PF2. -/
theorem test_pfNextChunk : passes (exec .pfNextChunk { src png1 base with frPos := 8 })
    (fun t => good t && t.result == 0 && t.chunkCrcCalc == 0x907753DE && t.chunkCrc == 0x907753DE && t.hdrWidth == 1 &&
      t.hdrFmt == 0x00000208 && t.frPos == 33) = true := by decide +kernel
/-- V-PF3. -/
theorem test_pfNextChunk_idat : passes (exec .pfNextChunk { src png1 base with frPos := 33, chunkCount := 1 })
    (fun t => good t && t.result == 2 && t.bytesAt .cat 0 15 == streamZ1 && t.catLen == 15 && t.frPos == 60) = true := by
  decide +kernel
/-- V-PF5. -/
theorem test_pfReadChunks : passes (exec .pfReadChunks (src png1 base))
    (fun t => good t && t.result == 3 && t.frPos == 72 && t.bytesAt .cat 0 15 == streamZ1 && t.catLen == 15 &&
      t.status.iendSeen) = true := by decide +kernel
/-- V-PF7: a wrong CRC in STRICT mode. -/
theorem test_pfReadChunks_strict :
    passes (exec .pfReadChunks { src (png1.set 59 0x83) base with config := ⟨false, true, .strict, false⟩ })
      (fun t => raised t .chunkCrcMismatch 0x8D1DE582 && t.chunkCount == 1 && t.frPos == 33) = true := by decide +kernel
/-- V-PF6. -/
theorem test_pfReadHeader : passes (exec .pfReadHeader (src png1 base))
    (fun t => good t && t.result == 1 && t.frPos == 33 && t.hdrHeight == 1 && t.catLen == 0) = true := by decide +kernel
/-- V-PH2. -/
theorem test_pfCheckHeader : passes (exec .pfCheckHeader { base with hdrWidth := 2, hdrHeight := 3, hdrFmt := 0x00000608 })
    (fun t => good t && t.result == 27 && t.dstCap == 27 && t.dataSize == 27) = true := by decide +kernel
/-- V-PH6. -/
theorem test_pfCheckHeader_mask :
    passes (exec .pfCheckHeader { base with hdrWidth := 1, hdrHeight := 1, hdrFmt := 0x00000310, hdrInterlace := 1 })
      (fun t => raised t .unsupportedPngFeature 0x13) = true := by decide +kernel
/-- V-PE1. -/
theorem test_pfEmitSignature : passes (exec .pfEmitSignature base)
    (fun t => good t && t.result == 8 && t.bytesAt .wbuf 0 8 == png1.take 8) = true := by decide +kernel
/-- V-PE3. -/
theorem test_pfEmitChunk :
    passes (exec .pfEmitChunk { src streamZ1 base with wpos := 33, arg0 := 0x49444154, arg1 := 0, arg2 := 15 })
      (fun t => good t && t.result == 60 && t.bytesAt .wbuf 33 27 == (png1.drop 33).take 27) = true := by decide +kernel
/-- V-PE6. -/
theorem test_pfEmitChunk_short : passes (exec .pfEmitChunk { src streamZ1 base with arg1 := 10, arg2 := 6 })
    (fun t => raised t .outOfData 48 && t.wpos == 0) = true := by decide +kernel
/-- V-PE2. -/
theorem test_pfEmitIhdr :
    passes (exec .pfEmitIhdr { base with wpos := 8, hdrWidth := 1, hdrHeight := 1, hdrFmt := 0x208 })
      (fun t => good t && t.wpos == 33 && t.bytesAt .wbuf 8 25 == (png1.drop 8).take 25) = true := by decide +kernel
/-- V-EX6: W1C of DONE lowers irq. -/
theorem test_status_clear :
    passes (hostStep (.regWrite 0x04 0x2) { base with status := { base.status with done := true }, config := ⟨false, true, .warn, true⟩ })
      (fun t => !t.irq && t.readReg .status == 0) = true := by decide +kernel
/-- 40_tables_and_checksums.md R136, R137 by the values of section 2.8. -/
theorem test_checksums : crc32 [0x31, 0x32, 0x33, 0x34, 0x35, 0x36, 0x37, 0x38, 0x39] = 0xCBF43926 ∧
    adler32 [0x57, 0x69, 0x6B, 0x69, 0x70, 0x65, 0x64, 0x69, 0x61] = 0x11E60398 := by decide +kernel

/-! ### States and operands that meet the hypotheses of the statements -/

/-- The invariant and a decidable condition, by one evaluation. -/
theorem meets {s : State} {p : Prop} [Decidable p] (h : (invOk s && decide p) = true) : s.Inv ∧ p := by
  rw [Bool.and_eq_true, decide_eq_true_eq] at h
  exact ⟨inv_of h.1, h.2⟩

/-- A condition on the lengths 1 to 15, by one evaluation. -/
theorem lengths {p : Nat → Prop} [DecidablePred p] (h : ((List.range' 1 15).all fun L => decide (p L)) = true) :
    ∀ L, 1 ≤ L → L ≤ 15 → p L := fun L h1 h2 => by
  have := List.all_eq_true.mp h L (by rw [List.mem_range'_1]; omega)
  simpa using this

theorem test_hyp_DecodeEncodeAgree : (Instr.htBuild .ll 287 32).wf = true ∧ (Instr.bcNextN 32).wf = true ∧
    (Instr.lzLength 30).wf = true ∧ Instr.nop.wf = true := by decide

theorem test_hyp_DecodedWordIsEncoding : decode 0x09007E10 = .ok (.htBuild .dist 31 288) ∧
    decode 0x7FFFFF21 = .ok (.lzCopy 255 32767) := by decide

theorem test_hyp_IllegalWordRaises :
    (∀ b ∈ [0x05, 0x0F, 0x12, 0x1F, 0x25, 0x2F, 0x36, 0x3F, 0x45, 0x47, 0x4B, 0xFF],
      (0x05 ≤ b ∧ b ≤ 0x0F) ∨ (0x12 ≤ b ∧ b ≤ 0x1F) ∨ (0x25 ≤ b ∧ b ≤ 0x2F) ∨ (0x36 ≤ b ∧ b ≤ 0x3F) ∨
      (0x45 ≤ b ∧ b ≤ 0x47) ∨ (0x4B ≤ b ∧ b ≤ 0xFF)) ∧
    (busy 0x05 base).agenda = [] ∧ (busy 0x05 base).eng = .busy 0x05 ∧ ∀ i : Instr, i.wf = true → encode i ≠ 0x05 := by
  refine ⟨by decide, rfl, rfl, fun i _ h => ?_⟩
  have := (encode_opcode i).symm.trans (congrArg (fun w : Word => w.extractLsb' 0 8) h)
  cases i <;> simp [Instr.opcode] at this

theorem test_hyp_StepRunsDecoded :
    (busy 0x00000303 base).eng = .busy 0x00000303 ∧ decode 0x00000303 = .ok (.bcNextN 3) ∧
    (busy 0x00000303 base).agenda = [] ∧ { busy 0x00000303 base with agenda := [.engine, .rst] }.agenda = .engine :: [.rst] ∧
    base.eng = .idle ∧ base.agenda = [] ∧ (Instr.bcNextN 3).wf = true := by
  exact ⟨rfl, by decide, rfl, rfl, rfl, rfl, by decide⟩

theorem test_hyp_ResetValues : { busy 0x35 base with agenda := [.rst] }.agenda = .rst :: [] := rfl

theorem test_hyp_ResetInv : Sizes.wf ⟨1, 2 ^ 28, 1, 2 ^ 28⟩ := fun m => by cases m <;> decide

theorem test_hyp_StepKeepsInv : (base.Inv ∧ ∃ t, step base = .next t) ∧
    ((busy 0x35 base).Inv ∧ ∃ t, step (busy 0x35 base) = .next t) ∧
    ({ base with agenda := [wr 0x20 7] }.Inv ∧ ∃ t, step { base with agenda := [wr 0x20 7] } = .next t) ∧
    ({ busy 0x35 base with agenda := [.rst] }.Inv ∧ ∃ t, step { busy 0x35 base with agenda := [.rst] } = .next t) :=
  ⟨⟨inv_of (by decide +kernel), _, rfl⟩, ⟨inv_of (by decide +kernel), _, rfl⟩, ⟨inv_of (by decide +kernel), _, rfl⟩,
    inv_of (by decide +kernel), _, rfl⟩

theorem test_hyp_ErrorEntryEffect : (Reg.result ≠ .errCode ∧ Reg.result ≠ .errData ∧ Reg.result ≠ .errBitPos ∧
    Reg.result ≠ .status) ∧ (raise .outOfData 8 : Act Unit) base = .error ⟨.outOfData, 8⟩ base := ⟨by decide, rfl⟩

theorem test_hyp_IssueEffect :
    ({ base with agenda := [wr 0x00 0x35] }.agenda = wr 0x00 0x35 :: [] ∧ { base with agenda := [wr 0x00 0x35] }.eng = .idle) ∧
    ({ busy 0x31 base with agenda := [wr 0x00 0x35] }.agenda = wr 0x00 0x35 :: [] ∧
      { busy 0x31 base with agenda := [wr 0x00 0x35] }.eng ≠ .idle) := by
  exact ⟨⟨rfl, rfl⟩, rfl, by decide⟩

theorem test_hyp_BusyDropsHost :
    (∀ op : HostOp, { busy 0x35 base with agenda := [.host op] }.eng ≠ .idle ∧
      { busy 0x35 base with agenda := [.host op] }.agenda = .host op :: []) ∧
    (0x20 : BitVec 8).toNat % 4 = 0 ∧ (0xFC : BitVec 8).toNat % 4 = 0 := by
  exact ⟨fun op => ⟨Eng.noConfusion, rfl⟩, by decide, by decide⟩

/-- R58: while BUSY a write past the end of a memory or of LENS is dropped, and a read past it answers (DST has 1024
bytes here); the same accesses fault while IDLE (log 11). -/
theorem test_busy_any_address :
    hostStep (.memWrite .dst 1024 0x55) (busy 0x35 base) = .next (busy 0x35 base) ∧
    hostStep (.lensWrite 320 0x55) (busy 0x35 base) = .next (busy 0x35 base) ∧
    (∃ t, hostStep (.memRead .dst 1024) (busy 0x35 base) = .next t ∧ t.dst = base.dst) ∧
    (∃ t, hostStep (.lensRead 511) (busy 0x35 base) = .next t ∧ t.lens = base.lens) ∧
    hostStep (.memWrite .dst 1024 0x55) base = .fault (.noSuchAddress .dst 1024) :=
  ⟨rfl, rfl, ⟨_, rfl, rfl⟩, ⟨_, rfl, rfl⟩, by rfl⟩

/-- The table of R23, offset by offset. -/
def registers : List (BitVec 8 × Reg) :=
  [(0x00, .cmd), (0x04, .status), (0x08, .config), (0x0C, .errCode), (0x10, .errBitPos), (0x14, .errData)] ++
  [(0x18, .result), (0x1C, .bitPos), (0x20, .srcLen), (0x24, .catLen), (0x28, .dstCap), (0x2C, .outPos)] ++
  [(0x30, .frPos), (0x34, .wpos), (0x38, .arg0), (0x3C, .arg1), (0x40, .arg2), (0x44, .block), (0x48, .dyn)] ++
  [(0x4C, .zhdr), (0x50, .adlerCalc), (0x54, .adlerTrailer), (0x58, .blockCount), (0x5C, .tblStatus)] ++
  [(0x60, .chunkLen), (0x64, .chunkType), (0x68, .chunkCrc), (0x6C, .chunkCrcCalc), (0x70, .chunkClass)] ++
  [(0x74, .chunkCount), (0x78, .hdrWidth), (0x7C, .hdrHeight), (0x80, .hdrFmt), (0x84, .hdrInterlace)] ++
  [(0x88, .dataSize)]

theorem test_hyp_RegisterWrites : base.Inv ∧ base.eng = .idle ∧ (0x00, .cmd) ∈ registers ∧ (0x1C, .bitPos) ∈ registers ∧
    (0x5C, .tblStatus) ∈ registers ∧ (0x88, .dataSize) ∈ registers ∧ Reg.dataSize ≠ .cmd :=
  meets (by decide +kernel)

theorem test_hyp_ReservedAccess : base.eng = .idle ∧ (0x8C : BitVec 8).toNat % 4 = 0 ∧ 0x8C ≤ (0x8C : BitVec 8).toNat ∧
    (0xFC : BitVec 8).toNat % 4 = 0 ∧ 0x8C ≤ (0xFC : BitVec 8).toNat ∧ (0x01 : BitVec 8).toNat % 4 ≠ 0 ∧
    (0xFF : BitVec 8).toNat % 4 ≠ 0 := by decide

theorem test_hyp_MemoryPorts : base.eng = .idle ∧ (0 : BitVec 28).toNat < base.sizes.of .wbuf ∧
    (1023 : BitVec 28).toNat < base.sizes.of .src ∧ base.sizes.of .src ≤ (1024 : BitVec 28).toNat ∧
    (0 : BitVec 9).toNat < 320 ∧ (319 : BitVec 9).toNat < 320 ∧ 320 ≤ (320 : BitVec 9).toNat ∧
    (.cat ≠ Space.src ∨ 0 ≠ (0 : BitVec 28).toNat) := by decide

theorem test_hyp_IrqLevel : (∃ t, exec .nop base = .next t) ∧ base.eng = .idle := ⟨⟨_, rfl⟩, rfl⟩

theorem test_hyp_CursorMoves : (at_ (2 ^ 31) base).Inv ∧ (at_ 1 base).Inv := ⟨inv_of (by decide +kernel), inv_of (by decide +kernel)⟩

theorem test_hyp_NextBit :
    ((at_ 7 (src [0xFF] base)).Inv ∧ (at_ 7 (src [0xFF] base)).bitPos.toNat / 8 < (at_ 7 (src [0xFF] base)).bufLen) ∧
    (at_ 8 (src [0xFF] base)).bufLen ≤ (at_ 8 (src [0xFF] base)).bitPos.toNat / 8 ∧ base.config.srcSel = false ∧
    { base with config := ⟨true, true, .warn, false⟩ }.config.srcSel = true :=
  ⟨meets (by decide +kernel), by decide, rfl, rfl⟩

theorem test_hyp_NextN :
    ((src [1, 2, 3, 4] base).Inv ∧ (32 : BitVec 6).toNat ≤ 32 ∧
      (src [1, 2, 3, 4] base).bitPos.toNat + (32 : BitVec 6).toNat ≤ 8 * (src [1, 2, 3, 4] base).bufLen) ∧
    ((at_ 8 (src [1] base)).Inv ∧ (0 : BitVec 6).toNat ≤ 32 ∧
      (at_ 8 (src [1] base)).bitPos.toNat + (0 : BitVec 6).toNat ≤ 8 * (at_ 8 (src [1] base)).bufLen) ∧
    ((at_ 8 (src [1] base)).Inv ∧ (1 : BitVec 6).toNat ≤ 32 ∧
      8 * (at_ 8 (src [1] base)).bufLen < (at_ 8 (src [1] base)).bitPos.toNat + (1 : BitVec 6).toNat) :=
  ⟨meets (by decide +kernel), meets (by decide +kernel), meets (by decide +kernel)⟩

theorem test_hyp_HtBuildResult :
    ((Instr.htBuild .cl 7 0).wf = true ∧ ∀ L, 1 ≤ L → L ≤ 15 →
      nextCode ((List.range 8).map fun k => (lens [3, 3, 3, 3, 3, 2, 4, 4] base).lensAt (0 + k)) L +
        lenCount ((List.range 8).map fun k => (lens [3, 3, 3, 3, 3, 2, 4, 4] base).lensAt (0 + k)) L ≤ 2 ^ L) ∧
    ((Instr.htBuild .dist 3 0).wf = true ∧
      2 ^ 2 < nextCode ((List.range 4).map fun k => (lens [1, 2, 2, 2] base).lensAt (0 + k)) 2 +
        lenCount ((List.range 4).map fun k => (lens [1, 2, 2, 2] base).lensAt (0 + k)) 2 ∧
      ∀ K, 1 ≤ K → K < 2 → nextCode ((List.range 4).map fun k => (lens [1, 2, 2, 2] base).lensAt (0 + k)) K +
        lenCount ((List.range 4).map fun k => (lens [1, 2, 2, 2] base).lensAt (0 + k)) K ≤ 2 ^ K) := by
  refine ⟨⟨by decide, lengths (by decide +kernel)⟩, by decide, by decide +kernel, fun K h1 h2 => ?_⟩
  have : K = 1 := by omega
  subst this
  decide +kernel

/-- Slot 0 as V-HT1 builds it, with the bytes in SRC. -/
def huff (bytes : List Byte) : State := { src bytes base with cl := ⟨true, [3, 3, 3, 3, 3, 2, 4, 4]⟩ }

theorem test_hyp_HtDecodeOwnCode : (at_ 4 (huff [0xF0])).Inv ∧ ((at_ 4 (huff [0xF0])).slot .cl).valid = true ∧
    (codesOf ((at_ 4 (huff [0xF0])).slot .cl).lens)[7]? = some (4, 15) ∧ 4 ≠ 0 ∧
    (at_ 4 (huff [0xF0])).codeBits (at_ 4 (huff [0xF0])).bitPos.toNat 4 = 15 ∧
    (at_ 4 (huff [0xF0])).bitPos.toNat + 4 ≤ 8 * (at_ 4 (huff [0xF0])).bufLen := meets (by decide +kernel)

/-- Slot 1 with one symbol, code `0`; the bit read is 1 (V-HT6). -/
def oneSymbol : State := { src [0x01] base with ll := ⟨true, [1]⟩ }
/-- Slot 2 with no code at all (V-HT8). -/
def noSymbol : State := { base with dist := ⟨true, [0, 0]⟩ }
/-- The last bit of the buffer. -/
def lastBit : State := at_ 7 (huff [0x80])

theorem test_hyp_HtDecodeRaises :
    (base.Inv ∧ (base.slot .ll).valid = false) ∧
    (oneSymbol.Inv ∧ (oneSymbol.slot .ll).valid = true ∧
      oneSymbol.bitPos.toNat + maxCodeLen (oneSymbol.slot .ll).lens ≤ 8 * oneSymbol.bufLen ∧
      oneSymbol.noCode (codesOf (oneSymbol.slot .ll).lens) oneSymbol.bitPos.toNat (maxCodeLen (oneSymbol.slot .ll).lens)) ∧
    (noSymbol.Inv ∧ (noSymbol.slot .dist).valid = true ∧ maxCodeLen (noSymbol.slot .dist).lens = 0 ∧
      noSymbol.noCode (codesOf (noSymbol.slot .dist).lens) noSymbol.bitPos.toNat (maxCodeLen (noSymbol.slot .dist).lens)) ∧
    (lastBit.Inv ∧ (lastBit.slot .cl).valid = true ∧ maxCodeLen (lastBit.slot .cl).lens ≠ 0 ∧
      8 * lastBit.bufLen < lastBit.bitPos.toNat + maxCodeLen (lastBit.slot .cl).lens ∧
      lastBit.noCode (codesOf (lastBit.slot .cl).lens) lastBit.bitPos.toNat (8 * lastBit.bufLen - lastBit.bitPos.toNat)) := by
  refine ⟨meets (by decide +kernel), ⟨inv_of (by decide +kernel), rfl, by decide +kernel, noCode_of (by decide +kernel)⟩,
    ⟨inv_of (by decide +kernel), rfl, by decide +kernel, noCode_of (by decide +kernel)⟩,
    inv_of (by decide +kernel), rfl, by decide +kernel, by decide +kernel, noCode_of (by decide +kernel)⟩

theorem test_hyp_CodesPrefixFree :
    (∀ L, 1 ≤ L → L ≤ 15 → nextCode [3, 3, 3, 3, 3, 2, 4, 4] L + lenCount [3, 3, 3, 3, 3, 2, 4, 4] L ≤ 2 ^ L) ∧
    (codesOf [3, 3, 3, 3, 3, 2, 4, 4])[5]? = some (2, 0) ∧ (codesOf [3, 3, 3, 3, 3, 2, 4, 4])[0]? = some (3, 2) ∧
    (5 : Nat) ≠ 0 ∧ 2 ≤ 3 ∧ ([3, 3, 3, 3, 3, 2, 4, 4] : List Nibble)[7]? = some 4 ∧ ([0, 1] : List Nibble)[0]? = some 0 :=
  ⟨lengths (by decide +kernel), by decide +kernel, by decide +kernel, by decide, by decide, rfl, rfl⟩

theorem test_hyp_FixedCodes : ((src [0x01] base).Inv ∧ (src [0x01] base).errCode = .none) ∧
    (∃ t, exec (.htDecode .fll) (src [0x01] base) = .next t) ∧ (∃ t, exec (.htDecode .fdist) (src [0x01] base) = .next t) ∧
    0 < 288 ∧ 287 < 288 ∧ 31 < 32 := ⟨meets (by decide +kernel), ⟨_, rfl⟩, ⟨_, rfl⟩, by decide⟩

theorem test_hyp_LzLiteralResult : { base with outPos := 63 }.outPos.toNat < { base with outPos := 63 }.dstCap.toNat ∧
    { base with outPos := 64 }.dstCap.toNat ≤ { base with outPos := 64 }.outPos.toNat := by decide

theorem test_hyp_LzCopyResult :
    ((1 : BitVec 15).toNat + 1 ≤ { base with outPos := 2 }.outPos.toNat ∧
      { base with outPos := 2 }.outPos.toNat + ((59 : BitVec 8).toNat + 3) ≤ { base with outPos := 2 }.dstCap.toNat) ∧
    { base with outPos := 1 }.outPos.toNat < (1 : BitVec 15).toNat + 1 ∧
    ((1 : BitVec 15).toNat + 1 ≤ { base with outPos := 2 }.outPos.toNat ∧
      { base with outPos := 2 }.dstCap.toNat < { base with outPos := 2 }.outPos.toNat + ((60 : BitVec 8).toNat + 3)) := by decide

theorem test_hyp_LzLengthResult :
    ((src [0x1F] base).Inv ∧ (27 : BitVec 5).toNat ≠ 31 ∧ (27 : BitVec 5).toNat ≤ 28 ∧
      (src [0x1F] base).bitPos.toNat + 5 ≤ 8 * (src [0x1F] base).bufLen) ∧
    ((src [] base).Inv ∧ (28 : BitVec 5).toNat ≠ 31 ∧ (28 : BitVec 5).toNat ≤ 28 ∧ (src [] base).bitPos.toNat + 0 ≤ 8 * (src [] base).bufLen) ∧
    (base.Inv ∧ (8 : BitVec 5).toNat ≠ 31 ∧ (8 : BitVec 5).toNat ≤ 28 ∧ 8 * base.bufLen < base.bitPos.toNat + 1) ∧
    (base.Inv ∧ (29 : BitVec 5).toNat ≠ 31 ∧ 29 ≤ (29 : BitVec 5).toNat) :=
  ⟨meets (by decide +kernel), meets (by decide +kernel), meets (by decide +kernel), meets (by decide +kernel)⟩

theorem test_hyp_LzDistResult :
    ((src [0xFF, 0x1F] base).Inv ∧ (29 : BitVec 5).toNat ≤ 29 ∧
      (src [0xFF, 0x1F] base).bitPos.toNat + 13 ≤ 8 * (src [0xFF, 0x1F] base).bufLen) ∧
    (base.Inv ∧ (3 : BitVec 5).toNat ≤ 29 ∧ base.bitPos.toNat + 0 ≤ 8 * base.bufLen) ∧
    (base.Inv ∧ (4 : BitVec 5).toNat ≤ 29 ∧ 8 * base.bufLen < base.bitPos.toNat + 1) ∧
    (base.Inv ∧ 30 ≤ (30 : BitVec 5).toNat) :=
  ⟨meets (by decide +kernel), meets (by decide +kernel), meets (by decide +kernel), meets (by decide +kernel)⟩

theorem test_hyp_BlockDataLoop : base.Inv := inv_of (by decide +kernel)

/-- The bits of one code, by evaluation. -/
theorem shows {s : State} {codes : List (Nat × Nat)} {x p q : Nat} (l c : Nat)
    (h : codes[x]? = some (l, c) ∧ l ≠ 0 ∧ s.codeBits p l = c ∧ q = p + l) : s.showsSymbol codes x p q := ⟨l, c, h⟩

/-- "a" ten times: literal 97, then length 9 at distance 1, then the end, in fixed codes (V-DF5). -/
def fixedBlock : State := at_ 3 (src [0x4B, 0x84, 0x03, 0x00] base)

/-- "aaaa" with the dynamic codes of DYN2: literal 97 `0`, 256 `10`, 257 `11`, distance 0 `0`. -/
def dynBlock : State :=
  { src [0x16] base with
    ll := ⟨true, List.replicate 97 0 ++ [1] ++ List.replicate 158 0 ++ [2, 2]⟩, dist := ⟨true, [1]⟩ }

theorem test_hyp_BlockDataReplay :
    (fixedBlock.Inv ∧ (fixedBlock.slot .fll).valid = true ∧ (fixedBlock.slot .fdist).valid = true ∧
      fixedBlock.showsBlock (codesOf (fixedBlock.slot .fll).lens) (codesOf (fixedBlock.slot .fdist).lens)
        fixedBlock.bitPos.toNat [.literal 0x61, .backRef 263 0 0 0] 30 ∧ 30 ≤ 8 * fixedBlock.bufLen ∧
      replay (fixedBlock.bytesAt .dst 0 fixedBlock.outPos.toNat) [.literal 0x61, .backRef 263 0 0 0] =
        some (List.replicate 10 0x61) ∧ (List.replicate 10 (0x61 : Byte)).length ≤ fixedBlock.dstCap.toNat) ∧
    (dynBlock.Inv ∧ (dynBlock.slot .ll).valid = true ∧ (dynBlock.slot .dist).valid = true ∧
      dynBlock.showsBlock (codesOf (dynBlock.slot .ll).lens) (codesOf (dynBlock.slot .dist).lens)
        dynBlock.bitPos.toNat [.literal 0x61, .backRef 257 0 0 0] 6 ∧ 6 ≤ 8 * dynBlock.bufLen ∧
      replay (dynBlock.bytesAt .dst 0 dynBlock.outPos.toNat) [.literal 0x61, .backRef 257 0 0 0] =
        some (List.replicate 4 0x61) ∧ (List.replicate 4 (0x61 : Byte)).length ≤ dynBlock.dstCap.toNat) := by
  refine ⟨⟨inv_of (by decide +kernel), rfl, rfl, ⟨11, shows 8 0x91 (by decide +kernel), 23, ?_, shows 7 0 (by decide +kernel)⟩,
      by decide, by decide +kernel, by decide⟩,
    ⟨inv_of (by decide +kernel), rfl, rfl, ⟨1, shows 1 0 (by decide +kernel), 4, ?_, shows 2 2 (by decide +kernel)⟩,
      by decide, by decide +kernel, by decide⟩⟩
  · exact ⟨by decide, by decide, by decide, 18, 23, shows 7 7 (by decide +kernel), by decide +kernel, shows 5 0 (by decide +kernel),
      by decide +kernel, by decide⟩
  · exact ⟨by decide, by decide, by decide, 3, 4, shows 2 3 (by decide +kernel), by decide +kernel, shows 1 0 (by decide +kernel),
      by decide +kernel, by decide⟩

/-- DF_STORED at the byte boundary: LEN, NLEN and the data. -/
def storedAt (bytes : List Byte) : State := src bytes base

theorem test_hyp_StoredResult :
    ((at_ 1 (storedAt [0, 0])).Inv ∧ (at_ 1 (storedAt [0, 0])).bufLen < ((at_ 1 (storedAt [0, 0])).bitPos.toNat + 7) / 8 + 2) ∧
    ((storedAt [0, 0, 0]).Inv ∧ 0 + 2 ≤ (storedAt [0, 0, 0]).bufLen ∧ (storedAt [0, 0, 0]).bufLen < 0 + 4) ∧
    ((storedAt [3, 0, 0xFC, 0xFE]).Inv ∧ 0 + 4 ≤ (storedAt [3, 0, 0xFC, 0xFE]).bufLen ∧
      ((storedAt [3, 0, 0xFC, 0xFE]).peek .src (0 + 2)).toNat + 256 * ((storedAt [3, 0, 0xFC, 0xFE]).peek .src (0 + 3)).toNat ≠ 0xFFFF - 3) ∧
    ((storedAt [3, 0, 0xFC, 0xFF, 1, 2]).Inv ∧ 0 + 4 ≤ (storedAt [3, 0, 0xFC, 0xFF, 1, 2]).bufLen ∧
      0xFC + 256 * 0xFF = 0xFFFF - 3 ∧ (storedAt [3, 0, 0xFC, 0xFF, 1, 2]).bufLen < 0 + 4 + 3) ∧
    ({ storedAt [3, 0, 0xFC, 0xFF, 1, 2, 3] with dstCap := 2 }.Inv ∧
      0 + 4 + 3 ≤ { storedAt [3, 0, 0xFC, 0xFF, 1, 2, 3] with dstCap := 2 }.bufLen ∧
      { storedAt [3, 0, 0xFC, 0xFF, 1, 2, 3] with dstCap := 2 }.dstCap.toNat < 0 + 3) ∧
    ({ storedAt [3, 0, 0xFC, 0xFF, 1, 2, 3] with dstCap := 3 }.Inv ∧
      0 + 4 + 3 ≤ { storedAt [3, 0, 0xFC, 0xFF, 1, 2, 3] with dstCap := 3 }.bufLen ∧
      { storedAt [3, 0, 0xFC, 0xFF, 1, 2, 3] with dstCap := 3 }.outPos.toNat + 3 ≤
        { storedAt [3, 0, 0xFC, 0xFF, 1, 2, 3] with dstCap := 3 }.dstCap.toNat) :=
  ⟨meets (by decide +kernel), meets (by decide +kernel), meets (by decide +kernel), meets (by decide +kernel),
    meets (by decide +kernel), meets (by decide +kernel)⟩

theorem test_hyp_BlockResult :
    ((at_ 8 (src [0xFF] base)).Inv ∧ (at_ 8 (src [0xFF] base)).bufLen ≤ 8 / 8) ∧
    ((at_ 6 (src [0xFF] base)).Inv ∧ 6 < 8 * (at_ 6 (src [0xFF] base)).bufLen ∧ 8 * (at_ 6 (src [0xFF] base)).bufLen < 6 + 3) ∧
    ((at_ 5 (src [0xFF] base)).Inv ∧ 5 + 3 ≤ 8 * (at_ 5 (src [0xFF] base)).bufLen ∧
      (at_ 5 (src [0xFF] base)).bufBit 6 = true ∧ (at_ 5 (src [0xFF] base)).bufBit 7 = true) ∧
    ((src [1, 1, 0, 0xFE, 0xFF, 7] base).Inv ∧ 0 + 3 ≤ 8 * (src [1, 1, 0, 0xFE, 0xFF, 7] base).bufLen ∧
      (src [1, 1, 0, 0xFE, 0xFF, 7] base).bufBit 1 = false ∧ (src [1, 1, 0, 0xFE, 0xFF, 7] base).bufBit 2 = false ∧
      1 + 4 ≤ (src [1, 1, 0, 0xFE, 0xFF, 7] base).bufLen ∧
      ((src [1, 1, 0, 0xFE, 0xFF, 7] base).peek .src 3).toNat + 256 * ((src [1, 1, 0, 0xFE, 0xFF, 7] base).peek .src 4).toNat = 0xFFFF - 1 ∧
      1 + 4 + 1 ≤ (src [1, 1, 0, 0xFE, 0xFF, 7] base).bufLen ∧ 0 + 1 ≤ (src [1, 1, 0, 0xFE, 0xFF, 7] base).dstCap.toNat) ∧
    ((src [3, 0] base).Inv ∧ 0 + 3 ≤ 8 * (src [3, 0] base).bufLen ∧
      (src [3, 0] base).bufBit 1 = true ∧ (src [3, 0] base).bufBit 2 = false) ∧
    ((src [5] base).Inv ∧ 0 + 3 ≤ 8 * (src [5] base).bufLen ∧
      (src [5] base).bufBit 1 = false ∧ (src [5] base).bufBit 2 = true) :=
  ⟨meets (by decide +kernel), meets (by decide +kernel), meets (by decide +kernel), meets (by decide +kernel),
    meets (by decide +kernel), meets (by decide +kernel)⟩

/-- The header of DYN1 begins at bit 19 (V-DYN2). -/
def dynHead : State := at_ 19 (src streamDyn1 base)

/-- The length sequence of DYN1 as its note gives it. -/
def dynTokens : List LenToken := [.manyZeros 86, .length 1, .manyZeros 127, .manyZeros 9, .length 1, .length 0]

/-- The 258 lengths the sequence gives: symbols 97 and 256 have length 1. -/
def dynLens : List Nibble :=
  List.replicate 97 0 ++ [1] ++ List.replicate 158 0 ++ [1, 0]

theorem test_hyp_DynHeaderDecodes : dynHead.Inv ∧
    dynHead.showsLens (codesOf (dynHead.clLensAt (dynHead.bitPos.toNat + 14) (dynHead.bitsFrom (dynHead.bitPos.toNat + 10) 4 + 4)))
      (dynHead.bitPos.toNat + 14 + 3 * (dynHead.bitsFrom (dynHead.bitPos.toNat + 10) 4 + 4)) dynTokens 117 ∧
    117 ≤ 8 * dynHead.bufLen ∧ expandLens [] dynTokens = some dynLens ∧
    dynLens.length = dynHead.bitsFrom dynHead.bitPos.toNat 5 + 257 + (dynHead.bitsFrom (dynHead.bitPos.toNat + 5) 5 + 1) ∧
    overSubscribed (dynHead.clLensAt (dynHead.bitPos.toNat + 14) (dynHead.bitsFrom (dynHead.bitPos.toNat + 10) 4 + 4)) = none ∧
    overSubscribed (dynLens.take (dynHead.bitsFrom dynHead.bitPos.toNat 5 + 257)) = none ∧
    overSubscribed (dynLens.drop (dynHead.bitsFrom dynHead.bitPos.toNat 5 + 257)) = none := by
  refine ⟨inv_of (by decide +kernel), ⟨95, ⟨88, shows 1 0 (by decide +kernel), by decide +kernel, by decide⟩, 97,
    ⟨by decide, shows 2 3 (by decide +kernel)⟩, 105, ⟨98, shows 1 0 (by decide +kernel), by decide +kernel, by decide⟩, 113,
    ⟨106, shows 1 0 (by decide +kernel), by decide +kernel, by decide⟩, 115, ⟨by decide, shows 2 3 (by decide +kernel)⟩, 117,
    ⟨by decide, shows 2 2 (by decide +kernel)⟩, rfl⟩, by decide +kernel, by decide +kernel, by decide +kernel,
    by decide +kernel, by decide +kernel, by decide +kernel⟩

theorem test_hyp_DynHeaderCounts :
    ((dynHead.Inv ∧ dynHead.bitPos.toNat + 14 ≤ 8 * dynHead.bufLen) ∧ ∃ t, exec .dfDynHeader dynHead = .next t) ∧
    (((at_ 3 (src [0, 0] base)).Inv ∧ 8 * (at_ 3 (src [0, 0] base)).bufLen < (at_ 3 (src [0, 0] base)).bitPos.toNat + 14) ∧
      ∃ t, exec .dfDynHeader (at_ 3 (src [0, 0] base)) = .next t) :=
  ⟨⟨meets (by decide +kernel), _, rfl⟩, meets (by decide +kernel), _, rfl⟩

theorem test_hyp_TrailerResult :
    ((src [0, 0, 0, 1] base).Inv ∧ 0 + 4 ≤ (src [0, 0, 0, 1] base).bufLen ∧
      BitVec.ofNat 32 (2 ^ 24 * ((src [0, 0, 0, 1] base).peek .src 0).toNat + 2 ^ 16 * ((src [0, 0, 0, 1] base).peek .src 1).toNat +
        2 ^ 8 * ((src [0, 0, 0, 1] base).peek .src 2).toNat + ((src [0, 0, 0, 1] base).peek .src 3).toNat) = adler32 ((src [0, 0, 0, 1] base).bytesAt .dst 0 0)) ∧
    ((src [0, 0, 0, 2] base).Inv ∧ 0 + 4 ≤ (src [0, 0, 0, 2] base).bufLen ∧
      BitVec.ofNat 32 (2 ^ 24 * ((src [0, 0, 0, 2] base).peek .src 0).toNat + 2 ^ 16 * ((src [0, 0, 0, 2] base).peek .src 1).toNat +
        2 ^ 8 * ((src [0, 0, 0, 2] base).peek .src 2).toNat + ((src [0, 0, 0, 2] base).peek .src 3).toNat) ≠ adler32 ((src [0, 0, 0, 2] base).bytesAt .dst 0 0)) ∧
    ((src [0, 0, 0] base).Inv ∧ (src [0, 0, 0] base).bufLen < 0 + 4) :=
  ⟨meets (by decide +kernel), meets (by decide +kernel), meets (by decide +kernel)⟩

/-- V-DF1 and V-DF2 in the form of the statement; the second without a trailer. -/
theorem test_hyp_InflateStored :
    ((src streamAbc base).Inv ∧ ([0x61, 0x62, 0x63] : List Byte).length ≤ 65535 ∧
      ([0x61, 0x62, 0x63] : List Byte).length ≤ (src streamAbc base).dstCap.toNat ∧
      streamAbc = [0x78, 0x01, 0x01, BitVec.ofNat 8 (3 % 256), BitVec.ofNat 8 (3 / 256), BitVec.ofNat 8 (255 - 3 % 256),
        BitVec.ofNat 8 (255 - 3 / 256)] ++ [0x61, 0x62, 0x63] ++
        (if (src streamAbc base).config.adlerCheck then be4 (adler32 [0x61, 0x62, 0x63]) else []) ∧
      streamAbc.length ≤ (src streamAbc base).bufLen) ∧
    (∀ k, k < streamAbc.length → (src streamAbc base).peek (src streamAbc base).bufSpace k = streamAbc.getD k 0) ∧
    ({ src (streamAbc.take 7) base with config := ⟨false, false, .warn, false⟩ }.Inv ∧
      7 ≤ { src (streamAbc.take 7) base with config := ⟨false, false, .warn, false⟩ }.bufLen) :=
  ⟨meets (by decide +kernel), fun _ h => peek_src _ _ h, meets (by decide +kernel)⟩

theorem test_hyp_InflateLoop : (src streamAbc base).Inv := inv_of (by decide +kernel)

theorem test_hyp_SignatureResult :
    (8 ≤ (src (png1.take 8) base).srcLen.toNat ∧
      (src (png1.take 8) base).bytesAt .src 0 8 = [0x89, 0x50, 0x4E, 0x47, 0x0D, 0x0A, 0x1A, 0x0A]) ∧
    (src (png1.take 7) base).srcLen.toNat < 8 ∧
    (src (png1.set 0 0x88) base).bytesAt .src 0 8 ≠ [0x89, 0x50, 0x4E, 0x47, 0x0D, 0x0A, 0x1A, 0x0A] := by decide +kernel

/-- PNG1 with FR_POS and CHUNK_COUNT given. -/
def framerAt (bytes : List Byte) (p n : Word) : State := { src bytes base with frPos := p, chunkCount := n }

/-- A chunk fits and passes the CRC policy. -/
theorem framed_of {s : State}
    (h : s.frPos.toNat + 12 + s.nextLen ≤ s.srcLen.toNat ∧ (s.nextCrc = s.nextCrcCalc ∨ s.config.crcMode ≠ .strict)) :
    s.nextFits ∧ s.crcPasses := h

/-- PNG1 with its last IDAT byte changed, in STRICT mode (V-PF7). -/
def strictBad : State := { framerAt (png1.set 59 0x83) 33 1 with config := ⟨false, true, .strict, false⟩ }

/-- An IHDR of length 12; the CRC is wrong, which WARN lets pass. -/
def shortIhdr : State :=
  framerAt ([0x00, 0x00, 0x00, 0x0C, 0x49, 0x48, 0x44, 0x52] ++ List.replicate 16 0) 0 0

/-- PNG1's IDAT with five bytes left in CAT. -/
def fullCat : State := { framerAt png1 33 1 with catLen := 1010 }

theorem test_hyp_NextChunkRaises :
    (framerAt png1 65 3).srcLen.toNat < (framerAt png1 65 3).frPos.toNat + 8 ∧
    ((framerAt (png1.take 59) 33 1).frPos.toNat + 8 ≤ (framerAt (png1.take 59) 33 1).srcLen.toNat ∧
      ¬(framerAt (png1.take 59) 33 1).nextFits) ∧
    (strictBad.nextFits ∧ ¬strictBad.crcPasses) ∧
    (((framerAt png1 33 0).nextFits ∧ (framerAt png1 33 0).crcPasses) ∧ (framerAt png1 33 0).chunkCount = 0 ∧
      (framerAt png1 33 0).nextType ≠ 0x49484452) ∧
    ((shortIhdr.nextFits ∧ shortIhdr.crcPasses) ∧ shortIhdr.nextType = 0x49484452 ∧ shortIhdr.nextLen ≠ 13) ∧
    ((fullCat.nextFits ∧ fullCat.crcPasses) ∧ fullCat.chunkCount ≠ 0 ∧ fullCat.nextType = 0x49444154 ∧
      fullCat.sizes.cat < fullCat.catLen.toNat + fullCat.nextLen) := by
  unfold State.nextFits State.crcPasses
  decide +kernel

theorem test_hyp_NextChunkIhdr : ((framerAt png1 8 0).nextFits ∧ (framerAt png1 8 0).crcPasses) ∧
    (framerAt png1 8 0).nextType = 0x49484452 ∧ (framerAt png1 8 0).nextLen = 13 ∧
    (framerAt png1 8 0).chunkCount.toNat + 1 < 2 ^ 32 := ⟨framed_of (by decide +kernel), by decide +kernel⟩

theorem test_hyp_NextChunkIdat : (framerAt png1 33 1).Inv ∧ ((framerAt png1 33 1).nextFits ∧ (framerAt png1 33 1).crcPasses) ∧
    (framerAt png1 33 1).nextType = 0x49444154 ∧ (framerAt png1 33 1).chunkCount ≠ 0 ∧
    (framerAt png1 33 1).catLen.toNat + (framerAt png1 33 1).nextLen ≤ (framerAt png1 33 1).sizes.cat ∧
    (framerAt png1 33 1).chunkCount.toNat + 1 < 2 ^ 32 :=
  ⟨inv_of (by decide +kernel), framed_of (by decide +kernel), by decide +kernel⟩

/-- An empty chunk of a type, at FR_POS 0, after another chunk. -/
def emptyChunk (a b c d : Byte) : State := framerAt ([0, 0, 0, 0, a, b, c, d] ++ List.replicate 4 0) 0 1

theorem test_hyp_NextChunkOther : ∀ s ∈ [emptyChunk 0x50 0x4C 0x54 0x45, emptyChunk 0x49 0x45 0x4E 0x44, emptyChunk 0x74 0x45 0x58 0x74],
    (s.nextFits ∧ s.crcPasses) ∧ s.chunkCount ≠ 0 ∧ s.nextType ≠ 0x49484452 ∧ s.nextType ≠ 0x49444154 ∧
      s.chunkCount.toNat + 1 < 2 ^ 32 := by
  unfold State.nextFits State.crcPasses
  decide +kernel

theorem test_hyp_ReadHeaderResult :
    (src (png1.take 7) base).srcLen.toNat < 8 ∧
    ((src png1 base).bytesAt .src 0 8 = pngSignature ∧ 33 ≤ (src png1 base).srcLen.toNat ∧
      (framerAt png1 8 0).nextType = 0x49484452 ∧ (framerAt png1 8 0).nextLen = 13) ∧ (framerAt png1 8 0).crcPasses :=
  ⟨by decide +kernel, by decide +kernel, (framed_of (by decide +kernel)).2⟩

/-- PNG1 again, with its IDAT in two chunks (V-PF16), built of the parts the statement names. -/
def filePng (parts : List (List Byte)) : List Byte :=
  pngSignature ++ framed typeIHDR [0, 0, 0, 1, 0, 0, 0, 1, 8, 2, 0, 0, 0] ++ parts.flatMap (framed typeIDAT) ++ framed typeIEND []

theorem test_hyp_ReadChunksConcatenates :
    (filePng [streamZ1] = png1 ∧ filePng [streamZ1.take 7, streamZ1.drop 7] = (png1.take 33 ++
      [0x00, 0x00, 0x00, 0x07, 0x49, 0x44, 0x41, 0x54, 0x78, 0x01, 0x01, 0x04, 0x00, 0xFB, 0xFF, 0x35, 0xC5, 0xFF, 0xD1] ++
      [0x00, 0x00, 0x00, 0x08, 0x49, 0x44, 0x41, 0x54, 0x00, 0xFF, 0x00, 0x00, 0x03, 0x01, 0x01, 0x00, 0x76, 0x12, 0xE3, 0x2F] ++
      png1.drop 60)) ∧
    ((src png1 base).Inv ∧ ([0, 0, 0, 1, 0, 0, 0, 1, 8, 2, 0, 0, 0] : List Byte).length = 13 ∧
      (filePng [streamZ1]).length ≤ (src png1 base).srcLen.toNat ∧ [streamZ1].flatten.length ≤ (src png1 base).sizes.cat) ∧
    (∀ k, k < png1.length → (src png1 base).peek .src k = png1.getD k 0) :=
  ⟨by decide +kernel, meets (by decide +kernel), fun _ h => peek_src _ _ h⟩

theorem test_hyp_EmitSignatureResult :
    ({ base with wpos := 1016 }.Inv ∧ { base with wpos := 1016 }.wpos.toNat + 8 ≤ { base with wpos := 1016 }.sizes.wbuf) ∧
    ({ base with wpos := 1017 }.Inv ∧ { base with wpos := 1017 }.sizes.wbuf < { base with wpos := 1017 }.wpos.toNat + 8) :=
  ⟨meets (by decide +kernel), meets (by decide +kernel)⟩

/-- Z1 in SRC, to be emitted at WPOS. -/
def emitAt (w a n : Word) : State := { src streamZ1 base with wpos := w, arg0 := 0x49444154, arg1 := a, arg2 := n }

theorem test_hyp_EmitChunkResult :
    ((emitAt 997 0 15).Inv ∧ (emitAt 997 0 15).arg1.toNat + (emitAt 997 0 15).arg2.toNat ≤ (emitAt 997 0 15).srcLen.toNat ∧
      (emitAt 997 0 15).wpos.toNat + 12 + (emitAt 997 0 15).arg2.toNat ≤ (emitAt 997 0 15).sizes.wbuf) ∧
    ((emitAt 0 10 6).Inv ∧ (emitAt 0 10 6).srcLen.toNat < (emitAt 0 10 6).arg1.toNat + (emitAt 0 10 6).arg2.toNat) ∧
    ((emitAt 998 0 15).Inv ∧ (emitAt 998 0 15).arg1.toNat + (emitAt 998 0 15).arg2.toNat ≤ (emitAt 998 0 15).srcLen.toNat ∧
      (emitAt 998 0 15).sizes.wbuf < (emitAt 998 0 15).wpos.toNat + 12 + (emitAt 998 0 15).arg2.toNat) :=
  ⟨meets (by decide +kernel), meets (by decide +kernel), meets (by decide +kernel)⟩

theorem test_hyp_EmitIhdrResult :
    ((emitAt 999 0 0).Inv ∧ (emitAt 999 0 0).wpos.toNat + 25 ≤ (emitAt 999 0 0).sizes.wbuf) ∧
    ((emitAt 1000 0 0).Inv ∧ (emitAt 1000 0 0).sizes.wbuf < (emitAt 1000 0 0).wpos.toNat + 25) :=
  ⟨meets (by decide +kernel), meets (by decide +kernel)⟩

theorem test_hyp_CursorFrames : ∀ i ∈ [Instr.nop, .bcReset, .bcNextBit, .bcAlign, .bcNextN 3, .htDecode .cl, .lzLength 9, .lzDist 4],
    (i = .nop ∨ i = .bcReset ∨ i = .bcNextBit ∨ i = .bcAlign ∨ (∃ n, i = .bcNextN n) ∨ (∃ k, i = .htDecode k) ∨
      (∃ x, i = .lzLength x) ∨ (∃ x, i = .lzDist x)) ∧ ∃ t, exec i base = .next t := by
  intro i hi
  fin_cases hi <;> exact ⟨by simp, _, rfl⟩

theorem test_hyp_RegisterFrames : ∀ i ∈ [Instr.dfZlibHeader, .dfTrailer, .pfSignature, .pfCheckHeader, .htBuild .cl 7 0],
    ∃ t, exec i base = .next t := by
  intro i hi
  fin_cases hi <;> exact ⟨_, rfl⟩

theorem test_hyp_OutputFrames : ∀ i ∈ [Instr.lzLiteral 7, .lzCopy 0 0, .lzBlockData true, .dfStored],
    ((∃ b, i = .lzLiteral b) ∨ (∃ l d, i = .lzCopy l d) ∨ (∃ f, i = .lzBlockData f) ∨ i = .dfStored) ∧
      ∃ t, exec i base = .next t := by
  intro i hi
  fin_cases hi <;> exact ⟨by simp, _, rfl⟩

theorem test_hyp_DynHeaderFrame : dynHead.Inv ∧ ∃ t, exec .dfDynHeader dynHead = .next t := ⟨inv_of (by decide +kernel), _, rfl⟩

theorem test_hyp_BlockFrames : (∃ t, exec .dfBlock dynHead = .next t) ∧ ∃ t, exec .dfInflate (src streamAbc base) = .next t :=
  ⟨⟨_, rfl⟩, _, rfl⟩

theorem test_hyp_ReadFrames : (src png1 base).Inv ∧ (∃ t, exec .pfNextChunk (src png1 base) = .next t) ∧
    (∃ t, exec .pfReadChunks (src png1 base) = .next t) ∧ ∃ t, exec .pfReadHeader (src png1 base) = .next t :=
  ⟨inv_of (by decide +kernel), ⟨_, rfl⟩, ⟨_, rfl⟩, _, rfl⟩

theorem test_hyp_EmitFrames : (emitAt 0 0 15).Inv ∧ (∃ t, exec .pfEmitSignature (emitAt 0 0 15) = .next t) ∧
    (∃ t, exec .pfEmitChunk (emitAt 0 0 15) = .next t) ∧ ∃ t, exec .pfEmitIhdr (emitAt 0 0 15) = .next t :=
  ⟨inv_of (by decide +kernel), ⟨_, rfl⟩, ⟨_, rfl⟩, _, rfl⟩

theorem test_hyp_EngineWrites : (src streamAbc base).Inv ∧ (∃ t, exec .dfInflate (src streamAbc base) = .next t) ∧
    Instr.dfInflate ≠ .pfEmitSignature ∧ Instr.dfInflate ≠ .pfEmitChunk ∧ Instr.dfInflate ≠ .pfEmitIhdr ∧
    Instr.dfInflate ≠ .pfNextChunk ∧ Instr.dfInflate ≠ .pfReadChunks ∧ Instr.pfReadHeader ≠ .dfDynHeader ∧
    Instr.pfReadHeader ≠ .dfBlock ∧ Instr.pfReadHeader ≠ .dfInflate :=
  ⟨inv_of (by decide +kernel), ⟨_, rfl⟩, by decide⟩

theorem test_hyp_CursorNeverBack : dynHead.Inv ∧ (∃ t, exec .dfBlock dynHead = .next t) ∧ Instr.dfBlock ≠ .bcReset ∧
    Instr.dfBlock ≠ .dfZlibHeader ∧ Instr.dfBlock ≠ .dfInflate := ⟨inv_of (by decide +kernel), ⟨_, rfl⟩, by decide⟩

end Sys2Proof.Tests
end

