-- ==== Sys2Proof/Proofs/Commands.lean ====
section
/-! SUPPORT. Each command's body, what it may write, and that it keeps the bounds of the state (60_exceptions.md R270). -/

namespace Sys2Proof.Machine

/-! ### The body of a command -/

/-- The micro-steps of each command inside the frame of R270. -/
def commandBody : Instr → Act Unit
  | .nop => pure ()
  | .bcReset => update (State.setBitPos 0)
  | .bcNextBit => do let b ← readBit; setResult b.toNat
  | .bcNextN n => do let v ← readBits (bitCount n); setResult v
  | .bcAlign => align
  | .htBuild t maxsym base => do let v ← build t maxsym.toNat base.toNat; setResult v
  | .htDecode t => do let v ← decodeSymbol t; setResult v
  | .lzLiteral byte => emitByte byte
  | .lzCopy l3 d1 => copy (copyLength l3) (copyDistance d1)
  | .lzLength sym => do let v ← lengthOf (lengthSymbol sym); setResult v
  | .lzDist sym => do let v ← distOf (distSymbol sym); setResult v
  | .lzBlockData fixed => do blockData (blockLL fixed) (blockDist fixed); resultOutPos
  | .dfZlibHeader => zlibHeader
  | .dfBlock => do block; resultOutPos
  | .dfStored => do stored; resultOutPos
  | .dfDynHeader => dynHeader
  | .dfTrailer => trailer
  | .dfInflate => inflate
  | .pfSignature => signature
  | .pfNextChunk => do let cls ← nextChunk; setResult cls.number
  | .pfReadChunks => readChunks
  | .pfReadHeader => readHeader
  | .pfCheckHeader => checkHeader
  | .pfEmitSignature => emitSignature
  | .pfEmitChunk => emitChunk
  | .pfEmitIhdr => emitIhdr

/-- A command is its body in the frame of R270. -/
theorem exec_eq_runCommand (i : Instr) (s : State) : exec i s = runCommand (commandBody i) s := by
  cases i <;> rfl

/-! ### The bounds -/

theorem setResult_bounds (n : Nat) : Act.Bounds (setResult n) fun _ => True := .update fun _ hs => { hs with }
theorem resultOutPos_bounds : Act.Bounds resultOutPos fun _ => True := .update fun _ hs => { hs with }

theorem legalBuild_capacity {t : BuildTarget} {maxsym base : BitVec 9} (h : t.legalBuild maxsym base = true) :
    maxsym.toNat + 1 ≤ t.capacity := by
  cases t <;>
  · simp only [BuildTarget.legalBuild, Bool.and_eq_true, decide_eq_true_eq] at h
    exact Nat.succ_le_succ h.1

/-- The body of a well-formed command keeps the bounds and raises no code that is never raised. -/
theorem commandBody_bounds (i : Instr) (h : i.wf = true) : Act.Bounds (commandBody i) fun _ => True := by
  cases i with
  | nop => exact .pure trivial
  | bcReset => exact .update fun _ hs => hs.setBitPos (Nat.zero_le _)
  | bcNextBit => exact .bind readBit_bounds fun _ _ => setResult_bounds _
  | bcNextN n => exact .bind (readBits_bounds _) fun _ _ => setResult_bounds _
  | bcAlign => exact align_bounds
  | htBuild t maxsym base => exact .bind (build_bounds t _ (legalBuild_capacity h)) fun _ _ => setResult_bounds _
  | htDecode t => exact .bind (decodeSymbol_bounds t) fun _ _ => setResult_bounds _
  | lzLiteral byte => exact emitByte_bounds byte
  | lzCopy l3 d1 => exact copy_bounds _ _
  | lzLength sym => exact .bind (lengthOf_bounds _) fun _ _ => setResult_bounds _
  | lzDist sym => exact .bind (distOf_bounds _) fun _ _ => setResult_bounds _
  | lzBlockData fixed => exact .bind (blockData_bounds _ _) fun _ _ => resultOutPos_bounds
  | dfZlibHeader => exact zlibHeader_bounds
  | dfBlock => exact .bind block_bounds fun _ _ => resultOutPos_bounds
  | dfStored => exact .bind stored_bounds fun _ _ => resultOutPos_bounds
  | dfDynHeader => exact dynHeader_bounds
  | dfTrailer => exact trailer_bounds
  | dfInflate => exact inflate_bounds
  | pfSignature => exact signature_bounds
  | pfNextChunk => exact .bind nextChunk_bounds fun _ _ => setResult_bounds _
  | pfReadChunks => exact readChunks_bounds
  | pfReadHeader => exact readHeader_bounds
  | pfCheckHeader => exact checkHeader_bounds
  | pfEmitSignature => exact emitSignature_bounds
  | pfEmitChunk => exact emitChunk_bounds
  | pfEmitIhdr => exact emitIhdr_bounds

/-! ### What a command writes -/

/-- Which of the things that not every command writes a command may write: BIT_POS, DST_CAP, CAT, WBUF and LENS. -/
structure Rights where
  cursor : Prop
  cap : Prop
  cat : Prop
  wbuf : Prop
  lens : Prop

/-- The rights of each command: the framer has none to BIT_POS (10_state.md R31), DST_CAP is PF_CHECK_HEADER's (R34),
CAT the read path's, WBUF the emit commands' and LENS the dynamic header's (20_memory.md R72, R73, R76). -/
def rightsOf (i : Instr) : Rights where
  cursor := match i with
    | .pfSignature | .pfNextChunk | .pfReadChunks | .pfReadHeader | .pfCheckHeader => False
    | .pfEmitSignature | .pfEmitChunk | .pfEmitIhdr => False
    | _ => True
  cap := i = .pfCheckHeader
  cat := i = .pfNextChunk ∨ i = .pfReadChunks
  wbuf := i = .pfEmitSignature ∨ i = .pfEmitChunk ∨ i = .pfEmitIhdr
  lens := i = .dfDynHeader ∨ i = .dfBlock ∨ i = .dfInflate

/-- Only what commands write differs, and of the things above only what the rights allow. Who may write DST_CAP
writes no DST; the others write no byte of DST at or above DST_CAP (20_memory.md R71, R75). -/
structure CommandFrame (p : Rights) (s t : State) : Prop where
  rest : t = { s with
    status := { s.status with
      final := t.status.final, iendSeen := t.status.iendSeen, unknownSeen := t.status.unknownSeen, crcWarn := t.status.crcWarn }
    result := t.result, bitPos := t.bitPos, catLen := t.catLen, dstCap := t.dstCap, outPos := t.outPos, frPos := t.frPos
    wpos := t.wpos, block := t.block, dyn := t.dyn, zhdr := t.zhdr, adlerCalc := t.adlerCalc
    adlerTrailer := t.adlerTrailer, blockCount := t.blockCount, chunkLen := t.chunkLen, chunkType := t.chunkType
    chunkCrc := t.chunkCrc, chunkCrcCalc := t.chunkCrcCalc, chunkClass := t.chunkClass, chunkCount := t.chunkCount
    hdrWidth := t.hdrWidth, hdrHeight := t.hdrHeight, hdrFmt := t.hdrFmt, hdrInterlace := t.hdrInterlace
    dataSize := t.dataSize, cl := t.cl, ll := t.ll, dist := t.dist, cat := t.cat, dst := t.dst, wbuf := t.wbuf
    lens := t.lens, draws := t.draws }
  cursor : p.cursor ∨ t.bitPos = s.bitPos
  cap : p.cap ∨ t.dstCap = s.dstCap
  dst : ∀ a, p.cap ∨ s.dstCap.toNat ≤ a → t.peek .dst a = s.peek .dst a
  cat : p.cat ∨ t.cat = s.cat
  wbuf : p.wbuf ∨ t.wbuf = s.wbuf
  lens : p.lens ∨ t.lens = s.lens

/-- A right, or no change: also over two stretches. -/
theorem rightOrSame_trans {α : Type} {q : Prop} {a b c : α} (h1 : q ∨ b = a) (h2 : q ∨ c = b) : q ∨ c = a := by
  rcases h1 with h1 | rfl
  · exact .inl h1
  · exact h2

theorem commandFrame_isFrame (p : Rights) : IsFrame (CommandFrame p) where
  refl s := ⟨rfl, .inr rfl, .inr rfl, fun _ _ => rfl, .inr rfl, .inr rfl, .inr rfl⟩
  trans s t u h1 h2 := by
    refine ⟨by rw [h2.rest, h1.rest], rightOrSame_trans h1.cursor h2.cursor, rightOrSame_trans h1.cap h2.cap, fun a ha => ?_,
      rightOrSame_trans h1.cat h2.cat, rightOrSame_trans h1.wbuf h2.wbuf, rightOrSame_trans h1.lens h2.lens⟩
    have hat : p.cap ∨ t.dstCap.toNat ≤ a := by
      rcases h1.cap with hc | hc
      · exact .inl hc
      · rw [hc]
        exact ha
    rw [h2.dst a hat, h1.dst a ha]

variable {p : Rights} {s t : State}

/-- A write of registers of which no right is asked. -/
theorem CommandFrame.same
    (h : t = { s with
      status := { s.status with
        final := t.status.final, iendSeen := t.status.iendSeen, unknownSeen := t.status.unknownSeen, crcWarn := t.status.crcWarn }
      result := t.result, catLen := t.catLen, outPos := t.outPos, frPos := t.frPos
      wpos := t.wpos, block := t.block, dyn := t.dyn, zhdr := t.zhdr, adlerCalc := t.adlerCalc
      adlerTrailer := t.adlerTrailer, blockCount := t.blockCount, chunkLen := t.chunkLen, chunkType := t.chunkType
      chunkCrc := t.chunkCrc, chunkCrcCalc := t.chunkCrcCalc, chunkClass := t.chunkClass, chunkCount := t.chunkCount
      hdrWidth := t.hdrWidth, hdrHeight := t.hdrHeight, hdrFmt := t.hdrFmt, hdrInterlace := t.hdrInterlace
      dataSize := t.dataSize, cl := t.cl, ll := t.ll, dist := t.dist, draws := t.draws }) : CommandFrame p s t where
  rest := by rw [h]
  cursor := .inr (by rw [h])
  cap := .inr (by rw [h])
  dst := fun a _ => by rw [h]; rfl
  cat := .inr (by rw [h])
  wbuf := .inr (by rw [h])
  lens := .inr (by rw [h])

/-- A move of the cursor, with what the header and the trailer write. -/
theorem CommandFrame.ofCursor (hp : p.cursor)
    (h : t = { s with
      bitPos := t.bitPos, zhdr := t.zhdr, adlerCalc := t.adlerCalc, adlerTrailer := t.adlerTrailer }) : CommandFrame p s t where
  rest := by rw [h]
  cursor := .inl hp
  cap := .inr (by rw [h])
  dst := fun a _ => by rw [h]; rfl
  cat := .inr (by rw [h])
  wbuf := .inr (by rw [h])
  lens := .inr (by rw [h])

theorem CommandFrame.ofBlock (hp : p.cursor) (hc : ¬p.cap) (hl : p.lens ∨ t.lens = s.lens) (h : BlockFrame s t) :
    CommandFrame p s t where
  rest := by rw [h.rest]
  cursor := .inl hp
  cap := .inr h.dstCap
  dst := fun a ha => by
    have := h.cap
    have := h.mono
    have := ha.resolve_left hc
    exact h.other a (by omega)
  cat := .inr (by rw [h.rest])
  wbuf := .inr (by rw [h.rest])
  lens := hl

theorem CommandFrame.ofOutput (hp : p.cursor) (hc : ¬p.cap) (h : OutputFrame s t) : CommandFrame p s t :=
  .ofBlock hp hc (.inr (by rw [h.rest])) (.ofOutput h)

theorem CommandFrame.ofDyn (hp : p.cursor) (hl : p.lens) (h : DynFrame s t) : CommandFrame p s t where
  rest := by rw [h.rest]
  cursor := .inl hp
  cap := .inr (by rw [h.rest])
  dst := fun a _ => by rw [h.rest]; rfl
  cat := .inr (by rw [h.rest])
  wbuf := .inr (by rw [h.rest])
  lens := .inl hl

theorem CommandFrame.ofRead (hc : p.cat ∨ t.cat = s.cat) (h : ReadFrame s t) : CommandFrame p s t where
  rest := by rw [h.rest]
  cursor := .inr (by rw [h.rest])
  cap := .inr (by rw [h.rest])
  dst := fun a _ => by rw [h.rest]; rfl
  cat := hc
  wbuf := .inr (by rw [h.rest])
  lens := .inr (by rw [h.rest])

/-- A write of WBUF, with the registers an emit writes. -/
theorem CommandFrame.ofEmit (hw : p.wbuf)
    (h : t = { s with result := t.result, wpos := t.wpos, chunkCrcCalc := t.chunkCrcCalc, wbuf := t.wbuf }) :
    CommandFrame p s t where
  rest := by rw [h]
  cursor := .inr (by rw [h])
  cap := .inr (by rw [h])
  dst := fun a _ => by rw [h]; rfl
  cat := .inr (by rw [h])
  wbuf := .inl hw
  lens := .inr (by rw [h])

/-- The write of PF_CHECK_HEADER (R251). -/
theorem CommandFrame.ofCap (hp : p.cap) (h : t = { s with dataSize := t.dataSize, dstCap := t.dstCap }) :
    CommandFrame p s t where
  rest := by rw [h]
  cursor := .inr (by rw [h])
  cap := .inl hp
  dst := fun a _ => by rw [h]; rfl
  cat := .inr (by rw [h])
  wbuf := .inr (by rw [h])
  lens := .inr (by rw [h])

/-! ### The pieces of the bodies -/

theorem Act.Keeps.and {α : Type} {R R' : State → State → Prop} {x : Act α} (h : Act.Keeps R x) (h' : Act.Keeps R' x) :
    Act.Keeps (fun s t => R s t ∧ R' s t) x := by
  intro s
  have hs := h s
  have hs' := h' s
  cases hx : x s <;>
  · rw [hx] at hs hs'
    exact ⟨hs, hs'⟩

theorem Act.Keeps.ofCursor {α : Type} {x : Act α} (hp : p.cursor) (h : Act.Keeps CursorFrame x) :
    Act.Keeps (CommandFrame p) x :=
  h.mono fun s t hst => .ofCursor hp (by unfold CursorFrame at hst; rw [hst])

theorem setResult_frame (n : Nat) : Act.Keeps (CommandFrame p) (setResult n) := .update fun _ => .same rfl
theorem resultOutPos_frame : Act.Keeps (CommandFrame p) resultOutPos := .update fun _ => .same rfl
theorem resultWpos_frame : Act.Keeps (CommandFrame p) resultWpos := .update fun _ => .same rfl
theorem resultChunkCount_frame : Act.Keeps (CommandFrame p) resultChunkCount := .update fun _ => .same rfl

theorem build_frame (t : BuildTarget) (m base : Nat) : Act.Keeps (CommandFrame p) (build t m base) := by
  intro s
  cases h : overSubscribed (s.lensSnapshot m base) with
  | none =>
    rw [build_ok h]
    cases t <;> exact .same rfl
  | some L =>
    rw [build_error h]
    cases t <;> exact .same rfl

theorem zlibHeader_frame (hp : p.cursor) : Act.Keeps (CommandFrame p) zlibHeader :=
  zlibHeader_keeps.mono fun s t h => .ofCursor hp (by unfold HeaderFrame at h; rw [h])

theorem trailer_frame (hp : p.cursor) : Act.Keeps (CommandFrame p) trailer :=
  trailer_keeps.mono fun s t h => .ofCursor hp (by unfold TrailerFrame at h; rw [h])

/-- LENS is as it was. -/
def SameLens (s t : State) : Prop := t.lens = s.lens

theorem sameLens_isFrame : IsFrame SameLens where
  refl _ := rfl
  trans _ _ _ h1 h2 := h2.trans h1

/-- A stored block has no code lengths. -/
theorem stored_sameLens : Act.Keeps SameLens stored := by
  have hF := sameLens_isFrame
  have hr : Act.Keeps SameLens (readBits 16) := (readBits_keeps 16).mono fun s t h => by
    unfold CursorFrame at h
    unfold SameLens
    rw [h]
  refine .bind hF (.update fun _ => rfl) fun _ => .bind hF hr fun len => .bind hF hr fun nlen => ?_
  refine .bind hF (.update fun _ => rfl) fun _ => .bind hF (.check hF _ _ _) fun _ => .bind hF (.get hF) fun v => ?_
  refine .bind hF (.check hF _ _ _) fun _ => .bind hF (.check hF _ _ _) fun _ => .bind hF (.update fun s => ?_) fun _ => ?_
  · unfold SameLens
    rw [blit_dst_eq]
  · exact .bind hF (.update fun _ => rfl) fun _ => .update fun _ => rfl

theorem stored_frame (hp : p.cursor) (hc : ¬p.cap) : Act.Keeps (CommandFrame p) stored :=
  (stored_keeps.and stored_sameLens).mono fun _ _ h => .ofBlock hp hc (.inr h.2) h.1

theorem inflate_frame (hp : p.cursor) (hc : ¬p.cap) (hl : p.lens) : Act.Keeps (CommandFrame p) inflate := by
  have hF := commandFrame_isFrame p
  refine .bind hF (.update fun _ => .ofCursor hp rfl) fun _ => .bind hF (.update fun _ => .same rfl) fun _ => ?_
  refine .bind hF (.update fun _ => .same rfl) fun _ => .bind hF (.update fun _ => .same rfl) fun _ => ?_
  refine .bind hF (zlibHeader_frame hp) fun _ => .bind hF (inflateBlocks_keeps.mono fun _ _ => .ofBlock hp hc (.inl hl)) fun _ => ?_
  refine .bind hF (.get hF) fun _ => .ite (.bind hF (trailer_frame hp) fun _ => resultOutPos_frame) ?_
  exact .bind hF (.update fun _ => .same rfl) fun _ => resultOutPos_frame

/-- CAT is as it was. -/
def SameCat (s t : State) : Prop := t.cat = s.cat

theorem sameCat_isFrame : IsFrame SameCat where
  refl _ := rfl
  trans _ _ _ h1 h2 := h2.trans h1

theorem crcPolicy_sameCat (crcS crcC : Word) : Act.Keeps SameCat (crcPolicy crcS crcC) := by
  have hF := sameCat_isFrame
  refine .bind hF (.get hF) fun s => .ite (.pure hF _) ?_
  cases s.config.crcMode with
  | ignore => exact .pure hF _
  | warn => exact .update fun _ => rfl
  | strict => exact .raise hF _ _

theorem bumpChunkCount_sameCat (s : State) : SameCat s s.bumpChunkCount := by
  unfold State.bumpChunkCount
  split <;> rfl

/-- The first chunk appends nothing to CAT: it is an IHDR, or it raises (45_png_framer.md R241). -/
theorem nextChunkRest_first_sameCat (p len : Nat) (crcS crcC : Word) (cls : ChunkClass) :
    Act.Keeps SameCat (nextChunkRest 0 p len crcS crcC cls) := by
  have hF := sameCat_isFrame
  refine .bind hF (crcPolicy_sameCat _ _) fun _ => ?_
  by_cases hcls : cls = .ihdr
  · subst hcls
    refine .bind hF (.check hF _ _ _) fun _ => .bind hF ?_ fun _ => .bind hF (.update bumpChunkCount_sameCat) fun _ => ?_
    · exact .bind hF (.check hF _ _ _) fun _ => .update fun _ => rfl
    · exact .bind hF (.update fun _ => rfl) fun _ => .pure hF _
  · intro s
    rw [check_bind_fail ⟨rfl, hcls⟩]
    exact hF.refl s

theorem nextChunk_first_sameCat (m : Memory) :
    Act.Spec (fun s => s.chunkCount = 0 ∧ s.cat = m) nextChunk (fun _ t => t.cat = m) fun _ t => t.cat = m := by
  intro s ⟨h0, hm⟩
  by_cases h1 : s.frPos.toNat + 8 ≤ s.srcLen.toNat
  · by_cases h2 : s.frPos.toNat + 12 + s.nextLen ≤ s.srcLen.toNat
    · rw [nextChunk_fits h2, h0]
      have h := nextChunkRest_first_sameCat s.frPos.toNat s.nextLen s.nextCrc s.nextCrcCalc (classify s.nextType) s.captured
      cases hx : nextChunkRest 0 s.frPos.toNat s.nextLen s.nextCrc s.nextCrcCalc (classify s.nextType) s.captured <;>
      · rw [hx] at h
        exact Eq.trans h hm
    · rw [nextChunk_body h1 (by omega)]
      exact hm
  · rw [nextChunk_head (by omega)]
    exact hm

/-- PF_READ_HEADER appends nothing to CAT: its one chunk is the first. -/
theorem readHeader_sameCat : Act.Keeps SameCat readHeader := by
  intro s
  have h : Act.Spec (fun u => u.cat = s.cat) readHeader (fun _ t => t.cat = s.cat) fun _ t => t.cat = s.cat := by
    refine .bind (Q := fun _ u => u.chunkCount = 0 ∧ u.cat = s.cat) (.update fun u hu => ⟨rfl, hu⟩) fun _ => ?_
    refine .bind (Q := fun _ u => u.chunkCount = 0 ∧ u.cat = s.cat) (.update fun u hu => hu) fun _ => ?_
    refine .bind (Q := fun _ u => u.chunkCount = 0 ∧ u.cat = s.cat) (.get fun v => ?_) fun _ => ?_
    · exact .bind (Q := fun _ u => u.chunkCount = 0 ∧ u.cat = s.cat) (.check (fun _ hu _ => hu.2) fun _ hu _ => hu.2.2)
        fun _ => .update fun _ hu => hu
    · exact .bind (nextChunk_first_sameCat s.cat) fun _ => .update fun _ hu => hu
  exact h s rfl

theorem signature_frame : Act.Keeps (CommandFrame p) signature := by
  have hF := commandFrame_isFrame p
  exact .bind hF (.get hF) fun _ => .bind hF (.check hF _ _ _) fun _ => .update fun _ => .same rfl

theorem readChunks_frame (hc : p.cat) : Act.Keeps (CommandFrame p) readChunks := by
  have hF := commandFrame_isFrame p
  refine .bind hF (.update fun _ => .same rfl) fun _ => .bind hF (.update fun _ => .same rfl) fun _ => ?_
  refine .bind hF signature_frame fun _ => .bind hF (.bind hF (.get hF) fun _ => ?_) fun _ => resultChunkCount_frame
  exact (readChunksLoop_keeps _).mono fun _ _ => .ofRead (.inl hc)

/-- The body of PF_READ_HEADER in the frame of a command that may write CAT. -/
theorem readHeader_frame_cat (hc : p.cat) : Act.Keeps (CommandFrame p) readHeader := by
  have hF := commandFrame_isFrame p
  refine .bind hF (.update fun _ => .same rfl) fun _ => .bind hF (.update fun _ => .same rfl) fun _ => ?_
  refine .bind hF signature_frame fun _ => .bind hF (nextChunk_keeps.mono fun _ _ => .ofRead (.inl hc)) fun _ => ?_
  exact resultChunkCount_frame

theorem readHeader_frame : Act.Keeps (CommandFrame p) readHeader :=
  ((readHeader_frame_cat (p := { p with cat := True }) trivial).and readHeader_sameCat).mono fun _ _ h =>
    { h.1 with cat := .inr h.2 }

theorem checkHeader_frame (hp : p.cap) : Act.Keeps (CommandFrame p) checkHeader := by
  have hF := commandFrame_isFrame p
  exact .bind hF (.get hF) fun _ => .bind hF (.check hF _ _ _) fun _ => .bind hF (.check hF _ _ _) fun _ =>
    .bind hF (.update fun _ => .ofCap hp rfl) fun _ => setResult_frame _

theorem emit_frame (hw : p.wbuf) (ty : Word) (data : List Byte) : Act.Keeps (CommandFrame p) (emit ty data) :=
  (emit_keeps ty data).mono fun _ _ h => .ofEmit hw h.rest

theorem emitSignature_frame (hw : p.wbuf) : Act.Keeps (CommandFrame p) emitSignature := by
  have hF := commandFrame_isFrame p
  refine .bind hF (.get hF) fun v => .bind hF (.check hF _ _ _) fun _ => .bind hF (.update fun s => .ofEmit hw ?_) fun _ => ?_
  · rw [writeBytes_wbuf_eq]
  · exact .bind hF (.update fun _ => .same rfl) fun _ => resultWpos_frame

theorem emitChunk_frame (hw : p.wbuf) : Act.Keeps (CommandFrame p) emitChunk := by
  have hF := commandFrame_isFrame p
  exact .bind hF (.get hF) fun _ => .bind hF (.check hF _ _ _) fun _ => .bind hF (emit_frame hw _ _) fun _ => resultWpos_frame

theorem emitIhdr_frame (hw : p.wbuf) : Act.Keeps (CommandFrame p) emitIhdr := by
  have hF := commandFrame_isFrame p
  exact .bind hF (.get hF) fun _ => .bind hF (emit_frame hw _ _) fun _ => resultWpos_frame

/-- No command's body writes more than its rights allow. -/
theorem commandBody_frame (i : Instr) : Act.Keeps (CommandFrame (rightsOf i)) (commandBody i) := by
  have hF := commandFrame_isFrame (rightsOf i)
  cases i with
  | nop => exact .pure hF _
  | bcReset => exact .update fun _ => .ofCursor trivial rfl
  | bcNextBit => exact .bind hF (readBit_keeps.ofCursor trivial) fun _ => setResult_frame _
  | bcNextN n => exact .bind hF ((readBits_keeps _).ofCursor trivial) fun _ => setResult_frame _
  | bcAlign => exact align_keeps.ofCursor trivial
  | htBuild t maxsym base => exact .bind hF (build_frame t _ _) fun _ => setResult_frame _
  | htDecode t => exact .bind hF ((decodeSymbol_keeps t).ofCursor trivial) fun _ => setResult_frame _
  | lzLiteral byte => exact (emitByte_keeps byte).mono fun _ _ => .ofOutput trivial nofun
  | lzCopy l3 d1 => exact (copy_keeps _ _).mono fun _ _ => .ofOutput trivial nofun
  | lzLength sym => exact .bind hF ((lengthOf_keeps _).ofCursor trivial) fun _ => setResult_frame _
  | lzDist sym => exact .bind hF ((distOf_keeps _).ofCursor trivial) fun _ => setResult_frame _
  | lzBlockData fixed =>
    exact .bind hF ((blockData_keeps _ _).mono fun _ _ => .ofOutput trivial nofun) fun _ => resultOutPos_frame
  | dfZlibHeader => exact zlibHeader_frame trivial
  | dfBlock =>
    exact .bind hF (block_keeps.mono fun _ _ => .ofBlock trivial nofun (.inl (.inr (.inl rfl)))) fun _ => resultOutPos_frame
  | dfStored => exact .bind hF (stored_frame trivial nofun) fun _ => resultOutPos_frame
  | dfDynHeader => exact dynHeader_keeps.mono fun _ _ => .ofDyn trivial (.inl rfl)
  | dfTrailer => exact trailer_frame trivial
  | dfInflate => exact inflate_frame trivial nofun (.inr (.inr rfl))
  | pfSignature => exact signature_frame
  | pfNextChunk => exact .bind hF (nextChunk_keeps.mono fun _ _ => .ofRead (.inl (.inl rfl))) fun _ => setResult_frame _
  | pfReadChunks => exact readChunks_frame (.inr rfl)
  | pfReadHeader => exact readHeader_frame
  | pfCheckHeader => exact checkHeader_frame rfl
  | pfEmitSignature => exact emitSignature_frame (.inl rfl)
  | pfEmitChunk => exact emitChunk_frame (.inr (.inl rfl))
  | pfEmitIhdr => exact emitIhdr_frame (.inr (.inr rfl))

end Sys2Proof.Machine
end

