-- ==== Sys2Proof/Proofs/Inv.lean ====
section
/-! SUPPORT. Every step keeps the invariant. -/

namespace Sys2Proof.Machine

/-! ### The decoder answers well-formed commands -/

theorem decodeN_wf {w : Word} {i j : Instr} (hi : i.wf = true) (h : decodeN w i = .ok j) : j.wf = true := by
  unfold decodeN at h
  split at h <;> cases h
  exact hi

theorem decodeNB_wf {w : Word} {i : Instr} (h : decodeNB w = .ok i) : i.wf = true := by
  unfold decodeNB at h
  split at h
  · split at h <;> cases h
    exact decide_eq_true ‹_›
  · cases h

theorem decodeT_wf {w : Word} {i : Instr} (h : decodeT w = .ok i) : i.wf = true := by
  unfold decodeT at h
  split at h
  · split at h <;> cases h
    rfl
  · cases h

theorem legalBuild_of_bounds {t : BuildTarget} {maxsym base : BitVec 9}
    (h : maxsym.toNat + 1 ≤ t.capacity ∧ base.toNat + maxsym.toNat ≤ 319) : t.legalBuild maxsym base = true := by
  cases t <;>
  · simp only [BuildTarget.legalBuild, Bool.and_eq_true, decide_eq_true_eq]
    exact ⟨Nat.le_of_succ_le_succ h.1, h.2⟩

theorem decodeBLD_wf {w : Word} {i : Instr} (h : decodeBLD w = .ok i) : i.wf = true := by
  unfold decodeBLD at h
  split at h
  · split at h
    · split at h <;> cases h
      exact legalBuild_of_bounds ‹_›
    · cases h
  · cases h

theorem decodeBY_wf {w : Word} {i : Instr} (h : decodeBY w = .ok i) : i.wf = true := by
  unfold decodeBY at h
  split at h <;> cases h
  rfl

theorem decodeCP_wf {w : Word} {i : Instr} (h : decodeCP w = .ok i) : i.wf = true := by
  unfold decodeCP at h
  split at h <;> cases h
  rfl

theorem decodeLength_wf {w : Word} {i : Instr} (h : decodeLength w = .ok i) : i.wf = true := by
  unfold decodeLength at h
  split at h
  · split at h <;> cases h
    exact decide_eq_true ‹_›
  · cases h

theorem decodeDist_wf {w : Word} {i : Instr} (h : decodeDist w = .ok i) : i.wf = true := by
  unfold decodeDist at h
  split at h <;> cases h
  rfl

theorem decodeFX_wf {w : Word} {i : Instr} (h : decodeFX w = .ok i) : i.wf = true := by
  unfold decodeFX at h
  split at h <;> cases h
  rfl

/-- A word decodes to a well-formed command only (30_encoding.md R112). -/
theorem decode_wf {w : Word} {i : Instr} (h : decode w = .ok i) : i.wf = true := by
  unfold decode at h
  split at h
  case h_4 => exact decodeNB_wf h
  case h_6 => exact decodeBLD_wf h
  case h_7 => exact decodeT_wf h
  case h_8 => exact decodeBY_wf h
  case h_9 => exact decodeCP_wf h
  case h_10 => exact decodeLength_wf h
  case h_11 => exact decodeDist_wf h
  case h_12 => exact decodeFX_wf h
  case h_27 => cases h
  all_goals exact decodeN_wf rfl h

/-! ### Reset -/

/-- The state after reset meets the invariant, whatever the sizes (70_reset_and_hazards.md R300). -/
theorem resetWith_inv {z : Sizes} (h : z.wf) : (State.resetWith z).Inv where
  sizes := h
  srcLen := Nat.zero_le _
  catLen := Nat.zero_le _
  dstCap := Nat.zero_le _
  outPos := Nat.zero_le _
  bitPos := Nat.zero_le _
  dataSize := Nat.zero_le _
  src := ⟨.nil, nofun⟩
  cat := ⟨.nil, nofun⟩
  dst := ⟨.nil, nofun⟩
  wbuf := ⟨.nil, nofun⟩
  lens := ⟨.nil, nofun⟩
  cl := nofun
  ll := nofun
  dist := nofun
  dyn := .inl rfl
  zhdr := .inl rfl
  busyFlag := rfl
  busyClear := nofun
  noUnknownChunkType := nofun
  noIoError := nofun

theorem applyReset_inv {s : State} (h : s.Inv) : (applyReset s).Inv := { resetWith_inv h.sizes with }

/-! ### The end of a command -/

/-- A completed command leaves the invariant, where no code that is never raised stood before. -/
theorem complete_inv {s : State} (h : s.Bounded) (h1 : s.errCode ≠ .unknownChunkType) (h2 : s.errCode ≠ .ioError) :
    s.complete.Inv :=
  { h with busyFlag := rfl, busyClear := nofun, noUnknownChunkType := h1, noIoError := h2 }

/-- An error entry leaves the invariant, where the code is one that may be raised. -/
theorem errorEntry_inv {s : State} (h : s.Bounded) {r : Raise} (hr : Raisable r.code) : (s.errorEntry r).Inv :=
  { h with busyFlag := rfl, busyClear := nofun, noUnknownChunkType := hr.2.1, noIoError := hr.2.2 }

theorem CommandFrame.errCode {p : Rights} {s t : State} (h : CommandFrame p s t) : t.errCode = s.errCode := by rw [h.rest]

theorem exec_inv {i : Instr} (hi : i.wf = true) {s t : State} (h : s.Inv) (ht : exec i s = .next t) : t.Inv := by
  rw [exec_eq_runCommand] at ht
  have hf := commandBody_frame i s
  rcases (commandBody_bounds i hi).ends h.toBounded with ⟨u, hu, hb⟩ | ⟨r, u, hu, hb, hr⟩
  · rw [runCommand_ok hu] at ht
    rw [hu] at hf
    cases ht
    exact complete_inv hb (by rw [hf.errCode]; exact h.noUnknownChunkType) (by rw [hf.errCode]; exact h.noIoError)
  · rw [runCommand_error hu] at ht
    cases ht
    exact errorEntry_inv hb hr

theorem engineStep_inv {s t : State} (h : s.Inv) (ht : engineStep s = .next t) : t.Inv := by
  unfold engineStep at ht
  split at ht
  · cases ht
    exact h
  · split at ht
    · exact exec_inv (decode_wf ‹_›) h ht
    · cases ht
      exact errorEntry_inv h.toBounded (raisable _)

/-! ### The host -/

/-- The invariant of a state with the same report. -/
theorem State.Inv.sameReport {s t : State} (h : s.Inv) (hb : t.Bounded) (he : t.eng = s.eng) (hs : t.status = s.status)
    (hc : t.errCode = s.errCode) (hd : t.errData = s.errData) (hp : t.errBitPos = s.errBitPos) : t.Inv :=
  { hb with
    busyFlag := by rw [hs, he]; exact h.busyFlag
    busyClear := by rw [hs, he, hc, hd, hp]; exact h.busyClear
    noUnknownChunkType := by rw [hc]; exact h.noUnknownChunkType
    noIoError := by rw [hc]; exact h.noIoError }

/-- A register write while IDLE keeps the invariant: an issue clears the report, STATUS keeps BUSY, and no other write
meets the report (10_state.md R25, R26). -/
theorem State.Inv.writeReg {s : State} (h : s.Inv) (hi : s.eng.isBusy = false) (v : Word) (r : Reg) :
    (s.writeReg v r).Inv := by
  have hb := h.toBounded.writeReg v r
  cases r with
  | cmd =>
    exact { hb with
      busyFlag := rfl, busyClear := fun _ => ⟨rfl, rfl, rfl, rfl, rfl⟩, noUnknownChunkType := nofun, noIoError := nofun }
  | status =>
    exact { hb with
      busyFlag := h.busyFlag, busyClear := fun hb => absurd hi (by rw [show s.eng.isBusy = true from hb]; nofun)
      noUnknownChunkType := h.noUnknownChunkType, noIoError := h.noIoError }
  | _ => exact h.sameReport hb rfl rfl rfl rfl rfl

theorem hostRegWrite_inv {s : State} (h : s.Inv) (off : Nat) (v : Word) : (hostRegWrite off v s).Inv := by
  unfold hostRegWrite
  split
  · exact h
  · split
    · exact h.writeReg (by simpa using ‹¬s.eng.isBusy = true›) v _
    · exact h

theorem PortFrame.inv {s t : State} (hf : PortFrame s t) (h : s.Inv) : t.Inv := by
  unfold PortFrame at hf
  rw [hf]
  exact { h with }

theorem hostStep_inv {op : HostOp} {s t : State} (h : s.Inv) (ht : hostStep op s = .next t) : t.Inv := by
  rcases hostStep_cases ht with ⟨off, v, -, -, rfl⟩ | ⟨off, -, -, rfl⟩ | ⟨m, a, v, -, ha, rfl⟩ | ⟨m, a, -, -, rfl⟩ |
    ⟨i, v, -, hi, rfl⟩ | ⟨i, -, -, rfl⟩
  · exact hostRegWrite_inv h _ v
  · exact (hostRegRead_frame _ s).inv h
  · refine h.sameReport (h.toBounded.hostMemWrite ha v) ?_ ?_ ?_ ?_ ?_ <;>
    · unfold hostMemWrite
      split <;> simp
  · exact (hostMemRead_frame m _ s).inv h
  · refine h.sameReport (h.toBounded.hostLensWrite hi v) ?_ ?_ ?_ ?_ ?_ <;>
    · unfold hostLensWrite
      split <;> simp
  · exact (hostLensRead_frame _ s).inv h

/-! ### The step -/

theorem State.Inv.setAgenda {s : State} (h : s.Inv) (rest : List Event) : State.Inv { s with agenda := rest } := { h with }

/-- Settles O9, by who moves: the engine, the host or the reset input. -/
theorem stepKeepsInv : Obligations.StepKeepsInv := by
  intro s t h ht
  unfold step at ht
  split at ht
  · exact engineStep_inv h ht
  · exact engineStep_inv (h.setAgenda _) ht
  · exact hostStep_inv (h.setAgenda _) ht
  · cases ht
    exact applyReset_inv (h.setAgenda _)

end Sys2Proof.Machine
end

