-- ==== Sys2Proof/Proofs/Writes.lean ====
section
/-! SUPPORT. What no command writes, and that within a command the cursor never moves back. -/

namespace Sys2Proof.Machine

/-! ### What a command writes -/

/-- A command leaves what its body left, with a report (60_exceptions.md R270, R272). -/
theorem exec_frame {i : Instr} {s t : State} (h : exec i s = .next t) :
    ∃ u, CommandFrame (rightsOf i) s u ∧ t = u.withReport t := by
  rw [exec_eq_runCommand] at h
  exact (commandBody_frame i).finish (R' := fun s t => ∃ u, CommandFrame (rightsOf i) s u ∧ t = u.withReport t)
    (fun _ u hu => ⟨u, hu, rfl⟩) (fun _ _ u hu => ⟨u, hu, rfl⟩) h

theorem peek_congr {s t : State} {m : Space} (hm : t.mem m = s.mem m) (hr : t.resets = s.resets) (a : Nat) :
    t.peek m a = s.peek m a := by
  unfold State.peek
  rw [hm, hr]

theorem lensAt_congr {s t : State} (hl : t.lens = s.lens) (hr : t.resets = s.resets) (k : Nat) :
    t.lensAt k = s.lensAt k := by
  unfold State.lensAt
  rw [hl, hr]

/-- Settles O59, by the rights of the command. -/
theorem engineWrites : Obligations.EngineWrites := by
  intro i s t _ h
  obtain ⟨u, hu, ht⟩ := exec_frame h
  have hres : u.resets = s.resets := by rw [hu.rest]
  rw [ht]
  refine ⟨?srcLen, ?config, ?arg0, ?arg1, ?arg2, ?sizes, ?ports, ?agenda, hres, ?src, fun a ha => hu.dst a (.inr ha), ?wbuf, ?cat, ?lens⟩
  case src => exact peek_congr (s := s) (t := u) (m := .src) (by rw [hu.rest]; rfl) hres
  case wbuf => exact fun h1 h2 h3 => peek_congr (m := .wbuf) (hu.wbuf.resolve_left (by simp [rightsOf, h1, h2, h3])) hres
  case cat => exact fun h1 h2 => peek_congr (m := .cat) (hu.cat.resolve_left (by simp [rightsOf, h1, h2])) hres
  case lens => exact fun h1 h2 h3 => lensAt_congr (hu.lens.resolve_left (by simp [rightsOf, h1, h2, h3])) hres
  all_goals
    rw [hu.rest]
    rfl

/-! ### The cursor never moves back -/

/-- BIT_POS is no smaller, where it and the buffer were within their bounds; the buffer may differ. -/
def CursorNotBack (s t : State) : Prop :=
  s.bufLen ≤ 2 ^ 28 → s.bitPos.toNat ≤ 2 ^ 31 → s.bitPos.toNat ≤ t.bitPos.toNat

theorem NotBack.cursor {s t : State} (h : NotBack s t) : CursorNotBack s t := fun hb hp => (h hb hp).2.1

theorem setResult_notBack (n : Nat) : Act.Keeps NotBack (setResult n) := .update fun _ => .same rfl rfl
theorem resultOutPos_notBack : Act.Keeps NotBack resultOutPos := .update fun _ => .same rfl rfl

/-- The body of a command that may move BIT_POS and starts no new cursor moves it forward only. -/
theorem commandBody_notBack {i : Instr} (hi : (rightsOf i).cursor) (h1 : i ≠ .bcReset) (h2 : i ≠ .dfZlibHeader)
    (h3 : i ≠ .dfInflate) : Act.Keeps NotBack (commandBody i) := by
  have hF := notBack_isFrame
  have ofForwards {α : Type} {x : Act α} (hx : Act.Keeps Forwards x) : Act.Keeps NotBack x := hx.mono fun _ _ => Forwards.notBack
  cases i with
  | nop => exact .pure hF _
  | bcReset => exact absurd rfl h1
  | bcNextBit => exact .bind hF readBit_notBack fun _ => setResult_notBack _
  | bcNextN n => exact .bind hF (readBits_notBack _) fun _ => setResult_notBack _
  | bcAlign => exact align_notBack
  | htBuild t maxsym base => exact .bind hF (build_notBack t _ _) fun _ => setResult_notBack _
  | htDecode t => exact .bind hF (decodeSymbol_notBack t) fun _ => setResult_notBack _
  | lzLiteral byte => exact ofForwards (emitByte_forwards byte)
  | lzCopy l3 d1 => exact ofForwards (copy_forwards _ _)
  | lzLength sym => exact .bind hF (ofForwards (lengthOf_forwards _)) fun _ => setResult_notBack _
  | lzDist sym => exact .bind hF (ofForwards (distOf_forwards _)) fun _ => setResult_notBack _
  | lzBlockData fixed => exact .bind hF (blockData_notBack _ _) fun _ => resultOutPos_notBack
  | dfZlibHeader => exact absurd rfl h2
  | dfBlock => exact .bind hF block_notBack fun _ => resultOutPos_notBack
  | dfStored => exact .bind hF stored_notBack fun _ => resultOutPos_notBack
  | dfDynHeader => exact dynHeader_notBack
  | dfTrailer => exact trailer_notBack
  | dfInflate => exact absurd rfl h3
  | _ => exact hi.elim

/-- Settles O60: a command without the right to BIT_POS leaves it, the others move it forward. -/
theorem cursorNeverBack : Obligations.CursorNeverBack := by
  intro i s t hs h1 h2 h3 h
  rw [exec_eq_runCommand] at h
  have hk : Act.Keeps CursorNotBack (commandBody i) := by
    by_cases hi : (rightsOf i).cursor
    · exact (commandBody_notBack hi h1 h2 h3).mono fun _ _ => NotBack.cursor
    · exact (commandBody_frame i).mono fun u v huv _ _ => (congrArg BitVec.toNat (huv.cursor.resolve_left hi)).ge
  exact hk.finish (R' := CursorNotBack) (fun _ _ hu => hu) (fun _ _ _ hu => hu) h hs.bufLen_le hs.bitPos

end Sys2Proof.Machine
end

