-- ==== Sys2Proof/Proofs/RoundTrip.lean ====
section
/-! SUPPORT. The word of a well-formed command decodes to the command (30_encoding.md R100, R101, R112). -/

namespace Sys2Proof.Machine

/-- A field of a command's word above the opcode is a field of its operand bits (R101). -/
theorem encode_field (i : Instr) (a n : Nat) (h : a + n ≤ 24) :
    (encode i).extractLsb' (8 + a) n = i.operandBits.extractLsb' a n := by
  rw [← encode_operandBits]
  ext k hk
  have : a + k < 24 := by omega
  simp [this, Nat.add_assoc]

/-! ### The fields of each format, and the reserved bits above them -/

theorem bcNextN_fields (n : BitVec 6) :
    (Instr.bcNextN n).operandBits.extractLsb' 6 18 = 0 ∧ (Instr.bcNextN n).operandBits.extractLsb' 0 6 = n := by
  constructor <;>
  · ext k hk
    simp only [Instr.operandBits]
    interval_cases k <;> simp

theorem htBuild_fields (t : BuildTarget) (maxsym base : BitVec 9) :
    (Instr.htBuild t maxsym base).operandBits.extractLsb' 20 4 = 0 ∧
    (Instr.htBuild t maxsym base).operandBits.extractLsb' 0 2 = BitVec.ofNat 2 t.table.number ∧
    (Instr.htBuild t maxsym base).operandBits.extractLsb' 2 9 = maxsym ∧
    (Instr.htBuild t maxsym base).operandBits.extractLsb' 11 9 = base := by
  have ht : BitVec.ofNat 24 t.table.number = (BitVec.ofNat 2 t.table.number).setWidth 24 := by cases t <;> rfl
  refine ⟨?_, ?_, ?_, ?_⟩ <;>
  · ext k hk
    simp only [Instr.operandBits, ht]
    interval_cases k <;> simp

theorem lzLiteral_fields (byte : BitVec 8) :
    (Instr.lzLiteral byte).operandBits.extractLsb' 8 16 = 0 ∧ (Instr.lzLiteral byte).operandBits.extractLsb' 0 8 = byte := by
  constructor <;>
  · ext k hk
    simp only [Instr.operandBits]
    interval_cases k <;> simp

theorem lzCopy_fields (l3 : BitVec 8) (d1 : BitVec 15) :
    (Instr.lzCopy l3 d1).operandBits.extractLsb' 23 1 = 0 ∧ (Instr.lzCopy l3 d1).operandBits.extractLsb' 0 8 = l3 ∧
    (Instr.lzCopy l3 d1).operandBits.extractLsb' 8 15 = d1 := by
  refine ⟨?_, ?_, ?_⟩ <;>
  · ext k hk
    simp only [Instr.operandBits]
    interval_cases k <;> simp

theorem symbol_fields (sym : BitVec 5) :
    (sym.setWidth 24).extractLsb' 5 19 = 0 ∧ (sym.setWidth 24).extractLsb' 0 5 = sym := by
  constructor <;>
  · ext k hk
    interval_cases k <;> simp

/-! ### Decoding by format -/

theorem decodeNB_encode (n : BitVec 6) (h : n.toNat ≤ 32) : decodeNB (encode (.bcNextN n)) = .ok (.bcNextN n) := by
  obtain ⟨h0, hn⟩ := bcNextN_fields n
  unfold decodeNB
  rw [encode_field _ 6 18 (by decide), encode_field _ 0 6 (by decide), h0, hn, if_pos rfl, if_pos h]

theorem targetOfNumber_number (t : BuildTarget) : targetOfNumber (BitVec.ofNat 2 t.table.number).toNat = some t := by
  cases t <;> rfl

theorem decodeBLD_encode {t : BuildTarget} {maxsym base : BitVec 9} (h : t.legalBuild maxsym base = true) :
    decodeBLD (encode (.htBuild t maxsym base)) = .ok (.htBuild t maxsym base) := by
  obtain ⟨h0, ht, hm, hb⟩ := htBuild_fields t maxsym base
  have hsum : base.toNat + maxsym.toNat ≤ 319 := of_decide_eq_true (Bool.and_eq_true_iff.1 h).2
  unfold decodeBLD
  rw [encode_field _ 20 4 (by decide), encode_field _ 0 2 (by decide), encode_field _ 2 9 (by decide),
    encode_field _ 11 9 (by decide), h0, ht, hm, hb, if_pos rfl, targetOfNumber_number]
  exact if_pos ⟨legalBuild_capacity h, hsum⟩

theorem decodeBY_encode (byte : BitVec 8) : decodeBY (encode (.lzLiteral byte)) = .ok (.lzLiteral byte) := by
  obtain ⟨h0, hb⟩ := lzLiteral_fields byte
  unfold decodeBY
  rw [encode_field _ 8 16 (by decide), encode_field _ 0 8 (by decide), h0, hb, if_pos rfl]

theorem decodeCP_encode (l3 : BitVec 8) (d1 : BitVec 15) : decodeCP (encode (.lzCopy l3 d1)) = .ok (.lzCopy l3 d1) := by
  obtain ⟨h0, hl, hd⟩ := lzCopy_fields l3 d1
  unfold decodeCP
  rw [encode_field _ 23 1 (by decide), encode_field _ 0 8 (by decide), encode_field _ 8 15 (by decide), h0, hl, hd, if_pos rfl]

theorem decodeLength_encode (sym : BitVec 5) (h : sym.toNat ≠ 31) : decodeLength (encode (.lzLength sym)) = .ok (.lzLength sym) := by
  obtain ⟨h0, hs⟩ := symbol_fields sym
  unfold decodeLength
  rw [encode_field _ 5 19 (by decide), encode_field _ 0 5 (by decide), Instr.operandBits, h0, hs, if_pos rfl, if_neg h]

theorem decodeDist_encode (sym : BitVec 5) : decodeDist (encode (.lzDist sym)) = .ok (.lzDist sym) := by
  obtain ⟨h0, hs⟩ := symbol_fields sym
  unfold decodeDist
  rw [encode_field _ 5 19 (by decide), encode_field _ 0 5 (by decide), Instr.operandBits, h0, hs, if_pos rfl]

/-- The word of a well-formed command decodes to the command (R100, R101, R112). -/
theorem decode_encode (i : Instr) (h : i.wf = true) : decode (encode i) = .ok i := by
  unfold decode
  rw [encode_opcode]
  cases i with
  | bcNextN n => exact decodeNB_encode n (of_decide_eq_true h)
  | htBuild t maxsym base => exact decodeBLD_encode h
  | htDecode t => cases t <;> rfl
  | lzLiteral byte => exact decodeBY_encode byte
  | lzCopy l3 d1 => exact decodeCP_encode l3 d1
  | lzLength sym => exact decodeLength_encode sym (of_decide_eq_true h)
  | lzDist sym => exact decodeDist_encode sym
  | lzBlockData fixed => cases fixed <;> rfl
  | _ => rfl

/-! ### The step of a latched command -/

/-- A BUSY engine runs the command its word decodes to. -/
theorem engineStep_decoded {s : State} {w : Word} {i : Instr} (he : s.eng = .busy w) (hd : decode w = .ok i) :
    engineStep s = exec i s := by
  simp only [engineStep, he, hd]

theorem step_emptyAgenda {s : State} (h : s.agenda = []) : step s = engineStep s := by
  simp only [step, h]

theorem step_engineTurn {s : State} {rest : List Event} (h : s.agenda = .engine :: rest) :
    step s = engineStep { s with agenda := rest } := by
  simp only [step, h]

theorem withFetchWord_encode (s : State) (i : Instr) :
    s.withFetchWord 32 (encode i).toNat = { s.issue (encode i) with agenda := [] } := by
  unfold State.withFetchWord
  rw [Nat.mod_eq_of_lt (encode i).isLt, BitVec.ofNat_toNat, BitVec.setWidth_eq]

/-- Settles O6, by the head of the agenda. -/
theorem stepRunsDecoded : Obligations.StepRunsDecoded := by
  refine ⟨fun s w i he hd ha => ?_, fun s w i rest he hd ha => ?_, fun s he ha => ?_, fun s i hi => ?_⟩
  · rw [step_emptyAgenda ha, engineStep_decoded he hd]
  · exact (step_engineTurn ha).trans (engineStep_decoded he hd)
  · rw [step_emptyAgenda ha]
    simp only [engineStep, he]
  · rw [withFetchWord_encode, step_emptyAgenda rfl, engineStep_decoded rfl (decode_encode i hi)]

end Sys2Proof.Machine
end

