-- ==== Sys2Proof/Proofs/HostPort.lean ====
section
/-! SUPPORT. The host's ports: the register map, what a register read returns and a write stores, the memory and LENS
ports, and the accesses that are dropped, ignored or refused (10_state.md R22 to R58). -/

namespace Sys2Proof.Machine

/-! ### The step of a host transaction -/

theorem step_hostTurn {s : State} {op : HostOp} {rest : List Event} (h : s.agenda = .host op :: rest) :
    step s = hostStep op { s with agenda := rest } := by
  simp only [step, h]

theorem isBusy_of_ne_idle {e : Eng} (h : e ≠ .idle) : e.isBusy = true := by
  cases e with
  | idle => exact absurd rfl h
  | busy w => rfl

theorem not_isBusy_of_idle {s : State} (h : s.eng = .idle) : ¬s.eng.isBusy = true := by
  rw [h]
  nofun

theorem hostStep_regWrite {off : BitVec 8} (h : off.toNat % 4 = 0) (v : Word) (s : State) :
    hostStep (.regWrite off v) s = .next (hostRegWrite off.toNat v s) := if_neg (not_not.2 h)
theorem hostStep_regRead {off : BitVec 8} (h : off.toNat % 4 = 0) (s : State) :
    hostStep (.regRead off) s = .next (hostRegRead off.toNat s) := if_neg (not_not.2 h)
theorem hostStep_memWrite {s : State} {m : Space} {a : BitVec 28} (h : s.takes a.toNat (s.sizes.of m)) (v : Byte) :
    hostStep (.memWrite m a v) s = .next (hostMemWrite m a.toNat v s) := if_pos h
theorem hostStep_memRead {s : State} {m : Space} {a : BitVec 28} (h : s.takes a.toNat (s.sizes.of m)) :
    hostStep (.memRead m a) s = .next (hostMemRead m a.toNat s) := if_pos h
theorem hostStep_lensWrite {s : State} {i : BitVec 9} (h : s.takes i.toNat 320) (v : Byte) :
    hostStep (.lensWrite i v) s = .next (hostLensWrite i.toNat v s) := if_pos h
theorem hostStep_lensRead {s : State} {i : BitVec 9} (h : s.takes i.toNat 320) :
    hostStep (.lensRead i) s = .next (hostLensRead i.toNat s) := if_pos h

/-! ### While BUSY -/

section Busy

variable {s : State} (h : s.eng.isBusy = true)
include h

theorem hostRegWrite_busy (off : Nat) (v : Word) : hostRegWrite off v s = s := if_pos h
theorem hostMemWrite_busy (m : Space) (a : Nat) (v : Byte) : hostMemWrite m a v s = s := if_pos h
theorem hostLensWrite_busy (i : Nat) (v : Byte) : hostLensWrite i v s = s := if_pos h

/-- A read of STATUS while BUSY shows BUSY (R58). -/
theorem hostRegRead_busy_status : (hostRegRead 0x04 s).ports.reg.getLsbD 0 = true := by
  unfold hostRegRead
  rw [if_pos h, if_pos rfl]
  simp [State.draw, State.setRegData]

/-- A transaction that the port accepts changes the port's data and the count of free values alone (R58). -/
theorem hostStep_busy_frame {op : HostOp} {t : State} (ht : hostStep op s = .next t) : PortFrame s t := by
  rcases hostStep_cases ht with ⟨off, v, -, -, rfl⟩ | ⟨off, -, -, rfl⟩ | ⟨m, a, v, -, -, rfl⟩ | ⟨m, a, -, -, rfl⟩ |
    ⟨i, v, -, -, rfl⟩ | ⟨i, -, -, rfl⟩
  · rw [hostRegWrite_busy h]
    rfl
  · exact hostRegRead_frame _ s
  · rw [hostMemWrite_busy h]
    rfl
  · exact hostMemRead_frame m _ s
  · rw [hostLensWrite_busy h]
    rfl
  · exact hostLensRead_frame _ s

end Busy

/-- Settles O13, by the kind of the transaction. -/
theorem busyDropsHost : Obligations.BusyDropsHost := by
  intro s op rest he ha
  rw [step_hostTurn ha]
  generalize hu : ({ s with agenda := rest } : State) = u
  have hb : u.eng.isBusy = true := by
    rw [← hu]
    exact isBusy_of_ne_idle he
  refine ⟨fun t ht => ⟨?_, fun hop => ?_⟩, ?_, ?_⟩
  · have hf : PortFrame u t := hostStep_busy_frame hb ht
    rw [← hu] at hf
    exact hf
  · rw [hop, hostStep_regRead (by decide)] at ht
    cases ht
    exact hostRegRead_busy_status hb
  · rintro (⟨off, v, rfl, h4⟩ | ⟨off, rfl, h4⟩ | ⟨m, a, v, rfl⟩ | ⟨m, a, rfl⟩ | ⟨i, v, rfl⟩ | ⟨i, rfl⟩)
    · exact ⟨_, hostStep_regWrite h4 v u⟩
    · exact ⟨_, hostStep_regRead h4 u⟩
    · exact ⟨_, hostStep_memWrite (.inl hb) v⟩
    · exact ⟨_, hostStep_memRead (.inl hb)⟩
    · exact ⟨_, hostStep_lensWrite (.inl hb) v⟩
    · exact ⟨_, hostStep_lensRead (.inl hb)⟩
  · rintro (⟨off, v, rfl, h4⟩ | ⟨m, a, v, rfl⟩ | ⟨i, v, rfl⟩)
    · rw [hostStep_regWrite h4, hostRegWrite_busy hb]
    · rw [hostStep_memWrite (.inl hb), hostMemWrite_busy hb]
    · rw [hostStep_lensWrite (.inl hb), hostLensWrite_busy hb]

/-- Settles O12, by the state of the engine. -/
theorem issueEffect : Obligations.IssueEffect := by
  refine ⟨fun s w rest ha he => ?_, fun s w rest ha he => ?_, fun s => rfl⟩
  · rw [step_hostTurn ha, hostStep_regWrite (by decide)]
    exact ⟨_, rfl, if_neg (not_isBusy_of_idle (s := { s with agenda := rest }) he)⟩
  · rw [step_hostTurn ha, hostStep_regWrite (by decide)]
    exact congrArg _ (hostRegWrite_busy (s := { s with agenda := rest }) (isBusy_of_ne_idle he) _ w)

/-! ### Memories and LENS while IDLE -/

section Idle

variable {s : State} (h : s.eng = .idle)
include h

theorem not_takes {idx size : Nat} (hi : size ≤ idx) : ¬s.takes idx size :=
  not_or.2 ⟨not_isBusy_of_idle h, Nat.not_lt.2 hi⟩

theorem hostMemWrite_idle (m : Space) (a : Nat) (v : Byte) : hostMemWrite m a v s = s.poke m a v :=
  if_neg (not_isBusy_of_idle h)
theorem hostMemRead_idle (m : Space) (a : Nat) : hostMemRead m a s = s.setMemData m (s.peek m a) :=
  if_neg (not_isBusy_of_idle h)
theorem hostLensWrite_idle (i : Nat) (v : Byte) : hostLensWrite i v s = s.setLens i (v.extractLsb' 0 4) :=
  if_neg (not_isBusy_of_idle h)
theorem hostLensRead_idle (i : Nat) : hostLensRead i s = s.setLensData ((s.lensAt i).setWidth 8) :=
  if_neg (not_isBusy_of_idle h)
theorem hostRegWrite_idle {off : Nat} {r : Reg} (hr : Reg.ofOffset off = some r) (v : Word) :
    hostRegWrite off v s = s.writeReg v r := by
  unfold hostRegWrite
  rw [if_neg (not_isBusy_of_idle h), hr]
theorem hostRegRead_idle {off : Nat} {r : Reg} (hr : Reg.ofOffset off = some r) :
    hostRegRead off s = s.setRegData (s.readReg r) := by
  unfold hostRegRead
  rw [if_neg (not_isBusy_of_idle h), hr]
theorem hostRegWrite_reserved {off : Nat} (hr : Reg.ofOffset off = none) (v : Word) : hostRegWrite off v s = s := by
  unfold hostRegWrite
  rw [if_neg (not_isBusy_of_idle h), hr]
theorem hostRegRead_reserved {off : Nat} (hr : Reg.ofOffset off = none) : hostRegRead off s = s.setRegData 0 := by
  unfold hostRegRead
  rw [if_neg (not_isBusy_of_idle h), hr]

end Idle

/-- A write of a memory changes the four memories alone. -/
theorem State.poke_memories (s : State) (m : Space) (a : Nat) (v : Byte) :
    s.poke m a v = { s with
      src := (s.poke m a v).src, cat := (s.poke m a v).cat, dst := (s.poke m a v).dst, wbuf := (s.poke m a v).wbuf } := by
  cases m <;> rfl

/-- Settles O16, by the port and whether the address exists. -/
theorem memoryPorts : Obligations.MemoryPorts := by
  refine ⟨fun s m a v he ha => ?_, fun s m a he ha => ?_, fun s i v he hi => ?_, fun s i he hi => ?_, fun s m a he ha => ?_,
    fun s i he hi => ?_⟩
  · rw [hostStep_memWrite (.inr ha), hostMemWrite_idle he]
    exact ⟨_, rfl, s.poke_memories m _ v, s.peek_poke_same m _ v, fun k b => s.peek_poke_other v,
      lensAt_congr (s.poke_lens m _ v) (s.poke_resets m _ v)⟩
  · rw [hostStep_memRead (.inr ha), hostMemRead_idle he]
    exact ⟨_, rfl, rfl, by cases m <;> rfl⟩
  · rw [hostStep_lensWrite (.inr hi), hostLensWrite_idle he]
    refine ⟨_, rfl, rfl, ?_, fun j hj => ?_, fun k b => ?_⟩
    · simp [State.lensAt_setLens, BitVec.extractLsb'_toNat]
    · rw [State.lensAt_setLens, if_neg hj]
    · exact peek_congr (by cases k <;> rfl) rfl b
  · rw [hostStep_lensRead (.inr hi), hostLensRead_idle he]
    refine ⟨_, rfl, rfl, ?_⟩
    show ((s.lensAt i.toNat).setWidth 8).toNat = _
    exact BitVec.toNat_setWidth_of_le (by decide)
  · exact ⟨if_neg (not_takes he ha), fun v => if_neg (not_takes he ha)⟩
  · exact ⟨if_neg (not_takes he hi), fun v => if_neg (not_takes he hi)⟩

end Sys2Proof.Machine
end

