-- ==== Sys2Proof/Proofs/Registers.lean ====
section
/-! SUPPORT. The register map: offsets, the fields a read returns, what a write stores, and the bits that read 0
(10_state.md R23 to R57). -/

namespace Sys2Proof.Machine

/-! ### Offsets -/

/-- The register map (R23). -/
def registerMap : List (BitVec 8 × Reg) :=
  [(0x00, .cmd), (0x04, .status), (0x08, .config), (0x0C, .errCode), (0x10, .errBitPos), (0x14, .errData),
    (0x18, .result), (0x1C, .bitPos), (0x20, .srcLen), (0x24, .catLen), (0x28, .dstCap), (0x2C, .outPos),
    (0x30, .frPos), (0x34, .wpos), (0x38, .arg0), (0x3C, .arg1), (0x40, .arg2), (0x44, .block), (0x48, .dyn),
    (0x4C, .zhdr), (0x50, .adlerCalc), (0x54, .adlerTrailer), (0x58, .blockCount), (0x5C, .tblStatus),
    (0x60, .chunkLen), (0x64, .chunkType), (0x68, .chunkCrc), (0x6C, .chunkCrcCalc), (0x70, .chunkClass),
    (0x74, .chunkCount), (0x78, .hdrWidth), (0x7C, .hdrHeight), (0x80, .hdrFmt), (0x84, .hdrInterlace),
    (0x88, .dataSize)]

/-- The model's decoder of offsets agrees with the map. -/
theorem registerMap_ofOffset : ∀ e ∈ registerMap, e.1.toNat % 4 = 0 ∧ Reg.ofOffset e.1.toNat = some e.2 := by
  decide

theorem ofOffset_reserved {off : Nat} (h : 0x8C ≤ off) : Reg.ofOffset off = none := by
  unfold Reg.ofOffset
  split
  case h_36 => rfl
  all_goals omega

theorem hostStep_regRead_mapped {s : State} {off : BitVec 8} {r : Reg} (he : s.eng = .idle) (h : (off, r) ∈ registerMap) :
    hostStep (.regRead off) s = .next (s.setRegData (s.readReg r)) := by
  obtain ⟨h4, hr⟩ := registerMap_ofOffset _ h
  rw [hostStep_regRead h4, hostRegRead_idle he hr]

theorem hostStep_regWrite_mapped {s : State} {off : BitVec 8} {r : Reg} (he : s.eng = .idle) (h : (off, r) ∈ registerMap)
    (v : Word) : hostStep (.regWrite off v) s = .next (s.writeReg v r) := by
  obtain ⟨h4, hr⟩ := registerMap_ofOffset _ h
  rw [hostStep_regWrite h4, hostRegWrite_idle he hr]

/-! ### The words a read returns -/

theorem setWidth_byte (b : Byte) : b.setWidth 32 = 0#24 ++ b := BitVec.setWidth_eq_append (by decide)

theorem hdrFmt_bytes (s : State) : s.hdrFmt = s.filterMethod ++ s.compression ++ s.colorType ++ s.bitDepth := by
  unfold State.filterMethod State.compression State.colorType State.bitDepth
  repeat rw [BitVec.extractLsb'_append_extractLsb'_eq_extractLsb' (by decide)]
  exact BitVec.extractLsb'_eq_self.symm

/-! ### The words a write stores -/

/-- The write-one-to-clear bits of STATUS are DONE, ERROR, IEND_SEEN, UNKNOWN_SEEN and CRC_WARN (R25). -/
theorem writeOneClear_word (f : Status) (v : Word) : (f.writeOneClear v).word = f.word &&& ~~~(v &&& 0x76) := by
  refine BitVec.eq_of_getLsbD_eq fun k hk => ?_
  simp only [Status.writeOneClear, Status.word, BitVec.getLsbD_append, BitVec.getLsbD_and, BitVec.getLsbD_not]
  interval_cases k <;> simp

/-- CONFIG stores its fields, and a CRC_MODE of 3 as 2 (R24). -/
theorem configOfWord_word (v : Word) :
    (ConfigReg.ofWord v).word = (v &&& 0x13) ||| (if v.extractLsb' 2 2 = 3 then 0x08 else v &&& 0x0C) := by
  have hm : (CrcMode.ofBits (v.extractLsb' 2 2)).bits = if v.extractLsb' 2 2 = 3 then 2 else v.extractLsb' 2 2 := by
    generalize v.extractLsb' 2 2 = b
    revert b
    decide
  refine BitVec.eq_of_getLsbD_eq fun k hk => ?_
  simp only [ConfigReg.ofWord, ConfigReg.word, hm]
  split <;>
  · simp only [BitVec.getLsbD_append, BitVec.getLsbD_and, BitVec.getLsbD_or]
    interval_cases k <;> simp

theorem byte_word (v : Word) : (v.extractLsb' 0 8).setWidth 32 = v &&& 0xFF := by
  ext k hk
  interval_cases k <;> simp

/-- A write changes no other register, but by an issue (R23, R57). -/
theorem readReg_writeReg_other (s : State) (v : Word) {r q : Reg} (hr : r ≠ .cmd) (hq : q ≠ r) :
    (s.writeReg v r).readReg q = s.readReg q := by
  cases r with
  | cmd => exact absurd rfl hr
  | status => cases q with | status => exact absurd rfl hq | _ => rfl
  | config => cases q with | config => exact absurd rfl hq | _ => rfl
  | bitPos => cases q with | bitPos => exact absurd rfl hq | _ => rfl
  | srcLen => cases q with | srcLen => exact absurd rfl hq | _ => rfl
  | catLen => cases q with | catLen => exact absurd rfl hq | _ => rfl
  | dstCap => cases q with | dstCap => exact absurd rfl hq | _ => rfl
  | outPos => cases q with | outPos => exact absurd rfl hq | _ => rfl
  | frPos => cases q with | frPos => exact absurd rfl hq | _ => rfl
  | wpos => cases q with | wpos => exact absurd rfl hq | _ => rfl
  | arg0 => cases q with | arg0 => exact absurd rfl hq | _ => rfl
  | arg1 => cases q with | arg1 => exact absurd rfl hq | _ => rfl
  | arg2 => cases q with | arg2 => exact absurd rfl hq | _ => rfl
  | chunkCount => cases q with | chunkCount => exact absurd rfl hq | _ => rfl
  | hdrWidth => cases q with | hdrWidth => exact absurd rfl hq | _ => rfl
  | hdrHeight => cases q with | hdrHeight => exact absurd rfl hq | _ => rfl
  | hdrFmt => cases q with | hdrFmt => exact absurd rfl hq | _ => rfl
  | hdrInterlace => cases q with | hdrInterlace => exact absurd rfl hq | _ => rfl
  | _ => rfl

/-! ### TBL_STATUS -/

theorem maxCodeLen_fixed : maxCodeLen fixedLLLens = 9 ∧ maxCodeLen fixedDistLens = 5 := by decide +kernel

/-- The fixed tables are always valid, with code lengths up to 9 and 5 (R44, R47). -/
theorem tblStatus_fixed (s : State) : s.tblStatus.extractLsb' 3 2 = 3 ∧ s.tblStatus.extractLsb' 20 4 = 9 ∧
    s.tblStatus.extractLsb' 24 4 = 5 := by
  have h3 : (s.slot .fll).maxLen = 9 := congrArg (BitVec.ofNat 4) maxCodeLen_fixed.1
  have h4 : (s.slot .fdist).maxLen = 5 := congrArg (BitVec.ofNat 4) maxCodeLen_fixed.2
  have v3 : (s.slot .fll).valid = true := rfl
  have v4 : (s.slot .fdist).valid = true := rfl
  simp only [State.tblStatus, h3, h4, v3, v4]
  refine ⟨?_, ?_, ?_⟩
  · repeat rw [BitVec.extractLsb'_append_eq_of_le (by decide)]
    refine BitVec.eq_of_getLsbD_eq fun k hk => ?_
    simp only [BitVec.getLsbD_extractLsb', BitVec.getLsbD_append]
    interval_cases k <;> simp
  · repeat rw [BitVec.extractLsb'_append_eq_of_le (by decide)]
    exact BitVec.extractLsb'_append_eq_right
  · repeat rw [BitVec.extractLsb'_append_eq_of_le (by decide)]
    exact BitVec.extractLsb'_append_eq_right

/-- Settles O14, by the register. -/
theorem registerWrites : Obligations.RegisterWrites := by
  unfold Obligations.RegisterWrites
  intro registers
  refine ⟨fun s off r he hr => hostStep_regRead_mapped he hr, fun s r => ?_, fun s off r v _ he hr => ?_, tblStatus_fixed⟩
  · cases r with
    | config => cases h : s.config.crcMode <;> simp only [State.readReg, ConfigReg.word, CrcMode.bits, h] <;> rfl
    | errCode => exact setWidth_byte _
    | chunkClass => cases h : s.chunkClass <;> simp only [State.readReg, ChunkClass.number, h] <;> rfl
    | hdrFmt => exact hdrFmt_bytes s
    | hdrInterlace => exact setWidth_byte _
    | _ => rfl
  · refine ⟨_, hostStep_regWrite_mapped he hr v, ?_, fun hc q hq => readReg_writeReg_other s v hc hq⟩
    cases r with
    | status => exact writeOneClear_word _ v
    | config => exact configOfWord_word v
    | hdrInterlace => exact byte_word v
    | _ => rfl

/-! ### The bits that read 0 -/

/-- The reserved bits of STATUS, CONFIG, ERR_CODE, BLOCK, DYN, ZHDR, TBL_STATUS, CHUNK_CLASS and HDR_INTERLACE read 0:
below them lie the fields of the register, which are dropped first (R24 to R56). -/
theorem reservedBits_zero (s : State) :
    (s.readReg .status).extractLsb' 7 25 = 0 ∧ (s.readReg .config).extractLsb' 5 27 = 0 ∧
    (s.readReg .errCode).extractLsb' 8 24 = 0 ∧ (s.readReg .block).extractLsb' 3 13 = 0 ∧
    (s.readReg .dyn).extractLsb' 20 12 = 0 ∧ (s.readReg .zhdr).extractLsb' 16 16 = 0 ∧
    (s.readReg .tblStatus).extractLsb' 5 3 = 0 ∧ (s.readReg .tblStatus).extractLsb' 28 4 = 0 ∧
    (s.readReg .chunkClass).extractLsb' 3 29 = 0 ∧ (s.readReg .hdrInterlace).extractLsb' 8 24 = 0 := by
  simp only [State.readReg, Status.word, ConfigReg.word, ErrCode.word, BlockReg.word, DynReg.word, ZhdrReg.word, State.tblStatus,
    setWidth_byte]
  refine ⟨?status, ?config, BitVec.extractLsb'_append_eq_left, ?block, ?dyn, ?zhdr, ?slots, ?tblTop, ?chunkClass,
    BitVec.extractLsb'_append_eq_left⟩
  case chunkClass => cases s.chunkClass <;> rfl
  all_goals repeat rw [BitVec.extractLsb'_append_eq_of_le (by decide)]
  case block => exact BitVec.extractLsb'_append_eq_right
  case slots => exact BitVec.extractLsb'_append_eq_right
  all_goals rfl

/-- Settles O15: reserved offsets, then reserved bits, then accesses the port refuses. -/
theorem reservedAccess : Obligations.ReservedAccess := by
  refine ⟨fun s off v he h4 hr => ?_, reservedBits_zero, fun s off h4 => ⟨if_pos h4, fun v => if_pos h4⟩, fun s off => rfl⟩
  have hn := ofOffset_reserved hr
  rw [hostStep_regWrite h4, hostRegWrite_reserved he hn, hostStep_regRead h4, hostRegRead_reserved he hn]
  exact ⟨rfl, _, rfl, rfl, rfl⟩

end Sys2Proof.Machine
end

