-- ==== Sys2Proof/Proofs/Formats.lean ====
section
/-! SUPPORT. Which words are which command: the word of each format by its fields, and the decoder by the encoder
(30_encoding.md R101 to R113). -/

namespace Sys2Proof.Machine

/-! ### Fields of a word -/

/-- Two adjacent fields, read as one. -/
theorem extractLsb'_eq_append_iff {k m n start : Nat} {w : BitVec k} {a : BitVec m} {b : BitVec n} :
    w.extractLsb' start (m + n) = a ++ b ↔ w.extractLsb' (start + n) m = a ∧ w.extractLsb' start n = b := by
  rw [← BitVec.extractLsb'_append_extractLsb'_eq_extractLsb' rfl]
  constructor
  · intro h
    exact ⟨by simpa only [BitVec.extractLsb'_append_eq_left] using congrArg (·.extractLsb' n m) h,
      by simpa only [BitVec.extractLsb'_append_eq_right] using congrArg (·.extractLsb' 0 n) h⟩
  · rintro ⟨rfl, rfl⟩
    rfl

/-- Operand bits that are one field: the field's bits, and the reserved bits above them 0. -/
theorem operandBits_eq_setWidth_iff {w : Word} {k m : Nat} (x : BitVec k) (hk : m + k = 24) :
    w.extractLsb' 8 24 = x.setWidth 24 ↔ w.extractLsb' (8 + k) m = 0 ∧ w.extractLsb' 8 k = x := by
  have hx : x.setWidth (m + k) = 0#m ++ x := by
    rw [BitVec.setWidth_eq_append (Nat.le_add_left k m)]
    ext j hj
    simp [BitVec.getElem_append]
  rw [← hk, hx]
  exact extractLsb'_eq_append_iff

/-- A word is a command's exactly when its opcode and its operand bits are (R100, R101). -/
theorem encode_eq_iff {i : Instr} {w : Word} :
    encode i = w ↔ w.extractLsb' 0 8 = i.opcode ∧ w.extractLsb' 8 24 = i.operandBits := by
  constructor
  · rintro rfl
    exact ⟨encode_opcode i, encode_operandBits i⟩
  · rintro ⟨ho, hb⟩
    exact word_ext ((encode_opcode i).trans ho.symm) ((encode_operandBits i).trans hb.symm)

/-! ### The word of each format -/

section Formats

variable {w : Word}

/-- Format NB (R103). -/
theorem encode_bcNextN_iff {n : BitVec 6} : encode (.bcNextN n) = w ↔
    w.extractLsb' 0 8 = 0x03 ∧ w.extractLsb' 14 18 = 0 ∧ w.extractLsb' 8 6 = n :=
  encode_eq_iff.trans (and_congr_right' (operandBits_eq_setWidth_iff n rfl))

/-- Format T (R104). -/
theorem encode_htDecode_iff {t : TableId} : encode (.htDecode t) = w ↔
    w.extractLsb' 0 8 = 0x11 ∧ w.extractLsb' 11 21 = 0 ∧ w.extractLsb' 8 3 = BitVec.ofNat 3 t.number := by
  have ht : (Instr.htDecode t).operandBits = (BitVec.ofNat 3 t.number).setWidth 24 := by cases t <;> rfl
  rw [encode_eq_iff, ht, operandBits_eq_setWidth_iff (m := 21) _ rfl]
  rfl

/-- Format BLD (R105). -/
theorem encode_htBuild_iff {t : BuildTarget} {maxsym base : BitVec 9} : encode (.htBuild t maxsym base) = w ↔
    w.extractLsb' 0 8 = 0x10 ∧ w.extractLsb' 28 4 = 0 ∧ w.extractLsb' 8 2 = BitVec.ofNat 2 t.table.number ∧
    w.extractLsb' 10 9 = maxsym ∧ w.extractLsb' 19 9 = base := by
  have ht : BitVec.ofNat 24 t.table.number = (BitVec.ofNat 2 t.table.number).setWidth 24 := by cases t <;> rfl
  have hb : (Instr.htBuild t maxsym base).operandBits = (base ++ maxsym ++ BitVec.ofNat 2 t.table.number).setWidth 24 := by
    rw [BitVec.setWidth_append_append_eq_shiftLeft_setWidth_or, ← ht]
    rfl
  rw [encode_eq_iff, hb, operandBits_eq_setWidth_iff (m := 4) _ rfl, extractLsb'_eq_append_iff, extractLsb'_eq_append_iff]
  exact and_congr_right' (and_congr_right'
    ⟨fun ⟨⟨hbase, hmax⟩, ht2⟩ => ⟨ht2, hmax, hbase⟩, fun ⟨ht2, hmax, hbase⟩ => ⟨⟨hbase, hmax⟩, ht2⟩⟩)

/-- Format BY (R107). -/
theorem encode_lzLiteral_iff {b : BitVec 8} : encode (.lzLiteral b) = w ↔
    w.extractLsb' 0 8 = 0x20 ∧ w.extractLsb' 16 16 = 0 ∧ w.extractLsb' 8 8 = b :=
  encode_eq_iff.trans (and_congr_right' (operandBits_eq_setWidth_iff b rfl))

/-- Format CP (R108). -/
theorem encode_lzCopy_iff {l3 : BitVec 8} {d1 : BitVec 15} : encode (.lzCopy l3 d1) = w ↔
    w.extractLsb' 0 8 = 0x21 ∧ w.extractLsb' 31 1 = 0 ∧ w.extractLsb' 8 8 = l3 ∧ w.extractLsb' 16 15 = d1 := by
  have hb : (Instr.lzCopy l3 d1).operandBits = (d1 ++ l3).setWidth 24 :=
    BitVec.setWidth_append_eq_shiftLeft_setWidth_or.symm
  rw [encode_eq_iff, hb, operandBits_eq_setWidth_iff (m := 1) _ rfl, extractLsb'_eq_append_iff,
    and_comm (b := w.extractLsb' 8 8 = l3)]
  rfl

/-- Format SY of LZ_LENGTH (R109). -/
theorem encode_lzLength_iff {sym : BitVec 5} : encode (.lzLength sym) = w ↔
    w.extractLsb' 0 8 = 0x22 ∧ w.extractLsb' 13 19 = 0 ∧ w.extractLsb' 8 5 = sym :=
  encode_eq_iff.trans (and_congr_right' (operandBits_eq_setWidth_iff sym rfl))

/-- Format SY of LZ_DIST (R109). -/
theorem encode_lzDist_iff {sym : BitVec 5} : encode (.lzDist sym) = w ↔
    w.extractLsb' 0 8 = 0x23 ∧ w.extractLsb' 13 19 = 0 ∧ w.extractLsb' 8 5 = sym :=
  encode_eq_iff.trans (and_congr_right' (operandBits_eq_setWidth_iff sym rfl))

/-- Format FX (R109). -/
theorem encode_lzBlockData_iff {fixed : Bool} : encode (.lzBlockData fixed) = w ↔
    w.extractLsb' 0 8 = 0x24 ∧ w.extractLsb' 9 23 = 0 ∧ w.getLsbD 8 = fixed := by
  have hf : w.extractLsb' 8 1 = BitVec.ofBool fixed ↔ w.getLsbD 8 = fixed := by
    rw [BitVec.getLsbD_eq_extractLsb']
    generalize w.extractLsb' 8 1 = x
    revert x fixed
    decide
  rw [← hf]
  exact encode_eq_iff.trans (and_congr_right' (operandBits_eq_setWidth_iff _ rfl))

/-! ### A word that decodes is the word of its command -/

variable {i j : Instr}

theorem decodeN_word (h : decodeN w i = .ok j) (hi : i.operandBits = 0) (ho : w.extractLsb' 0 8 = i.opcode) :
    encode j = w := by
  unfold decodeN at h
  split at h <;> cases h
  exact encode_eq_iff.2 ⟨ho, (‹w.extractLsb' 8 24 = 0›).trans hi.symm⟩

theorem decodeNB_word (h : decodeNB w = .ok i) (ho : w.extractLsb' 0 8 = 0x03) : encode i = w := by
  unfold decodeNB at h
  split at h
  · split at h <;> cases h
    exact encode_bcNextN_iff.2 ⟨ho, ‹_›, rfl⟩
  · cases h

theorem tableOfNumber_eq_some {n : BitVec 3} {t : TableId} (h : tableOfNumber n.toNat = some t) :
    n = BitVec.ofNat 3 t.number := by
  revert n t
  decide

theorem targetOfNumber_eq_some {n : BitVec 2} {t : BuildTarget} (h : targetOfNumber n.toNat = some t) :
    n = BitVec.ofNat 2 t.table.number := by
  revert n t
  decide

theorem decodeT_word (h : decodeT w = .ok i) (ho : w.extractLsb' 0 8 = 0x11) : encode i = w := by
  unfold decodeT at h
  split at h
  · split at h <;> cases h
    exact encode_htDecode_iff.2 ⟨ho, ‹_›, tableOfNumber_eq_some ‹_›⟩
  · cases h

theorem decodeBLD_word (h : decodeBLD w = .ok i) (ho : w.extractLsb' 0 8 = 0x10) : encode i = w := by
  unfold decodeBLD at h
  split at h
  · split at h
    · split at h <;> cases h
      exact encode_htBuild_iff.2 ⟨ho, ‹_›, targetOfNumber_eq_some ‹_›, rfl, rfl⟩
    · cases h
  · cases h

theorem decodeBY_word (h : decodeBY w = .ok i) (ho : w.extractLsb' 0 8 = 0x20) : encode i = w := by
  unfold decodeBY at h
  split at h <;> cases h
  exact encode_lzLiteral_iff.2 ⟨ho, ‹_›, rfl⟩

theorem decodeCP_word (h : decodeCP w = .ok i) (ho : w.extractLsb' 0 8 = 0x21) : encode i = w := by
  unfold decodeCP at h
  split at h <;> cases h
  exact encode_lzCopy_iff.2 ⟨ho, ‹_›, rfl, rfl⟩

theorem decodeLength_word (h : decodeLength w = .ok i) (ho : w.extractLsb' 0 8 = 0x22) : encode i = w := by
  unfold decodeLength at h
  split at h
  · split at h <;> cases h
    exact encode_lzLength_iff.2 ⟨ho, ‹_›, rfl⟩
  · cases h

theorem decodeDist_word (h : decodeDist w = .ok i) (ho : w.extractLsb' 0 8 = 0x23) : encode i = w := by
  unfold decodeDist at h
  split at h <;> cases h
  exact encode_lzDist_iff.2 ⟨ho, ‹_›, rfl⟩

theorem decodeFX_word (h : decodeFX w = .ok i) (ho : w.extractLsb' 0 8 = 0x24) : encode i = w := by
  unfold decodeFX at h
  split at h <;> cases h
  exact encode_lzBlockData_iff.2 ⟨ho, ‹_›, rfl⟩

/-- A word that decodes is the word of the command it decodes to (R100, R101, R112). -/
theorem encode_of_decode (h : decode w = .ok i) : encode i = w := by
  unfold decode at h
  split at h
  case h_4 ho => exact decodeNB_word h (BitVec.eq_of_toNat_eq ho)
  case h_6 ho => exact decodeBLD_word h (BitVec.eq_of_toNat_eq ho)
  case h_7 ho => exact decodeT_word h (BitVec.eq_of_toNat_eq ho)
  case h_8 ho => exact decodeBY_word h (BitVec.eq_of_toNat_eq ho)
  case h_9 ho => exact decodeCP_word h (BitVec.eq_of_toNat_eq ho)
  case h_10 ho => exact decodeLength_word h (BitVec.eq_of_toNat_eq ho)
  case h_11 ho => exact decodeDist_word h (BitVec.eq_of_toNat_eq ho)
  case h_12 ho => exact decodeFX_word h (BitVec.eq_of_toNat_eq ho)
  case h_27 => cases h
  all_goals
    rename_i ho
    exact decodeN_word h rfl (BitVec.eq_of_toNat_eq ho)

/-- The decoder by the encoder: a word decodes to the well-formed command it is the word of (R112). -/
theorem decode_ok_iff : decode w = .ok i ↔ encode i = w ∧ i.wf = true := by
  constructor
  · exact fun h => ⟨encode_of_decode h, decode_wf h⟩
  · rintro ⟨rfl, h⟩
    exact decode_encode i h

/-- Where the operands are legal, the words that decode to the command are its words. -/
theorem decode_ok_iff_of_wf (hi : i.wf = true) : decode w = .ok i ↔ encode i = w :=
  decode_ok_iff.trans (and_iff_left hi)

/-- A command without operands has one word (R102). -/
theorem decode_ok_iff_eq {v : Word} (hi : i.wf = true) (hv : encode i = v) : decode w = .ok i ↔ w = v := by
  rw [decode_ok_iff_of_wf hi, hv, eq_comm]

end Formats

/-- Settles O1, by the command. -/
theorem decodeEncodeAgree : Obligations.DecodeEncodeAgree := decode_encode

/-- Settles O2: the decoder is a function, so the word of another command cannot decode to this one. -/
theorem decodedWordIsEncoding : Obligations.DecodedWordIsEncoding := by
  intro w i h
  refine ⟨decode_wf h, encode_of_decode h, fun j hj hw => ?_⟩
  have hd : decode w = .ok j := decode_ok_iff.2 ⟨hw, hj⟩
  exact Except.ok.inj (hd.symm.trans h)

/-- Settles O3, format by format: the words of the format, then its bounds. -/
theorem formatsExact : Obligations.FormatsExact := by
  refine ⟨fun w => ?n, fun w n => ?nb, fun w t => ?t, fun w t maxsym base => ?bld, fun w b => ?byte, fun w l3 d1 => ?cp,
    fun w sym => ?length, fun w sym => ?dist, fun w fixed => ?fx⟩
  case n => and_intros <;> exact decode_ok_iff_eq rfl rfl
  case nb => simp only [decode_ok_iff, encode_bcNextN_iff, Instr.wf, decide_eq_true_eq, and_assoc]
  case t => cases t <;> exact (decode_ok_iff_of_wf rfl).trans encode_htDecode_iff
  case bld =>
    rw [decode_ok_iff, encode_htBuild_iff]
    cases t <;>
    · simp only [Instr.wf, BuildTarget.legalBuild, Bool.and_eq_true, decide_eq_true_eq, and_assoc]
      rfl
  case byte => exact (decode_ok_iff_of_wf rfl).trans encode_lzLiteral_iff
  case cp => exact (decode_ok_iff_of_wf rfl).trans encode_lzCopy_iff
  case length => simp only [decode_ok_iff, encode_lzLength_iff, Instr.wf, decide_eq_true_eq, and_assoc]
  case dist => exact (decode_ok_iff_of_wf rfl).trans encode_lzDist_iff
  case fx => exact (decode_ok_iff_of_wf rfl).trans encode_lzBlockData_iff

/-! ### Words that are no command -/

theorem illegalCommand_eq (w : Word) (s : State) :
    illegalCommand w s = .next (s.errorEntry ⟨.illegalCommand, w⟩) := by
  have hr : (raise .illegalCommand w.toNat : Act Unit) s = .error ⟨.illegalCommand, w⟩ s := by
    rw [raise_apply, BitVec.ofNat_toNat, BitVec.setWidth_eq]
  exact runCommand_error hr

/-- A BUSY engine whose word is no command raises IllegalCommand (60_exceptions.md R278). -/
theorem engineStep_illegal {s : State} {w : Word} {e : DecodeError} (he : s.eng = .busy w) (hd : decode w = .error e) :
    engineStep s = .next (s.errorEntry ⟨.illegalCommand, w⟩) := by
  simp only [engineStep, he, hd, illegalCommand_eq]

/-- Settles O5: by the opcode of each command, then by what the decoder answers. -/
theorem illegalWordRaises : Obligations.IllegalWordRaises := by
  refine ⟨?_, fun s w ha he hw => ?_⟩
  · rintro _ hb i rfl
    cases i <;> simp [Instr.opcode] at hb
  · rw [step_emptyAgenda ha]
    cases hd : decode w with
    | ok i => exact absurd (encode_of_decode hd) (hw i (decode_wf hd))
    | error e => exact engineStep_illegal he hd

end Sys2Proof.Machine
end

