-- ==== Sys2Proof/Proofs/Checksums.lean ====
section
/-! SUPPORT. The byte order of be32 and be4, and the two checksums one byte at a time (20_memory.md R79,
40_tables_and_checksums.md R136, R137). -/

namespace Sys2Proof.Machine

/-! ### Byte order -/

theorem toNat_append_eq_add {m n : Nat} (x : BitVec m) (y : BitVec n) : (x ++ y).toNat = 2 ^ n * x.toNat + y.toNat := by
  rw [BitVec.toNat_append, ← Nat.shiftLeft_add_eq_or_of_lt y.isLt, Nat.shiftLeft_eq, Nat.mul_comm]

/-- The first byte is the most significant (R79). -/
theorem be32_toNat (a b c d : Byte) :
    (be32 a b c d).toNat = 2 ^ 24 * a.toNat + 2 ^ 16 * b.toNat + 2 ^ 8 * c.toNat + d.toNat := by
  have h : (be32 a b c d).toNat = 2 ^ 8 * (2 ^ 8 * (2 ^ 8 * a.toNat + b.toNat) + c.toNat) + d.toNat := by
    simp only [← toNat_append_eq_add]
    rfl
  omega

theorem be4_be32 (a b c d : Byte) : be4 (be32 a b c d) = [a, b, c, d] := by
  have h : (be32 a b c d).extractLsb' 0 32 = a ++ b ++ c ++ d := BitVec.extractLsb'_eq_self
  obtain ⟨habc, hd⟩ := (extractLsb'_eq_append_iff (a := a ++ b ++ c) (b := d)).1 h
  obtain ⟨hab, hc⟩ := extractLsb'_eq_append_iff.1 habc
  obtain ⟨ha, hb⟩ := extractLsb'_eq_append_iff.1 hab
  unfold be4
  rw [ha, hb, hc, hd]

/-! ### CRC-32 -/

/-- The CRC before its final complement (R136). -/
theorem crc32_eq_not (b : List Byte) : crc32 b = ~~~(b.foldl crcByte 0xFFFFFFFF) := BitVec.xor_allOnes

/-- One more byte: the complement taken off, the byte xored in, eight bits, the complement put on (R136). -/
theorem crc32_concat (b : List Byte) (x : Byte) :
    crc32 (b ++ [x]) = ~~~(Nat.repeat crcBit 8 (~~~(crc32 b) ^^^ x.setWidth 32)) := by
  rw [crc32_eq_not, crc32_eq_not, List.foldl_concat, BitVec.not_not]
  rfl

/-! ### Adler-32 -/

/-- The sums a and b of a byte sequence (R137). -/
def adlerSums (b : List Byte) : Nat × Nat := b.foldl adlerByte (1, 0)

/-- Both sums are kept modulo 65521 (R137). -/
theorem adlerSums_lt (b : List Byte) : (adlerSums b).1 < 65521 ∧ (adlerSums b).2 < 65521 := by
  induction b using List.reverseRecOn with
  | nil => decide
  | append_singleton b x _ =>
    rw [adlerSums, List.foldl_concat]
    exact ⟨Nat.mod_lt _ (by decide), Nat.mod_lt _ (by decide)⟩

theorem adler32_toNat (b : List Byte) : (adler32 b).toNat = (adlerSums b).2 * 65536 + (adlerSums b).1 := by
  obtain ⟨h1, h2⟩ := adlerSums_lt b
  unfold adler32
  exact Nat.mod_eq_of_lt (show (adlerSums b).2 * 65536 + (adlerSums b).1 < 2 ^ 32 by omega)

/-- The low and the high half of the Adler-32 are the two sums (R137). -/
theorem adler32_halves (b : List Byte) :
    (adler32 b).toNat % 65536 = (adlerSums b).1 ∧ (adler32 b).toNat / 65536 = (adlerSums b).2 := by
  obtain ⟨h1, -⟩ := adlerSums_lt b
  rw [adler32_toNat]
  omega

/-- One more byte, by the two sums (R137). -/
theorem adler32_concat (b : List Byte) (x : Byte) :
    (adler32 (b ++ [x])).toNat =
      ((adlerSums b).2 + ((adlerSums b).1 + x.toNat) % 65521) % 65521 * 65536 + ((adlerSums b).1 + x.toNat) % 65521 := by
  rw [adler32_toNat, adlerSums, List.foldl_concat]
  rfl

/-- Settles O4: the example words, the byte order, then each checksum byte by byte and by its check values. -/
theorem sanityWords : Obligations.SanityWords := by
  iterate 11 refine ⟨by decide, ?_⟩
  refine ⟨fun a b c d => ⟨be32_toNat a b c d, be4_be32 a b c d⟩, crc32_concat, by decide, by decide +kernel,
    by decide +kernel, fun b x => ?_, by decide, by decide⟩
  obtain ⟨hlow, hhigh⟩ := adler32_halves b
  simp only [hlow, hhigh]
  exact adler32_concat b x

end Sys2Proof.Machine
end

