-- ==== Sys2Proof/Proofs/FixedTables.lean ====
section
/-! SUPPORT. The codes of the fixed tables, and that a complete code always finds a symbol
(40_tables_and_checksums.md R134, R135, 42_huffman.md R173, R176, R179). -/

namespace Sys2Proof.Machine

/-! ### Codes of a run of equal lengths -/

/-- A used symbol has its length's first code plus the number of earlier symbols of its length (R173). -/
theorem codesOf_of_getElem? {lens : List Nibble} {x : Nat} {v : Nibble} (hx : lens[x]? = some v) (hv : v ≠ 0) :
    (codesOf lens)[x]? = some (v.toNat, nextCode lens v.toNat + (lens.take x).countP fun l => l = v) := by
  have hd : lens.getD x 0 = v := by rw [List.getD_eq_getElem?_getD, hx, Option.getD_some]
  rw [codesOf_getElem? lens (List.getElem?_eq_some_iff.mp hx).1, hd, if_neg hv]

/-- Within a run of symbols of one length the codes count up by one (R173). -/
theorem codesOf_run {lens pre : List Nibble} {n i : Nat} {v : Nibble} (h : pre ++ List.replicate n v <+: lens)
    (hv : v ≠ 0) (hi : i < n) :
    (codesOf lens)[pre.length + i]? = some (v.toNat, nextCode lens v.toNat + (pre.countP (fun l => l = v) + i)) := by
  obtain ⟨post, rfl⟩ := h
  rw [List.append_assoc]
  have hx : (pre ++ (List.replicate n v ++ post))[pre.length + i]? = some v := by
    rw [List.getElem?_append_right (by omega), List.getElem?_append_left (by simp; omega)]
    simp [hi]
  have hrank : ((pre ++ (List.replicate n v ++ post)).take (pre.length + i)).countP (fun l => l = v) =
      pre.countP (fun l => l = v) + i := by
    rw [List.take_length_add_append, List.countP_append, List.take_append_of_le_length (by simpa using hi.le)]
    simp [List.countP_replicate, hi.le]
  rw [codesOf_of_getElem? hx hv, hrank]

/-! ### The codes of the fixed tables -/

/-- The first codes of the fixed literal/length table (R171, R134). -/
theorem nextCode_fixedLL :
    nextCode fixedLLLens 7 = 0 ∧ nextCode fixedLLLens 8 = 0x30 ∧ nextCode fixedLLLens 9 = 0x190 := by decide +kernel

/-- The codes of the fixed literal/length table, run by run (R134, R179). -/
theorem codesOf_fixedLL {x : Nat} (hx : x < 288) : (codesOf fixedLLLens)[x]? = some
    (if x < 144 then (8, 0x30 + x) else if x < 256 then (9, 0x190 + (x - 144))
      else if x < 280 then (7, x - 256) else (8, 0xC0 + (x - 280))) := by
  obtain ⟨h7, h8, h9⟩ := nextCode_fixedLL
  have run1 : List.replicate 144 8 <+: List.replicate 144 8 ++ List.replicate 112 (9 : Nibble) := List.prefix_append _ _
  have run2 := List.prefix_append (List.replicate 144 8 ++ List.replicate 112 9) (List.replicate 24 (7 : Nibble))
  have run3 : _ <+: fixedLLLens := List.prefix_append _ _
  split
  · have h := codesOf_run (pre := []) (n := 144) (v := 8) (run1.trans (run2.trans run3)) (by decide) ‹x < 144›
    simpa [h8] using h
  split
  · have h := codesOf_run (run2.trans run3) (by decide) (show x - 144 < 112 by omega)
    simpa [h9, List.countP_replicate, -List.reduceReplicate, show 144 + (x - 144) = x by omega] using h
  split
  · have h := codesOf_run run3 (by decide) (show x - 256 < 24 by omega)
    simpa [h7, List.countP_replicate, -List.reduceReplicate, show 256 + (x - 256) = x by omega] using h
  · have h := codesOf_run (List.prefix_rfl (l := fixedLLLens)) (by decide) (show x - 280 < 8 by omega)
    simpa [h8, List.countP_replicate, -List.reduceReplicate, ← Nat.add_assoc, show 280 + (x - 280) = x by omega] using h

/-- The codes of the fixed distance table are one run from code 0 (R135, R179). -/
theorem codesOf_fixedDist {x : Nat} (hx : x < 32) : (codesOf fixedDistLens)[x]? = some (5, x) := by
  have h5 : nextCode fixedDistLens 5 = 0 := by decide
  have h := codesOf_run (pre := []) (n := 32) (v := 5) (List.prefix_rfl (l := fixedDistLens)) (by decide) hx
  simpa [h5] using h

/-! ### Complete codes -/

/-- A length list whose codes use up every bit string of the largest length. -/
def CompleteCode (lens : List Nibble) : Prop :=
  nextCode lens (maxCodeLen lens) + lenCount lens (maxCodeLen lens) = 2 ^ maxCodeLen lens

theorem fixedLL_complete : CompleteCode fixedLLLens := by
  unfold CompleteCode
  rw [maxCodeLen_fixed.1, nextCode_fixedLL.2.2]
  decide +kernel

theorem fixedDist_complete : CompleteCode fixedDistLens := by
  unfold CompleteCode
  rw [maxCodeLen_fixed.2]
  decide

/-- Every code among those of a length is the code of a symbol (R173). -/
theorem exists_codesOf {lens : List Nibble} {L c : Nat} (hL : L ≠ 0) (h1 : nextCode lens L ≤ c)
    (h2 : c < nextCode lens L + lenCount lens L) : ∃ x : Nat, (codesOf lens)[x]? = some (L, c) := by
  have hc : lenCount lens L = lens.countP fun l => l.toNat = L := if_neg hL
  obtain ⟨v, -, rfl⟩ : ∃ v ∈ lens, v.toNat = L := by
    simpa using List.countP_pos_iff.1 (show 0 < lens.countP fun l => l.toNat = L by omega)
  have hr : c - nextCode lens v.toNat < lens.countP fun l => l = v := by
    rw [← lenCount_eq_countP hL rfl]
    omega
  have hlt := List.findIdxNth_lt_length_of_lt_countP hr
  have hx := List.getElem?_eq_some_iff.2 ⟨hlt, by simpa using List.pos_findIdxNth_getElem (h := hlt)⟩
  have h := codesOf_of_getElem? hx fun h0 => hL (by simp [h0])
  rw [← List.countPBefore_eq_countP_take, List.countPBefore_findIdxNth_of_lt_countP hr, Nat.add_sub_cancel' h1] at h
  exact ⟨_, h⟩

/-- Bits that lie past the codes of length L and, with one bit more, are no code of length L + 1 lie past those too
(R171, R176). -/
theorem past_codes_of_no_match {lens : List Nibble} {L : Nat} {s : State} {p : Nat}
    (h : nextCode lens L + lenCount lens L ≤ s.codeBits p L)
    (hn : symbolOf (codesOf lens) (L + 1) (s.codeBits p (L + 1)) = none) :
    nextCode lens (L + 1) + lenCount lens (L + 1) ≤ s.codeBits p (L + 1) := by
  have hfirst : nextCode lens (L + 1) ≤ s.codeBits p (L + 1) := by
    rw [State.codeBits]
    rcases Nat.eq_zero_or_pos L with rfl | hL
    · exact Nat.zero_le _
    · rw [nextCode_succ lens hL]
      omega
  by_contra hlt
  obtain ⟨x, hx⟩ := exists_codesOf (by omega) hfirst (by omega)
  rw [symbolOf_codesOf hx (by omega)] at hn
  cases hn

/-- With a complete code the loop of Decode raises only for want of data (R179). -/
theorem decodeLoop_complete (t : TableId) {lens : List Nibble} (hc : CompleteCode lens) {s : State} {p : Nat}
    (hb : s.bufLen ≤ 2 ^ 28) (hp : p ≤ 2 ^ 31) {r : Raise} {u : State} (k : Nat) :
    ∀ L, L + k = maxCodeLen lens → nextCode lens L + lenCount lens L ≤ s.codeBits p L →
      decodeLoop t (codesOf lens) k L (s.codeBits p L) (s.setBitPos (p + L)) = .error r u → r = ⟨.outOfData, 1⟩ := by
  induction k with
  | zero =>
    intro L hL hpast _
    obtain rfl : L = maxCodeLen lens := hL
    exact absurd (hc ▸ hpast) (Nat.not_le.2 (s.codeBits_lt p _))
  | succ k ih =>
    intro L hL hpast h
    by_cases hin : p + L < 8 * s.bufLen
    · rw [decodeLoop_step t _ k hb hin] at h
      cases hs : symbolOf (codesOf lens) (L + 1) (s.codeBits p (L + 1)) with
      | some x =>
        rw [hs] at h
        cases h
      | none =>
        rw [hs] at h
        exact ih (L + 1) (by omega) (past_codes_of_no_match hpast hs) h
    · have hpos : (s.setBitPos (p + L)).bitPos.toNat = p + L :=
        State.bitPos_setBitPos (by have := maxCodeLen_lt lens; omega)
      rw [decodeLoop, bind_apply, readBit_error (by rw [hpos, State.bufLen_setBitPos]; omega)] at h
      cases h
      rfl

/-- A Decode with a valid complete table raises only OutOfData(1) (R179). -/
theorem decodeSymbol_complete {t : TableId} {s u : State} {r : Raise} (hs : s.Inv) (hv : (s.slot t).valid = true)
    (hc : CompleteCode (s.slot t).lens) (h : decodeSymbol t s = .error r u) : r = ⟨.outOfData, 1⟩ := by
  rw [decodeSymbol_valid hv] at h
  exact decodeLoop_complete t hc hs.bufLen_le hs.bitPos _ 0 (Nat.zero_add _) (Nat.zero_le _) h

/-! ### HT_DECODE -/

/-- HT_DECODE of a symbol: the symbol in RESULT (R178). -/
theorem exec_htDecode_ok {t : TableId} {s u : State} {x : Nat} (h : decodeSymbol t s = .ok x u) :
    exec (.htDecode t) s = .next { u with result := BitVec.ofNat 32 x }.complete :=
  runCommand_ok (by rw [bind_apply, h]; rfl)

/-- HT_DECODE passes on what Decode raises (R178). -/
theorem exec_htDecode_error {t : TableId} {s u : State} {r : Raise} (h : decodeSymbol t s = .error r u) :
    exec (.htDecode t) s = .next (u.errorEntry r) :=
  runCommand_error (by rw [bind_apply, h])

/-- HT_DECODE with a valid complete table: no error but the one before it, or OutOfData. -/
theorem exec_htDecode_complete {k : TableId} {s t : State} (hs : s.Inv) (hv : (s.slot k).valid = true)
    (hc : CompleteCode (s.slot k).lens) (h : exec (.htDecode k) s = .next t) :
    t.errCode = s.errCode ∨ t.errCode = .outOfData := by
  cases hd : decodeSymbol k s with
  | ok x u =>
    obtain ⟨l, -, -, -, rfl, -⟩ := decodeSymbol_inv hs.bufLen_le hd
    rw [exec_htDecode_ok hd] at h
    cases h
    exact .inl rfl
  | error r u =>
    rw [exec_htDecode_error hd] at h
    cases h
    exact .inr (congrArg Raise.code (decodeSymbol_complete hs hv hc hd))

/-- Settles O25: the codes run by run, and both fixed tables are complete. -/
theorem fixedCodes : Obligations.FixedCodes := by
  refine ⟨fun x hx => codesOf_fixedLL hx, fun x hx => codesOf_fixedDist hx, fun s t k hs hk he h => ?_⟩
  rw [← he]
  rcases hk with rfl | rfl
  · exact exec_htDecode_complete (k := .fll) hs rfl fixedLL_complete h
  · exact exec_htDecode_complete (k := .fdist) hs rfl fixedDist_complete h

end Sys2Proof.Machine
end

