-- ==== Sys2Proof/Proofs/BitCursor.lean ====
section
/-! SUPPORT. What the cursor's commands leave: the bits read in RESULT, the cursor moved, and their frame
(41_bitcursor.md R150 to R157). -/

namespace Sys2Proof.Machine

/-! ### The bits of the buffer -/

/-- A bit of the buffer as a number (20_memory.md R77). -/
theorem State.bufBit_toNat (s : State) (p : Nat) :
    (s.bufBit p).toNat = (s.peek s.bufSpace (p / 8)).toNat / 2 ^ (p % 8) % 2 := Nat.toNat_testBit _ _

/-- Bit k of the value of n bits from bit p is the k-th bit read (R151). -/
theorem State.testBit_bitsFrom (s : State) (n : Nat) :
    ∀ p k, (s.bitsFrom p n).testBit k = (decide (k < n) && s.bufBit (p + k)) := by
  induction n with
  | zero => simp [State.bitsFrom]
  | succ n ih =>
    intro p k
    have hb : (s.bufBit p).toNat < 2 := Bool.toNat_lt _
    rw [State.bitsFrom]
    cases k with
    | zero =>
      rw [Nat.testBit_zero]
      cases s.bufBit p <;> simp
    | succ k =>
      have hrest : ((s.bufBit p).toNat + 2 * s.bitsFrom (p + 1) n) / 2 = s.bitsFrom (p + 1) n := by omega
      rw [Nat.testBit_succ, hrest, ih, Nat.add_assoc, Nat.add_comm 1 k]
      simp

/-- The buffer is CAT where SRCSEL is set, SRC where it is not (20_memory.md R74). -/
theorem State.buffer_eq (s : State) :
    (s.config.srcSel = false → s.bufSpace = .src ∧ s.bufLen = s.srcLen.toNat) ∧
    (s.config.srcSel = true → s.bufSpace = .cat ∧ s.bufLen = s.catLen.toNat) := by
  unfold State.bufSpace State.bufLen
  constructor <;>
  · intro h
    rw [h]
    exact ⟨rfl, rfl⟩

/-! ### What the commands answer -/

/-- A body that ends by putting the value it read in RESULT. -/
theorem runCommand_setResult_ok {α : Type} {x : Act α} {f : α → Nat} {s u : State} {a : α} (h : x s = .ok a u) :
    runCommand (do let v ← x; setResult (f v)) s = .next { u with result := BitVec.ofNat 32 (f a) }.complete :=
  runCommand_ok (by rw [bind_apply, h]; rfl)

/-- It leaves RESULT where the read raises. -/
theorem runCommand_setResult_error {α : Type} {x : Act α} {f : α → Nat} {s u : State} {r : Raise} (h : x s = .error r u) :
    runCommand (do let v ← x; setResult (f v)) s = .next (u.errorEntry r) :=
  runCommand_error (by rw [bind_apply, h])

theorem exec_nop (s : State) : exec .nop s = .next s.complete := rfl

/-- Settles O18: each of the three bodies is at most one write of BIT_POS. -/
theorem cursorMoves : Obligations.CursorMoves := by
  refine ⟨rfl, rfl, rfl, exec_nop, fun s => rfl, fun s hs => ⟨_, runCommand_ok (update_apply _ s), rfl, ?_⟩⟩
  have hbound := hs.bitPos
  have hpos : (s.setBitPos ((s.bitPos.toNat + 7) / 8 * 8)).bitPos.toNat = (s.bitPos.toNat + 7) / 8 * 8 :=
    State.bitPos_setBitPos (by omega)
  rw [State.complete_bitPos, hpos]
  exact ⟨rfl, by omega⟩

/-- Settles O19, from what ReadBit answers. -/
theorem nextBit : Obligations.NextBit := by
  refine ⟨fun s hs h => ?_, fun s h => runCommand_setResult_error (readBit_error h), State.buffer_eq⟩
  have hlen := hs.bufLen_le
  have hpos : (s.setBitPos (s.bitPos.toNat + 1)).bitPos.toNat = s.bitPos.toNat + 1 := State.bitPos_setBitPos (by omega)
  refine ⟨_, runCommand_setResult_ok (readBit_ok h), rfl, hpos, hpos.trans_le (by omega), ?_⟩
  rw [← State.bufBit_toNat]
  exact Nat.mod_eq_of_lt ((Bool.toNat_lt _).trans (by decide))

/-- Settles O20, from what ReadBits answers. -/
theorem nextN : Obligations.NextN := by
  intro s n hs _
  have hlen := hs.bufLen_le
  refine ⟨fun h => ?_, fun h => ?_⟩
  · have hpos : (s.setBitPos (s.bitPos.toNat + n.toNat)).bitPos.toNat = s.bitPos.toNat + n.toNat :=
      State.bitPos_setBitPos (by omega)
    refine ⟨_, runCommand_setResult_ok (readBits_ok hlen h), rfl, hpos, fun k hk => ?_⟩
    simp only [State.complete_result, BitVec.getLsbD_ofNat, hk, decide_true, Bool.true_and, State.testBit_bitsFrom, bitCount]
  · rw [← BitVec.ofNat_toNat]
    exact runCommand_setResult_error (readBits_error h)

/-! ### The frame -/

/-- Only BIT_POS and RESULT may differ. -/
def ResultFrame (s t : State) : Prop := t = { s with bitPos := t.bitPos, result := t.result }

theorem resultFrame_isFrame : IsFrame ResultFrame where
  refl _ := rfl
  trans s t u h1 h2 := by
    unfold ResultFrame at *
    rw [h2, h1]

theorem CursorFrame.resultFrame {s t : State} (h : CursorFrame s t) : ResultFrame s t := by
  unfold CursorFrame at h
  unfold ResultFrame
  rw [h]

/-- A body that moves the cursor alone and then puts a value in RESULT. -/
theorem Act.Keeps.setResult {α : Type} {x : Act α} {f : α → Nat} (h : Act.Keeps CursorFrame x) :
    Act.Keeps ResultFrame (do let v ← x; Machine.setResult (f v)) :=
  .bind resultFrame_isFrame (h.mono fun _ _ => CursorFrame.resultFrame) fun _ => .update fun _ => rfl

/-- What a command's body keeps holds up to the state its report is put on (60_exceptions.md R270, R272). -/
theorem exec_withReport {R : State → State → Prop} {i : Instr} {s t : State} (hk : Act.Keeps R (commandBody i))
    (h : exec i s = .next t) : ∃ u, R s u ∧ t = u.withReport t := by
  rw [exec_eq_runCommand] at h
  exact hk.finish (R' := fun s t => ∃ u, R s u ∧ t = u.withReport t) (fun _ u hu => ⟨u, hu, rfl⟩)
    (fun _ _ u hu => ⟨u, hu, rfl⟩) h

/-- A command whose body moves the cursor alone has no result. -/
theorem exec_result_of_cursorFrame {i : Instr} {s t : State} (hk : Act.Keeps CursorFrame (commandBody i))
    (h : exec i s = .next t) : t.result = s.result := by
  obtain ⟨u, hu, ht⟩ := exec_withReport hk h
  unfold CursorFrame at hu
  rw [ht, hu]
  rfl

/-- A command whose body writes BIT_POS and RESULT alone writes these and the report, and stores nothing. -/
theorem exec_frame_of_resultFrame {i : Instr} {s t : State} (hk : Act.Keeps ResultFrame (commandBody i))
    (h : exec i s = .next t) :
    t = { s.withReport t with bitPos := t.bitPos, result := t.result } ∧
      s.sameBytes t (fun _ _ => False) ∧ ∀ k, t.lensAt k = s.lensAt k := by
  obtain ⟨u, hu, ht⟩ := exec_withReport hk h
  unfold ResultFrame at hu
  have hframe : t = { s.withReport t with bitPos := t.bitPos, result := t.result } := by
    rw [ht, hu]
    rfl
  have hresets : t.resets = s.resets := by rw [hframe]; rfl
  refine ⟨hframe, fun m a _ => peek_congr ?_ hresets a, lensAt_congr ?_ hresets⟩
  · rw [hframe]
    cases m <;> rfl
  · rw [hframe]
    rfl

/-- Settles O52, by the frame of each command's body. -/
theorem cursorFrames : Obligations.CursorFrames := by
  intro i s t hi h
  have hk : Act.Keeps ResultFrame (commandBody i) := by
    rcases hi with rfl | rfl | rfl | rfl | ⟨n, rfl⟩ | ⟨k, rfl⟩ | ⟨x, rfl⟩ | ⟨x, rfl⟩
    · exact .pure resultFrame_isFrame _
    · exact .update fun _ => rfl
    · exact readBit_keeps.setResult
    · exact align_keeps.mono fun _ _ => CursorFrame.resultFrame
    · exact (readBits_keeps _).setResult
    · exact (decodeSymbol_keeps k).setResult
    · exact (lengthOf_keeps _).setResult
    · exact (distOf_keeps _).setResult
  obtain ⟨hframe, hbytes, hlens⟩ := exec_frame_of_resultFrame hk h
  refine ⟨hframe, ?nop, ?noResult, hbytes, hlens⟩
  case nop =>
    rintro rfl
    rw [exec_nop] at h
    cases h
    rfl
  case noResult =>
    rintro (rfl | rfl | rfl)
    · exact exec_result_of_cursorFrame (i := .nop) (.pure cursorFrame_isFrame _) h
    · exact exec_result_of_cursorFrame (i := .bcReset) (.update fun _ => rfl) h
    · exact exec_result_of_cursorFrame (i := .bcAlign) align_keeps h

end Sys2Proof.Machine
end

