-- ==== Sys2Proof/Proofs/Huffman.lean ====
section
/-! SUPPORT. Canonical codes by their rules, what HT_BUILD and HT_DECODE leave, and the slots in TBL_STATUS
(42_huffman.md R170 to R180, 10_state.md R44). -/

namespace Sys2Proof.Machine

/-! ### Over-subscription -/

/-- A length list is over-subscribed at no length when its codes fit at every length of 1 to 15 (R172). -/
theorem overSubscribed_eq_none_iff {lens : List Nibble} :
    overSubscribed lens = none ↔ ∀ L, 1 ≤ L → L ≤ 15 → nextCode lens L + lenCount lens L ≤ 2 ^ L := by
  simp only [overSubscribed, List.find?_range'_eq_none, overAt, Bool.not_eq_true', decide_eq_false_iff_not, Nat.not_lt]
  exact forall₂_congr fun L _ => ⟨fun h hL => h (by omega), fun h hL => h (by omega)⟩

/-- Build reports the smallest over-subscribed length (R172). -/
theorem overSubscribed_eq_some_iff {lens : List Nibble} {L : Nat} :
    overSubscribed lens = some L ↔ (1 ≤ L ∧ L ≤ 15) ∧ 2 ^ L < nextCode lens L + lenCount lens L ∧
      ∀ K, 1 ≤ K → K < L → nextCode lens K + lenCount lens K ≤ 2 ^ K := by
  simp only [overSubscribed, List.find?_range'_eq_some, overAt, List.mem_range'_1, Bool.not_eq_true', decide_eq_true_eq,
    decide_eq_false_iff_not, Nat.not_lt]
  constructor
  · rintro ⟨hover, hL, hfit⟩
    exact ⟨by omega, hover, hfit⟩
  · rintro ⟨hL, hover, hfit⟩
    exact ⟨hover, by omega, hfit⟩

/-! ### Canonical codes -/

/-- max_code_len is the least bound of the lengths (R170). -/
theorem maxCodeLen_le_iff {lens : List Nibble} {L : Nat} : maxCodeLen lens ≤ L ↔ ∀ l ∈ lens, l.toNat ≤ L := by
  induction lens with
  | nil => simp [maxCodeLen]
  | cons l ls ih =>
    rw [List.forall_mem_cons, ← ih]
    exact Nat.max_le

/-- The pair of a symbol by its own length: (0, 0) where it is unused (R173). -/
theorem codesOf_of_length {lens : List Nibble} {x : Nat} {l : Nibble} (hx : lens[x]? = some l) :
    (codesOf lens)[x]? = some (if l = 0 then (0, 0)
      else (l.toNat, nextCode lens l.toNat + ((lens.take x).filter fun k => decide (k = l)).length)) := by
  have hl : lens.getD x 0 = l := by rw [List.getD_eq_getElem?_getD, hx, Option.getD_some]
  rw [codesOf_getElem? lens (List.getElem?_eq_some_iff.mp hx).1, hl, List.countP_eq_length_filter]

/-- The code of another symbol of at least the same length does not begin with a symbol's code (R173, R180(3)). -/
theorem codesOf_prefixFree {lens : List Nibble} {x y lx cx ly cy : Nat} (hx : (codesOf lens)[x]? = some (lx, cx))
    (hlx : lx ≠ 0) (hy : (codesOf lens)[y]? = some (ly, cy)) (hly : ly ≠ 0) (hxy : x ≠ y) (hle : lx ≤ ly) :
    cy / 2 ^ (ly - lx) ≠ cx := by
  rcases Nat.eq_or_lt_of_le hle with rfl | hlt
  · rw [Nat.sub_self, pow_zero, Nat.div_one]
    rintro rfl
    exact hxy (codesOf_unique hx hy hlx)
  · exact (codesOf_no_extension hx hlx hy hly hlt).ne'

/-- Settles O24: the rules one by one, then that codes fit and none begins another. -/
theorem codesPrefixFree : Obligations.CodesPrefixFree := by
  refine ⟨fun lens => ⟨fun L hL => ?count, rfl, fun L hL => ?next, fun L => maxCodeLen_le_iff, fun x l => codesOf_of_length⟩,
    fun lens hfit x y lx cx ly cy hx hlx hy hly =>
      ⟨codesOf_fits (overSubscribed_eq_none_iff.2 hfit) hx hlx, codesOf_prefixFree hx hlx hy hly⟩⟩
  case count => rw [lenCount, if_neg (by omega), List.countP_eq_length_filter]
  case next =>
    obtain ⟨K, rfl⟩ : ∃ K, L = K + 1 := ⟨L - 1, by omega⟩
    exact nextCode_succ lens (by omega)

/-! ### TBL_STATUS -/

/-- MAXLEN of a slot as a number (R44). -/
theorem Slot.maxLen_toNat (v : Slot) : v.maxLen.toNat = if v.valid then maxCodeLen v.lens else 0 := by
  unfold Slot.maxLen
  split
  · exact Nat.mod_eq_of_lt (maxCodeLen_lt v.lens)
  · rfl

/-- TBL_STATUS shows VALID of slot k in bit k (R44). -/
theorem tblStatus_valid (s : State) (k : TableId) : s.tblStatus.getLsbD k.number = (s.slot k).valid := by
  simp only [State.tblStatus, BitVec.getLsbD_append]
  cases k <;> simp [TableId.number]

/-- TBL_STATUS shows MAXLEN of slot k in the four bits from bit 8 + 4 k (R44). -/
theorem tblStatus_maxLen (s : State) (k : TableId) : s.tblStatus.extractLsb' (8 + 4 * k.number) 4 = (s.slot k).maxLen := by
  cases k <;>
  · unfold State.tblStatus TableId.number
    repeat rw [BitVec.extractLsb'_append_eq_of_le (by decide)]
    exact BitVec.extractLsb'_append_eq_right

/-! ### HT_BUILD -/

theorem exec_htBuild_ok {t : BuildTarget} {maxsym base : BitVec 9} {s : State}
    (h : overSubscribed (s.lensSnapshot maxsym.toNat base.toNat) = none) :
    exec (.htBuild t maxsym base) s = .next { s.setSlot t ⟨true, s.lensSnapshot maxsym.toNat base.toNat⟩ with
      result := BitVec.ofNat 32 (maxCodeLen (s.lensSnapshot maxsym.toNat base.toNat)) }.complete :=
  runCommand_setResult_ok (f := id) (build_ok h)

theorem exec_htBuild_error {t : BuildTarget} {maxsym base : BitVec 9} {s : State} {L : Nat}
    (h : overSubscribed (s.lensSnapshot maxsym.toNat base.toNat) = some L) :
    exec (.htBuild t maxsym base) s = .next ((s.setSlot t { s.slot t.table with valid := false }).errorEntry
      ⟨.buildError, BitVec.ofNat 32 (t.table.number <<< 8 ||| L)⟩) :=
  runCommand_setResult_error (f := id) (build_error h)

/-- Settles O21, by whether Build finds an over-subscribed length. -/
theorem htBuildResult : Obligations.HtBuildResult := by
  refine ⟨fun s t maxsym base _ => ⟨fun hfit => ?ok, fun L h1 h15 hover hfit => ?error⟩, fun s k => ⟨tblStatus_valid s k, ?maxLen⟩,
    fun k => by cases k <;> rfl⟩
  case ok => exact exec_htBuild_ok (overSubscribed_eq_none_iff.2 hfit)
  case error =>
    have hdata : t.table.number <<< 8 ||| L = 256 * t.table.number + L := by
      rw [← Nat.shiftLeft_add_eq_or_of_lt (by omega), Nat.shiftLeft_eq, Nat.mul_comm]
    rw [← hdata]
    exact exec_htBuild_error (overSubscribed_eq_some_iff.2 ⟨⟨h1, h15⟩, hover, hfit⟩)
  case maxLen =>
    rw [← Slot.maxLen_toNat, ← tblStatus_maxLen]
    rfl

/-! ### HT_DECODE -/

/-- Settles O22, from what Decode answers on a symbol's own code. -/
theorem htDecodeOwnCode : Obligations.HtDecodeOwnCode := by
  intro s t x l c hs hv hx hl hc hfit
  have hlen := hs.bufLen_le
  have hx32 : x < 2 ^ 32 := by
    have hcap : slotSymbols t ≤ 288 := by cases t <;> decide
    have := hs.slot_length hv
    have := (codesOf_used hx hl).1
    omega
  exact ⟨_, exec_htDecode_ok (decodeSymbol_own hlen hv hx hl hfit hc), rfl,
    State.bitPos_setBitPos (s := s) (by omega), Nat.mod_eq_of_lt hx32⟩

/-- With no code among the first n bits, MAP answers no symbol up to length n (R176). -/
theorem State.noCode.symbolOf_eq_none {s : State} {codes : List (Nat × Nat)} {p n L : Nat} (h : s.noCode codes p n)
    (h1 : 0 < L) (hn : L ≤ n) : symbolOf codes L (s.codeBits p L) = none := by
  cases hx : symbolOf codes L (s.codeBits p L) with
  | none => rfl
  | some x => exact absurd rfl (h x L _ (symbolOf_some hx) (by omega) hn)

/-- The bits up to the largest length hold no code: Decode has read them all (R176). -/
theorem decodeSymbol_noCode {t : TableId} {s : State} (hb : s.bufLen ≤ 2 ^ 28) (hv : (s.slot t).valid = true)
    (hn : s.noCode (codesOf (s.slot t).lens) s.bitPos.toNat (maxCodeLen (s.slot t).lens))
    (hfit : maxCodeLen (s.slot t).lens = 0 ∨ s.bitPos.toNat + maxCodeLen (s.slot t).lens ≤ 8 * s.bufLen) :
    decodeSymbol t s = .error ⟨.huffmanDecodeFailed, BitVec.ofNat 32 (t.number <<< 24 ||| maxCodeLen (s.slot t).lens <<< 16 |||
        s.codeBits s.bitPos.toNat (maxCodeLen (s.slot t).lens))⟩
      (s.setBitPos (s.bitPos.toNat + maxCodeLen (s.slot t).lens)) := by
  rw [decodeSymbol_valid hv]
  rcases hfit with h0 | hfit
  · rw [h0]
    rfl
  · rw [decodeLoop_fail t _ hb hfit fun i h1 h2 => hn.symbolOf_eq_none h1 (by omega), Nat.zero_add]

/-- The buffer ends before a code: Decode has read the bits that were left (R176, R279). -/
theorem decodeSymbol_short {t : TableId} {s : State} (hb : s.bufLen ≤ 2 ^ 28) (hv : (s.slot t).valid = true)
    (h0 : maxCodeLen (s.slot t).lens ≠ 0) (hend : 8 * s.bufLen < s.bitPos.toNat + maxCodeLen (s.slot t).lens)
    (hn : s.noCode (codesOf (s.slot t).lens) s.bitPos.toNat (8 * s.bufLen - s.bitPos.toNat)) :
    decodeSymbol t s = .error ⟨.outOfData, 1⟩ (s.setBitPos (max s.bitPos.toNat (8 * s.bufLen))) := by
  rw [decodeSymbol_valid hv]
  by_cases hin : s.bitPos.toNat ≤ 8 * s.bufLen
  · obtain ⟨k, hk⟩ : ∃ k, maxCodeLen (s.slot t).lens = k + 1 + (8 * s.bufLen - s.bitPos.toNat) :=
      ⟨maxCodeLen (s.slot t).lens - (8 * s.bufLen - s.bitPos.toNat) - 1, by omega⟩
    rw [hk, decodeLoop_short t _ hb (by omega) fun i h1 h2 => hn.symbolOf_eq_none h1 (by omega), Nat.zero_add,
      Nat.add_sub_cancel' hin, Nat.max_eq_right hin]
  · obtain ⟨k, hk⟩ := Nat.exists_eq_succ_of_ne_zero h0
    rw [Nat.max_eq_left (by omega), hk, decodeLoop, bind_apply, Nat.add_zero, State.setBitPos_self, readBit_error (by omega)]

/-- The fields of HuffmanDecodeFailed's ERR_DATA do not overlap: slot, length and code (R176). -/
theorem decodeFailed_data {n L c : Nat} (hL : L < 2 ^ 8) (hc : c < 2 ^ 16) :
    n <<< 24 ||| L <<< 16 ||| c = 2 ^ 24 * n + 2 ^ 16 * L + c := by
  have hLc : L <<< 16 ||| c = 2 ^ 16 * L + c := by
    rw [← Nat.shiftLeft_add_eq_or_of_lt hc, Nat.shiftLeft_eq, Nat.mul_comm]
  rw [Nat.or_assoc, hLc, ← Nat.shiftLeft_add_eq_or_of_lt (by omega), Nat.shiftLeft_eq]
  omega

/-- Settles O23, by what Decode raises. -/
theorem htDecodeRaises : Obligations.HtDecodeRaises := by
  intro s t hs maxlen
  have hlen := hs.bufLen_le
  refine ⟨fun hv => exec_htDecode_error (decodeSymbol_notBuilt hv), fun hv hn hfit => ?failed, fun hv h0 hend hn =>
    exec_htDecode_error (decodeSymbol_short hlen hv h0 hend hn)⟩
  case failed =>
    have hmax : maxlen < 16 := maxCodeLen_lt _
    have hcode : s.codeBits s.bitPos.toNat maxlen < 2 ^ 16 :=
      (s.codeBits_lt _ _).trans (Nat.pow_lt_pow_right (by decide) hmax)
    rw [← decodeFailed_data (by omega) hcode]
    exact exec_htDecode_error (decodeSymbol_noCode hlen hv hn hfit)

end Sys2Proof.Machine
end

