-- ==== Sys2Proof/Proofs/RegisterFrames.lean ====
section
/-! SUPPORT. The frames of the commands that write registers or one slot (42_huffman.md R177, 44_dispatcher.md R218, R222,
45_png_framer.md R240, R251). -/

namespace Sys2Proof.Machine

/-- The memories, LENS and what their unwritten cells read as are the same. -/
structure SameStore (s t : State) : Prop where
  mem : ∀ m, t.mem m = s.mem m
  lens : t.lens = s.lens
  resets : t.resets = s.resets

/-- Every byte and every entry of LENS then reads the same. -/
theorem SameStore.reads {s t : State} (h : SameStore s t) :
    s.sameBytes t (fun _ _ => False) ∧ ∀ k, t.lensAt k = s.lensAt k :=
  ⟨fun m a _ => peek_congr (h.mem m) h.resets a, lensAt_congr h.lens h.resets⟩

/-- Writes of the registers and slots that these commands write store nothing. -/
theorem SameStore.ofRegisters {s t : State}
    (h : t = { s with
      bitPos := t.bitPos, zhdr := t.zhdr, adlerCalc := t.adlerCalc, adlerTrailer := t.adlerTrailer, frPos := t.frPos
      dataSize := t.dataSize, dstCap := t.dstCap, result := t.result, cl := t.cl, ll := t.ll, dist := t.dist }) :
    SameStore s t where
  mem m := by
    rw [h]
    cases m <;> rfl
  lens := by rw [h]
  resets := by rw [h]

/-- A frame of registers and slots: it leaves the memories and LENS, and holds too once both states have the same report. -/
structure IsRegisterFrame (F : State → State → Prop) : Prop where
  store : ∀ s u, F s u → SameStore s u
  report : ∀ s u r, F s u → F (s.withReport r) (u.withReport r)

/-- A command whose body keeps such a frame keeps it but for its report, and stores nothing (60_exceptions.md R270, R272). -/
theorem exec_of_registerFrame {F : State → State → Prop} {i : Instr} {s t : State} (hF : IsRegisterFrame F)
    (hk : Act.Keeps F (commandBody i)) (h : exec i s = .next t) :
    F (s.withReport t) t ∧ s.sameBytes t (fun _ _ => False) ∧ ∀ k, t.lensAt k = s.lensAt k := by
  obtain ⟨u, hu, ht⟩ := exec_withReport hk h
  have hframe := hF.report s u t hu
  rw [← ht] at hframe
  refine ⟨hframe, ?_⟩
  rw [ht]
  exact (hF.store s u hu).reads

/-! ### The frames -/

theorem headerFrame_isRegisterFrame : IsRegisterFrame HeaderFrame where
  store s u h := .ofRegisters (by unfold HeaderFrame at h; rw [h])
  report s u r h := by
    unfold HeaderFrame at *
    rw [h]
    rfl

theorem trailerFrame_isRegisterFrame : IsRegisterFrame TrailerFrame where
  store s u h := .ofRegisters (by unfold TrailerFrame at h; rw [h])
  report s u r h := by
    unfold TrailerFrame at *
    rw [h]
    rfl

/-- The signature check writes FR_POS alone (R240). -/
def SignatureFrame (s t : State) : Prop := t = { s with frPos := t.frPos }

theorem signatureFrame_isFrame : IsFrame SignatureFrame where
  refl _ := rfl
  trans s t u h1 h2 := by
    unfold SignatureFrame at *
    rw [h2, h1]

theorem signatureFrame_isRegisterFrame : IsRegisterFrame SignatureFrame where
  store s u h := .ofRegisters (by unfold SignatureFrame at h; rw [h])
  report s u r h := by
    unfold SignatureFrame at *
    rw [h]
    rfl

theorem signature_keeps_signatureFrame : Act.Keeps SignatureFrame signature := by
  have hF := signatureFrame_isFrame
  exact .bind hF (.get hF) fun _ => .bind hF (.check hF _ _ _) fun _ => .update fun _ => rfl

/-- The subset check writes DATA_SIZE, DST_CAP and RESULT alone (R251). -/
def SubsetFrame (s t : State) : Prop := t = { s with dataSize := t.dataSize, dstCap := t.dstCap, result := t.result }

theorem subsetFrame_isFrame : IsFrame SubsetFrame where
  refl _ := rfl
  trans s t u h1 h2 := by
    unfold SubsetFrame at *
    rw [h2, h1]

theorem subsetFrame_isRegisterFrame : IsRegisterFrame SubsetFrame where
  store s u h := .ofRegisters (by unfold SubsetFrame at h; rw [h])
  report s u r h := by
    unfold SubsetFrame at *
    rw [h]
    rfl

theorem checkHeader_keeps : Act.Keeps SubsetFrame checkHeader := by
  have hF := subsetFrame_isFrame
  exact .bind hF (.get hF) fun _ => .bind hF (.check hF _ _ _) fun _ => .bind hF (.check hF _ _ _) fun _ =>
    .bind hF (.update fun _ => rfl) fun _ => .update fun _ => rfl

/-- A build writes its slot and RESULT alone (R177). -/
def SlotFrame (g : BuildTarget) (s t : State) : Prop := t = { s.setSlot g (t.slot g.table) with result := t.result }

theorem slotFrame_isFrame (g : BuildTarget) : IsFrame (SlotFrame g) where
  refl s := by cases g <;> rfl
  trans s t u h1 h2 := by
    unfold SlotFrame at *
    rw [h2, h1]
    cases g <;> rfl

theorem slotFrame_isRegisterFrame (g : BuildTarget) : IsRegisterFrame (SlotFrame g) where
  store s u h := .ofRegisters (by unfold SlotFrame at h; rw [h]; cases g <;> rfl)
  report s u r h := by
    unfold SlotFrame at *
    rw [h]
    cases g <;> rfl

/-- A build leaves the other slots (R177). -/
theorem SlotFrame.slot_other {g : BuildTarget} {s t : State} (h : SlotFrame g s t) {k : TableId} (hk : k ≠ g.table) :
    t.slot k = s.slot k := by
  unfold SlotFrame at h
  rw [h]
  cases g with
  | cl => cases k with | cl => exact absurd rfl hk | _ => rfl
  | ll => cases k with | ll => exact absurd rfl hk | _ => rfl
  | dist => cases k with | dist => exact absurd rfl hk | _ => rfl

theorem build_slotFrame (g : BuildTarget) (m base : Nat) : Act.Keeps (SlotFrame g) (build g m base) := by
  intro s
  cases h : overSubscribed (s.lensSnapshot m base) with
  | none =>
    rw [build_ok h]
    cases g <;> rfl
  | some L =>
    rw [build_error h]
    cases g <;> rfl

theorem htBuild_slotFrame (g : BuildTarget) (maxsym base : BitVec 9) :
    Act.Keeps (SlotFrame g) (commandBody (.htBuild g maxsym base)) :=
  .bind (slotFrame_isFrame g) (build_slotFrame g _ _) fun _ => .update fun _ => by cases g <;> rfl

/-- Settles O53, by the frame of each command's body. -/
theorem registerFrames : Obligations.RegisterFrames := by
  intro s t
  refine ⟨fun h => ?header, fun h => ?trailer, fun h => ?signature, fun h => ?subset, fun g m b h => ?build⟩
  case header => exact exec_of_registerFrame (i := .dfZlibHeader) headerFrame_isRegisterFrame zlibHeader_keeps h
  case trailer => exact exec_of_registerFrame (i := .dfTrailer) trailerFrame_isRegisterFrame trailer_keeps h
  case signature =>
    exact exec_of_registerFrame (i := .pfSignature) signatureFrame_isRegisterFrame signature_keeps_signatureFrame h
  case subset => exact exec_of_registerFrame (i := .pfCheckHeader) subsetFrame_isRegisterFrame checkHeader_keeps h
  case build =>
    obtain ⟨hframe, hstore⟩ := exec_of_registerFrame (slotFrame_isRegisterFrame g) (htBuild_slotFrame g m b) h
    have hslots : ∀ k, k ≠ g.table → t.slot k = s.slot k := fun k hk => by
      rw [hframe.slot_other hk]
      cases k <;> rfl
    exact ⟨hframe, hslots, hstore⟩

end Sys2Proof.Machine
end

