-- ==== Sys2Proof/Proofs/Lz77.lean ====
section
/-! SUPPORT. What LZ_LITERAL, LZ_COPY, LZ_LENGTH and LZ_DIST leave: the byte emitted, the copy by its distance, and the
rows of the length and distance tables in closed form (43_lz77.md R190 to R198, 40_tables_and_checksums.md R130, R131). -/

namespace Sys2Proof.Machine

/-! ### The output position and the bytes of DST -/

theorem State.outPos_setOutPos {s : State} {p : Nat} (h : p < 2 ^ 32) : (s.setOutPos p).outPos.toNat = p :=
  Nat.mod_eq_of_lt h

theorem State.peek_setOutPos (s : State) (p : Nat) (m : Space) (a : Nat) : (s.setOutPos p).peek m a = s.peek m a :=
  peek_congr (by cases m <;> rfl) rfl a

theorem State.peek_complete (s : State) (m : Space) (a : Nat) : s.complete.peek m a = s.peek m a :=
  peek_congr (by cases m <;> rfl) rfl a

/-! ### LZ_LITERAL -/

/-- Settles O26, by what EmitByte answers. -/
theorem lzLiteralResult : Obligations.LzLiteralResult := by
  intro s b
  refine ⟨fun h => ⟨_, runCommand_ok (emitByte_ok h), rfl, State.outPos_setOutPos (s := s) (by omega), ?byte, fun a ha => ?other⟩,
    fun h => runCommand_error (emitByte_error h)⟩
  case byte => rw [State.peek_complete, State.peek_setOutPos, State.peek_poke_same]
  case other => rw [State.peek_complete, State.peek_setOutPos, State.peek_poke_other _ _ (.inr ha)]

/-! ### LZ_COPY -/

/-- After a copy at distance d each copied byte is the byte d before it (R191). -/
theorem copyLoop_periodic {d n k : Nat} {s : State} (hd : 0 < d) (hds : d ≤ s.outPos.toNat)
    (hs : s.outPos.toNat + n < 2 ^ 32) (hk : k < n) :
    (copyLoop d n s).peek .dst (s.outPos.toNat + k) = (copyLoop d n s).peek .dst (s.outPos.toNat + k - d) := by
  rw [copyLoop_at d hd n s k hs hds hk]
  rcases Nat.lt_or_ge k d with hkd | hkd
  · rw [copyLoop_other d n _ _ _ hs (.inr (.inl (by omega))), Nat.mod_eq_of_lt hkd, Nat.sub_add_comm hds]
  · rw [Nat.add_sub_assoc hkd, copyLoop_at d hd n s (k - d) hs hds (by omega), ← Nat.mod_eq_sub_mod hkd]

/-- Settles O27, by what Copy answers: the copied bytes repeat at their distance. -/
theorem lzCopyResult : Obligations.LzCopyResult := by
  intro s l3 d1 len d
  refine ⟨fun hfar hfit => ?copied, fun hfar => runCommand_error (copy_tooFar hfar),
    fun hfar hover => runCommand_error (copy_overflow hfar hover)⟩
  case copied =>
    have hcap := s.dstCap.isLt
    have hsmall : s.outPos.toNat + len < 2 ^ 32 := by omega
    refine ⟨_, runCommand_ok (copy_ok hfar hfit), ?frame, copyLoop_outPos d len s hsmall, fun k hk => ?byte, fun a ha => ?other⟩
    case frame =>
      rw [copyLoop_eq]
      rfl
    case byte =>
      rw [State.peek_complete, State.peek_complete]
      exact copyLoop_periodic (Nat.succ_pos _) hfar hsmall hk
    case other =>
      rw [State.peek_complete]
      exact copyLoop_other d len .dst a s hsmall (.inr ha)

/-! ### The rows of the tables -/

/-- LENGTH_TABLE in closed form, by S of the command (R130). -/
theorem lengthRow_eq : ∀ x, x ≤ 28 → lengthRow (x + 257) =
    (if x < 8 then x + 3 else if x = 28 then 258 else 3 + (4 + x % 4) * 2 ^ (if x < 8 ∨ x = 28 then 0 else x / 4 - 1),
      if x < 8 ∨ x = 28 then 0 else x / 4 - 1) := by decide

/-- DIST_TABLE in closed form (R131). -/
theorem distRow_eq : ∀ x, x ≤ 29 → distRow x =
    (if x < 4 then x + 1 else 1 + (2 + x % 2) * 2 ^ (if x < 4 then 0 else x / 2 - 1),
      if x < 4 then 0 else x / 2 - 1) := by decide

/-- A length is one of 3 to 258, whatever its extra bits (R130). -/
theorem lengthRow_bounds : ∀ x, x ≤ 28 →
    3 ≤ (lengthRow (x + 257)).1 ∧ (lengthRow (x + 257)).1 + 2 ^ (lengthRow (x + 257)).2 ≤ 259 := by decide

/-- A distance is one of 1 to 32768, whatever its extra bits (R131). -/
theorem distRow_bounds : ∀ x, x ≤ 29 →
    1 ≤ (distRow x).1 ∧ (distRow x).1 + 2 ^ (distRow x).2 ≤ 32769 := by decide

/-! ### LZ_LENGTH and LZ_DIST -/

section Row

/-- Resolving a row: its extra bits are read and added to its base (R192, R193). -/
def readRow (row : Nat × Nat) : Act Nat := do
  let e ← readBits row.2
  pure (row.1 + e)

theorem lengthOf_eq_readRow {sym : Nat} {s : State} (h : sym ≤ 285) : lengthOf sym s = readRow (lengthRow sym) s :=
  lengthOf_valid h

theorem distOf_eq_readRow {dsym : Nat} {s : State} (h : dsym ≤ 29) : distOf dsym s = readRow (distRow dsym) s :=
  distOf_valid h

variable {row : Nat × Nat} {s : State}

theorem readRow_ok (hb : s.bufLen ≤ 2 ^ 28) (h : s.bitPos.toNat + row.2 ≤ 8 * s.bufLen) :
    readRow row s = .ok (row.1 + s.bitsFrom s.bitPos.toNat row.2) (s.setBitPos (s.bitPos.toNat + row.2)) := by
  rw [readRow, bind_apply, readBits_ok hb h]
  rfl

theorem readRow_short (h : 8 * s.bufLen < s.bitPos.toNat + row.2) :
    readRow row s = .error ⟨.outOfData, BitVec.ofNat 32 row.2⟩ s := by
  rw [readRow, bind_apply, readBits_error h]

/-- A command that puts a resolved row in RESULT, with the row's extra bits there to read (R197, R198). -/
theorem runCommand_readRow_ok {x : Act Nat} {lo hi : Nat} (hx : x s = readRow row s) (hb : s.bufLen ≤ 2 ^ 28)
    (hfit : s.bitPos.toNat + row.2 ≤ 8 * s.bufLen) (hrow : lo ≤ row.1 ∧ row.1 + 2 ^ row.2 ≤ hi + 1) (hhi : hi < 2 ^ 32) :
    ∃ t, runCommand (do let v ← x; setResult v) s = .next t ∧
      t = { s.complete with bitPos := t.bitPos, result := t.result } ∧
      t.bitPos.toNat = s.bitPos.toNat + row.2 ∧ t.result.toNat = row.1 + s.bitsFrom s.bitPos.toNat row.2 ∧
      lo ≤ t.result.toNat ∧ t.result.toNat ≤ hi := by
  have hbits := s.bitsFrom_lt row.2 s.bitPos.toNat
  have hpos : (s.setBitPos (s.bitPos.toNat + row.2)).bitPos.toNat = s.bitPos.toNat + row.2 :=
    State.bitPos_setBitPos (by omega)
  have hval : (BitVec.ofNat 32 (row.1 + s.bitsFrom s.bitPos.toNat row.2)).toNat =
      row.1 + s.bitsFrom s.bitPos.toNat row.2 := Nat.mod_eq_of_lt (by omega)
  exact ⟨_, runCommand_setResult_ok (f := id) (hx.trans (readRow_ok hb hfit)), rfl, hpos, hval,
    hval.symm ▸ (by omega), hval.symm ▸ (by omega)⟩

/-- Where the row's extra bits are not all there, none is read. -/
theorem runCommand_readRow_short {x : Act Nat} (hx : x s = readRow row s) (h : 8 * s.bufLen < s.bitPos.toNat + row.2) :
    runCommand (do let v ← x; setResult v) s = .next (s.errorEntry ⟨.outOfData, BitVec.ofNat 32 row.2⟩) :=
  runCommand_setResult_error (f := id) (hx.trans (readRow_short h))

end Row

/-- Settles O28, by the row of the symbol. -/
theorem lzLengthResult : Obligations.LzLengthResult := by
  intro s sym hs _ extra base
  have hrow (h : sym.toNat ≤ 28) : lengthRow (lengthSymbol sym) = (base, extra) := lengthRow_eq _ h
  have hread (h : sym.toNat ≤ 28) : lengthOf (lengthSymbol sym) s = readRow (base, extra) s :=
    hrow h ▸ lengthOf_eq_readRow (Nat.add_le_add_right h 257)
  refine ⟨fun h hfit => ?_, fun h hshort => runCommand_readRow_short (hread h) hshort,
    fun h => runCommand_setResult_error (f := id) (lengthOf_invalid (by rw [lengthSymbol]; omega))⟩
  exact runCommand_readRow_ok (hread h) hs.bufLen_le hfit (hrow h ▸ lengthRow_bounds _ h) (by decide)

/-- Settles O29, by the row of the symbol. -/
theorem lzDistResult : Obligations.LzDistResult := by
  intro s sym hs extra base
  have hrow (h : sym.toNat ≤ 29) : distRow (distSymbol sym) = (base, extra) := distRow_eq _ h
  have hread (h : sym.toNat ≤ 29) : distOf (distSymbol sym) s = readRow (base, extra) s :=
    hrow h ▸ distOf_eq_readRow h
  refine ⟨fun h hfit => ?_, fun h hshort => runCommand_readRow_short (hread h) hshort,
    fun h => runCommand_setResult_error (f := id) (distOf_invalid h)⟩
  exact runCommand_readRow_ok (hread h) hs.bufLen_le hfit (hrow h ▸ distRow_bounds _ h) (by decide)

end Sys2Proof.Machine
end

