-- ==== Sys2Proof/Proofs/BlockData.lean ====
section
/-! SUPPORT. The loop of BlockData pass by pass, and that it replays the tokens its bits spell
(43_lz77.md R190 to R194, R199, 70_reset_and_hazards.md R308). -/

namespace Sys2Proof.Machine

/-! ### The loop without its count -/

section Loop

variable {lt dt : TableId} {s t : State}

/-- The loop is a pass and, where that did not end the block, the loop again: one pass more than bits are left changes
nothing (R194, R308). -/
theorem blockData_eq_pass (hb : s.bufLen ≤ 2 ^ 28) :
    blockData lt dt s = (do
      let ended ← blockPass lt dt
      if ended then pure () else blockLoop lt dt s.bitsLeft) s :=
  (blockLoop_stable lt dt _ s hb le_rfl).symm

theorem blockData_ended (hb : s.bufLen ≤ 2 ^ 28) (h : blockPass lt dt s = .ok true t) : blockData lt dt s = .ok () t := by
  rw [blockData_eq_pass hb, bind_apply, h]
  rfl

theorem blockData_again (hb : s.bufLen ≤ 2 ^ 28) (h : blockPass lt dt s = .ok false t) :
    blockData lt dt s = blockData lt dt t := by
  obtain ⟨hpos, -, hlen⟩ := blockPass_reads hb h
  have hleft : t.bitsLeft ≤ s.bitsLeft := by
    unfold State.bitsLeft
    omega
  rw [blockData_eq_pass hb, bind_apply, h]
  exact blockLoop_enough lt dt (hlen ▸ hb) hleft

theorem blockData_raised {r : Raise} (hb : s.bufLen ≤ 2 ^ 28) (h : blockPass lt dt s = .error r t) :
    blockData lt dt s = .error r t := by
  rw [blockData_eq_pass hb, bind_apply, h]

end Loop

/-- Settles O30, by what the first pass answers. -/
theorem blockDataLoop : Obligations.BlockDataLoop := by
  intro s lt dt hs
  cases h : blockPass lt dt s with
  | ok ended t =>
    cases ended with
    | true => exact blockData_ended hs.bufLen_le h
    | false => exact blockData_again hs.bufLen_le h
  | error r t => exact blockData_raised hs.bufLen_le h

/-! ### The output so far -/

/-- The bytes of DST before OUT_POS (10_state.md R35). -/
def State.output (s : State) : List Byte := s.bytesAt .dst 0 s.outPos.toNat

theorem State.length_output (s : State) : s.output.length = s.outPos.toNat := by simp [State.output, State.bytesAt]

theorem State.output_getD {s : State} {a : Nat} (h : a < s.outPos.toNat) : s.output.getD a 0 = s.peek .dst a := by
  simp [State.output, State.bytesAt, h]

/-- The state after one byte is appended to the output (R190). -/
def State.append (s : State) (x : Byte) : State := (s.poke .dst s.outPos.toNat x).setOutPos (s.outPos.toNat + 1)

theorem State.outPos_append {s : State} (x : Byte) (h : s.outPos.toNat + 1 < 2 ^ 32) :
    (s.append x).outPos.toNat = s.outPos.toNat + 1 := State.outPos_setOutPos h

theorem State.output_append {s : State} (x : Byte) (h : s.outPos.toNat + 1 < 2 ^ 32) : (s.append x).output = s.output ++ [x] := by
  have hold : ∀ a ∈ List.range s.outPos.toNat, (s.append x).peek .dst (0 + a) = s.peek .dst (0 + a) := fun a ha => by
    rw [State.append, State.peek_setOutPos, State.peek_poke_other _ _ (.inr (by have := List.mem_range.1 ha; omega))]
  have hnew : (s.append x).peek .dst (0 + s.outPos.toNat) = x := by
    rw [State.append, State.peek_setOutPos, Nat.zero_add, State.peek_poke_same]
  rw [State.output, State.outPos_append x h, State.bytesAt, List.range_succ, List.map_append, List.map_congr_left hold,
    List.map_singleton, hnew]
  rfl

theorem emitByte_append {x : Byte} {s : State} (h : s.outPos.toNat < s.dstCap.toNat) : emitByte x s = .ok () (s.append x) :=
  emitByte_ok h

/-- A copy appends what the reference model's copy appends (R191). -/
theorem copyLoop_output {d : Nat} (hd : 0 < d) (n : Nat) :
    ∀ s : State, d ≤ s.outPos.toNat → s.outPos.toNat + n < 2 ^ 32 → (copyLoop d n s).output = replayCopy d n s.output := by
  induction n with
  | zero => exact fun s _ _ => rfl
  | succ n ih =>
    intro s hds hs
    have hbyte : copyByte d s = s.append (s.output.getD (s.output.length - d) 0) := by
      rw [State.length_output, State.output_getD (by omega)]
      rfl
    have hpos := State.outPos_append (s := s) (s.output.getD (s.output.length - d) 0) (by omega)
    rw [copyLoop, replayCopy, hbyte, ih _ (by omega) (by omega), State.output_append _ (by omega)]

/-! ### The reference model's output grows -/

theorem length_replayCopy (d n : Nat) : ∀ out, (replayCopy d n out).length = out.length + n := by
  induction n with
  | zero => exact fun _ => rfl
  | succ n ih =>
    intro out
    rw [replayCopy, ih, List.length_append, List.length_singleton, Nat.add_assoc, Nat.add_comm 1]

theorem length_le_of_replayToken {out o : List Byte} {k : Token} (h : replayToken out k = some o) : out.length ≤ o.length := by
  cases k with
  | literal b =>
    cases h
    simp
  | backRef sym extra dsym dextra =>
    rw [replayToken] at h
    split at h
    · cases h
      rw [length_replayCopy]
      omega
    · cases h

theorem length_le_of_replay (toks : List Token) : ∀ {out o : List Byte}, replay out toks = some o → out.length ≤ o.length := by
  induction toks with
  | nil =>
    intro out o h
    cases h
    exact le_rfl
  | cons k ks ih =>
    intro out o h
    obtain ⟨out1, h1, h2⟩ := Option.bind_eq_some_iff.1 h
    exact (length_le_of_replayToken h1).trans (ih h2)

/-! ### The bits ahead -/

section Ahead

variable {s t : State} {lt dt : List (Nat × Nat)} {x p q : Nat}

theorem State.showsSymbol.le (h : s.showsSymbol lt x p q) : p ≤ q := by
  obtain ⟨l, c, -, -, -, rfl⟩ := h
  exact Nat.le_add_right p l

theorem State.showsToken.le {k : Token} (h : s.showsToken lt dt p q k) : p ≤ q := by
  cases k with
  | literal b => exact State.showsSymbol.le h
  | backRef sym extra dsym dextra =>
    obtain ⟨-, -, -, a, b, h1, -, h2, -, rfl⟩ := h
    have := h1.le
    have := h2.le
    omega

theorem State.showsBlock.le {toks : List Token} : ∀ {p : Nat}, s.showsBlock lt dt p toks q → p ≤ q := by
  induction toks with
  | nil => exact State.showsSymbol.le
  | cons k ks ih =>
    rintro p ⟨r, h1, h2⟩
    exact h1.le.trans (ih h2)

/-- The output is no part of the buffer the cursor reads. -/
theorem OutputFrame.bufBit (h : OutputFrame s t) (p : Nat) : t.bufBit p = s.bufBit p := by
  have hpeek : t.peek s.bufSpace (p / 8) = s.peek s.bufSpace (p / 8) := by
    refine peek_congr ?_ (by rw [h.rest]) _
    rw [h.rest, State.bufSpace]
    split <;> rfl
  rw [State.bufBit, h.bufSpace, hpeek]
  rfl

theorem OutputFrame.bitsFrom (h : OutputFrame s t) (n : Nat) : ∀ p, t.bitsFrom p n = s.bitsFrom p n := by
  induction n with
  | zero => exact fun _ => rfl
  | succ n ih =>
    intro p
    rw [State.bitsFrom, State.bitsFrom, h.bufBit, ih]

theorem OutputFrame.codeBits (h : OutputFrame s t) (p n : Nat) : t.codeBits p n = s.codeBits p n := by
  induction n with
  | zero => rfl
  | succ n ih => rw [State.codeBits, State.codeBits, h.bufBit, ih]

theorem OutputFrame.showsSymbol (h : OutputFrame s t) (hx : s.showsSymbol lt x p q) : t.showsSymbol lt x p q := by
  obtain ⟨l, c, hc, hl, hbits, hq⟩ := hx
  exact ⟨l, c, hc, hl, (h.codeBits p l).trans hbits, hq⟩

theorem OutputFrame.showsToken (h : OutputFrame s t) {k : Token} (hk : s.showsToken lt dt p q k) :
    t.showsToken lt dt p q k := by
  cases k with
  | literal b => exact h.showsSymbol hk
  | backRef sym extra dsym dextra =>
    obtain ⟨hlo, hhi, hd, a, b, h1, he, h2, hde, hq⟩ := hk
    exact ⟨hlo, hhi, hd, a, b, h.showsSymbol h1, (h.bitsFrom _ a).trans he, h.showsSymbol h2, (h.bitsFrom _ b).trans hde, hq⟩

/-- The bits that spelled a block before an output still do. -/
theorem OutputFrame.showsBlock (h : OutputFrame s t) {toks : List Token} :
    ∀ {p : Nat}, s.showsBlock lt dt p toks q → t.showsBlock lt dt p toks q := by
  induction toks with
  | nil => exact h.showsSymbol
  | cons k ks ih =>
    rintro p ⟨r, h1, h2⟩
    exact ⟨r, h.showsToken h1, ih h2⟩

end Ahead

/-! ### One pass -/

/-- A micro-step that answers hands its value and its state to the rest. -/
theorem bind_ok {α β : Type} {x : Act α} {f : α → Act β} {s t : State} {a : α} (h : x s = .ok a t) :
    (x >>= f) s = f a t := by
  rw [bind_apply, h]

/-- The buffer is of a possible length and both tables of a block are built. -/
structure State.Decodes (s : State) (lt dt : TableId) : Prop where
  buffer : s.bufLen ≤ 2 ^ 28
  ll : (s.slot lt).valid = true
  dist : (s.slot dt).valid = true

theorem State.Decodes.ofOutput {s t : State} {lt dt : TableId} (hs : s.Decodes lt dt) (h : OutputFrame s t) :
    t.Decodes lt dt where
  buffer := h.bufLen ▸ hs.buffer
  ll := by rw [h.slot, hs.ll]
  dist := by rw [h.slot, hs.dist]

section Pass

variable {s : State} {lt dt : TableId} {p q : Nat}

theorem State.slot_setBitPos (s : State) (p : Nat) (k : TableId) : (s.setBitPos p).slot k = s.slot k := by cases k <;> rfl

/-- Decode at the bits that show a symbol (R176). -/
theorem decodeSymbol_shows {k : TableId} {x : Nat} (hb : s.bufLen ≤ 2 ^ 28) (hv : (s.slot k).valid = true)
    (h : s.showsSymbol (codesOf (s.slot k).lens) x p q) (hq : q ≤ 8 * s.bufLen) :
    decodeSymbol k (s.setBitPos p) = .ok x (s.setBitPos q) := by
  obtain ⟨l, c, hc, hl, hbits, rfl⟩ := h
  have hpos : (s.setBitPos p).bitPos.toNat = p := State.bitPos_setBitPos (by omega)
  have := decodeSymbol_own (s := s.setBitPos p) (t := k) (x := x) (l := l) (c := c) hb (by rw [s.slot_setBitPos, hv])
    (by rw [s.slot_setBitPos, hc]) hl (by rw [hpos]; exact hq) (by rw [hpos, s.codeBits_setBitPos, hbits])
  rwa [hpos, State.setBitPos_setBitPos] at this

/-- A row resolved at bit p (R192, R193). -/
theorem readRow_setBitPos {row : Nat × Nat} (hb : s.bufLen ≤ 2 ^ 28) (h : p + row.2 ≤ 8 * s.bufLen) :
    readRow row (s.setBitPos p) = .ok (row.1 + s.bitsFrom p row.2) (s.setBitPos (p + row.2)) := by
  have hpos : (s.setBitPos p).bitPos.toNat = p := State.bitPos_setBitPos (by omega)
  have := readRow_ok (s := s.setBitPos p) (row := row) hb (by rw [hpos]; exact h)
  rwa [hpos, s.bitsFrom_setBitPos, State.setBitPos_setBitPos] at this

/-- The pass over the end-of-block symbol (R194). -/
theorem blockPass_end (hs : s.Decodes lt dt) (h : s.showsSymbol (codesOf (s.slot lt).lens) 256 p q) (hq : q ≤ 8 * s.bufLen) :
    blockPass lt dt (s.setBitPos p) = .ok true (s.setBitPos q) := by
  rw [blockPass, bind_ok (decodeSymbol_shows hs.buffer hs.ll h hq)]
  rfl

/-- The pass over a literal (R190, R194). -/
theorem blockPass_literal {b : Byte} (hs : s.Decodes lt dt) (h : s.showsSymbol (codesOf (s.slot lt).lens) b.toNat p q)
    (hq : q ≤ 8 * s.bufLen) (hcap : s.outPos.toNat < s.dstCap.toNat) :
    blockPass lt dt (s.setBitPos p) = .ok false ((s.setBitPos q).append b) := by
  rw [blockPass, bind_ok (decodeSymbol_shows hs.buffer hs.ll h hq), if_pos b.isLt, BitVec.ofNat_toNat, BitVec.setWidth_eq,
    bind_ok (emitByte_append (s := s.setBitPos q) hcap)]
  rfl

/-- The pass over a back-reference (R191 to R194). -/
theorem blockPass_backRef {sym extra dsym dextra : Nat} (hs : s.Decodes lt dt)
    (h : s.showsToken (codesOf (s.slot lt).lens) (codesOf (s.slot dt).lens) p q (.backRef sym extra dsym dextra))
    (hq : q ≤ 8 * s.bufLen) (hfar : tokenDistance dsym dextra ≤ s.outPos.toNat)
    (hcap : s.outPos.toNat + tokenLength sym extra ≤ s.dstCap.toNat) :
    blockPass lt dt (s.setBitPos p) =
      .ok false (copyLoop (tokenDistance dsym dextra) (tokenLength sym extra) (s.setBitPos q)) := by
  obtain ⟨hlo, hhi, hdsym, a, b, h1, rfl, h2, rfl, rfl⟩ := h
  have hab := h2.le
  have hsym := decodeSymbol_shows hs.buffer hs.ll h1 (by omega)
  have hlen := (lengthOf_eq_readRow hhi).trans (readRow_setBitPos (s := s) (p := a) hs.buffer (by omega))
  have hds := decodeSymbol_shows hs.buffer hs.dist h2 (by omega)
  have hdist := (distOf_eq_readRow hdsym).trans (readRow_setBitPos (s := s) (p := b) hs.buffer hq)
  rw [blockPass, bind_ok hsym, if_neg (by omega), if_neg (by omega), bind_ok hlen, bind_ok hds, bind_ok hdist]
  exact bind_ok (copy_ok (s := s.setBitPos (b + (distRow dsym).2)) hfar hcap)

/-- The pass over a token appends what the reference model appends (R194). -/
theorem blockPass_token {k : Token} {out : List Byte} (hs : s.Decodes lt dt)
    (h : s.showsToken (codesOf (s.slot lt).lens) (codesOf (s.slot dt).lens) s.bitPos.toNat q k) (hq : q ≤ 8 * s.bufLen)
    (hout : replayToken s.output k = some out) (hcap : out.length ≤ s.dstCap.toNat) :
    ∃ t, blockPass lt dt s = .ok false t ∧ t.bitPos.toNat = q ∧ t.output = out := by
  have hb := hs.buffer
  have hc := s.dstCap.isLt
  have hpos : (s.setBitPos q).bitPos.toNat = q := State.bitPos_setBitPos (by omega)
  cases k with
  | literal b =>
    cases hout
    rw [List.length_append, s.length_output, List.length_singleton] at hcap
    have hpass := blockPass_literal hs h hq hcap
    rw [s.setBitPos_self] at hpass
    exact ⟨_, hpass, hpos, State.output_append (s := s.setBitPos q) b (hcap.trans_lt hc)⟩
  | backRef sym extra dsym dextra =>
    have hd : 0 < tokenDistance dsym dextra := Nat.add_pos_left (distRow_bounds dsym h.2.2.1).1 dextra
    rw [replayToken] at hout
    split at hout
    case isFalse => cases hout
    case isTrue hfar =>
      cases hout
      rw [length_replayCopy, s.length_output] at hcap
      rw [s.length_output] at hfar
      have hpass := blockPass_backRef hs h hq hfar hcap
      rw [s.setBitPos_self] at hpass
      exact ⟨_, hpass, by rw [copyLoop_eq]; exact hpos, copyLoop_output hd _ (s.setBitPos q) hfar (hcap.trans_lt hc)⟩

end Pass

/-! ### The whole block -/

/-- What a body keeps holds of the state it answers. -/
theorem Act.Keeps.of_ok {α : Type} {R : State → State → Prop} {x : Act α} {s t : State} {a : α} (hx : Act.Keeps R x)
    (h : x s = .ok a t) : R s t := by
  have hs := hx s
  rwa [h] at hs

/-- BlockData on the codes of a token list and the end-of-block symbol leaves their replay as the output, by induction on
the tokens (R194). -/
theorem blockData_replay {lt dt : TableId} {out : List Byte} {q : Nat} (toks : List Token) :
    ∀ {s : State}, s.Decodes lt dt →
      s.showsBlock (codesOf (s.slot lt).lens) (codesOf (s.slot dt).lens) s.bitPos.toNat toks q → q ≤ 8 * s.bufLen →
      replay s.output toks = some out → out.length ≤ s.dstCap.toNat →
      ∃ t, blockData lt dt s = .ok () t ∧ t.bitPos.toNat = q ∧ t.output = out := by
  induction toks with
  | nil =>
    intro s hs h hq hout _
    have hpass := blockPass_end hs h hq
    rw [s.setBitPos_self] at hpass
    have hb := hs.buffer
    exact ⟨_, blockData_ended hs.buffer hpass, State.bitPos_setBitPos (by omega), Option.some.inj hout⟩
  | cons k ks ih =>
    rintro s hs ⟨r, hk, hks⟩ hq hout hcap
    obtain ⟨out1, hout1, hrest⟩ := Option.bind_eq_some_iff.1 hout
    obtain ⟨u, hpass, rfl, rfl⟩ :=
      blockPass_token hs hk (hks.le.trans hq) hout1 ((length_le_of_replay ks hrest).trans hcap)
    have hu := (blockPass_keeps lt dt).of_ok hpass
    obtain ⟨t, ht, hbit, hto⟩ := ih (hs.ofOutput hu) (by rw [hu.slot, hu.slot]; exact hu.showsBlock hks)
      (by rw [hu.bufLen]; exact hq) hrest (by rw [hu.dstCap]; exact hcap)
    exact ⟨t, (blockData_again hs.buffer hpass).trans ht, hbit, hto⟩

/-- LZ_BLOCK_DATA puts OUT_POS in RESULT after its block (R199). -/
theorem exec_lzBlockData_ok {fixed : Bool} {s u : State} (h : blockData (blockLL fixed) (blockDist fixed) s = .ok () u) :
    exec (.lzBlockData fixed) s = .next { u with result := u.outPos }.complete :=
  runCommand_ok (by rw [bind_apply, h]; rfl)

/-- Settles O31, by the replay of the block and the frame of BlockData. -/
theorem blockDataReplay : Obligations.BlockDataReplay := by
  intro s fixed toks out q hs lt dt hll hdist hshow hq hout hcap
  obtain ⟨u, hu, hbit, rfl⟩ := blockData_replay toks ⟨hs.bufLen_le, hll, hdist⟩ hshow hq hout hcap
  have hframe := (blockData_keeps lt dt).of_ok hu
  have hlen : u.outPos.toNat = u.output.length := u.length_output.symm
  refine ⟨_, exec_lzBlockData_ok hu, ?frame, hbit, hlen, rfl, ?bytes, fun a ha => ?other⟩
  case frame =>
    rw [hframe.rest]
    rfl
  case bytes =>
    rw [← hlen]
    rfl
  case other => exact hframe.other a (.inr (hlen.trans_le ha))

end Sys2Proof.Machine
end

