-- ==== Sys2Proof/Proofs/OutputFrames.lean ====
section
/-! SUPPORT. The frame of the commands that write the output: LZ_LITERAL, LZ_COPY, LZ_BLOCK_DATA and DF_STORED
(43_lz77.md R195, R196, R199, 44_dispatcher.md R220). -/

namespace Sys2Proof.Machine

/-! ### Frames of single bodies -/

/-- Only OUT_POS and DST differ: LZ_LITERAL and LZ_COPY have no result and leave the cursor (R195, R196). -/
def AppendFrame (s t : State) : Prop := t = { s with outPos := t.outPos, dst := t.dst }

theorem appendFrame_isFrame : IsFrame AppendFrame where
  refl _ := rfl
  trans s t u h1 h2 := by
    unfold AppendFrame at *
    rw [h2, h1]

theorem emitByte_appendFrame (x : Byte) : Act.Keeps AppendFrame (emitByte x) := by
  have hF := appendFrame_isFrame
  exact .bind hF (.get hF) fun _ => .bind hF (.check hF _ _ _) fun _ => .bind hF (.update fun _ => rfl) fun _ =>
    .update fun _ => rfl

theorem copy_appendFrame (len d : Nat) : Act.Keeps AppendFrame (copy len d) := by
  have hF := appendFrame_isFrame
  refine .bind hF (.get hF) fun _ => .bind hF (.check hF _ _ _) fun _ => .bind hF (.check hF _ _ _) fun _ => .update fun s => ?_
  unfold AppendFrame
  rw [copyLoop_eq]

/-- Only the cursor, OUT_POS, DST and BLOCK.LEN differ (R212). -/
def StoredFrame (s t : State) : Prop :=
  t = { s with bitPos := t.bitPos, outPos := t.outPos, dst := t.dst, block := { s.block with len := t.block.len } }

theorem storedFrame_isFrame : IsFrame StoredFrame where
  refl _ := rfl
  trans s t u h1 h2 := by
    unfold StoredFrame at *
    rw [h2, h1]

theorem CursorFrame.storedFrame {s t : State} (h : CursorFrame s t) : StoredFrame s t := by
  unfold CursorFrame at h
  unfold StoredFrame
  rw [h]

theorem storedRest_storedFrame (len nlen : Nat) : Act.Keeps StoredFrame (storedRest len nlen) := by
  have hF := storedFrame_isFrame
  refine .bind hF (.update fun _ => rfl) fun _ => .bind hF (.check hF _ _ _) fun _ => .bind hF (.get hF) fun v => ?_
  refine .bind hF (.check hF _ _ _) fun _ => .bind hF (.check hF _ _ _) fun _ => .bind hF (.update fun s => ?_) fun _ => ?_
  · unfold StoredFrame
    rw [blit_dst_eq]
  · exact .bind hF (.update fun _ => rfl) fun _ => .update fun _ => rfl

theorem stored_storedFrame : Act.Keeps StoredFrame stored := by
  have hF := storedFrame_isFrame
  have hread : Act.Keeps StoredFrame (readBits 16) := (readBits_keeps 16).mono fun _ _ => CursorFrame.storedFrame
  exact .bind hF (align_keeps.mono fun _ _ => CursorFrame.storedFrame) fun _ => .bind hF hread fun len =>
    .bind hF hread fun nlen => storedRest_storedFrame len nlen

/-! ### The frame of a command -/

/-- The commands that append to the output and have no result (R195, R196). -/
abbrev AppendsOnly (i : Instr) : Prop := (∃ b, i = .lzLiteral b) ∨ ∃ l d, i = .lzCopy l d

/-- What a command that writes the output may change: DST only between the two output positions, the cursor and RESULT only
where it has a result, BLOCK.LEN only in DF_STORED. -/
structure CommandOutputFrame (i : Instr) (s t : State) : Prop where
  rest : t = { s with
    bitPos := t.bitPos, outPos := t.outPos, result := t.result, dst := t.dst
    block := { s.block with len := t.block.len } }
  append : AppendsOnly i → t.bitPos = s.bitPos ∧ t.result = s.result
  block : i ≠ .dfStored → t.block = s.block
  mono : s.outPos.toNat ≤ t.outPos.toNat
  other : ∀ a, a < s.outPos.toNat ∨ t.outPos.toNat ≤ a → t.peek .dst a = s.peek .dst a

theorem commandOutputFrame_isFrame (i : Instr) : IsFrame (CommandOutputFrame i) where
  refl _ := ⟨rfl, fun _ => ⟨rfl, rfl⟩, fun _ => rfl, le_rfl, fun _ _ => rfl⟩
  trans s t u h1 h2 := by
    have hm1 := h1.mono
    have hm2 := h2.mono
    refine ⟨by rw [h2.rest, h1.rest], fun hi => ?append, fun hi => (h2.block hi).trans (h1.block hi), hm1.trans hm2,
      fun a ha => (h2.other a (by omega)).trans (h1.other a (by omega))⟩
    case append => exact ⟨(h2.append hi).1.trans (h1.append hi).1, (h2.append hi).2.trans (h1.append hi).2⟩

section Pieces

variable {i : Instr} {s t : State}

theorem CommandOutputFrame.ofOutput (h : OutputFrame s t) (hi : AppendsOnly i → t.bitPos = s.bitPos) :
    CommandOutputFrame i s t where
  rest := by rw [h.rest]
  append := fun ha => ⟨hi ha, by rw [h.rest]⟩
  block := fun _ => by rw [h.rest]
  mono := h.mono
  other := h.other

theorem CommandOutputFrame.ofStored (h : StoredFrame s t) (hb : BlockFrame s t) : CommandOutputFrame .dfStored s t where
  rest := by
    unfold StoredFrame at h
    rw [h]
  append := by simp
  block := fun hi => absurd rfl hi
  mono := hb.mono
  other := hb.other

theorem resultOutPos_outputFrame (hi : ¬AppendsOnly i) : Act.Keeps (CommandOutputFrame i) resultOutPos :=
  .update fun _ => ⟨rfl, fun ha => absurd ha hi, fun _ => rfl, le_rfl, fun _ _ => rfl⟩

/-- A body that appends alone. -/
theorem Act.Keeps.ofAppend {α : Type} {x : Act α} (h : Act.Keeps OutputFrame x) (ha : Act.Keeps AppendFrame x) :
    Act.Keeps (CommandOutputFrame i) x :=
  (h.and ha).mono fun s t hst => .ofOutput hst.1 fun _ => by
    have := hst.2
    unfold AppendFrame at this
    rw [this]

end Pieces

/-- The four commands that write the output keep the frame, command by command. -/
theorem commandBody_outputFrame {i : Instr} (hi : AppendsOnly i ∨ (∃ f, i = .lzBlockData f) ∨ i = .dfStored) :
    Act.Keeps (CommandOutputFrame i) (commandBody i) := by
  have hF := commandOutputFrame_isFrame i
  rcases hi with (⟨b, rfl⟩ | ⟨l, d, rfl⟩) | ⟨f, rfl⟩ | rfl
  · exact (emitByte_keeps b).ofAppend (emitByte_appendFrame b)
  · exact (copy_keeps _ _).ofAppend (copy_appendFrame _ _)
  · have hno : ¬AppendsOnly (.lzBlockData f) := by simp
    exact .bind hF ((blockData_keeps _ _).mono fun _ _ h => .ofOutput h fun ha => absurd ha hno) fun _ =>
      resultOutPos_outputFrame hno
  · exact .bind hF ((stored_storedFrame.and stored_keeps).mono fun _ _ h => .ofStored h.1 h.2) fun _ =>
      resultOutPos_outputFrame (by simp)

/-- No byte but those of DST between the two output positions, and no entry of LENS, changes. -/
theorem CommandOutputFrame.reads {i : Instr} {s t : State} (h : CommandOutputFrame i s t) :
    s.sameBytes t (fun m a => m = .dst ∧ s.outPos.toNat ≤ a ∧ a < t.outPos.toNat) ∧ ∀ k, t.lensAt k = s.lensAt k := by
  have hresets : t.resets = s.resets := by rw [h.rest]
  refine ⟨fun m a hit => ?_, lensAt_congr (by rw [h.rest]) hresets⟩
  by_cases hm : m = .dst
  · subst hm
    exact h.other a (by by_contra hin; exact hit ⟨rfl, by omega, by omega⟩)
  · refine peek_congr ?_ hresets a
    rw [h.rest]
    cases m with
    | dst => exact absurd rfl hm
    | _ => rfl

/-- Settles O54, by the frame of each command's body. -/
theorem outputFrames : Obligations.OutputFrames := by
  intro i s t hi h
  obtain ⟨u, hu, ht⟩ := exec_withReport (commandBody_outputFrame (or_assoc.2 hi)) h
  rw [ht]
  refine ⟨?frame, hu.append, hu.block, hu.mono, hu.reads⟩
  case frame =>
    rw [hu.rest]
    rfl

end Sys2Proof.Machine
end

