-- ==== Sys2Proof/Proofs/BufferBytes.lean ====
section
/-! SUPPORT. The bytes of the cursor buffer as the values that whole-byte reads answer, reads at a given cursor position,
and what leaves the buffer alone (20_memory.md R74, R77, 41_bitcursor.md R151, R152). -/

namespace Sys2Proof.Machine

/-! ### Values of several bits -/

/-- The value of m + n bits is that of the first m and, above them, that of the other n (R151). -/
theorem State.bitsFrom_add (s : State) (m n : Nat) :
    ∀ p, s.bitsFrom p (m + n) = s.bitsFrom p m + 2 ^ m * s.bitsFrom (p + m) n := by
  induction m with
  | zero => simp [State.bitsFrom]
  | succ m ih =>
    intro p
    rw [Nat.succ_add, State.bitsFrom, State.bitsFrom, ih, Nat.add_assoc p 1 m, Nat.add_comm 1 m, pow_succ]
    ring

/-- Eight bits from a byte boundary are the byte (R77). -/
theorem State.bitsFrom_byte (s : State) (a : Nat) : s.bitsFrom (8 * a) 8 = (s.peek s.bufSpace a).toNat := by
  refine Nat.eq_of_testBit_eq fun k => ?_
  rw [s.testBit_bitsFrom]
  by_cases hk : k < 8
  · have hbyte : (8 * a + k) / 8 = a := by omega
    have hbit : (8 * a + k) % 8 = k := by omega
    rw [State.bufBit, hbyte, hbit, decide_eq_true hk, Bool.true_and]
    rfl
  · rw [decide_eq_false hk, Bool.false_and, Nat.testBit_lt_two_pow]
    exact (s.peek s.bufSpace a).isLt.trans_le (Nat.pow_le_pow_right (by decide) (by omega))

/-- The little-endian halfword at byte a of the buffer (R79). -/
def State.bufHalf (s : State) (a : Nat) : Nat := (s.peek s.bufSpace a).toNat + 256 * (s.peek s.bufSpace (a + 1)).toNat

/-- Sixteen bits from a byte boundary are the halfword (R77). -/
theorem State.bitsFrom_half (s : State) (a : Nat) : s.bitsFrom (8 * a) 16 = s.bufHalf a := by
  rw [s.bitsFrom_add 8 8, ← Nat.mul_succ, s.bitsFrom_byte, s.bitsFrom_byte]
  rfl

theorem State.bufHalf_lt (s : State) (a : Nat) : s.bufHalf a < 2 ^ 16 := by
  have h0 := (s.peek s.bufSpace a).isLt
  have h1 := (s.peek s.bufSpace (a + 1)).isLt
  unfold State.bufHalf
  omega

/-- A value in the low bits and another one above them. -/
theorem or_shiftLeft_eq_add {n x : Nat} (h : x < 2 ^ n) (y : Nat) : x ||| y <<< n = x + 2 ^ n * y := by
  rw [Nat.or_comm, ← Nat.shiftLeft_add_eq_or_of_lt h, Nat.shiftLeft_eq, Nat.add_comm, Nat.mul_comm]

/-! ### Reads at a position -/

theorem readBits_setBitPos {s : State} {p n : Nat} (hb : s.bufLen ≤ 2 ^ 28) (h : p + n ≤ 8 * s.bufLen) :
    readBits n (s.setBitPos p) = .ok (s.bitsFrom p n) (s.setBitPos (p + n)) := by
  have hpos : (s.setBitPos p).bitPos.toNat = p := State.bitPos_setBitPos (by omega)
  have hread := readBits_ok (s := s.setBitPos p) (n := n) hb (by rw [hpos]; exact h)
  rwa [hpos, s.bitsFrom_setBitPos, State.setBitPos_setBitPos] at hread

theorem readBits_setBitPos_short {s : State} {p n : Nat} (hp : p < 2 ^ 32) (h : 8 * s.bufLen < p + n) :
    readBits n (s.setBitPos p) = .error ⟨.outOfData, BitVec.ofNat 32 n⟩ (s.setBitPos p) :=
  readBits_error (by rw [State.bitPos_setBitPos hp]; exact h)

/-- Align moves to byte `(BIT_POS + 7) div 8` (R152). -/
theorem align_ok (s : State) : align s = .ok () (s.setBitPos (8 * ((s.bitPos.toNat + 7) / 8))) := by
  rw [align, update_apply, Nat.mul_comm]

/-- A micro-step that raises ends the rest. -/
theorem bind_error {α β : Type} {x : Act α} {f : α → Act β} {s t : State} {r : Raise} (h : x s = .error r t) :
    (x >>= f) s = .error r t := by
  rw [bind_apply, h]

/-! ### The same buffer -/

/-- The cursor buffer is the same: its length and its bits. -/
structure SameBuffer (s t : State) : Prop where
  len : t.bufLen = s.bufLen
  bit : ∀ p, t.bufBit p = s.bufBit p

section Same

variable {s t : State} {codes : List (Nat × Nat)} {p q : Nat}

theorem SameBuffer.bitsFrom (h : SameBuffer s t) (n : Nat) : ∀ p, t.bitsFrom p n = s.bitsFrom p n := by
  induction n with
  | zero => exact fun _ => rfl
  | succ n ih =>
    intro p
    rw [State.bitsFrom, State.bitsFrom, h.bit, ih]

theorem SameBuffer.codeBits (h : SameBuffer s t) (p n : Nat) : t.codeBits p n = s.codeBits p n := by
  induction n with
  | zero => rfl
  | succ n ih => rw [State.codeBits, State.codeBits, h.bit, ih]

theorem SameBuffer.showsSymbol (h : SameBuffer s t) {x : Nat} (hx : s.showsSymbol codes x p q) :
    t.showsSymbol codes x p q := by
  obtain ⟨l, c, hc, hl, hbits, hq⟩ := hx
  exact ⟨l, c, hc, hl, (h.codeBits p l).trans hbits, hq⟩

theorem SameBuffer.showsLen (h : SameBuffer s t) {k : LenToken} (hk : s.showsLen codes p q k) : t.showsLen codes p q k := by
  have hrepeat {x n e : Nat} : (∃ a, s.showsSymbol codes x p a ∧ s.bitsFrom a n = e ∧ q = a + n) →
      ∃ a, t.showsSymbol codes x p a ∧ t.bitsFrom a n = e ∧ q = a + n :=
    fun ⟨a, hx, he, hq⟩ => ⟨a, h.showsSymbol hx, (h.bitsFrom n a).trans he, hq⟩
  cases k with
  | length l => exact ⟨hk.1, h.showsSymbol hk.2⟩
  | previous e => exact hrepeat hk
  | zeros e => exact hrepeat hk
  | manyZeros e => exact hrepeat hk

theorem SameBuffer.showsLens (h : SameBuffer s t) {toks : List LenToken} :
    ∀ {p : Nat}, s.showsLens codes p toks q → t.showsLens codes p toks q := by
  induction toks with
  | nil => exact fun hp => hp
  | cons k ks ih =>
    rintro p ⟨r, hk, hks⟩
    exact ⟨r, h.showsLen hk, ih hks⟩

end Same

end Sys2Proof.Machine
end

