-- ==== Sys2Proof/Proofs/ZlibStream.lean ====
section
/-! SUPPORT. The zlib header's checks, and the trailer byte by byte with its check against the output
(44_dispatcher.md R210, R215, R218, R222). -/

namespace Sys2Proof.Machine

/-! ### The fields of the header -/

theorem low_nibble_ne_iff (x : Byte) : x.extractLsb' 0 4 ≠ 8 ↔ x.toNat % 16 ≠ 8 := by
  rw [ne_eq, ← BitVec.toNat_inj, BitVec.extractLsb'_toNat, Nat.shiftRight_zero]
  rfl

theorem high_nibble_gt_iff (x : Byte) : (x.extractLsb' 4 4).toNat > 7 ↔ 7 < x.toNat / 16 := by
  have hx := x.isLt
  rw [BitVec.extractLsb'_toNat, Nat.shiftRight_eq_div_pow, Nat.mod_eq_of_lt (by omega)]

theorem preset_bit_iff (x : Byte) : x.getLsbD 5 = true ↔ x.toNat / 32 % 2 = 1 := by
  rw [BitVec.getLsbD, Nat.testBit_eq_decide_div_mod_eq, decide_eq_true_iff]

/-- ZHDR as the host reads it (10_state.md R41). -/
theorem ZhdrReg.word_eq (z : ZhdrReg) : z.word = BitVec.ofNat 32 (z.cmf.toNat + 256 * z.flg.toNat) := by
  have hc := z.cmf.isLt
  have hf := z.flg.isLt
  refine BitVec.eq_of_toNat_eq ?_
  rw [ZhdrReg.word, BitVec.toNat_append, BitVec.toNat_append, BitVec.toNat_zero, Nat.zero_shiftLeft, Nat.zero_or,
    Nat.or_comm, or_shiftLeft_eq_add hc, BitVec.toNat_ofNat, Nat.mod_eq_of_lt (by omega)]
  rfl

/-! ### The checks -/

/-- How a command ends that begins with a check: by the check's error, or as the rest of its body (60_exceptions.md R272). -/
theorem finish_check_bind {bad bad' : Prop} [Decidable bad] [Decidable bad'] (h : bad ↔ bad') (c : ErrCode) (d : Nat)
    (f : Unit → Act Unit) (s : State) :
    finish ((check bad c d >>= f) s) = if bad' then s.errorEntry ⟨c, BitVec.ofNat 32 d⟩ else finish (f () s) := by
  by_cases hbad : bad
  · rw [check_bind_fail hbad, if_pos (h.1 hbad), finish]
  · rw [check_bind_pass hbad, if_neg fun hb => hbad (h.2 hb)]

/-- A header that passes the five checks is captured, and the cursor stands after it (R210). -/
theorem zlibHeader_ok {s : State} (hlen : 3 ≤ s.bufLen) (h : zlibHeaderOk (s.peek s.bufSpace 0) (s.peek s.bufSpace 1)) :
    zlibHeader s = .ok () { s with zhdr := ⟨s.peek s.bufSpace 0, s.peek s.bufSpace 1⟩, bitPos := 16 } := by
  obtain ⟨hsum, hmethod, hwindow, hpreset⟩ := h
  rw [zlibHeader, getState_bind, check_bind_pass (by omega), check_bind_pass (by omega),
    check_bind_pass (by simpa using hmethod), check_bind_pass (by omega), check_bind_pass (by simpa using hpreset)]
  rfl

/-- Settles O32, check by check. -/
theorem zlibHeaderResult : Obligations.ZlibHeaderResult := by
  refine ⟨by decide, fun s => ⟨congrArg Host.Outcome.next ?run, ZhdrReg.word_eq _⟩⟩
  case run =>
    have hdata : (s.peek s.bufSpace 0).toNat ||| (s.peek s.bufSpace 1).toNat <<< 8 =
        (s.peek s.bufSpace 0).toNat + 256 * (s.peek s.bufSpace 1).toNat := or_shiftLeft_eq_add (BitVec.isLt _) _
    show finish (zlibHeader s) = _
    rw [zlibHeader, getState_bind, finish_check_bind Iff.rfl, hdata, finish_check_bind Iff.rfl,
      finish_check_bind (low_nibble_ne_iff _), finish_check_bind (high_nibble_gt_iff _),
      finish_check_bind (preset_bit_iff _)]
    rfl

/-! ### The trailer's bytes -/

/-- The k bytes of the buffer from byte a on, most significant first, below the bytes that make t (R215). -/
def State.bigEndian (s : State) : Nat → Nat → Nat → Nat
  | _, 0, t => t
  | a, k + 1, t => s.bigEndian (a + 1) k (2 ^ 8 * t + (s.peek s.bufSpace a).toNat)

/-- Reading the trailer's bytes from a byte boundary (R215). -/
theorem trailerBytes_ok {s : State} (hb : s.bufLen ≤ 2 ^ 28) (k : Nat) : ∀ a t, a + k ≤ s.bufLen →
    trailerBytes k t (s.setBitPos (8 * a)) = .ok (s.bigEndian a k t) (s.setBitPos (8 * (a + k))) := by
  induction k with
  | zero => exact fun _ _ _ => rfl
  | succ k ih =>
    intro a t h
    have hbyte : t <<< 8 ||| (s.peek s.bufSpace a).toNat = 2 ^ 8 * t + (s.peek s.bufSpace a).toNat := by
      rw [Nat.or_comm, or_shiftLeft_eq_add (BitVec.isLt _), Nat.add_comm]
    rw [trailerBytes, bind_ok (readBits_setBitPos hb (by omega)), s.bitsFrom_byte, hbyte, ← Nat.mul_succ, ih _ _ (by omega),
      Nat.succ_add_eq_add_succ]
    rfl

/-- With no byte left, the first of the reads raises (R151). -/
theorem trailerBytes_none {s : State} {a : Nat} (ha : a < 2 ^ 29) (h : s.bufLen ≤ a) (k t : Nat) :
    trailerBytes (k + 1) t (s.setBitPos (8 * a)) = .error ⟨.outOfData, 8⟩ (s.setBitPos (8 * max a s.bufLen)) := by
  rw [trailerBytes, bind_error (readBits_setBitPos_short (by omega) (by omega)), Nat.max_eq_left h]
  rfl

/-- A trailer cut short: the bytes that are present are consumed (R222). -/
theorem trailerBytes_short {s : State} (hb : s.bufLen ≤ 2 ^ 28) (k : Nat) : ∀ a t, a < 2 ^ 29 → s.bufLen < a + (k + 1) →
    trailerBytes (k + 1) t (s.setBitPos (8 * a)) = .error ⟨.outOfData, 8⟩ (s.setBitPos (8 * max a s.bufLen)) := by
  induction k with
  | zero => exact fun a t ha h => trailerBytes_none ha (by omega) 0 t
  | succ k ih =>
    intro a t ha h
    rcases Nat.lt_or_ge a s.bufLen with hin | hout
    · rw [trailerBytes, bind_ok (readBits_setBitPos hb (by omega)), ← Nat.mul_succ, ih _ _ (by omega) (by omega),
        Nat.max_eq_right (by omega), Nat.max_eq_right (by omega)]
    · exact trailerBytes_none ha hout (k + 1) t

/-- The state once the trailer is read and the output's checksum computed (R215). -/
def State.withAdler (s : State) (found : Word) : State := { s with adlerTrailer := found, adlerCalc := s.outputAdler }

section Check

variable {s : State} {a : Nat} (hb : s.bufLen ≤ 2 ^ 28) (hp : s.bitPos.toNat ≤ 2 ^ 31) (ha : (s.bitPos.toNat + 7) / 8 = a)

include hb ha

/-- A trailer that is there is compared with the checksum of the output (R215). -/
theorem trailer_read (h : a + 4 ≤ s.bufLen) :
    trailer s = check (BitVec.ofNat 32 (s.bigEndian a 4 0) ≠ s.outputAdler) .checksumMismatch s.outputAdler.toNat
      ((s.setBitPos (8 * (a + 4))).withAdler (BitVec.ofNat 32 (s.bigEndian a 4 0))) := by
  rw [trailer, bind_ok (align_ok s), ha, bind_ok (trailerBytes_ok hb 4 a 0 h)]
  rfl

theorem trailer_ok (h : a + 4 ≤ s.bufLen) (hsum : BitVec.ofNat 32 (s.bigEndian a 4 0) = s.outputAdler) :
    trailer s = .ok () ((s.setBitPos (8 * (a + 4))).withAdler (BitVec.ofNat 32 (s.bigEndian a 4 0))) := by
  rw [trailer_read hb ha h, check_apply, if_neg (not_not.2 hsum)]

theorem trailer_mismatch (h : a + 4 ≤ s.bufLen) (hsum : BitVec.ofNat 32 (s.bigEndian a 4 0) ≠ s.outputAdler) :
    trailer s = .error ⟨.checksumMismatch, s.outputAdler⟩
      ((s.setBitPos (8 * (a + 4))).withAdler (BitVec.ofNat 32 (s.bigEndian a 4 0))) := by
  rw [trailer_read hb ha h, check_apply, if_pos hsum, BitVec.ofNat_toNat, BitVec.setWidth_eq]

include hp

theorem trailer_short (h : s.bufLen < a + 4) :
    trailer s = .error ⟨.outOfData, 8⟩ (s.setBitPos (8 * max a s.bufLen)) := by
  rw [trailer, bind_ok (align_ok s), ha, bind_error (trailerBytes_short hb 3 a 0 (by omega) h)]

end Check

/-- The four bytes of a trailer as one number. -/
theorem State.bigEndian_four (s : State) (a : Nat) : s.bigEndian a 4 0 =
    2 ^ 24 * (s.peek s.bufSpace a).toNat + 2 ^ 16 * (s.peek s.bufSpace (a + 1)).toNat +
      2 ^ 8 * (s.peek s.bufSpace (a + 2)).toNat + (s.peek s.bufSpace (a + 3)).toNat := by
  simp only [State.bigEndian, Nat.add_assoc, Nat.reduceAdd]
  omega

/-- Settles O37, by whether the trailer is there and what it holds. -/
theorem trailerResult : Obligations.TrailerResult := by
  refine ⟨by decide, fun s hs => ?_⟩
  dsimp only
  rw [← s.bigEndian_four]
  exact ⟨fun h hsum => runCommand_ok (trailer_ok hs.bufLen_le rfl h hsum),
    fun h hsum => runCommand_error (trailer_mismatch hs.bufLen_le rfl h hsum),
    fun h => runCommand_error (trailer_short hs.bufLen_le hs.bitPos rfl h)⟩

end Sys2Proof.Machine
end

