-- ==== Sys2Proof/Proofs/Block.lean ====
section
/-! SUPPORT. A stored block, its length fields, its checks and its bytes in DST; and any block, its header, its body by its
type, and its end (44_dispatcher.md R211, R212, R216, R219, R220). -/

namespace Sys2Proof.Machine

/-! ### The copy -/

/-- What a stored block does once its length fields agree: two checks and the copy (R212). -/
def storedCopy (len : Nat) : Act Unit := do
  let s ← getState
  check (s.bitPos.toNat / 8 + len > s.bufLen) .outOfData (8 * len % 2 ^ 32)
  check (s.outPos.toNat + len > s.dstCap.toNat) .outputOverflow 0
  update (blit s.bufSpace .dst len (s.bitPos.toNat / 8) s.outPos.toNat)
  update fun s => s.setOutPos (s.outPos.toNat + len)
  update fun s => s.setBitPos (s.bitPos.toNat + 8 * len)

/-- The cursor buffer is SRC or CAT, never DST (20_memory.md R74). -/
theorem State.bufSpace_ne_dst (s : State) : s.bufSpace ≠ .dst := by
  unfold State.bufSpace
  split <;> decide

/-- t is s after `len` bytes of the buffer from byte c on were moved to DST at OUT_POS (R212). -/
structure StoredMove (s : State) (c len : Nat) (t : State) : Prop where
  rest : t = { s with bitPos := t.bitPos, outPos := t.outPos, dst := t.dst }
  bitPos : t.bitPos.toNat = 8 * (c + len)
  outPos : t.outPos.toNat = s.outPos.toNat + len
  copied : ∀ k, k < len → t.peek .dst (s.outPos.toNat + k) = s.peek s.bufSpace (c + k)
  other : ∀ b, b < s.outPos.toNat ∨ s.outPos.toNat + len ≤ b → t.peek .dst b = s.peek .dst b

section Copy

variable {s : State} {c len : Nat} (hc : s.bitPos.toNat = 8 * c)

include hc

theorem storedCopy_short (h : s.bufLen < c + len) :
    storedCopy len s = .error ⟨.outOfData, BitVec.ofNat 32 (8 * len % 2 ^ 32)⟩ s := by
  rw [storedCopy, getState_bind, check_bind_fail (by omega)]

theorem storedCopy_overflow (h : c + len ≤ s.bufLen) (ho : s.dstCap.toNat < s.outPos.toNat + len) :
    storedCopy len s = .error ⟨.outputOverflow, 0⟩ s := by
  rw [storedCopy, getState_bind, check_bind_pass (by omega), check_bind_fail ho]
  rfl

theorem storedCopy_ok (hb : s.bufLen ≤ 2 ^ 28) (h : c + len ≤ s.bufLen) (ho : s.outPos.toNat + len ≤ s.dstCap.toNat) :
    ∃ t, storedCopy len s = .ok () t ∧ StoredMove s c len t := by
  have hcap := s.dstCap.isLt
  have hbyte : s.bitPos.toNat / 8 = c := by omega
  have hrun : storedCopy len s = .ok () (((blit s.bufSpace .dst len c s.outPos.toNat s).setOutPos
      (s.outPos.toNat + len)).setBitPos (8 * (c + len))) := by
    rw [storedCopy, getState_bind, check_bind_pass (by omega), check_bind_pass (by omega), update_bind, update_bind,
      update_apply, hbyte, blit_dst_eq, Nat.mul_add, ← hc]
    rfl
  refine ⟨_, hrun, ?rest, State.bitPos_setBitPos (by omega), Nat.mod_eq_of_lt (by omega),
    fun k hk => blit_at _ .dst s.bufSpace_ne_dst len c _ k s hk, fun b hb => blit_other _ .dst .dst len c _ b s (.inr hb)⟩
  case rest =>
    rw [blit_dst_eq]
    rfl

end Copy

/-! ### The whole block -/

/-- The state once LEN and NLEN are read, the first at byte a, and LEN is captured (R212). -/
def State.afterStoredLens (s : State) (a len : Nat) : State :=
  { s with bitPos := BitVec.ofNat 32 (8 * a + 32), block := { s.block with len := BitVec.ofNat 16 len } }

theorem State.bitPos_afterStoredLens {s : State} {a len : Nat} (hb : s.bufLen ≤ 2 ^ 28) (h : a + 4 ≤ s.bufLen) :
    (s.afterStoredLens a len).bitPos.toNat = 8 * (a + 4) := by
  have hpos : (s.afterStoredLens a len).bitPos.toNat = 8 * a + 32 := Nat.mod_eq_of_lt (by omega)
  omega

/-- The length fields at byte a are those of a block that fits the buffer and DST (R212). -/
structure State.StoredFits (s : State) (a : Nat) : Prop where
  nlen : s.bufHalf (a + 2) = 0xFFFF - s.bufHalf a
  buffer : a + 4 + s.bufHalf a ≤ s.bufLen
  output : s.outPos.toNat + s.bufHalf a ≤ s.dstCap.toNat

section Stored

variable {s : State} {a : Nat} (hb : s.bufLen ≤ 2 ^ 28) (ha : (s.bitPos.toNat + 7) / 8 = a)

include ha

theorem stored_noLen (hp : s.bitPos.toNat ≤ 2 ^ 31) (h : s.bufLen < a + 2) :
    stored s = .error ⟨.outOfData, 16⟩ (s.setBitPos (8 * a)) := by
  rw [stored_unfold, bind_ok (align_ok s), ha, bind_error (readBits_setBitPos_short (by omega) (by omega))]
  rfl

include hb

theorem stored_noNlen (h : a + 2 ≤ s.bufLen) (h' : s.bufLen < a + 4) :
    stored s = .error ⟨.outOfData, 16⟩ (s.setBitPos (8 * a + 16)) := by
  rw [stored_unfold, bind_ok (align_ok s), ha, bind_ok (readBits_setBitPos hb (by omega)),
    bind_error (readBits_setBitPos_short (by omega) (by omega))]
  rfl

/-- With both length fields there, LEN is captured and NLEN checked, and then the bytes are copied (R212). -/
theorem stored_eq_copy (h : a + 4 ≤ s.bufLen) : stored s = (do
    check (s.bufHalf (a + 2) ≠ 0xFFFF - s.bufHalf a) .storedBlockLengthMismatch (s.bufHalf a ||| s.bufHalf (a + 2) <<< 16)
    storedCopy (s.bufHalf a)) (s.afterStoredLens a (s.bufHalf a)) := by
  have hnext : 8 * a + 16 = 8 * (a + 2) := by omega
  rw [stored_unfold, bind_ok (align_ok s), ha, bind_ok (readBits_setBitPos hb (by omega)), s.bitsFrom_half, hnext,
    bind_ok (readBits_setBitPos hb (by omega)), s.bitsFrom_half]
  rfl

theorem stored_mismatch (h : a + 4 ≤ s.bufLen) (hn : s.bufHalf (a + 2) ≠ 0xFFFF - s.bufHalf a) :
    stored s = .error ⟨.storedBlockLengthMismatch, BitVec.ofNat 32 (s.bufHalf a + 65536 * s.bufHalf (a + 2))⟩
      (s.afterStoredLens a (s.bufHalf a)) := by
  rw [stored_eq_copy hb ha h, check_bind_fail hn, or_shiftLeft_eq_add (s.bufHalf_lt a)]
  rfl

/-- A stored block that fits moves its bytes to DST (R212). -/
theorem stored_ok (h : s.StoredFits a) :
    ∃ t, stored s = .ok () t ∧ StoredMove (s.afterStoredLens a (s.bufHalf a)) (a + 4) (s.bufHalf a) t := by
  obtain ⟨hn, hbuf, hout⟩ := h
  rw [stored_eq_copy hb ha (by omega), check_bind_pass (not_not.2 hn)]
  exact storedCopy_ok (State.bitPos_afterStoredLens hb (by omega)) hb hbuf hout

variable (hn : s.bufHalf (a + 2) = 0xFFFF - s.bufHalf a)

include hn

theorem stored_short (h : a + 4 ≤ s.bufLen) (hs : s.bufLen < a + 4 + s.bufHalf a) :
    stored s = .error ⟨.outOfData, BitVec.ofNat 32 (8 * s.bufHalf a)⟩ (s.afterStoredLens a (s.bufHalf a)) := by
  have hlen := s.bufHalf_lt a
  rw [stored_eq_copy hb ha h, check_bind_pass (not_not.2 hn), storedCopy_short (State.bitPos_afterStoredLens hb h) hs,
    Nat.mod_eq_of_lt (by omega)]

theorem stored_overflow (h : a + 4 + s.bufHalf a ≤ s.bufLen) (ho : s.dstCap.toNat < s.outPos.toNat + s.bufHalf a) :
    stored s = .error ⟨.outputOverflow, 0⟩ (s.afterStoredLens a (s.bufHalf a)) := by
  rw [stored_eq_copy hb ha (by omega), check_bind_pass (not_not.2 hn),
    storedCopy_overflow (State.bitPos_afterStoredLens hb (by omega)) h ho]

end Stored

/-! ### DF_STORED -/

/-- What a body keeps holds up to the state its report is put on (60_exceptions.md R270, R272). -/
theorem runCommand_withReport {R : State → State → Prop} {x : Act Unit} {s t : State} (hx : Act.Keeps R x)
    (h : runCommand x s = .next t) : ∃ u, R s u ∧ t = u.withReport t :=
  hx.finish (R' := fun s t => ∃ u, R s u ∧ t = u.withReport t) (fun _ u hu => ⟨u, hu, rfl⟩) (fun _ _ u hu => ⟨u, hu, rfl⟩) h

/-- A body that ends by putting OUT_POS in RESULT. -/
theorem runCommand_resultOutPos_ok {x : Act Unit} {s t : State} (h : x s = .ok () t) :
    runCommand (do x; resultOutPos) s = .next { t with result := t.outPos }.complete :=
  runCommand_ok (by rw [bind_ok h]; rfl)

/-- It leaves RESULT where the body raises. -/
theorem runCommand_resultOutPos_error {x : Act Unit} {s t : State} {r : Raise} (h : x s = .error r t) :
    runCommand (do x; resultOutPos) s = .next (t.errorEntry r) :=
  runCommand_error (bind_error h)

/-- Settles O33, by the checks in their order and the move of a block that passes them. -/
theorem storedResult : Obligations.StoredResult := by
  refine ⟨by decide, fun s hs => ?_⟩
  have hb := hs.bufLen_le
  refine ⟨fun h => runCommand_resultOutPos_error (stored_noLen rfl hs.bitPos h),
    fun h h' => runCommand_resultOutPos_error (stored_noNlen hb rfl h h'), fun hfit => ⟨
      fun hn => runCommand_resultOutPos_error (stored_mismatch hb rfl hfit hn),
      fun hn h => runCommand_resultOutPos_error (stored_short hb rfl hn hfit h),
      fun hn h ho => runCommand_resultOutPos_error (stored_overflow hb rfl hn h ho), fun hn h ho => ?moved⟩⟩
  case moved =>
    obtain ⟨t, ht, hmove⟩ := stored_ok hb rfl ⟨hn, h, ho⟩
    refine ⟨_, runCommand_resultOutPos_ok ht, ?_, hmove.bitPos, hmove.outPos, hmove.copied, hmove.other⟩
    rw [hmove.rest]
    rfl

/-! ### The header and the end of a block -/

/-- The state once the header's three bits are read and captured (R211). -/
def State.afterHeader (s : State) (btype : BitVec 2) : State :=
  { s with
    bitPos := BitVec.ofNat 32 (s.bitPos.toNat + 3)
    block := { s.block with bfinal := s.bufBit s.bitPos.toNat, btype := btype } }

/-- The state once a block has completed (R216). -/
def State.endBlock (t : State) (bfinal : Bool) : State :=
  { t with status := { t.status with final := bfinal }, blockCount := t.blockCount + 1 }

/-- What follows the body of a block (R216). -/
def blockEnd (bfinal : Bool) : Act Unit := do
  update fun s => { s with status := { s.status with final := bfinal } }
  update fun s => { s with blockCount := s.blockCount + 1 }

theorem blockEnd_apply (bfinal : Bool) (t : State) : blockEnd bfinal t = .ok () (t.endBlock bfinal) := rfl

theorem block_unfold : block = (do
    let h ← blockHeader
    blockBody h.2
    blockEnd h.1) := rfl

/-- A block type from its two bits (R211, 30_encoding.md R117). -/
theorem State.bitsFrom_two (s : State) (p : Nat) : s.bitsFrom p 2 = (s.bufBit p).toNat + 2 * (s.bufBit (p + 1)).toNat := rfl

section Header

variable {s : State}

theorem block_noFinal (h : s.bufLen ≤ s.bitPos.toNat / 8) : block s = .error ⟨.outOfData, 1⟩ s := by
  rw [block_unfold, blockHeader, bind_error (bind_error (readBit_error h))]

theorem block_noType (hb : s.bufLen ≤ 2 ^ 28) (h : s.bitPos.toNat < 8 * s.bufLen) (h' : 8 * s.bufLen < s.bitPos.toNat + 3) :
    block s = .error ⟨.outOfData, 2⟩ (s.setBitPos (s.bitPos.toNat + 1)) := by
  rw [block_unfold, blockHeader]
  refine bind_error ?_
  rw [bind_ok (readBit_ok (by omega)), bind_error (readBits_setBitPos_short (by omega) (by omega))]
  rfl

variable {b1 b2 : Bool} (hb : s.bufLen ≤ 2 ^ 28) (h : s.bitPos.toNat + 3 ≤ 8 * s.bufLen)
  (h1 : s.bufBit (s.bitPos.toNat + 1) = b1) (h2 : s.bufBit (s.bitPos.toNat + 2) = b2)

include hb h h1 h2

/-- With its header there, a block is its body by its type and its end (R216). -/
theorem block_eq_body : block s = (do
    blockBody (b1.toNat + 2 * b2.toNat)
    blockEnd (s.bufBit s.bitPos.toNat)) (s.afterHeader (BitVec.ofNat 2 (b1.toNat + 2 * b2.toNat))) := by
  rw [block_unfold, bind_ok (blockHeader_ok hb h), s.bitsFrom_two, h1, h2]
  rfl

variable {t : State}

theorem block_ok
    (hx : blockBody (b1.toNat + 2 * b2.toNat) (s.afterHeader (BitVec.ofNat 2 (b1.toNat + 2 * b2.toNat))) = .ok () t) :
    block s = .ok () (t.endBlock (s.bufBit s.bitPos.toNat)) := by
  rw [block_eq_body hb h h1 h2, bind_ok hx, blockEnd_apply]

theorem block_error {r : Raise}
    (hx : blockBody (b1.toNat + 2 * b2.toNat) (s.afterHeader (BitVec.ofNat 2 (b1.toNat + 2 * b2.toNat))) = .error r t) :
    block s = .error r t := by
  rw [block_eq_body hb h h1 h2, bind_error hx]

end Header

/-- A block whose three header bits end before byte a and that has type 0: its length fields stand at byte a (R212). -/
theorem block_stored {s : State} {a : Nat} (hb : s.bufLen ≤ 2 ^ 28) (h : s.bitPos.toNat + 3 ≤ 8 * s.bufLen)
    (h1 : s.bufBit (s.bitPos.toNat + 1) = false) (h2 : s.bufBit (s.bitPos.toNat + 2) = false)
    (ha : (s.bitPos.toNat + 10) / 8 = a) (hfits : s.StoredFits a) :
    ∃ t, block s = .ok () (t.endBlock (s.bufBit s.bitPos.toNat)) ∧
      StoredMove ((s.afterHeader 0).afterStoredLens a (s.bufHalf a)) (a + 4) (s.bufHalf a) t := by
  have hpos : (s.afterHeader 0).bitPos.toNat = s.bitPos.toNat + 3 := Nat.mod_eq_of_lt (by omega)
  obtain ⟨t, ht, hmove⟩ := stored_ok (s := s.afterHeader 0) hb (by rw [hpos]; exact ha)
    ⟨hfits.nlen, hfits.buffer, hfits.output⟩
  exact ⟨t, block_ok hb h h1 h2 ht, hmove⟩

/-! ### DF_BLOCK -/

/-- How DF_BLOCK ends, by what the body of its block answers (R219). -/
def endOfBlock (bfinal : Bool) : EStateM.Result Raise State Unit → Host.Outcome State Fault Refusal
  | .ok () t => .next { t.endBlock bfinal with result := t.outPos }.complete
  | .error r t => .next (t.errorEntry r)

theorem exec_dfBlock_eq {s : State} {b1 b2 : Bool} (hb : s.bufLen ≤ 2 ^ 28) (h : s.bitPos.toNat + 3 ≤ 8 * s.bufLen)
    (h1 : s.bufBit (s.bitPos.toNat + 1) = b1) (h2 : s.bufBit (s.bitPos.toNat + 2) = b2) :
    exec .dfBlock s = endOfBlock (s.bufBit s.bitPos.toNat)
      (blockBody (b1.toNat + 2 * b2.toNat) (s.afterHeader (BitVec.ofNat 2 (b1.toNat + 2 * b2.toNat)))) := by
  cases hx : blockBody (b1.toNat + 2 * b2.toNat) (s.afterHeader (BitVec.ofNat 2 (b1.toNat + 2 * b2.toNat))) with
  | ok _ t => exact runCommand_resultOutPos_ok (block_ok hb h h1 h2 hx)
  | error r t => exact runCommand_resultOutPos_error (block_error hb h h1 h2 hx)

/-- DF_BLOCK on a dynamic block: the header's error, or the end of the block's data (R216, R219). -/
theorem exec_dfBlock_dynamic {s : State} (hb : s.bufLen ≤ 2 ^ 28) (h : s.bitPos.toNat + 3 ≤ 8 * s.bufLen)
    (h1 : s.bufBit (s.bitPos.toNat + 1) = false) (h2 : s.bufBit (s.bitPos.toNat + 2) = true) :
    exec .dfBlock s =
      match dynHeader (s.afterHeader 2) with
      | .ok () u => endOfBlock (s.bufBit s.bitPos.toNat) (blockData .ll .dist u)
      | .error r u => .next (u.errorEntry r) := by
  have hbody : blockBody 2 = (do dynHeader; blockData .ll .dist) := rfl
  refine (exec_dfBlock_eq hb h h1 h2).trans ?_
  show endOfBlock _ (blockBody 2 (s.afterHeader 2)) = _
  rw [hbody]
  cases hx : dynHeader (s.afterHeader 2) with
  | ok _ u => rw [bind_ok hx]
  | error r u =>
    rw [bind_error hx]
    rfl

/-- How a command ends that puts OUT_POS in RESULT after its body, by what the body answers (R199). -/
def endWithOutPos : EStateM.Result Raise State Unit → Host.Outcome State Fault Refusal
  | .ok () t => .next { t with result := t.outPos }.complete
  | .error r t => .next (t.errorEntry r)

theorem runCommand_resultOutPos (x : Act Unit) (s : State) : runCommand (do x; resultOutPos) s = endWithOutPos (x s) := by
  cases hx : x s with
  | ok _ t => exact runCommand_resultOutPos_ok hx
  | error r t => exact runCommand_resultOutPos_error hx

/-- Settles O34, by the header's bits and the body each type has. -/
theorem blockResult : Obligations.BlockResult := by
  intro s hs
  have hb := hs.bufLen_le
  refine ⟨fun h => runCommand_resultOutPos_error (block_noFinal h),
    fun h h' => runCommand_resultOutPos_error (block_noType hb h h'), fun h h1 h2 => exec_dfBlock_eq hb h h1 h2,
    fun h h1 h2 ha hn hbuf hout => ?stored, fun h h1 h2 => exec_dfBlock_eq hb h h1 h2,
    fun h h1 h2 => exec_dfBlock_dynamic hb h h1 h2, ?dynHeader, fun fixed => runCommand_resultOutPos _ s⟩
  case stored =>
    obtain ⟨t, ht, hmove⟩ := block_stored hb h h1 h2 rfl ⟨hn, hbuf, hout⟩
    refine ⟨_, runCommand_resultOutPos_ok ht, ?_, hmove.bitPos, hmove.outPos, hmove.copied, hmove.other⟩
    rw [hmove.rest]
    rfl
  case dynHeader =>
    cases hx : dynHeader s with
    | ok _ t => exact runCommand_ok hx
    | error r t => exact runCommand_error hx

end Sys2Proof.Machine
end

