-- ==== Sys2Proof/Proofs/DynHeader.lean ====
section
/-! SUPPORT. DF_DYN_HEADER: its first three reads, its frame, and on a well-formed header the code-length lengths in the
permuted order, the sequence of code lengths token by token, and the three builds (44_dispatcher.md R213, R214, R221). -/

namespace Sys2Proof.Machine

/-! ### The counts -/

/-- HLIT of the dynamic header at bit p, offset added (R213). -/
def State.hlitAt (s : State) (p : Nat) : Nat := s.bitsFrom p 5 + 257

/-- HDIST of the dynamic header at bit p, offset added (R213). -/
def State.hdistAt (s : State) (p : Nat) : Nat := s.bitsFrom (p + 5) 5 + 1

/-- HCLEN of the dynamic header at bit p, offset added (R213). -/
def State.hclenAt (s : State) (p : Nat) : Nat := s.bitsFrom (p + 10) 4 + 4

theorem State.hlitAt_bounds (s : State) (p : Nat) : 257 ≤ s.hlitAt p ∧ s.hlitAt p ≤ 288 := by
  have := s.bitsFrom_lt 5 p
  unfold State.hlitAt
  omega

theorem State.hdistAt_bounds (s : State) (p : Nat) : 1 ≤ s.hdistAt p ∧ s.hdistAt p ≤ 32 := by
  have := s.bitsFrom_lt 5 (p + 5)
  unfold State.hdistAt
  omega

theorem State.hclenAt_le (s : State) (p : Nat) : s.hclenAt p ≤ 19 := by
  have := s.bitsFrom_lt 4 (p + 10)
  unfold State.hclenAt
  omega

/-- The state once the counts are in DYN, the cursor past them (R213). -/
def State.withCounts (s : State) : State :=
  { s with
    bitPos := BitVec.ofNat 32 (s.bitPos.toNat + 14)
    dyn := ⟨BitVec.ofNat 9 (s.hlitAt s.bitPos.toNat), BitVec.ofNat 6 (s.hdistAt s.bitPos.toNat),
      BitVec.ofNat 5 (s.hclenAt s.bitPos.toNat)⟩ }

section Counts

variable {s : State} (hb : s.bufLen ≤ 2 ^ 28)

include hb

/-- With its counts there, the header goes on to its tables, the code-length lengths set to 0 (R213). -/
theorem dynHeader_eq_tables (h : s.bitPos.toNat + 14 ≤ 8 * s.bufLen) : dynHeader s =
    dynTables (s.hlitAt s.bitPos.toNat) (s.hdistAt s.bitPos.toNat) (clOrder.take (s.hclenAt s.bitPos.toNat))
      (fillLens 0 19 0 s.withCounts) := by
  rw [dynHeader_unfold, bind_ok (readBits_ok hb (by omega)), bind_ok (readBits_setBitPos hb (by omega)),
    bind_ok (readBits_setBitPos hb (by omega)), update_bind, update_bind]
  rfl

/-- A header cut short in its counts raises OutOfData with the count of bits it wanted, the cursor alone moved (R213). -/
theorem dynHeader_short (hp : s.bitPos.toNat ≤ 2 ^ 31) (h : 8 * s.bufLen < s.bitPos.toNat + 14) :
    ∃ q, dynHeader s =
      .error ⟨.outOfData, if 8 * s.bufLen < s.bitPos.toNat + 10 then 5 else 4⟩ (s.setBitPos q) := by
  rw [dynHeader_unfold]
  by_cases h5 : 8 * s.bufLen < s.bitPos.toNat + 5
  · rw [bind_error (readBits_error h5), if_pos (by omega)]
    exact ⟨_, congrArg _ s.setBitPos_self.symm⟩
  rw [bind_ok (readBits_ok hb (by omega))]
  by_cases h10 : 8 * s.bufLen < s.bitPos.toNat + 10
  · rw [bind_error (readBits_setBitPos_short (by omega) (by omega)), if_pos h10]
    exact ⟨_, rfl⟩
  · rw [bind_ok (readBits_setBitPos hb (by omega)), bind_error (readBits_setBitPos_short (by omega) (by omega)), if_neg h10]
    exact ⟨_, rfl⟩

end Counts

/-! ### The frame of the tables -/

/-- Only what the tables of a dynamic header are made of differs, and LENS only below n (R213). -/
structure TablesFrame (n : Nat) (s t : State) : Prop where
  rest : t = { s with bitPos := t.bitPos, cl := t.cl, ll := t.ll, dist := t.dist, lens := t.lens }
  other : ∀ i, n ≤ i → t.lensAt i = s.lensAt i

theorem tablesFrame_isFrame (n : Nat) : IsFrame (TablesFrame n) where
  refl _ := ⟨rfl, fun _ _ => rfl⟩
  trans s t u h1 h2 := ⟨by rw [h2.rest, h1.rest], fun i hi => by rw [h2.other i hi, h1.other i hi]⟩

theorem TablesFrame.ofLens {m n : Nat} (hmn : m ≤ n) {s t : State} (h : LensFrame m s t) : TablesFrame n s t :=
  ⟨by rw [h.rest], fun i hi => h.other i (hmn.trans hi)⟩

theorem build_tablesFrame (n : Nat) (t : BuildTarget) (m base : Nat) : Act.Keeps (TablesFrame n) (build t m base) := by
  intro s
  cases h : overSubscribed (s.lensSnapshot m base) with
  | none =>
    rw [build_ok h]
    cases t <;> exact ⟨rfl, fun _ _ => rfl⟩
  | some L =>
    rw [build_error h]
    cases t <;> exact ⟨rfl, fun _ _ => rfl⟩

/-- The tables write LENS below 19 and below HLIT + HDIST (R213, R214). -/
theorem dynTables_tablesFrame (hlit hdist : Nat) {order : List Nat} (ho : ∀ c ∈ order, c < 19) :
    Act.Keeps (TablesFrame (max 19 (hlit + hdist))) (dynTables hlit hdist order) := by
  have hF := tablesFrame_isFrame (max 19 (hlit + hdist))
  refine .bind hF ((readClLens_keeps order ho).mono fun _ _ => .ofLens (le_max_left _ _)) fun _ =>
    .bind hF (build_tablesFrame _ .cl 18 0) fun _ => ?_
  refine .bind hF ((codeLengthsLoop_keeps _ _ 0).mono fun _ _ => .ofLens (le_max_right _ _)) fun _ =>
    .bind hF (build_tablesFrame _ .ll (hlit - 1) 0) fun _ => ?_
  exact .bind hF (build_tablesFrame _ .dist (hdist - 1) hlit) fun _ => .pure hF _

/-! ### DF_DYN_HEADER -/

section Command

variable {s t : State} (hs : s.Inv) (ht : exec .dfDynHeader s = .next t)

include hs ht

/-- A command cut short in the counts leaves all but the cursor and the report (R221). -/
theorem exec_dfDynHeader_short (h : 8 * s.bufLen < s.bitPos.toNat + 14) :
    ∃ q, t = (s.setBitPos q).errorEntry ⟨.outOfData, if 8 * s.bufLen < s.bitPos.toNat + 10 then 5 else 4⟩ := by
  obtain ⟨q, hq⟩ := dynHeader_short hs.bufLen_le hs.bitPos h
  exact ⟨q, Host.Outcome.next.inj (ht.symm.trans (runCommand_error hq))⟩

/-- A command that has read the counts ends with them in DYN, and has written LENS below 19 and below their sum (R221). -/
theorem exec_dfDynHeader_counts (h : s.bitPos.toNat + 14 ≤ 8 * s.bufLen) :
    t.dyn = s.withCounts.dyn ∧
      ∀ k, 19 ≤ k → s.hlitAt s.bitPos.toNat + s.hdistAt s.bitPos.toNat ≤ k → t.lensAt k = s.lensAt k := by
  have hrun : runCommand (dynTables _ _ _) (fillLens 0 19 0 s.withCounts) = .next t :=
    (congrArg (fun r => Host.Outcome.next (finish r)) (dynHeader_eq_tables hs.bufLen_le h).symm).trans ht
  obtain ⟨u, hu, hut⟩ := runCommand_withReport
    (dynTables_tablesFrame _ _ fun d hd => clOrder_lt d (List.mem_of_mem_take hd)) hrun
  have hdyn : u.dyn = s.withCounts.dyn := by rw [hu.rest, fillLens_eq]
  rw [hut]
  refine ⟨hdyn, fun k h19 hk => (hu.other k (max_le h19 hk)).trans ?_⟩
  rw [fillLens_lensAt, if_neg (by omega)]
  rfl

end Command

/-- The counts in DYN, as numbers (10_state.md R40). -/
theorem State.withCounts_dyn (s : State) : s.withCounts.dyn.hlit.toNat = s.hlitAt s.bitPos.toNat ∧
    s.withCounts.dyn.hdist.toNat = s.hdistAt s.bitPos.toNat ∧ s.withCounts.dyn.hclen.toNat = s.hclenAt s.bitPos.toNat := by
  have h1 := s.hlitAt_bounds s.bitPos.toNat
  have h2 := s.hdistAt_bounds s.bitPos.toNat
  have h3 := s.hclenAt_le s.bitPos.toNat
  exact ⟨Nat.mod_eq_of_lt (by omega), Nat.mod_eq_of_lt (by omega), Nat.mod_eq_of_lt (by omega)⟩

/-- Settles O36, by whether the three reads fit. -/
theorem dynHeaderCounts : Obligations.DynHeaderCounts := by
  intro s t hs ht
  refine ⟨fun h => ?counts, fun h => ?short⟩
  case counts =>
    rw [(exec_dfDynHeader_counts hs ht h).1]
    exact s.withCounts_dyn
  case short =>
    obtain ⟨q, rfl⟩ := exec_dfDynHeader_short hs ht h
    exact ⟨rfl, rfl, rfl, rfl⟩

/-- Settles O55, by the frame of the body, and of its tables where the counts are read. -/
theorem dynHeaderFrame : Obligations.DynHeaderFrame := by
  intro s t hs ht
  obtain ⟨u, hu, hut⟩ := exec_withReport (i := .dfDynHeader) dynHeader_keeps ht
  have hframe : t = { s.withReport t with
      bitPos := t.bitPos, dyn := t.dyn, cl := t.cl, ll := t.ll, dist := t.dist, lens := t.lens } := by
    rw [hut, hu.rest]
    rfl
  refine ⟨hframe, fun m a _ => peek_congr ?mem (by rw [hframe]; rfl) a, fun k h19 hk => ?lens⟩
  case mem =>
    rw [hframe]
    cases m <;> rfl
  case lens =>
    by_cases h : s.bitPos.toNat + 14 ≤ 8 * s.bufLen
    · obtain ⟨hdyn, hlens⟩ := exec_dfDynHeader_counts hs ht h
      rw [hdyn, s.withCounts_dyn.1, s.withCounts_dyn.2.1] at hk
      exact hlens k h19 hk
    · obtain ⟨q, rfl⟩ := exec_dfDynHeader_short hs ht (by omega)
      rfl

/-! ### LENS -/

/-- The state with LENS replaced. -/
def State.withLens (s : State) (m : LensMemory) : State := { s with lens := m }

/-- LENS begins with the list. -/
def State.holdsLens (s : State) (lens : List Nibble) : Prop := ∀ i, i < lens.length → s.lensAt i = lens.getD i 0

/-- A build's snapshot of what LENS is known to hold (42_huffman.md R177). -/
theorem State.holdsLens.snapshot {s : State} {lens : List Nibble} (h : s.holdsLens lens) {m base : Nat}
    (hm : base + m + 1 ≤ lens.length) : s.lensSnapshot m base = (lens.drop base).take (m + 1) := by
  refine List.ext_getElem (by simp [State.lensSnapshot]; omega) fun i h1 h2 => ?_
  rw [lensSnapshot_length] at h1
  have hi := h (base + i) (by omega)
  rw [List.getD_eq_getElem _ _ (by omega)] at hi
  simp [State.lensSnapshot, hi]

theorem fillLens_setBitPos (v : Nibble) (r i p : Nat) (s : State) :
    fillLens v r i (s.setBitPos p) = (s.withLens (fillLens v r i s).lens).setBitPos p := by
  induction r generalizing i s with
  | zero => rfl
  | succ r ih => exact ih (i + 1) (s.setLens i v)

theorem State.lensAt_withLens_fill (s : State) (v : Nibble) (r i j : Nat) :
    (s.withLens (fillLens v r i s).lens).lensAt j = if i ≤ j ∧ j < i + r then v else s.lensAt j := by
  have hfill : fillLens v r i s = s.withLens (fillLens v r i s).lens := fillLens_eq v r i s
  rw [← hfill, fillLens_lensAt]

/-- LENS after a run of one length behind the lengths so far. -/
theorem State.holdsLens.fill {s : State} {lens : List Nibble} (h : s.holdsLens lens) (v : Nibble) (r : Nat) :
    (s.withLens (fillLens v r lens.length s).lens).holdsLens (lens ++ List.replicate r v) := by
  intro i hi
  rw [List.length_append, List.length_replicate] at hi
  rw [State.lensAt_withLens_fill]
  by_cases hold : i < lens.length
  · rw [if_neg (by omega), h i hold, List.getD_append _ _ _ _ hold]
  · rw [if_pos (by omega), List.getD_append_right _ _ _ _ (by omega), List.getD_replicate _ (by omega)]

/-! ### The code-length lengths -/

/-- Reading the code-length lengths: the k-th symbol of the order gets the k-th three bits (R213). -/
theorem readClLens_ok (cs : List Nat) : ∀ {s : State} {p : Nat}, s.bufLen ≤ 2 ^ 28 → p + 3 * cs.length ≤ 8 * s.bufLen →
    cs.Nodup → ∃ m, readClLens cs (s.setBitPos p) = .ok () ((s.withLens m).setBitPos (p + 3 * cs.length)) ∧
      ∀ j, (s.withLens m).lensAt j =
        if j ∈ cs then BitVec.ofNat 4 (s.bitsFrom (p + 3 * cs.idxOf j) 3) else s.lensAt j := by
  induction cs with
  | nil => exact fun {s p} _ _ _ => ⟨s.lens, rfl, fun j => rfl⟩
  | cons c cs ih =>
    intro s p hb h hnd
    rw [List.length_cons] at h
    obtain ⟨hc, hnd⟩ := List.nodup_cons.1 hnd
    obtain ⟨m, hrun, hlens⟩ := ih (s := s.setLens c (BitVec.ofNat 4 (s.bitsFrom p 3))) (p := p + 3) hb
      (by show _ ≤ 8 * s.bufLen; omega) hnd
    have hbits : SameBuffer s (s.setLens c (BitVec.ofNat 4 (s.bitsFrom p 3))) := ⟨rfl, fun _ => rfl⟩
    refine ⟨m, ?_, fun j => (hlens j).trans ?_⟩
    · rw [readClLens, bind_ok (readBits_setBitPos hb (by omega)), update_bind, List.length_cons, Nat.mul_succ,
        Nat.add_comm (3 * _), ← Nat.add_assoc]
      exact hrun
    · rw [hbits.bitsFrom, State.lensAt_setLens]
      by_cases hj : j = c
      · subst hj
        rw [if_neg hc, if_pos rfl, if_pos List.mem_cons_self, List.idxOf_cons_self]
        rfl
      · rw [if_neg hj, List.idxOf_cons_ne _ (Ne.symm hj), Nat.mul_succ, Nat.add_comm (3 * _), ← Nat.add_assoc]
        exact ite_congr (by simp [hj]) (fun _ => rfl) fun _ => rfl

/-- The symbols HCLEN lets in, and their places in the order (R132, R213). -/
theorem idxOf_take {c n : Nat} (h : c ∈ clOrder.take n) : (clOrder.take n).idxOf c = clOrder.idxOf c := by
  conv_rhs => rw [← List.take_append_drop n clOrder]
  exact (List.idxOf_append_of_mem h).symm

theorem mem_clOrder : ∀ c, c < 19 → c ∈ clOrder := by decide

/-- LENS then spells the code-length alphabet: the lengths read, and 0 for the symbols HCLEN leaves out (R213). -/
theorem readClLens_clOrder {s : State} {p n : Nat} (hb : s.bufLen ≤ 2 ^ 28) (hn : n ≤ 19) (h : p + 3 * n ≤ 8 * s.bufLen) :
    ∃ m, readClLens (clOrder.take n) (fillLens 0 19 0 (s.setBitPos p)) = .ok () ((s.withLens m).setBitPos (p + 3 * n)) ∧
      (s.withLens m).lensSnapshot 18 0 = s.clLensAt p n ∧ ∀ j, 19 ≤ j → (s.withLens m).lensAt j = s.lensAt j := by
  have hlen : (clOrder.take n).length = n := by rw [List.length_take]; exact Nat.min_eq_left hn
  have hzero (j : Nat) : (s.withLens (fillLens 0 19 0 s).lens).lensAt j = if j < 19 then 0 else s.lensAt j := by
    simpa using s.lensAt_withLens_fill 0 19 0 j
  rw [fillLens_setBitPos]
  generalize (fillLens 0 19 0 s).lens = m0 at hzero ⊢
  have hbits : SameBuffer s (s.withLens m0) := ⟨rfl, fun _ => rfl⟩
  obtain ⟨m, hrun, hlens⟩ := readClLens_ok (clOrder.take n) (s := s.withLens m0) (p := p) hb
    (by rw [hlen]; exact h) ((List.take_sublist n clOrder).nodup (by decide))
  rw [hlen] at hrun
  refine ⟨m, hrun, List.map_congr_left fun c hc => ?inOrder, fun j hj => ?above⟩
  case inOrder =>
    have hc19 : c < 19 := List.mem_range.1 hc
    have hplace := List.mem_take_iff_idxOf_lt (n := n) (mem_clOrder c hc19)
    rw [Nat.zero_add]
    refine (hlens c).trans ?_
    rw [hbits.bitsFrom, hzero, if_pos hc19]
    by_cases hin : c ∈ clOrder.take n
    · rw [if_pos hin, if_pos (hplace.1 hin), idxOf_take hin]
    · rw [if_neg hin, if_neg (mt hplace.2 hin)]
  case above =>
    refine (hlens j).trans ?_
    rw [if_neg fun hin => absurd (clOrder_lt j (List.mem_of_mem_take hin)) (by omega), hzero, if_neg (by omega)]

/-! ### The sequence of code lengths -/

/-- Every token stands for a length or more. -/
theorem length_lt_of_expandToken {done o : List Nibble} {tok : LenToken} (h : expandToken done tok = some o) :
    done.length < o.length := by
  cases tok with
  | previous e =>
    obtain ⟨v, -, rfl⟩ := Option.map_eq_some_iff.1 h
    simp
  | _ =>
    cases h
    simp

/-- The lengths so far are no more than those in the end. -/
theorem length_le_of_expandLens (toks : List LenToken) : ∀ {o lens : List Nibble}, expandLens o toks = some lens →
    o.length ≤ lens.length := by
  induction toks with
  | nil =>
    intro o lens h
    cases h
    exact le_rfl
  | cons k ks ih =>
    intro o lens h
    obtain ⟨o1, h1, h2⟩ := Option.bind_eq_some_iff.1 h
    exact (length_lt_of_expandToken h1).le.trans (ih h2)

section Pass

variable {s : State} {p r total k : Nat} {done : List Nibble}

/-- The pass over a length of 0 to 15 (R214). -/
theorem codeLengthsLoop_length {l : Nat} (hx : decodeSymbol .cl (s.setBitPos p) = .ok l (s.setBitPos r)) (hl : l ≤ 15)
    {i : Nat} (hi : i < total) : codeLengthsLoop total (k + 1) i (s.setBitPos p) =
      codeLengthsLoop total k (i + 1) (fillLens (BitVec.ofNat 4 l) 1 i (s.setBitPos r)) := by
  rw [codeLengthsLoop, if_pos hi, bind_ok hx, if_pos hl, update_bind]
  rfl

/-- The pass over a repeat, once its count and length are known (R214). -/
theorem codeLengthsLoop_repeat {x q n i : Nat} {v : Nibble} (hx : decodeSymbol .cl (s.setBitPos p) = .ok x (s.setBitPos r))
    (h15 : 15 < x) (hr : repeatOf x i (s.setBitPos r) = .ok (n, v) (s.setBitPos q)) (hi : i < total) (hn : i + n ≤ total) :
    codeLengthsLoop total (k + 1) i (s.setBitPos p) = codeLengthsLoop total k (i + n) (fillLens v n i (s.setBitPos q)) := by
  rw [codeLengthsLoop, if_pos hi, bind_ok hx, if_neg (by omega), bind_ok hr, check_bind_pass (by omega), update_bind]

/-- What the three repeat symbols answer (R214, R133). -/
theorem repeatOf_previous {i : Nat} (hb : s.bufLen ≤ 2 ^ 28) (hi : i ≠ 0) (h : r + 2 ≤ 8 * s.bufLen) :
    repeatOf 16 i (s.setBitPos r) = .ok (3 + s.bitsFrom r 2, s.lensAt (i - 1)) (s.setBitPos (r + 2)) := by
  rw [repeatOf, if_pos rfl, check_bind_pass hi, bind_ok (readBits_setBitPos hb h)]
  rfl

theorem repeatOf_zeros {i : Nat} (hb : s.bufLen ≤ 2 ^ 28) (h : r + 3 ≤ 8 * s.bufLen) :
    repeatOf 17 i (s.setBitPos r) = .ok (3 + s.bitsFrom r 3, 0) (s.setBitPos (r + 3)) := by
  rw [repeatOf, if_neg (by decide), if_pos rfl, bind_ok (readBits_setBitPos hb h)]
  rfl

theorem repeatOf_manyZeros {i : Nat} (hb : s.bufLen ≤ 2 ^ 28) (h : r + 7 ≤ 8 * s.bufLen) :
    repeatOf 18 i (s.setBitPos r) = .ok (11 + s.bitsFrom r 7, 0) (s.setBitPos (r + 7)) := by
  rw [repeatOf, if_neg (by decide), if_neg (by decide), bind_ok (readBits_setBitPos hb h)]
  rfl

/-- The last of the lengths so far is the entry of LENS before the next one. -/
theorem State.holdsLens.last {v : Nibble} (h : s.holdsLens done) (hv : done.getLast? = some v) :
    done.length ≠ 0 ∧ s.lensAt (done.length - 1) = v := by
  have hne : done ≠ [] := by
    rintro rfl
    cases hv
  have hpos := List.length_pos_iff.2 hne
  refine ⟨hpos.ne', (h _ (by omega)).trans ?_⟩
  rw [List.getLast?_eq_getElem?] at hv
  rw [List.getD_eq_getElem?_getD, hv]
  rfl

/-- The pass over a token puts the run of lengths it stands for behind those so far (R214). -/
theorem codeLengthsLoop_token {tok : LenToken} {q : Nat} {o : List Nibble} (hb : s.bufLen ≤ 2 ^ 28)
    (hv : (s.slot .cl).valid = true) (h : s.showsLen (codesOf (s.slot .cl).lens) p q tok) (hq : q ≤ 8 * s.bufLen)
    (hd : s.holdsLens done) (he : expandToken done tok = some o) (ho : o.length ≤ total) :
    ∃ n v, o = done ++ List.replicate n v ∧ codeLengthsLoop total (k + 1) done.length (s.setBitPos p) =
      codeLengthsLoop total k o.length (fillLens v n done.length (s.setBitPos q)) := by
  cases tok with
  | length l =>
    cases he
    rw [List.length_append, List.length_singleton] at ho ⊢
    exact ⟨1, _, rfl, codeLengthsLoop_length (decodeSymbol_shows hb hv h.2 hq) h.1 (by omega)⟩
  | previous e =>
    obtain ⟨a, hx, rfl, rfl⟩ := h
    obtain ⟨v, hlast, rfl⟩ := Option.map_eq_some_iff.1 he
    obtain ⟨hne, hprev⟩ := hd.last hlast
    rw [List.length_append, List.length_replicate] at ho ⊢
    refine ⟨_, v, rfl, codeLengthsLoop_repeat (decodeSymbol_shows hb hv hx (by omega)) (by decide) ?_ (by omega) ho⟩
    rw [← hprev]
    exact repeatOf_previous hb hne hq
  | zeros e =>
    obtain ⟨a, hx, rfl, rfl⟩ := h
    cases he
    rw [List.length_append, List.length_replicate] at ho ⊢
    exact ⟨_, 0, rfl, codeLengthsLoop_repeat (decodeSymbol_shows hb hv hx (by omega)) (by decide)
      (repeatOf_zeros hb hq) (by omega) ho⟩
  | manyZeros e =>
    obtain ⟨a, hx, rfl, rfl⟩ := h
    cases he
    rw [List.length_append, List.length_replicate] at ho ⊢
    exact ⟨_, 0, rfl, codeLengthsLoop_repeat (decodeSymbol_shows hb hv hx (by omega)) (by decide)
      (repeatOf_manyZeros hb hq) (by omega) ho⟩

end Pass

theorem State.showsLen.le {s : State} {codes : List (Nat × Nat)} {p q : Nat} {tok : LenToken}
    (h : s.showsLen codes p q tok) :
    p ≤ q := by
  cases tok with
  | length l => exact State.showsSymbol.le h.2
  | _ =>
    obtain ⟨a, hx, -, rfl⟩ := h
    exact hx.le.trans (Nat.le_add_right _ _)

theorem State.showsLens.le {s : State} {codes : List (Nat × Nat)} {q : Nat} {toks : List LenToken} :
    ∀ {p : Nat}, s.showsLens codes p toks q → p ≤ q := by
  induction toks with
  | nil => exact le_of_eq
  | cons k ks ih =>
    rintro p ⟨r, h1, h2⟩
    exact h1.le.trans (ih h2)

/-- All lengths are there: the sequence ends (R214). -/
theorem codeLengthsLoop_end {total i : Nat} (h : total ≤ i) (k : Nat) (s : State) :
    codeLengthsLoop total k i s = .ok () s := by
  cases k with
  | zero => rfl
  | succ k =>
    rw [codeLengthsLoop, if_neg (by omega)]
    rfl

/-- CodeLengths on the codes of a token list leaves in LENS the lengths the tokens stand for, by induction on the tokens
(R214). -/
theorem codeLengthsLoop_tokens {lens : List Nibble} {q : Nat} (toks : List LenToken) :
    ∀ {s : State} {p k : Nat} {done : List Nibble}, s.bufLen ≤ 2 ^ 28 → (s.slot .cl).valid = true →
      s.showsLens (codesOf (s.slot .cl).lens) p toks q → q ≤ 8 * s.bufLen → s.holdsLens done →
      expandLens done toks = some lens → lens.length ≤ done.length + k →
      ∃ m, codeLengthsLoop lens.length k done.length (s.setBitPos p) = .ok () ((s.withLens m).setBitPos q) ∧
        (s.withLens m).holdsLens lens ∧ ∀ i, lens.length ≤ i → (s.withLens m).lensAt i = s.lensAt i := by
  induction toks with
  | nil =>
    intro s p k done _ _ h _ hd he _
    cases he
    cases h
    exact ⟨s.lens, codeLengthsLoop_end le_rfl k _, hd, fun _ _ => rfl⟩
  | cons tok toks ih =>
    rintro s p k done hb hv ⟨r, htok, hrest⟩ hq hd he hk
    obtain ⟨o, ho, he⟩ := Option.bind_eq_some_iff.1 he
    have hlt := length_lt_of_expandToken ho
    have hle := length_le_of_expandLens toks he
    obtain ⟨k, rfl⟩ : ∃ j, k = j + 1 := ⟨k - 1, by omega⟩
    obtain ⟨n, v, rfl, hpass⟩ := codeLengthsLoop_token (k := k) hb hv htok (hrest.le.trans hq) hd ho hle
    have hfill := hd.fill v n
    have hother (i : Nat) (hi : lens.length ≤ i) : (s.withLens (fillLens v n done.length s).lens).lensAt i = s.lensAt i := by
      rw [List.length_append, List.length_replicate] at hle
      rw [State.lensAt_withLens_fill, if_neg (by omega)]
    rw [hpass, fillLens_setBitPos]
    generalize (fillLens v n done.length s).lens = m1 at hfill hother ⊢
    have hbits : SameBuffer s (s.withLens m1) := ⟨rfl, fun _ => rfl⟩
    obtain ⟨m, hrun, hlens, habove⟩ := ih (s := s.withLens m1) (p := r) (k := k) hb hv
      (hbits.showsLens hrest) hq hfill he (by omega)
    exact ⟨m, hrun, hlens, fun i hi => (habove i hi).trans (hother i hi)⟩

/-! ### The whole header -/

/-- What follows the counts of a well-formed dynamic header at bit p: `n` code-length lengths, and up to bit q the tokens
of the lengths `lens`, the first `hlit` of them the literal/length ones; no table is over-subscribed (R213, R214). -/
structure State.SpellsTables (s : State) (p n hlit q : Nat) (toks : List LenToken) (lens : List Nibble) : Prop where
  shows : s.showsLens (codesOf (s.clLensAt p n)) (p + 3 * n) toks q
  within : q ≤ 8 * s.bufLen
  expands : expandLens [] toks = some lens
  cl : overSubscribed (s.clLensAt p n) = none
  ll : overSubscribed (lens.take hlit) = none
  dist : overSubscribed (lens.drop hlit) = none

/-- The state with the three tables of a dynamic header, LENS as it was left, and the cursor at bit q (R213). -/
def State.withTables (s : State) (cl ll dist : List Nibble) (m : LensMemory) (q : Nat) : State :=
  { s with bitPos := BitVec.ofNat 32 q, cl := ⟨true, cl⟩, ll := ⟨true, ll⟩, dist := ⟨true, dist⟩, lens := m }

/-- A build from a snapshot that is known (42_huffman.md R177). -/
theorem build_of_snapshot {t : BuildTarget} {m base : Nat} {s : State} {lens : List Nibble}
    (hsnap : s.lensSnapshot m base = lens) (h : overSubscribed lens = none) :
    build t m base s = .ok (maxCodeLen lens) (s.setSlot t ⟨true, lens⟩) := by
  subst hsnap
  exact build_ok h

/-- The two builds at the end of a dynamic header, from the lengths in LENS (R213). -/
theorem lengthTables_ok {s : State} {hlit hdist : Nat} {lens : List Nibble} (hlens : s.holdsLens lens)
    (hlen : lens.length = hlit + hdist) (hlit1 : 1 ≤ hlit) (hdist1 : 1 ≤ hdist)
    (hll : overSubscribed (lens.take hlit) = none) (hdist0 : overSubscribed (lens.drop hlit) = none) :
    (do let _ ← build .ll (hlit - 1) 0; let _ ← build .dist (hdist - 1) hlit; pure ()) s =
      .ok () ((s.setSlot .ll ⟨true, lens.take hlit⟩).setSlot .dist ⟨true, lens.drop hlit⟩) := by
  have hsnapLl : s.lensSnapshot (hlit - 1) 0 = lens.take hlit := by
    rw [hlens.snapshot (by omega), List.drop_zero, Nat.sub_add_cancel hlit1]
  have hsnapDist : (s.setSlot .ll ⟨true, lens.take hlit⟩).lensSnapshot (hdist - 1) hlit = lens.drop hlit := by
    refine (hlens.snapshot (m := hdist - 1) (base := hlit) (by omega)).trans ?_
    rw [Nat.sub_add_cancel hdist1, List.take_of_length_le (by rw [List.length_drop]; omega)]
  rw [bind_ok (build_of_snapshot hsnapLl hll), bind_ok (build_of_snapshot hsnapDist hdist0)]
  rfl

/-- The tables of a well-formed dynamic header (R213). -/
theorem dynTables_ok {s : State} {p n hlit hdist q : Nat} {toks : List LenToken} {lens : List Nibble}
    (hb : s.bufLen ≤ 2 ^ 28) (hn : n ≤ 19) (h : s.SpellsTables p n hlit q toks lens) (hlit1 : 19 ≤ hlit) (hdist1 : 1 ≤ hdist)
    (hlen : lens.length = hlit + hdist) :
    ∃ m, dynTables hlit hdist (clOrder.take n) (fillLens 0 19 0 (s.setBitPos p)) =
        .ok () (s.withTables (s.clLensAt p n) (lens.take hlit) (lens.drop hlit) m q) ∧
      (s.withLens m).holdsLens lens ∧ ∀ i, lens.length ≤ i → (s.withLens m).lensAt i = s.lensAt i := by
  obtain ⟨hshows, hq, hexpands, hcl, hll, hdist0⟩ := h
  obtain ⟨m1, hread, hsnap, habove1⟩ := readClLens_clOrder (p := p) hb hn (hshows.le.trans hq)
  have hbuild := build_of_snapshot (t := .cl) (s := (s.withLens m1).setBitPos (p + 3 * n)) hsnap hcl
  generalize s.clLensAt p n = clLens at hshows hbuild ⊢
  have hbits : SameBuffer s ((s.withLens m1).setSlot .cl ⟨true, clLens⟩) := ⟨rfl, fun _ => rfl⟩
  obtain ⟨m2, hrun, hholds, habove2⟩ := codeLengthsLoop_tokens toks (s := (s.withLens m1).setSlot .cl ⟨true, clLens⟩)
    (done := []) hb rfl (hbits.showsLens hshows) hq (fun i hi => absurd hi (Nat.not_lt_zero i)) hexpands
    (Nat.le_add_left _ _)
  have hcode : codeLengths (hlit + hdist) (((s.withLens m1).setBitPos (p + 3 * n)).setSlot .cl ⟨true, clLens⟩) =
      .ok () ((((s.withLens m1).setSlot .cl ⟨true, clLens⟩).withLens m2).setBitPos q) := hlen ▸ hrun
  refine ⟨m2, ?run, hholds, fun i hi => (habove2 i hi).trans (habove1 i (by omega))⟩
  case run =>
    rw [dynTables, bind_ok hread, bind_ok hbuild, bind_ok hcode]
    refine (lengthTables_ok (s := (((s.withLens m1).setSlot .cl ⟨true, clLens⟩).withLens m2).setBitPos q) hholds hlen
      (by omega) hdist1 hll hdist0).trans ?_
    simp only [State.withTables, State.setSlot, State.setBitPos, State.withLens]

theorem SameBuffer.clLensAt {s t : State} (h : SameBuffer s t) (p n : Nat) : t.clLensAt p n = s.clLensAt p n := by
  simp only [State.clLensAt, h.bitsFrom]

/-- Settles O35, by the counts and then the tables. -/
theorem dynHeaderDecodes : Obligations.DynHeaderDecodes := by
  refine ⟨rfl, fun s toks lens q hs => ?_⟩
  intro p hlit hdist hclen cl hshows hq hexpands hlen hcl hll hdist0
  have hb := hs.bufLen_le
  have hbits : SameBuffer s s.withCounts := ⟨rfl, fun _ => rfl⟩
  have hclSame : s.withCounts.clLensAt (p + 14) hclen = cl := hbits.clLensAt _ _
  have hlitB := s.hlitAt_bounds p
  have hdistB := s.hdistAt_bounds p
  obtain ⟨m, hrun, hholds, habove⟩ := dynTables_ok (s := s.withCounts) (p := p + 14) (n := hclen) (hlit := hlit)
    (hdist := hdist) hb (s.hclenAt_le p) ⟨by rw [hclSame]; exact hbits.showsLens hshows, hq, hexpands,
      by rw [hclSame]; exact hcl, hll, hdist0⟩ (by show 19 ≤ s.hlitAt p; omega) hdistB.1 hlen
  have hwithin : p + 14 ≤ 8 * s.bufLen := (Nat.le_add_right _ _).trans (hshows.le.trans hq)
  refine ⟨_, runCommand_ok ((dynHeader_eq_tables hb hwithin).trans hrun), ?_, hholds, habove⟩
  rw [hclSame]
  rfl

end Sys2Proof.Machine
end

