-- ==== Sys2Proof/Proofs/Inflate.lean ====
section
/-! SUPPORT. The block loop of Inflate block by block, the frames of DF_BLOCK and DF_INFLATE, and that DF_INFLATE gives back
the data of a stored stream (44_dispatcher.md R216, R217, R219, R223, 70_reset_and_hazards.md R308). -/

namespace Sys2Proof.Machine

/-! ### The block loop -/

section Loop

variable {s t : State} (hb : s.bufLen ≤ 2 ^ 28) (hp : s.bitPos.toNat ≤ 2 ^ 31)

include hb hp

/-- The loop is a block and, where that was not the final one, the loop again: one pass more than bits are left changes
nothing (R217, R308). -/
theorem inflateBlocks_eq_block :
    inflateBlocks s = (do
      block
      let v ← getState
      if v.status.final then pure () else inflateLoop s.bitsLeft) s :=
  (inflateLoop_stable _ s hb hp le_rfl).symm

theorem inflateBlocks_final (h : block s = .ok () t) (hf : t.status.final = true) : inflateBlocks s = .ok () t := by
  rw [inflateBlocks_eq_block hb hp, bind_ok h, getState_bind, if_pos hf]
  rfl

theorem inflateBlocks_again (h : block s = .ok () t) (hf : ¬t.status.final = true) : inflateBlocks s = inflateBlocks t := by
  obtain ⟨-, hpos, hbound, hlen⟩ := block_reads hb hp h
  have hleft : t.bitsLeft ≤ s.bitsLeft := by
    unfold State.bitsLeft
    omega
  rw [inflateBlocks_eq_block hb hp, bind_ok h, getState_bind, if_neg hf]
  exact inflateLoop_enough (hlen ▸ hb) hbound hleft

theorem inflateBlocks_raised {r : Raise} (h : block s = .error r t) : inflateBlocks s = .error r t := by
  rw [inflateBlocks_eq_block hb hp, bind_error h]

end Loop

/-- Settles O39, by what the first block answers. -/
theorem inflateLoop_unbounded : Obligations.InflateLoop := by
  intro s hs
  cases h : block s with
  | ok _ t =>
    by_cases hf : t.status.final = true
    · rw [inflateBlocks_final hs.bufLen_le hs.bitPos h hf]
      simp only [hf, if_true]
    · rw [inflateBlocks_again hs.bufLen_le hs.bitPos h hf]
      simp only [hf]
      rfl
  | error r t => exact inflateBlocks_raised hs.bufLen_le hs.bitPos h

/-! ### The frame of DF_BLOCK -/

/-- What a body keeps that is followed by putting OUT_POS in RESULT: the command adds RESULT and its report
(60_exceptions.md R270, R272). -/
theorem resultOutPos_withReport {R : State → State → Prop} {x : Act Unit} {s t : State} (hx : Act.Keeps R x)
    (h : runCommand (do x; resultOutPos) s = .next t) : ∃ u, R s u ∧ t = { u.withReport t with result := t.result } := by
  have hs := hx s
  cases hxs : x s with
  | ok _ u =>
    rw [hxs] at hs
    exact ⟨u, hs, Host.Outcome.next.inj (h.symm.trans (runCommand_resultOutPos_ok hxs)) ▸ rfl⟩
  | error r u =>
    rw [hxs] at hs
    exact ⟨u, hs, Host.Outcome.next.inj (h.symm.trans (runCommand_resultOutPos_error hxs)) ▸ rfl⟩

/-- With the other memories as before, no byte but those of DST that may change reads differently. -/
theorem sameBytes_of_dst {s t : State} {hit : Nat → Prop}
    (hrest : t.src = s.src ∧ t.cat = s.cat ∧ t.wbuf = s.wbuf ∧ t.resets = s.resets)
    (hdst : ∀ a, ¬hit a → t.peek .dst a = s.peek .dst a) : s.sameBytes t fun m a => m = .dst ∧ hit a := by
  obtain ⟨hsrc, hcat, hwbuf, hres⟩ := hrest
  intro m a hno
  cases m with
  | dst => exact hdst a fun ha => hno ⟨rfl, ha⟩
  | src => exact peek_congr (m := .src) hsrc hres a
  | cat => exact peek_congr (m := .cat) hcat hres a
  | wbuf => exact peek_congr (m := .wbuf) hwbuf hres a

/-! ### The frame of DF_INFLATE -/

/-- Only what a stream writes differs, once it has begun; DST only between the two output positions (R217). -/
structure StreamFrame (s t : State) : Prop where
  rest : t = { s with
    status := { s.status with final := t.status.final }
    bitPos := t.bitPos, outPos := t.outPos, result := t.result, block := t.block, dyn := t.dyn
    blockCount := t.blockCount, zhdr := t.zhdr, adlerCalc := t.adlerCalc, adlerTrailer := t.adlerTrailer
    cl := t.cl, ll := t.ll, dist := t.dist, lens := t.lens, dst := t.dst }
  mono : s.outPos.toNat ≤ t.outPos.toNat
  other : ∀ a, a < s.outPos.toNat ∨ t.outPos.toNat ≤ a → t.peek .dst a = s.peek .dst a
  lens : ∀ i, 320 ≤ i → t.lensAt i = s.lensAt i

theorem streamFrame_isFrame : IsFrame StreamFrame where
  refl _ := ⟨rfl, le_rfl, fun _ _ => rfl, fun _ _ => rfl⟩
  trans s t u h1 h2 := by
    have hm1 := h1.mono
    have hm2 := h2.mono
    exact ⟨by rw [h2.rest, h1.rest], hm1.trans hm2, fun a ha => (h2.other a (by omega)).trans (h1.other a (by omega)),
      fun i hi => (h2.lens i hi).trans (h1.lens i hi)⟩

theorem StreamFrame.ofBlock {s t : State} (h : BlockFrame s t) : StreamFrame s t :=
  ⟨by rw [h.rest], h.mono, h.other, h.lens⟩

/-- The header, the trailer and the result write registers only. -/
theorem StreamFrame.ofRegisters {s t : State}
    (h : t = { s with
      bitPos := t.bitPos, result := t.result, zhdr := t.zhdr, adlerCalc := t.adlerCalc, adlerTrailer := t.adlerTrailer }) :
    StreamFrame s t where
  rest := by rw [h]
  mono := by rw [h]
  other := fun a _ => by rw [h]; rfl
  lens := fun i _ => by rw [h]; rfl

/-- The state a stream begins with (R217). -/
def State.startStream (s : State) : State :=
  { s with bitPos := 0, outPos := 0, blockCount := 0, status := { s.status with final := false } }

/-- The end of a stream: its trailer, or the checksum alone, and RESULT (R217). -/
def streamEnd : Act Unit := do
  let s ← getState
  if s.config.adlerCheck then trailer
  else update fun s => { s with adlerCalc := s.outputAdler }
  resultOutPos

/-- A stream once it has begun (R217). -/
def streamRest : Act Unit := do
  zlibHeader
  inflateBlocks
  streamEnd

theorem exec_dfInflate (s : State) : exec .dfInflate s = runCommand streamRest s.startStream := rfl

theorem streamEnd_keeps : Act.Keeps StreamFrame streamEnd := by
  have hF := streamFrame_isFrame
  have hresult : Act.Keeps StreamFrame resultOutPos := .update fun _ => .ofRegisters rfl
  have htrailer : Act.Keeps StreamFrame trailer := trailer_keeps.mono fun s t h => .ofRegisters (by
    unfold TrailerFrame at h
    rw [h])
  refine .bind hF (.get hF) fun v => .ite (.bind hF htrailer fun _ => hresult) ?_
  exact .bind hF (.update fun _ => .ofRegisters rfl) fun _ => hresult

theorem streamRest_keeps : Act.Keeps StreamFrame streamRest := by
  have hF := streamFrame_isFrame
  refine .bind hF (zlibHeader_keeps.mono fun s t h => .ofRegisters ?_) fun _ =>
    .bind hF (inflateBlocks_keeps.mono fun _ _ => .ofBlock) fun _ => streamEnd_keeps
  unfold HeaderFrame at h
  rw [h]

/-- Settles O56, by the frame of a block and that of a stream. -/
theorem blockFrames : Obligations.BlockFrames := by
  intro s t
  refine ⟨fun h => ?block, fun h => ?stream⟩
  case block =>
    obtain ⟨u, hu, ht⟩ := resultOutPos_withReport block_keeps h
    rw [ht]
    exact ⟨by rw [hu.rest]; rfl, hu.mono, sameBytes_of_dst (by rw [hu.rest]; exact ⟨rfl, rfl, rfl, rfl⟩)
      fun a ha => hu.other a ((not_and_or.1 ha).imp Nat.lt_of_not_le Nat.le_of_not_lt), hu.lens⟩
  case stream =>
    obtain ⟨u, hu, ht⟩ := runCommand_withReport streamRest_keeps ((exec_dfInflate s).symm.trans h)
    rw [ht]
    exact ⟨by rw [hu.rest]; rfl, sameBytes_of_dst (by rw [hu.rest]; exact ⟨rfl, rfl, rfl, rfl⟩)
      fun a ha => hu.other a (.inr (Nat.le_of_not_lt ha)), hu.lens⟩

/-! ### The stream in the buffer -/

/-- The same bits are the same bytes. -/
theorem SameBuffer.byte {s t : State} (h : SameBuffer s t) (a : Nat) : t.peek t.bufSpace a = s.peek s.bufSpace a := by
  refine BitVec.eq_of_toNat_eq ?_
  rw [← t.bitsFrom_byte, ← s.bitsFrom_byte, h.bitsFrom]

/-- The buffer begins with a zlib header and a final stored block of the data (R210 to R212). -/
structure State.ShowsStored (s : State) (data : List Byte) : Prop where
  cmf : s.peek s.bufSpace 0 = 0x78
  flg : s.peek s.bufSpace 1 = 0x01
  head : s.peek s.bufSpace 2 = 0x01
  len : s.bufHalf 3 = data.length
  nlen : s.bufHalf 5 = 0xFFFF - data.length
  bytes : ∀ k, k < data.length → s.peek s.bufSpace (7 + k) = data.getD k 0
  within : 7 + data.length ≤ s.bufLen

/-- The seven bytes before the data of a stored stream of n bytes. -/
def storedHead (n : Nat) : List Byte :=
  [0x78, 0x01, 0x01, BitVec.ofNat 8 (n % 256), BitVec.ofNat 8 (n / 256),
    BitVec.ofNat 8 (255 - n % 256), BitVec.ofNat 8 (255 - n / 256)]

theorem length_storedHead (n : Nat) : (storedHead n).length = 7 := rfl

theorem length_storedHead_append (data : List Byte) : (storedHead data.length ++ data).length = 7 + data.length := by
  rw [List.length_append, length_storedHead]

section Bytes

variable {s : State} {data tail : List Byte} (hlen : (storedHead data.length ++ data ++ tail).length ≤ s.bufLen)
  (hbytes : ∀ k, k < (storedHead data.length ++ data ++ tail).length →
    s.peek s.bufSpace k = (storedHead data.length ++ data ++ tail).getD k 0)

include hbytes

/-- What follows the data. -/
theorem storedStream_tail {k : Nat} (hk : k < tail.length) : s.peek s.bufSpace (7 + data.length + k) = tail.getD k 0 := by
  have hhead := length_storedHead_append data
  rw [hbytes _ (by rw [List.length_append]; omega), List.getD_append_right _ _ _ _ (by omega), hhead,
    Nat.add_sub_cancel_left]

include hlen

theorem showsStored_of_stream (hn : data.length ≤ 65535) : s.ShowsStored data := by
  have hhead := length_storedHead_append data
  rw [List.length_append] at hlen
  have hfirst (k : Nat) (hk : k < 7) : s.peek s.bufSpace k = (storedHead data.length ++ data ++ tail).getD k 0 :=
    hbytes k (by rw [List.length_append]; omega)
  refine ⟨hfirst 0 (by decide), hfirst 1 (by decide), hfirst 2 (by decide), ?len, ?nlen, fun k hk => ?bytes, by omega⟩
  case len =>
    rw [State.bufHalf, hfirst 3 (by decide), hfirst 4 (by decide)]
    show (BitVec.ofNat 8 (data.length % 256)).toNat + 256 * (BitVec.ofNat 8 (data.length / 256)).toNat = _
    simp only [BitVec.toNat_ofNat]
    omega
  case nlen =>
    rw [State.bufHalf, hfirst 5 (by decide), hfirst 6 (by decide)]
    show (BitVec.ofNat 8 (255 - data.length % 256)).toNat + 256 * (BitVec.ofNat 8 (255 - data.length / 256)).toNat = _
    simp only [BitVec.toNat_ofNat]
    omega
  case bytes =>
    rw [hbytes _ (by rw [List.length_append]; omega), List.getD_append _ _ _ _ (by omega),
      List.getD_append_right _ _ _ _ (Nat.le_add_right 7 k), length_storedHead, Nat.add_sub_cancel_left]

end Bytes

/-! ### The header and the block -/

/-- A register by its value. -/
theorem eq_ofNat_of_toNat {x : Word} {n : Nat} (h : x.toNat = n) : x = BitVec.ofNat 32 n := by
  rw [← h, BitVec.ofNat_toNat, BitVec.setWidth_eq]

/-- The bytes of a memory by their values. -/
theorem bytesAt_eq {s : State} {m : Space} {a : Nat} {data : List Byte}
    (h : ∀ k, k < data.length → s.peek m (a + k) = data.getD k 0) : s.bytesAt m a data.length = data := by
  refine List.ext_getElem (by simp [State.bytesAt]) fun k h1 h2 => ?_
  rw [← List.getD_eq_getElem _ 0 h2, ← h k h2]
  simp [State.bytesAt]

/-- The state after the zlib header and one final stored block of n bytes, DST as given (R210, R216). -/
def State.afterStoredStream (s : State) (n : Nat) (d : Memory) : State :=
  { s with
    status := { s.status with final := true }
    bitPos := BitVec.ofNat 32 (8 * (7 + n)), outPos := BitVec.ofNat 32 n, zhdr := ⟨0x78, 0x01⟩
    block := ⟨true, 0, BitVec.ofNat 16 n⟩, blockCount := 1, dst := d }

theorem afterStoredStream_sameBuffer (s : State) (n : Nat) (d : Memory) : SameBuffer s (s.afterStoredStream n d) := by
  refine ⟨rfl, fun p => ?_⟩
  unfold State.bufBit State.bufSpace
  show ((s.afterStoredStream n d).peek (if s.config.srcSel then .cat else .src) _).getLsbD _ = _
  cases s.config.srcSel <;> rfl

/-- The state of a stream past its zlib header 0x78, 0x01 (R210). -/
def State.pastHeader (s : State) : State := { s.startStream with zhdr := ⟨0x78, 0x01⟩, bitPos := 16 }

section Stream

variable {s : State} {data : List Byte} (h : s.ShowsStored data)

include h

theorem zlibHeader_stored : zlibHeader s.startStream = .ok () s.pastHeader := by
  have hwithin := h.within
  have hok := zlibHeader_ok (s := s.startStream) (show 3 ≤ s.bufLen by omega) (by
    show zlibHeaderOk (s.peek s.bufSpace 0) (s.peek s.bufSpace 1)
    rw [h.cmf, h.flg]
    unfold zlibHeaderOk
    decide)
  refine hok.trans ?_
  show EStateM.Result.ok () { s.startStream with zhdr := ⟨s.peek s.bufSpace 0, s.peek s.bufSpace 1⟩, bitPos := 16 } = _
  rw [h.cmf, h.flg]
  rfl

/-- The bits of the block's header: final, of type 0 (R211). -/
theorem bufBit_stored (k : Nat) (hk : k < 8) : s.bufBit (16 + k) = (0x01 : Byte).getLsbD k := by
  have hbyte : (16 + k) / 8 = 2 := by omega
  have hbit : (16 + k) % 8 = k := by omega
  rw [State.bufBit, hbyte, hbit, h.head]

/-- The one block of the stream is its last (R216, R217). -/
theorem inflateBlocks_stored (hb : s.bufLen ≤ 2 ^ 28) (hcap : data.length ≤ s.dstCap.toNat) :
    ∃ d, inflateBlocks s.pastHeader = .ok () (s.afterStoredStream data.length d) ∧
      (s.afterStoredStream data.length d).bytesAt .dst 0 data.length = data ∧
      ∀ a, data.length ≤ a → (s.afterStoredStream data.length d).peek .dst a = s.peek .dst a := by
  have hwithin := h.within
  have hpos : s.pastHeader.bitPos.toNat = 16 := rfl
  have hlen : s.pastHeader.bufHalf 3 = data.length := h.len
  have hfinal : s.pastHeader.bufBit s.pastHeader.bitPos.toNat = true := bufBit_stored h 0 (by decide)
  have hfits : s.pastHeader.StoredFits 3 :=
    ⟨by rw [hlen]; exact h.nlen, by rw [hlen]; exact hwithin, by rw [hlen]; exact (Nat.zero_add _).trans_le hcap⟩
  obtain ⟨v, hv, hmove⟩ := block_stored (s := s.pastHeader) (a := 3) hb (by rw [hpos]; show 16 + 3 ≤ 8 * s.bufLen; omega)
    (bufBit_stored h 1 (by decide)) (bufBit_stored h 2 (by decide)) (by omega) hfits
  rw [hlen] at hmove
  rw [hfinal] at hv
  have hblock : ((s.pastHeader.afterHeader 0).afterStoredLens 3 data.length).block =
      ⟨true, 0, BitVec.ofNat 16 data.length⟩ := by
    show BlockReg.mk (s.pastHeader.bufBit s.pastHeader.bitPos.toNat) 0 _ = _
    rw [hfinal]
  have hout : v.outPos.toNat = data.length := hmove.outPos.trans (Nat.zero_add _)
  have hstate : v.endBlock true = s.afterStoredStream data.length v.dst := by
    rw [hmove.rest, State.endBlock]
    dsimp only
    rw [hblock, eq_ofNat_of_toNat hmove.bitPos, eq_ofNat_of_toNat hout]
    rfl
  refine ⟨v.dst, ?run, ?bytes, fun a ha => ?other⟩
  case run =>
    rw [← hstate]
    exact inflateBlocks_final hb (by omega) hv rfl
  case bytes =>
    rw [← hstate]
    exact bytesAt_eq fun k hk => (hmove.copied k hk).trans (h.bytes k hk)
  case other =>
    rw [← hstate]
    exact hmove.other a (.inr ((Nat.zero_add _).trans_le ha))

end Stream

/-! ### The end of the stream -/

section StreamEnd

variable {s : State} {data : List Byte}

/-- Without the trailer check the checksum alone is put in ADLER_CALC (R217). -/
theorem streamEnd_unchecked (hc : s.config.adlerCheck = false) :
    streamEnd s = .ok () { s with adlerCalc := s.outputAdler, result := s.outPos } := by
  rw [streamEnd, getState_bind, hc]
  rfl

/-- With the trailer check the trailer at byte a is read and compared (R215, R217). -/
theorem streamEnd_checked {a : Nat} (hb : s.bufLen ≤ 2 ^ 28) (hc : s.config.adlerCheck = true)
    (ha : (s.bitPos.toNat + 7) / 8 = a) (h : a + 4 ≤ s.bufLen) (hsum : BitVec.ofNat 32 (s.bigEndian a 4 0) = s.outputAdler) :
    streamEnd s = .ok () { s with
      bitPos := BitVec.ofNat 32 (8 * (a + 4)), adlerTrailer := s.outputAdler, adlerCalc := s.outputAdler
      result := s.outPos } := by
  have hrun := trailer_ok hb ha h hsum
  rw [hsum] at hrun
  rw [streamEnd, getState_bind, if_pos hc, bind_ok hrun]
  rfl

/-- Four bytes most significant first that are those of a word are the word (R79). -/
theorem bigEndian_be4 {a : Nat} {v : Word} (h : ∀ k, k < 4 → s.peek s.bufSpace (a + k) = (be4 v).getD k 0) :
    BitVec.ofNat 32 (s.bigEndian a 4 0) = v := by
  have h0 : s.peek s.bufSpace a = v.extractLsb' 24 8 := h 0 (by decide)
  have h1 : s.peek s.bufSpace (a + 1) = v.extractLsb' 16 8 := h 1 (by decide)
  have h2 : s.peek s.bufSpace (a + 2) = v.extractLsb' 8 8 := h 2 (by decide)
  have h3 : s.peek s.bufSpace (a + 3) = v.extractLsb' 0 8 := h 3 (by decide)
  rw [s.bigEndian_four, ← be32_toNat, h0, h1, h2, h3, be32_be4, BitVec.ofNat_toNat, BitVec.setWidth_eq]

end StreamEnd

/-- Settles O38, by the header, the block and the end of the stream. -/
theorem inflateStored : Obligations.InflateStored := by
  intro s data hs hn hcap n stream hlen hbytes
  have hb := hs.bufLen_le
  have hshows : s.ShowsStored data := showsStored_of_stream hlen hbytes hn
  obtain ⟨d, hblocks, hdata, hother⟩ := inflateBlocks_stored hshows hb hcap
  have hout : (s.afterStoredStream n d).outPos.toNat = n := Nat.mod_eq_of_lt (by omega)
  have hsum : (s.afterStoredStream n d).outputAdler = adler32 data := by rw [State.outputAdler, hout, hdata]
  have hrun {t : State} (ht : streamEnd (s.afterStoredStream n d) = .ok () t) : exec .dfInflate s = .next t.complete :=
    (exec_dfInflate s).trans (runCommand_ok (by rw [streamRest, bind_ok (zlibHeader_stored hshows), bind_ok hblocks, ht]))
  have hlength : stream.length = 7 + n + (if s.config.adlerCheck then be4 (adler32 data) else []).length :=
    List.length_append.trans (congrArg (· + _) (length_storedHead_append data))
  cases hc : s.config.adlerCheck with
  | false =>
    rw [hc] at hlength
    refine ⟨_, hrun (streamEnd_unchecked hc), ?_, hdata, hother⟩
    rw [hsum, hlength]
    rfl
  | true =>
    rw [hc] at hlength
    have hpos : (s.afterStoredStream n d).bitPos.toNat = 8 * (7 + n) := Nat.mod_eq_of_lt (by omega)
    have hbuf := afterStoredStream_sameBuffer s n d
    have htrailer : BitVec.ofNat 32 ((s.afterStoredStream n d).bigEndian (7 + n) 4 0) = adler32 data :=
      bigEndian_be4 fun k hk => (hbuf.byte _).trans (by
        rw [storedStream_tail hbytes (by rw [hc]; exact hk), hc]
        rfl)
    have hend := streamEnd_checked (s := s.afterStoredStream n d) (a := 7 + n) hb hc (by omega)
      (hlength.symm.trans_le hlen) (htrailer.trans hsum.symm)
    refine ⟨_, hrun hend, ?_, hdata, hother⟩
    rw [hsum, hlength]
    rfl

end Sys2Proof.Machine
end

