-- ==== Sys2Proof/Proofs/NextChunk.lean ====
section
/-! SUPPORT. PF_SIGNATURE and PF_NEXT_CHUNK: the chunk at FR_POS step by step, its errors in their order and what each
class of chunk does (45_png_framer.md R240 to R248). -/

namespace Sys2Proof.Machine

/-- Settles O40, by what Signature answers. -/
theorem signatureResult : Obligations.SignatureResult :=
  ⟨by decide, fun _ =>
    ⟨fun hlen hsig => runCommand_ok (signature_ok hlen hsig), fun h => runCommand_error (signature_error h)⟩⟩

/-! ### After the capture -/

/-- What follows the CRC policy: the check of the first chunk, the effect of the class, the count and FR_POS (R241). -/
def chunkRest (count : Word) (p len : Nat) (cls : ChunkClass) : Act ChunkClass := do
  check (count = 0 ∧ cls ≠ .ihdr) .malformedChunkFraming p
  chunkEffect cls p len
  update State.bumpChunkCount
  update fun s => { s with frPos := BitVec.ofNat 32 (p + 12 + len) }
  pure cls

/-- The end of a chunk whose effect has been had: counted, and FR_POS at p (R241). -/
def State.endChunk (u : State) (p : Nat) : State := { u.bumpChunkCount with frPos := BitVec.ofNat 32 p }

/-- A count that does not pass 2^32 - 1 goes up by one, and no free value is drawn. -/
theorem bumpChunkCount_lt {s : State} (h : s.chunkCount.toNat + 1 < 2 ^ 32) :
    s.bumpChunkCount = { s with chunkCount := s.chunkCount + 1 } := if_pos h

/-- Counting a chunk writes CHUNK_COUNT and the number of free values drawn alone. -/
theorem bumpChunkCount_eq (s : State) :
    s.bumpChunkCount = { s with chunkCount := s.bumpChunkCount.chunkCount, draws := s.bumpChunkCount.draws } := by
  unfold State.bumpChunkCount
  split <;> rfl

theorem classify_eq_ihdr_iff {ty : Word} : classify ty = .ihdr ↔ ty = typeIHDR := by
  unfold classify
  split_ifs with h1 h2 h3 h4
  · simp [h1]
  all_goals simp [h1]

/-- The state after the effect of an IDAT at p (R245). -/
def State.withIdat (s : State) (p len : Nat) : State :=
  { blit .src .cat len (p + 8) s.catLen.toNat s with catLen := BitVec.ofNat 32 (s.catLen.toNat + len) }

theorem withIdat_eq (s : State) (p len : Nat) :
    s.withIdat p len = { s with cat := (s.withIdat p len).cat, catLen := BitVec.ofNat 32 (s.catLen.toNat + len) } := by
  rw [State.withIdat, blit_cat_eq]

/-- The state after the effect of a chunk that is neither IHDR nor IDAT (R241). -/
def State.withSeen (s : State) (ty : Word) : State :=
  { s with
    status := { s.status with
      iendSeen := s.status.iendSeen || decide (ty = typeIEND)
      unknownSeen := s.status.unknownSeen || (decide (ty ≠ typeIEND) && decide (ty ≠ typePLTE)) } }

theorem classify_eq_other {ty : Word} (h : ty ≠ typeIHDR) (h' : ty ≠ typeIDAT) :
    classify ty = if ty = typePLTE then .plte else if ty = typeIEND then .iend else .unknown := by
  rw [classify, if_neg h, if_neg h']

/-- What a PLTE, an IEND or an unknown chunk does: nothing but the sticky flag of the latter two (R241, R242). -/
theorem chunkEffect_other {ty : Word} (h : ty ≠ typeIHDR) (h' : ty ≠ typeIDAT) (p len : Nat) (s : State) :
    chunkEffect (classify ty) p len s = .ok () (s.withSeen ty) := by
  rw [classify_eq_other h h']
  split_ifs with hp hi
  · subst hp
    simp [chunkEffect, pure_apply, State.withSeen, typePLTE, typeIEND]
  · subst hi
    simp [chunkEffect, update_apply, State.withSeen]
  · simp [chunkEffect, update_apply, State.withSeen, hp, hi]

/-- The end of a chunk where the spec gives the count: one more than before the chunk (R241). -/
theorem endChunk_lt {s u : State} (hcount : u.chunkCount = s.chunkCount) (h : s.chunkCount.toNat + 1 < 2 ^ 32) (p : Nat) :
    u.endChunk p = { u with chunkCount := s.chunkCount + 1, frPos := BitVec.ofNat 32 p } := by
  rw [← hcount] at h ⊢
  rw [State.endChunk, bumpChunkCount_lt h]

section Chunk

variable {s u : State} {r : Raise}

/-- Equal CRCs, or a mode other than STRICT, let the captured chunk pass (R243). -/
theorem crcPolicy_passes (h : s.crcPasses) : crcPolicy s.nextCrc s.nextCrcCalc s.captured = .ok () s.afterCrc := by
  rw [crcPolicy, getState_bind, State.afterCrc]
  by_cases heq : s.nextCrc = s.nextCrcCalc
  · simp [heq, pure_apply, State.captured]
  · rw [if_neg heq]
    have hmode : s.captured.config.crcMode = s.config.crcMode := rfl
    rw [hmode]
    cases hm : s.config.crcMode with
    | ignore => simp [pure_apply, State.captured]
    | warn => simp [heq, update_apply, State.captured]
    | strict => exact absurd hm (h.resolve_left heq)

/-- Otherwise it raises with the CRC computed (R243). -/
theorem crcPolicy_raises (h : ¬s.crcPasses) :
    crcPolicy s.nextCrc s.nextCrcCalc s.captured = .error ⟨.chunkCrcMismatch, s.nextCrcCalc⟩ s.captured := by
  obtain ⟨hne, hmode⟩ := not_or.1 h
  have hstrict : s.captured.config.crcMode = .strict := not_not.1 hmode
  rw [crcPolicy, getState_bind, if_neg hne, hstrict]
  simp only [raise_apply, BitVec.ofNat_toNat, BitVec.setWidth_eq]

theorem afterCrc_class {cls : ChunkClass} (h : classify s.nextType = cls) :
    s.afterCrc = { s.afterCrc with chunkClass := cls } := by
  rw [← h]
  rfl

section Fits

variable (hfit : s.nextFits)

include hfit

theorem nextChunk_crcRaises (h : ¬s.crcPasses) : nextChunk s = .error ⟨.chunkCrcMismatch, s.nextCrcCalc⟩ s.captured := by
  rw [nextChunk_fits hfit, nextChunkRest, bind_error (crcPolicy_raises h)]

/-- A chunk that fits and passes the CRC policy is captured, and the rest follows (R241). -/
theorem nextChunk_passes (h : s.crcPasses) :
    nextChunk s = chunkRest s.chunkCount s.frPos.toNat s.nextLen (classify s.nextType) s.afterCrc := by
  rw [nextChunk_fits hfit, nextChunkRest, bind_ok (crcPolicy_passes h)]
  rfl

variable (hcrc : s.crcPasses)

include hcrc

theorem nextChunk_notFirst (h : s.chunkCount = 0) (hty : classify s.nextType ≠ .ihdr) :
    nextChunk s = .error ⟨.malformedChunkFraming, s.frPos⟩ s.afterCrc := by
  rw [nextChunk_passes hfit hcrc, chunkRest, check_bind_fail ⟨h, hty⟩, BitVec.ofNat_toNat, BitVec.setWidth_eq]

/-- A chunk in its order whose effect raises. -/
theorem nextChunk_effectRaises (h : s.chunkCount ≠ 0 ∨ classify s.nextType = .ihdr)
    (he : chunkEffect (classify s.nextType) s.frPos.toNat s.nextLen s.afterCrc = .error r u) : nextChunk s = .error r u := by
  rw [nextChunk_passes hfit hcrc, chunkRest, check_bind_pass fun hbad => h.elim (absurd hbad.1) hbad.2, bind_error he]

/-- A chunk in its order whose effect is had. -/
theorem nextChunk_ok (h : s.chunkCount ≠ 0 ∨ classify s.nextType = .ihdr)
    (he : chunkEffect (classify s.nextType) s.frPos.toNat s.nextLen s.afterCrc = .ok () u) :
    nextChunk s = .ok (classify s.nextType) (u.endChunk (s.frPos.toNat + 12 + s.nextLen)) := by
  rw [nextChunk_passes hfit hcrc, chunkRest, check_bind_pass fun hbad => h.elim (absurd hbad.1) hbad.2, bind_ok he]
  rfl

theorem nextChunk_badIhdr (hty : classify s.nextType = .ihdr) (hlen : s.nextLen ≠ 13) :
    nextChunk s = .error ⟨.malformedChunkFraming, s.frPos⟩ s.afterCrc := by
  refine nextChunk_effectRaises hfit hcrc (.inr hty) ?_
  rw [hty, chunkEffect, ihdrParse_error hlen, BitVec.ofNat_toNat, BitVec.setWidth_eq]

theorem nextChunk_ihdr (hty : classify s.nextType = .ihdr) (hlen : s.nextLen = 13) :
    nextChunk s = .ok .ihdr ((captureIhdr (s.frPos.toNat + 8) s.afterCrc).endChunk (s.frPos.toNat + 25)) := by
  rw [nextChunk_ok hfit hcrc (.inr hty) (by rw [hty, hlen, chunkEffect, ihdrParse_ok]), hty, hlen]

/-- An IDAT that fits in CAT is appended to it (R245). -/
theorem nextChunk_idat (hcount : s.chunkCount ≠ 0) (hty : s.nextType = typeIDAT)
    (hcat : s.catLen.toNat + s.nextLen ≤ s.sizes.cat) :
    nextChunk s =
      .ok .idat ((s.afterCrc.withIdat s.frPos.toNat s.nextLen).endChunk (s.frPos.toNat + 12 + s.nextLen)) := by
  have hclass : classify s.nextType = .idat := by rw [hty]; rfl
  rw [nextChunk_ok hfit hcrc (.inl hcount) (by rw [hclass]; exact idatAppend_ok hcat), hclass]
  rfl

/-- A chunk that is neither IHDR nor IDAT sets the sticky flag of its class (R241). -/
theorem nextChunk_other (hcount : s.chunkCount ≠ 0) (h : s.nextType ≠ typeIHDR) (h' : s.nextType ≠ typeIDAT) :
    nextChunk s =
      .ok (classify s.nextType) ((s.afterCrc.withSeen s.nextType).endChunk (s.frPos.toNat + 12 + s.nextLen)) :=
  nextChunk_ok hfit hcrc (.inl hcount) (chunkEffect_other h h' _ _ _)

end Fits

/-! ### PF_NEXT_CHUNK -/

theorem exec_pfNextChunk_ok {cls : ChunkClass} (h : nextChunk s = .ok cls u) :
    exec .pfNextChunk s = .next { u with result := BitVec.ofNat 32 cls.number }.complete :=
  runCommand_ok (by rw [bind_ok h]; rfl)

theorem exec_pfNextChunk_error (h : nextChunk s = .error r u) : exec .pfNextChunk s = .next (u.errorEntry r) :=
  runCommand_error (bind_error h)

/-- The end of a chunk that fits is a 32-bit address. -/
theorem toNat_ofNat_chunkEnd {n : Nat} (h : n ≤ s.srcLen.toNat) : (BitVec.ofNat 32 n).toNat = n :=
  Nat.mod_eq_of_lt (Nat.lt_of_le_of_lt h s.srcLen.isLt)

/-- A chunk that ends: counted, FR_POS after it and RESULT its class; the count is the spec's where it gives one
(R241, R248). -/
theorem exec_pfNextChunk_chunk {cls : ChunkClass} {p : Nat} (h : nextChunk s = .ok cls (u.endChunk p))
    (hcount : u.chunkCount = s.chunkCount) (hdraws : u.draws = s.draws) :
    ∃ n d, exec .pfNextChunk s = .next { u with
      chunkCount := n, draws := d, frPos := BitVec.ofNat 32 p, result := BitVec.ofNat 32 cls.number }.complete ∧
      (s.chunkCount.toNat + 1 < 2 ^ 32 → n.toNat = s.chunkCount.toNat + 1 ∧ d = s.draws) := by
  refine ⟨(u.endChunk p).chunkCount, (u.endChunk p).draws, ?run, fun hlt => ?count⟩
  case run => rw [exec_pfNextChunk_ok h, State.endChunk, bumpChunkCount_eq]
  case count =>
    rw [endChunk_lt hcount hlt]
    exact ⟨(BitVec.toNat_add _ _).trans (Nat.mod_eq_of_lt hlt), hdraws⟩

end Chunk

/-- Settles O41, error by error. -/
theorem nextChunkRaises : Obligations.NextChunkRaises := by
  intro s
  refine ⟨fun h => ?head, fun h h' => ?body, fun hfit h => ?crc, fun hfit hcrc h hty => ?first,
    fun hfit hcrc hty hlen => ?ihdr, fun hfit hcrc h hty hcat => ?full⟩
  case head => exact exec_pfNextChunk_error (nextChunk_head h)
  case body => exact exec_pfNextChunk_error (nextChunk_body h (Nat.lt_of_not_le h'))
  case crc => exact exec_pfNextChunk_error (nextChunk_crcRaises hfit h)
  case first => exact exec_pfNextChunk_error (nextChunk_notFirst hfit hcrc h (mt classify_eq_ihdr_iff.1 hty))
  case ihdr => exact exec_pfNextChunk_error (nextChunk_badIhdr hfit hcrc (classify_eq_ihdr_iff.2 hty) hlen)
  case full =>
    refine exec_pfNextChunk_error (nextChunk_effectRaises hfit hcrc (.inl h) ?_)
    rw [hty]
    exact idatAppend_error hcat

/-- The four bytes of HDR_FMT, one above the other (30_encoding.md R123). -/
theorem extractLsb'_fourBytes (b3 b2 b1 b0 : Byte) :
    (b3 ++ b2 ++ b1 ++ b0).extractLsb' 0 8 = b0 ∧ (b3 ++ b2 ++ b1 ++ b0).extractLsb' 8 8 = b1 ∧
      (b3 ++ b2 ++ b1 ++ b0).extractLsb' 16 8 = b2 ∧ (b3 ++ b2 ++ b1 ++ b0).extractLsb' 24 8 = b3 := by
  obtain ⟨h1, hb0⟩ := extractLsb'_eq_append_iff.1 (BitVec.extractLsb'_eq_self (x := b3 ++ b2 ++ b1 ++ b0))
  obtain ⟨h2, hb1⟩ := extractLsb'_eq_append_iff.1 h1
  obtain ⟨hb3, hb2⟩ := extractLsb'_eq_append_iff.1 h2
  exact ⟨hb0, hb1, hb2, hb3⟩

/-- Settles O42, by the capture of the payload. -/
theorem nextChunkIhdr : Obligations.NextChunkIhdr := by
  intro s hfit hcrc hty hlen
  have hclass := classify_eq_ihdr_iff.2 hty
  have hpos : (BitVec.ofNat 32 (s.frPos.toNat + 25)).toNat = s.frPos.toNat + 25 :=
    toNat_ofNat_chunkEnd (by rw [State.nextFits, hlen] at hfit; exact hfit)
  obtain ⟨hdepth, hcolor, hcompression, hfilter⟩ := extractLsb'_fourBytes (s.peek .src (s.frPos.toNat + 19))
    (s.peek .src (s.frPos.toNat + 18)) (s.peek .src (s.frPos.toNat + 17)) (s.peek .src (s.frPos.toNat + 16))
  obtain ⟨n, d, hrun, hcount⟩ := exec_pfNextChunk_chunk (nextChunk_ihdr hfit hcrc hclass hlen) rfl rfl
  refine ⟨_, hrun, ?state, hdepth, hcolor, hcompression, hfilter, hpos, hcount⟩
  case state =>
    rw [afterCrc_class hclass]
    rfl

/-- Settles O43, by the append. -/
theorem nextChunkIdat : Obligations.NextChunkIdat := by
  intro s hs hfit hcrc hty hcount hcat
  have hclass : classify s.nextType = .idat := by rw [hty]; rfl
  have hsize := (hs.sizes .cat).2
  obtain ⟨n, d, hrun, hnext⟩ := exec_pfNextChunk_chunk (nextChunk_idat hfit hcrc hcount hty hcat)
    (by rw [withIdat_eq]; rfl) (by rw [withIdat_eq]; rfl)
  refine ⟨_, hrun, ?state, ?catLen, fun k hk => ?bytes, fun a ha => ?other, toNat_ofNat_chunkEnd hfit, hnext⟩
  case state =>
    rw [withIdat_eq, afterCrc_class hclass]
    rfl
  case catLen => exact Nat.mod_eq_of_lt (Nat.lt_of_le_of_lt (hcat.trans hsize) (by decide))
  case bytes => exact blit_at .src .cat (by decide) s.nextLen _ _ k s.afterCrc hk
  case other => exact blit_other .src .cat .cat s.nextLen _ _ a s.afterCrc (.inr ha)

/-- Settles O44, by the sticky flags. -/
theorem nextChunkOther : Obligations.NextChunkOther := by
  intro s hfit hcrc hcount hihdr hidat
  obtain ⟨n, d, hrun, hnext⟩ := exec_pfNextChunk_chunk (nextChunk_other hfit hcrc hcount hihdr hidat) rfl rfl
  refine ⟨_, hrun, ?state, toNat_ofNat_chunkEnd hfit, hnext⟩
  case state =>
    have hnumber : BitVec.ofNat 32 (classify s.nextType).number =
        if s.nextType = typePLTE then 1 else if s.nextType = typeIEND then 3 else 4 := by
      rw [classify_eq_other hihdr hidat]
      split_ifs <;> rfl
    rw [hnumber, afterCrc_class (classify_eq_other hihdr hidat)]
    rfl

end Sys2Proof.Machine
end

