-- ==== Sys2Proof/Proofs/EmitChunk.lean ====
section
/-! SUPPORT. The write path and the subset check: what the emit commands write at WPOS and leave unchanged, and what
PF_CHECK_HEADER answers (45_png_framer.md R246, R251 to R255). -/

namespace Sys2Proof.Machine

/-! ### PF_CHECK_HEADER -/

/-- The mask is the sum of its bits (R255). -/
theorem toNat_fiveBits (b4 b3 b2 b1 b0 : Bool) :
    (BitVec.ofBool b4 ++ BitVec.ofBool b3 ++ BitVec.ofBool b2 ++ BitVec.ofBool b1 ++ BitVec.ofBool b0 : BitVec 5).toNat =
      b0.toNat + 2 * b1.toNat + 4 * b2.toNat + 8 * b3.toNat + 16 * b4.toNat := by
  revert b4 b3 b2 b1 b0
  decide

/-- One bit of the mask as a number. -/
theorem mul_toNat_eq_ite (n : Nat) (b : Bool) {q : Prop} [Decidable q] (h : b = true ↔ q) :
    n * b.toNat = if q then n else 0 := by
  by_cases hq : q
  · rw [if_pos hq, h.2 hq, Bool.toNat_true, Nat.mul_one]
  · rw [if_neg hq, Bool.eq_false_iff.2 (mt h.1 hq), Bool.toNat_false, Nat.mul_zero]

theorem toNat_unsupported (s : State) : s.unsupported.toNat =
    (if s.bitDepth ≠ 8 then 1 else 0) + (if s.colorType ≠ 2 ∧ s.colorType ≠ 6 then 2 else 0) +
      (if s.compression ≠ 0 then 4 else 0) + (if s.filterMethod ≠ 0 then 8 else 0) +
      (if s.hdrInterlace ≠ 0 then 16 else 0) := by
  rw [State.unsupported, toNat_fiveBits, ← Nat.one_mul (Bool.toNat _), mul_toNat_eq_ite 1 _ bne_iff_ne,
    mul_toNat_eq_ite 2 _ (q := s.colorType ≠ 2 ∧ s.colorType ≠ 6) (by simp), mul_toNat_eq_ite 4 _ bne_iff_ne,
    mul_toNat_eq_ite 8 _ bne_iff_ne, mul_toNat_eq_ite 16 _ bne_iff_ne]

/-- Settles O48, check by check. -/
theorem checkHeaderResult : Obligations.CheckHeaderResult := by
  refine ⟨by decide, fun s => congrArg Host.Outcome.next ?run⟩
  case run =>
    have hmask : s.unsupported ≠ 0 ↔ s.unsupported.toNat ≠ 0 := by simp [← BitVec.toNat_inj]
    show finish (checkHeader s) = _
    rw [checkHeader, getState_bind, finish_check_bind hmask, toNat_unsupported, finish_check_bind Iff.rfl]
    rfl

/-! ### The bytes written -/

section Writes

variable {s : State} {bs : List Byte}

/-- What is written at an address is read there (R14). -/
theorem bytesAt_writeBytes (m : Space) (a : Nat) (bs : List Byte) (s : State) :
    (writeBytes m a bs s).bytesAt m a bs.length = bs :=
  bytesAt_eq fun k hk => by rw [writeBytes_at m bs a k s hk, List.getD_eq_getElem _ _ hk]

/-- s once bytes are written at WPOS, WPOS is past them and RESULT is WPOS (R246, R252). -/
def State.emitted (s : State) (bs : List Byte) : State :=
  { writeBytes .wbuf s.wpos.toNat bs s with
    wpos := BitVec.ofNat 32 (s.wpos.toNat + bs.length), result := BitVec.ofNat 32 (s.wpos.toNat + bs.length) }

/-- Only WPOS, RESULT and WBUF differ; WPOS has moved past the bytes, and they alone are new in WBUF. -/
theorem State.emitted_spec (hsize : s.sizes.wbuf ≤ 2 ^ 28) (h : s.wpos.toNat + bs.length ≤ s.sizes.wbuf) :
    s.emitted bs = { s with wpos := (s.emitted bs).wpos, result := (s.emitted bs).wpos, wbuf := (s.emitted bs).wbuf } ∧
    (s.emitted bs).wpos.toNat = s.wpos.toNat + bs.length ∧
    (s.emitted bs).bytesAt .wbuf s.wpos.toNat bs.length = bs ∧
    ∀ a, a < s.wpos.toNat ∨ s.wpos.toNat + bs.length ≤ a → (s.emitted bs).peek .wbuf a = s.peek .wbuf a := by
  refine ⟨?rest, Nat.mod_eq_of_lt (by omega), bytesAt_writeBytes .wbuf _ bs s,
    fun a ha => writeBytes_other .wbuf .wbuf bs _ a s (.inr ha)⟩
  case rest =>
    rw [State.emitted, writeBytes_wbuf_eq]

/-- A framed chunk of n bytes begins with n (R246). -/
theorem framed_eq {ty v : Word} {data : List Byte} (h : data.length = v.toNat) :
    framed ty data = be4 v ++ be4 ty ++ data ++ be4 (crc32 (be4 ty ++ data)) := by
  rw [framed, h, BitVec.ofNat_toNat, BitVec.setWidth_eq]

/-- A command that ends by writing a chunk of n data bytes (R246, R253, R254). -/
theorem runCommand_emit_ok {body : Act Unit} {ty v : Word} {data : List Byte}
    (hbody : body s = (do emit ty data; resultWpos) s)
    (hlen : data.length = v.toNat) (hsize : s.sizes.wbuf ≤ 2 ^ 28) (h : s.wpos.toNat + 12 + v.toNat ≤ s.sizes.wbuf) :
    ∃ t, runCommand body s = .next t ∧
      t = { s.complete with
        wpos := t.wpos, result := t.wpos, chunkCrcCalc := crc32 (be4 ty ++ data), wbuf := t.wbuf } ∧
      t.wpos.toNat = s.wpos.toNat + 12 + v.toNat ∧
      t.bytesAt .wbuf s.wpos.toNat (12 + v.toNat) = be4 v ++ be4 ty ++ data ++ be4 (crc32 (be4 ty ++ data)) ∧
      ∀ a, a < s.wpos.toNat ∨ s.wpos.toNat + 12 + v.toNat ≤ a → t.peek .wbuf a = s.peek .wbuf a := by
  have hrun : body s = .ok () { s.emitted (framed ty data) with chunkCrcCalc := crc32 (be4 ty ++ data) } := by
    rw [hbody, bind_ok (emit_ok (hlen ▸ h)), State.emitted, framed_length, ← Nat.add_assoc]
    rfl
  have hframed : (framed ty data).length = 12 + v.toNat := (framed_length ty data).trans (congrArg _ hlen)
  obtain ⟨hrest, hpos, hbytes, hother⟩ := s.emitted_spec (bs := framed ty data) hsize (by omega)
  rw [hframed, ← Nat.add_assoc] at hpos hother
  rw [hframed] at hbytes
  refine ⟨_, runCommand_ok hrun, ?_, hpos, hbytes.trans (framed_eq hlen), hother⟩
  rw [hrest]
  rfl

theorem runCommand_emit_overflow {body : Act Unit} {ty : Word} {data : List Byte}
    (hbody : body s = (do emit ty data; resultWpos) s) (h : s.sizes.wbuf < s.wpos.toNat + 12 + data.length) :
    runCommand body s = .next (s.errorEntry ⟨.outputOverflow, 3⟩) :=
  runCommand_error (hbody.trans (bind_error (emit_error h)))

end Writes

/-! ### The three commands -/

theorem emitSignature_ok {s : State} (h : s.wpos.toNat + 8 ≤ s.sizes.wbuf) :
    emitSignature s = .ok () (s.emitted pngSignature) := by
  rw [emitSignature, getState_bind, check_bind_pass (Nat.not_lt.2 h), update_bind, update_bind,
    State.emitted, writeBytes_wbuf_eq]
  rfl

theorem emitSignature_error {s : State} (h : s.sizes.wbuf < s.wpos.toNat + 8) :
    emitSignature s = .error ⟨.outputOverflow, 3⟩ s := by
  rw [emitSignature, getState_bind, check_bind_fail h]
  rfl

/-- Settles O49, by the write at WPOS. -/
theorem emitSignatureResult : Obligations.EmitSignatureResult := by
  refine ⟨by decide, fun s hs => ⟨fun h => ?write, fun h => runCommand_error (emitSignature_error h)⟩⟩
  case write =>
    obtain ⟨hrest, hpos, hbytes, hother⟩ := s.emitted_spec (bs := pngSignature) (hs.sizes .wbuf).2 h
    refine ⟨_, runCommand_ok (emitSignature_ok h), ?_, hpos, hbytes, hother⟩
    rw [hrest]
    rfl

/-- Settles O50, check by check. -/
theorem emitChunkResult : Obligations.EmitChunkResult := by
  refine ⟨by decide, fun s hs => ?_⟩
  have hlen : (s.bytesAt .src s.arg1.toNat s.arg2.toNat).length = s.arg2.toNat := by simp [State.bytesAt]
  have hbody (h : s.arg1.toNat + s.arg2.toNat ≤ s.srcLen.toNat) :
      emitChunk s = (do emit s.arg0 (s.bytesAt .src s.arg1.toNat s.arg2.toNat); resultWpos) s := by
    rw [emitChunk, getState_bind, check_bind_pass (Nat.not_lt.2 h)]
  refine ⟨fun h hw => runCommand_emit_ok (hbody h) hlen (hs.sizes .wbuf).2 hw, fun h => ?outOfData,
    fun h hw => runCommand_emit_overflow (hbody h) (by rwa [hlen])⟩
  case outOfData => exact runCommand_error (by rw [emitChunk, getState_bind, check_bind_fail h])

/-- Settles O51, by the chunk of the header registers. -/
theorem emitIhdrResult : Obligations.EmitIhdrResult := by
  refine ⟨by decide, fun s hs => ⟨fun h => ?write, fun h => ?overflow⟩⟩
  case write => exact runCommand_emit_ok (v := 13) (data := s.ihdrBytes) rfl rfl (hs.sizes .wbuf).2 h
  case overflow => exact runCommand_emit_overflow (data := s.ihdrBytes) rfl h

/-! ### Their frames -/

/-- Where one memory alone may change, and there not outside `hit`, no other byte reads differently. -/
theorem sameBytes_of_mem {s t : State} {k : Space} {hit : Nat → Prop} (hmem : ∀ m, m ≠ k → t.mem m = s.mem m)
    (hresets : t.resets = s.resets) (hk : ∀ a, ¬hit a → t.peek k a = s.peek k a) :
    s.sameBytes t fun m a => m = k ∧ hit a := by
  intro m a hno
  by_cases hm : m = k
  · subst hm
    exact hk a fun ha => hno ⟨rfl, ha⟩
  · exact peek_congr (hmem m hm) hresets a

/-- CHUNK_CRC_CALC is as it was. -/
def SameCrcCalc (s t : State) : Prop := t.chunkCrcCalc = s.chunkCrcCalc

theorem sameCrcCalc_isFrame : IsFrame SameCrcCalc where
  refl _ := rfl
  trans _ _ _ h1 h2 := h2.trans h1

/-- The signature is no chunk and has no CRC (R252). -/
theorem emitSignature_sameCrcCalc : Act.Keeps SameCrcCalc emitSignature := by
  have hF := sameCrcCalc_isFrame
  refine .bind hF (.get hF) fun v => .bind hF (.check hF _ _ _) fun _ => .bind hF (.update fun s => ?_) fun _ => ?_
  · unfold SameCrcCalc
    rw [writeBytes_wbuf_eq]
  · exact .bind hF (.update fun _ => rfl) fun _ => .update fun _ => rfl

theorem resultWpos_emitFrame : Act.Keeps EmitFrame resultWpos := .update fun _ => ⟨rfl, fun _ => le_rfl, fun _ _ _ => rfl⟩

theorem emitSignature_keeps : Act.Keeps EmitFrame emitSignature := by
  intro s
  by_cases h : s.wpos.toNat + 8 ≤ s.sizes.wbuf
  · rw [emitSignature_ok h]
    have hw := emitFrame_write (s := s) (bs := pngSignature) (c := s.chunkCrcCalc) h
    refine ⟨?_, hw.mono, hw.other⟩
    rw [State.emitted, writeBytes_wbuf_eq]
  · rw [emitSignature_error (Nat.lt_of_not_le h)]
    exact emitFrame_isFrame.refl s

theorem commandBody_emitFrame {i : Instr} (hi : i = .pfEmitSignature ∨ i = .pfEmitChunk ∨ i = .pfEmitIhdr) :
    Act.Keeps EmitFrame (commandBody i) := by
  have hF := emitFrame_isFrame
  rcases hi with rfl | rfl | rfl
  · exact emitSignature_keeps
  · exact .bind hF (.get hF) fun _ => .bind hF (.check hF _ _ _) fun _ =>
      .bind hF (emit_keeps _ _) fun _ => resultWpos_emitFrame
  · exact .bind hF (.get hF) fun _ => .bind hF (emit_keeps _ _) fun _ => resultWpos_emitFrame

/-- Settles O58, by the frame of each command's body. -/
theorem emitFrames : Obligations.EmitFrames := by
  intro i s t hs hi h
  have hcrc : i = .pfEmitSignature → t.chunkCrcCalc = s.chunkCrcCalc := by
    rintro rfl
    obtain ⟨u, hu, ht⟩ := exec_withReport (i := .pfEmitSignature) emitSignature_sameCrcCalc h
    rw [ht]
    exact hu
  obtain ⟨u, hu, ht⟩ := exec_withReport (commandBody_emitFrame hi) h
  have hsize : s.sizes.wbuf < 2 ^ 32 := Nat.lt_of_le_of_lt (hs.sizes .wbuf).2 (by decide)
  have hresets : u.resets = s.resets := by rw [hu.rest]
  have hmem (m : Space) (hm : m ≠ .wbuf) : u.mem m = s.mem m := by
    rw [hu.rest]
    cases m with
    | wbuf => exact absurd rfl hm
    | _ => rfl
  rw [ht] at hcrc ⊢
  refine ⟨?rest, hcrc, hu.mono hsize, sameBytes_of_mem hmem hresets fun a ha => ?other, lensAt_congr ?lens hresets⟩
  case rest =>
    rw [hu.rest]
    rfl
  case other => exact hu.other hsize a ((not_and_or.1 ha).imp Nat.lt_of_not_le Nat.le_of_not_lt)
  case lens =>
    rw [hu.rest]
    rfl

end Sys2Proof.Machine
end

