-- ==== Sys2Proof/Proofs/ReadChunks.lean ====
section
/-! SUPPORT. PF_READ_HEADER and PF_READ_CHUNKS: the chunk loop chunk by chunk, the first chunk, and the frames of the read
path (45_png_framer.md R248 to R250, 70_reset_and_hazards.md R308). -/

namespace Sys2Proof.Machine

/-! ### The chunk loop -/

section Loop

variable {s t : State} {cls : ChunkClass} {r : Raise}

/-- The loop is a chunk and, where that was not IEND, the loop again: one pass more than bytes are left changes nothing
(R249, R308). -/
theorem readAllChunks_eq_nextChunk (s : State) :
    readAllChunks s = (do
      let cls ← nextChunk
      if cls = ChunkClass.iend then pure () else readChunksLoop (s.srcLen.toNat - s.frPos.toNat)) s :=
  (readChunksLoop_stable _ s le_rfl).symm

theorem readAllChunks_iend (h : nextChunk s = .ok .iend t) : readAllChunks s = .ok () t := by
  rw [readAllChunks_eq_nextChunk, bind_ok h, if_pos rfl]
  rfl

theorem readAllChunks_again (h : nextChunk s = .ok cls t) (hc : cls ≠ .iend) : readAllChunks s = readAllChunks t := by
  obtain ⟨-, hpos, hlen, -⟩ := nextChunk_moves h
  rw [readAllChunks_eq_nextChunk, bind_ok h, if_neg hc]
  exact readChunksLoop_enough (by rw [hlen]; omega)

theorem readAllChunks_raised (h : nextChunk s = .error r t) : readAllChunks s = .error r t := by
  rw [readAllChunks_eq_nextChunk, bind_error h]

end Loop

/-- Settles O47, by what the first chunk answers. -/
theorem readChunksLoop_unbounded : Obligations.ReadChunksLoop := by
  intro s
  cases h : nextChunk s with
  | error r t => exact readAllChunks_raised h
  | ok cls t =>
    cases cls with
    | iend => exact readAllChunks_iend h
    | _ => exact readAllChunks_again h (by decide)

/-! ### PF_READ_HEADER -/

/-- The state once the IHDR at FR_POS is read (R241, R244). -/
def State.readIhdr (s : State) : State :=
  { captureIhdr (s.frPos.toNat + 8) s.afterCrc with
    chunkCount := s.chunkCount + 1, frPos := BitVec.ofNat 32 (s.frPos.toNat + 25) }

theorem nextChunk_ihdr_counted {s : State} (hfit : s.nextFits) (hcrc : s.crcPasses) (hty : s.nextType = typeIHDR)
    (hlen : s.nextLen = 13) (hlt : s.chunkCount.toNat + 1 < 2 ^ 32) : nextChunk s = .ok .ihdr s.readIhdr := by
  rw [nextChunk_ihdr hfit hcrc (classify_eq_ihdr_iff.2 hty) hlen,
    endChunk_lt (u := captureIhdr (s.frPos.toNat + 8) s.afterCrc) rfl hlt]
  rfl

/-- The state PF_READ_HEADER begins with (R250). -/
def State.startHeader (s : State) : State := State.clearSeen { s with frPos := 0, chunkCount := 0 }

/-- PF_READ_HEADER once it has begun (R250). -/
def headerRest : Act Unit := do
  signature
  let _ ← nextChunk
  resultChunkCount

theorem exec_pfReadHeader (s : State) : exec .pfReadHeader s = runCommand headerRest s.startHeader := rfl

/-- A signature that matches puts FR_POS behind itself (R240). -/
def State.pastSignature (s : State) : State := { s with frPos := 8 }

/-- Settles O45, by the signature and the first chunk. -/
theorem readHeaderResult : Obligations.ReadHeaderResult := by
  intro s
  refine ⟨fun h => (exec_pfReadHeader s).trans (runCommand_error (bind_error (signature_error h))),
    fun hsig hlen hty h13 hcrc => ?ihdr⟩
  case ihdr =>
    have hsignature : signature s.startHeader = .ok () s.startHeader.pastSignature :=
      signature_ok (le_trans (by decide) hlen) hsig
    have hfit : s.startHeader.pastSignature.nextFits := by
      rw [State.nextFits, show s.startHeader.pastSignature.nextLen = 13 from h13]
      exact hlen
    have hcount : s.startHeader.pastSignature.chunkCount.toNat + 1 < 2 ^ 32 := show (0 : Word).toNat + 1 < 2 ^ 32 by decide
    have hrun : headerRest s.startHeader = .ok () { s.startHeader.pastSignature.readIhdr with result := 1 } := by
      rw [headerRest, bind_ok hsignature, bind_ok (nextChunk_ihdr_counted hfit hcrc hty h13 hcount)]
      rfl
    obtain ⟨hdepth, hcolor, hcompression, hfilter⟩ :=
      extractLsb'_fourBytes (s.peek .src 27) (s.peek .src 26) (s.peek .src 25) (s.peek .src 24)
    exact ⟨_, (exec_pfReadHeader s).trans (runCommand_ok hrun), rfl, hdepth, hcolor, hcompression, hfilter⟩

/-! ### The frames of the read path -/

/-- The frame of the read path, but for RESULT (R248 to R250). -/
def FramerFrame (s t : State) : Prop := ReadFrame { s with result := t.result } t

theorem ReadFrame.withResult {s t : State} (h : ReadFrame s t) (w : Word) :
    ReadFrame { s with result := w } { t with result := w } :=
  ⟨by rw [h.rest], h.mono, h.other⟩

theorem framerFrame_isFrame : IsFrame FramerFrame where
  refl s := readFrame_isFrame.refl s
  trans _ _ u h1 h2 := readFrame_isFrame.trans _ _ _ (h1.withResult u.result) h2

theorem ReadFrame.framerFrame {s t : State} (h : ReadFrame s t) : FramerFrame s t := h.withResult t.result

theorem update_result_framerFrame (f : State → Word) : Act.Keeps FramerFrame (update fun s => { s with result := f s }) :=
  .update fun s => readFrame_isFrame.refl { s with result := f s }

theorem nextChunk_framerFrame : Act.Keeps FramerFrame nextChunk := nextChunk_keeps.mono fun _ _ => ReadFrame.framerFrame
theorem signature_framerFrame : Act.Keeps FramerFrame signature := signature_keeps.mono fun _ _ => ReadFrame.framerFrame

theorem execNextChunk_framerFrame : Act.Keeps FramerFrame (commandBody .pfNextChunk) :=
  .bind framerFrame_isFrame nextChunk_framerFrame fun _ => update_result_framerFrame _

theorem headerRest_framerFrame : Act.Keeps FramerFrame headerRest :=
  .bind framerFrame_isFrame signature_framerFrame fun _ => .bind framerFrame_isFrame nextChunk_framerFrame fun _ =>
    update_result_framerFrame _

/-- The state PF_READ_CHUNKS begins with (R249). -/
def State.startChunks (s : State) : State := State.clearSeen { s with frPos := 0, catLen := 0, chunkCount := 0 }

/-- PF_READ_CHUNKS once it has begun (R249). -/
def chunksRest : Act Unit := do
  signature
  readAllChunks
  resultChunkCount

theorem exec_pfReadChunks (s : State) : exec .pfReadChunks s = runCommand chunksRest s.startChunks := rfl

theorem chunksRest_framerFrame : Act.Keeps FramerFrame chunksRest := by
  have hF := framerFrame_isFrame
  have hloop : Act.Keeps FramerFrame readAllChunks :=
    .bind hF (.get hF) fun _ => (readChunksLoop_keeps _).mono fun _ _ => ReadFrame.framerFrame
  exact .bind hF signature_framerFrame fun _ => .bind hF hloop fun _ => update_result_framerFrame _

/-- The first chunk leaves CAT_LEN: it is an IHDR, or it raises (R241). -/
theorem nextChunk_first_sameCatLen (c : Word) :
    Act.Spec (fun s => s.chunkCount = 0 ∧ s.catLen = c) nextChunk (fun _ t => t.catLen = c) fun _ t => t.catLen = c := by
  intro s ⟨h, hc⟩
  by_cases hhead : s.frPos.toNat + 8 ≤ s.srcLen.toNat
  swap
  · rw [nextChunk_head (Nat.lt_of_not_le hhead)]
    exact hc
  by_cases hfit : s.nextFits
  swap
  · rw [nextChunk_body hhead (Nat.lt_of_not_le hfit)]
    exact hc
  by_cases hcrc : s.crcPasses
  swap
  · rw [nextChunk_crcRaises hfit hcrc]
    exact hc
  by_cases hty : classify s.nextType = .ihdr
  swap
  · rw [nextChunk_notFirst hfit hcrc h hty]
    exact hc
  by_cases hlen : s.nextLen = 13
  · rw [nextChunk_ihdr hfit hcrc hty hlen, State.endChunk, bumpChunkCount_eq]
    exact hc
  · rw [nextChunk_badIhdr hfit hcrc hty hlen]
    exact hc

/-- CAT_LEN is as it was. -/
def SameCatLen (s t : State) : Prop := t.catLen = s.catLen

/-- PF_READ_HEADER reads the first chunk alone (R250). -/
theorem readHeader_sameCatLen : Act.Keeps SameCatLen readHeader := by
  intro s
  have hsignature : Act.Spec (fun u => u.chunkCount = 0 ∧ u.catLen = s.catLen) signature
      (fun _ u => u.chunkCount = 0 ∧ u.catLen = s.catLen) fun _ u => u.catLen = s.catLen :=
    .get fun _ => .bind (.check (fun _ hu _ => hu.2) fun _ hu _ => hu.2.2) fun _ => .update fun _ hu => hu
  have hrest : Act.Spec (fun u => u.chunkCount = 0 ∧ u.catLen = s.catLen) headerRest (fun _ u => u.catLen = s.catLen)
      fun _ u => u.catLen = s.catLen :=
    .bind hsignature fun _ => .bind (nextChunk_first_sameCatLen s.catLen) fun _ => .update fun _ hu => hu
  exact hrest s.startHeader ⟨rfl, rfl⟩

/-- All but CAT's bytes of the frame of a read command (R248 to R250). -/
def ReadRest (s t : State) : Prop :=
  t = { s.withReport t with
    status := { (s.withReport t).status with
      iendSeen := t.status.iendSeen, unknownSeen := t.status.unknownSeen, crcWarn := t.status.crcWarn }
    frPos := t.frPos, catLen := t.catLen, chunkLen := t.chunkLen, chunkType := t.chunkType, chunkCrc := t.chunkCrc
    chunkCrcCalc := t.chunkCrcCalc, chunkClass := t.chunkClass, chunkCount := t.chunkCount, hdrWidth := t.hdrWidth
    hdrHeight := t.hdrHeight, hdrFmt := t.hdrFmt, hdrInterlace := t.hdrInterlace, result := t.result, cat := t.cat
    draws := t.draws }

/-- Where a read command may write CAT: below the CAT_LEN after, for PF_NEXT_CHUNK from the CAT_LEN before, for
PF_READ_CHUNKS from 0 (R248, R249). -/
def ReadHit (i : Instr) (s t : State) (a : Nat) : Prop :=
  a < t.catLen.toNat ∧ (i = .pfNextChunk ∧ s.catLen.toNat ≤ a ∨ i = .pfReadChunks)

/-- The frame of a read command that first writes registers of the framer alone and then keeps the frame of the read path. -/
theorem readRest_of_start {s v t : State} {body : Act Unit} (i : Instr) (hsize : s.sizes.cat < 2 ^ 32)
    (hv : v = { s with
      status := { s.status with
        iendSeen := v.status.iendSeen, unknownSeen := v.status.unknownSeen, crcWarn := v.status.crcWarn }
      frPos := v.frPos, catLen := v.catLen, chunkCount := v.chunkCount })
    (hk : Act.Keeps FramerFrame body) (h : runCommand body v = .next t)
    (hhit : ∀ a, ¬ReadHit i s t a → a < v.catLen.toNat ∨ t.catLen.toNat ≤ a) :
    ReadRest s t ∧ s.sameBytes t (fun m a => m = .cat ∧ ReadHit i s t a) ∧ ∀ k, t.lensAt k = s.lensAt k := by
  obtain ⟨u, hu, ht⟩ := runCommand_withReport hk h
  have hcat : t.catLen = u.catLen := by rw [ht]; rfl
  have hsizes : v.sizes = s.sizes := by rw [hv]
  have hrest : ReadRest s (u.withReport t) := by
    rw [ReadRest, hu.rest, hv]
    rfl
  have hmem (m : Space) (hm : m ≠ .cat) : u.mem m = s.mem m := by
    rw [hu.rest, hv]
    cases m with
    | cat => exact absurd rfl hm
    | _ => rfl
  have hresets : u.resets = s.resets := by rw [hu.rest, hv]
  have hother (a : Nat) (ha : ¬ReadHit i s t a) : u.peek .cat a = s.peek .cat a := by
    refine (hu.other (hsizes ▸ hsize) a (hcat ▸ hhit a ha)).trans ?_
    rw [hv]
    rfl
  have hbytes : s.sameBytes u (fun m a => m = .cat ∧ ReadHit i s t a) := sameBytes_of_mem hmem hresets hother
  have hlens : u.lens = s.lens := by rw [hu.rest, hv]
  rw [← ht] at hrest
  exact ⟨hrest, fun m a ha => (congrArg (State.peek · m a) ht).trans (hbytes m a ha),
    fun k => (congrArg (State.lensAt · k) ht).trans (lensAt_congr hlens hresets k)⟩

/-- Settles O57, by the frame of the read path from the state each command begins with. -/
theorem readFrames : Obligations.ReadFrames := by
  intro i s t hs hi h
  have hsize : s.sizes.cat < 2 ^ 32 := Nat.lt_of_le_of_lt (hs.sizes .cat).2 (by decide)
  rcases hi with rfl | rfl | rfl
  case inl =>
    have hhit (a : Nat) (ha : ¬ReadHit .pfNextChunk s t a) : a < s.catLen.toNat ∨ t.catLen.toNat ≤ a := by
      by_contra hno
      exact ha ⟨by omega, .inl ⟨rfl, by omega⟩⟩
    obtain ⟨hrest, hreads⟩ := readRest_of_start .pfNextChunk hsize rfl execNextChunk_framerFrame h hhit
    exact ⟨hrest, nofun, hreads⟩
  case inr.inl =>
    have hhit (a : Nat) (ha : ¬ReadHit .pfReadChunks s t a) : t.catLen.toNat ≤ a :=
      Nat.le_of_not_lt fun hlt => ha ⟨hlt, .inr rfl⟩
    obtain ⟨hrest, hreads⟩ := readRest_of_start .pfReadChunks hsize (v := s.startChunks) rfl chunksRest_framerFrame
      ((exec_pfReadChunks s).symm.trans h) fun a ha => .inr (hhit a ha)
    exact ⟨hrest, nofun, hreads⟩
  case inr.inr =>
    obtain ⟨u, hu, ht⟩ := exec_withReport (i := .pfReadHeader) readHeader_sameCatLen h
    have hcat : t.catLen = s.catLen := by rw [ht]; exact hu
    obtain ⟨hrest, hreads⟩ := readRest_of_start .pfReadHeader hsize (v := s.startHeader) rfl headerRest_framerFrame
      ((exec_pfReadHeader s).symm.trans h) fun a _ => hcat ▸ Nat.lt_or_ge a _
    exact ⟨hrest, fun _ => hcat, hreads⟩

end Sys2Proof.Machine
end

