-- ==== Sys2Proof/Proofs/ReadFile.lean ====
section
/-! SUPPORT. PF_READ_CHUNKS gives back the IDAT payloads of a file: the chunk at FR_POS from the bytes of a framed chunk,
one step of the loop for each, and the loop over the file's chunks (45_png_framer.md R240 to R249). -/

namespace Sys2Proof.Machine

/-! ### Bytes of SRC -/

/-- SRC holds the bytes from address p. -/
def State.holds (s : State) (p : Nat) (bs : List Byte) : Prop := ∀ k, k < bs.length → s.peek .src (p + k) = bs.getD k 0

section Holds

variable {s : State} {p : Nat} {as bs : List Byte}

theorem State.holds.left (h : s.holds p (as ++ bs)) : s.holds p as := fun k hk =>
  (h k (by rw [List.length_append]; omega)).trans (List.getD_append _ _ _ _ hk)

theorem State.holds.right (h : s.holds p (as ++ bs)) : s.holds (p + as.length) bs := fun k hk => by
  rw [Nat.add_assoc, h _ (by rw [List.length_append]; omega), List.getD_append_right _ _ _ _ (Nat.le_add_right _ _),
    Nat.add_sub_cancel_left]

/-- The four bytes of a word are read as the word (20_memory.md R79). -/
theorem State.holds.srcWord {v : Word} (h : s.holds p (be4 v)) : s.srcWord p = v := by
  have h0 : s.peek .src p = v.extractLsb' 24 8 := h 0 (show 0 < 4 by decide)
  have h1 : s.peek .src (p + 1) = v.extractLsb' 16 8 := h 1 (show 1 < 4 by decide)
  have h2 : s.peek .src (p + 2) = v.extractLsb' 8 8 := h 2 (show 2 < 4 by decide)
  have h3 : s.peek .src (p + 3) = v.extractLsb' 0 8 := h 3 (show 3 < 4 by decide)
  rw [State.srcWord, h0, h1, h2, h3, be32_be4]

end Holds

/-! ### A framed chunk at FR_POS -/

/-- SRC holds a framed chunk at FR_POS, within SRC_LEN (R246). -/
structure State.ShowsChunk (s : State) (ty : Word) (data : List Byte) : Prop where
  bytes : s.holds s.frPos.toNat (framed ty data)
  within : s.frPos.toNat + 12 + data.length ≤ s.srcLen.toNat

/-- The state once such a chunk is captured (R241). -/
def State.withChunk (s : State) (ty : Word) (data : List Byte) : State :=
  { s with
    chunkLen := BitVec.ofNat 32 data.length, chunkType := ty, chunkCrc := crc32 (be4 ty ++ data)
    chunkCrcCalc := crc32 (be4 ty ++ data), chunkClass := classify ty }

namespace State.ShowsChunk

variable {s : State} {ty : Word} {data : List Byte} (h : s.ShowsChunk ty data)

include h

theorem nextLen : s.nextLen = data.length := by
  have hlen : s.srcWord s.frPos.toNat = BitVec.ofNat 32 data.length := h.bytes.left.left.left.srcWord
  rw [State.nextLen, hlen]
  exact toNat_ofNat_chunkEnd (s := s) ((Nat.le_add_left _ _).trans h.within)

theorem nextType : s.nextType = ty := h.bytes.left.left.right.srcWord

theorem nextCrc : s.nextCrc = crc32 (be4 ty ++ data) := by
  rw [State.nextCrc, h.nextLen]
  have hcrc := h.bytes.right
  simp only [List.length_append, be4_length, ← Nat.add_assoc] at hcrc
  exact hcrc.srcWord

/-- The data stand behind length and type. -/
theorem payload : s.holds (s.frPos.toNat + 8) data := h.bytes.left.right

theorem nextCrcCalc : s.nextCrcCalc = crc32 (be4 ty ++ data) := by
  have hbytes : s.holds s.frPos.toNat (be4 (BitVec.ofNat 32 data.length) ++ (be4 ty ++ data)) := by
    rw [← List.append_assoc]
    exact h.bytes.left
  have hlen : (be4 ty ++ data).length = 4 + data.length := by rw [List.length_append, be4_length]
  rw [State.nextCrcCalc, h.nextLen, ← hlen]
  exact congrArg crc32 (bytesAt_eq hbytes.right)

theorem nextFits : s.nextFits := by
  rw [State.nextFits, h.nextLen]
  exact h.within

theorem crcPasses : s.crcPasses := .inl (h.nextCrc.trans h.nextCrcCalc.symm)

theorem afterCrc : s.afterCrc = s.withChunk ty data := by
  rw [State.afterCrc, State.captured, h.nextLen, h.nextType, h.nextCrc, h.nextCrcCalc]
  simp [State.withChunk]

end State.ShowsChunk

/-! ### One chunk of the loop -/

/-- The state once the IDAT at FR_POS is read (R245). -/
def State.readIdat (s : State) (data : List Byte) : State :=
  { s.withChunk typeIDAT data with
    cat := ((s.withChunk typeIDAT data).withIdat s.frPos.toNat data.length).cat
    catLen := BitVec.ofNat 32 (s.catLen.toNat + data.length), chunkCount := s.chunkCount + 1
    frPos := BitVec.ofNat 32 (s.frPos.toNat + 12 + data.length) }

/-- The state once an IEND is read, its end at p: n chunks are counted, and c bytes of CAT are the memory m (R241). -/
def State.readIend (s : State) (n c p : Nat) (m : Memory) : State :=
  { s.withChunk typeIEND [] with
    status := { s.status with iendSeen := true }
    cat := m, catLen := BitVec.ofNat 32 c, chunkCount := BitVec.ofNat 32 n, frPos := BitVec.ofNat 32 p }

/-- Some chunk was read, and no more chunks than bytes: the count does not pass 2^32 - 1. -/
structure State.Counts (s : State) : Prop where
  pos : 0 < s.chunkCount.toNat
  le : s.chunkCount.toNat ≤ s.frPos.toNat

section Step

variable {s : State} {data : List Byte} (hn : s.Counts)

include hn

theorem State.Counts.ne_zero : s.chunkCount ≠ 0 := fun h => absurd hn.pos (by rw [h]; decide)

theorem State.Counts.lt {ty : Word} (h : s.ShowsChunk ty data) : s.chunkCount.toNat + 1 < 2 ^ 32 := by
  have hle := hn.le
  have hwithin := h.within
  omega

theorem nextChunk_readIdat (h : s.ShowsChunk typeIDAT data) (hcat : s.catLen.toNat + data.length ≤ s.sizes.cat) :
    nextChunk s = .ok .idat (s.readIdat data) := by
  have hchunk := nextChunk_idat h.nextFits h.crcPasses hn.ne_zero h.nextType (h.nextLen ▸ hcat)
  rw [h.nextLen, h.afterCrc, withIdat_eq] at hchunk
  exact hchunk.trans (congrArg _ (endChunk_lt (by rfl) (hn.lt h) _))

theorem nextChunk_readIend (h : s.ShowsChunk typeIEND []) :
    nextChunk s = .ok .iend (s.readIend (s.chunkCount.toNat + 1) s.catLen.toNat (s.frPos.toNat + 12) s.cat) := by
  have hchunk := nextChunk_other h.nextFits h.crcPasses hn.ne_zero (by rw [h.nextType]; decide) (by rw [h.nextType]; decide)
  rw [h.nextLen, h.nextType, h.afterCrc] at hchunk
  refine hchunk.trans (congrArg _ ((endChunk_lt (by rfl) (hn.lt h) _).trans ?_))
  have hcount : BitVec.ofNat 32 (s.chunkCount.toNat + 1) = s.chunkCount + 1 := by
    rw [BitVec.ofNat_add, BitVec.ofNat_toNat, BitVec.setWidth_eq]
    rfl
  have hcat : BitVec.ofNat 32 s.catLen.toNat = s.catLen := by rw [BitVec.ofNat_toNat, BitVec.setWidth_eq]
  rw [State.readIend, hcount, hcat, State.withSeen]
  simp [State.withChunk]

end Step

/-! ### The loop over the file's chunks -/

/-- CAT with the cells m holds the bytes behind CAT_LEN, and reads as before elsewhere (R245). -/
structure State.Appends (s : State) (m : Memory) (bs : List Byte) : Prop where
  new : ∀ k, k < bs.length → ({ s with cat := m } : State).peek .cat (s.catLen.toNat + k) = bs.getD k 0
  old : ∀ a, a < s.catLen.toNat ∨ s.catLen.toNat + bs.length ≤ a →
    ({ s with cat := m } : State).peek .cat a = s.peek .cat a

section ReadIdat

variable {s : State} {data : List Byte}

theorem readIdat_frPos (h : s.ShowsChunk typeIDAT data) :
    (s.readIdat data).frPos.toNat = s.frPos.toNat + (framed typeIDAT data).length := by
  rw [framed_length, ← Nat.add_assoc]
  exact toNat_ofNat_chunkEnd h.within

theorem readIdat_counts (hn : s.Counts) (h : s.ShowsChunk typeIDAT data) :
    (s.readIdat data).chunkCount.toNat = s.chunkCount.toNat + 1 ∧ (s.readIdat data).Counts := by
  have hcount : (s.readIdat data).chunkCount.toNat = s.chunkCount.toNat + 1 :=
    (BitVec.toNat_add _ _).trans (Nat.mod_eq_of_lt (hn.lt h))
  have hpos := readIdat_frPos h
  have hle := hn.le
  rw [framed_length] at hpos
  exact ⟨hcount, by omega, by omega⟩

theorem readIdat_peek (a : Nat) : (s.readIdat data).peek .cat a =
    ((s.withChunk typeIDAT data).withIdat s.frPos.toNat data.length).peek .cat a := by
  rw [withIdat_eq]
  rfl

theorem readIdat_new (h : s.ShowsChunk typeIDAT data) {k : Nat} (hk : k < data.length) :
    (s.readIdat data).peek .cat (s.catLen.toNat + k) = data.getD k 0 :=
  (readIdat_peek _).trans
    ((blit_at .src .cat (by decide) data.length _ _ k (s.withChunk typeIDAT data) hk).trans (h.payload k hk))

theorem readIdat_old {a : Nat} (ha : a < s.catLen.toNat ∨ s.catLen.toNat + data.length ≤ a) :
    (s.readIdat data).peek .cat a = s.peek .cat a :=
  (readIdat_peek a).trans (blit_other .src .cat .cat data.length _ _ a (s.withChunk typeIDAT data) (.inr ha))

/-- The payload is appended, and what is appended then follows it (R245). -/
theorem readIdat_appends {m : Memory} {bs : List Byte} (h : s.ShowsChunk typeIDAT data)
    (hlen : (s.readIdat data).catLen.toNat = s.catLen.toNat + data.length) (hm : (s.readIdat data).Appends m bs) :
    s.Appends m (data ++ bs) := by
  obtain ⟨hnew, hold⟩ := hm
  rw [hlen] at hnew hold
  refine ⟨fun k hk => ?new, fun a ha => ?old⟩
  case new =>
    rw [List.length_append] at hk
    by_cases hlt : k < data.length
    · rw [List.getD_append _ _ _ _ hlt, ← readIdat_new h hlt]
      exact hold _ (.inl (by omega))
    · have hrest := hnew (k - data.length) (by omega)
      rw [Nat.add_assoc, Nat.add_sub_cancel' (Nat.le_of_not_lt hlt)] at hrest
      rw [List.getD_append_right _ _ _ _ (Nat.le_of_not_lt hlt), ← hrest]
      rfl
  case old =>
    rw [List.length_append] at ha
    exact (hold a (by omega)).trans (readIdat_old (by omega))

end ReadIdat

/-- The chunks behind the IHDR: an IDAT for each part, and IEND. -/
def fileRest (parts : List (List Byte)) : List Byte := parts.flatMap (framed typeIDAT) ++ framed typeIEND []

theorem fileRest_cons (data : List Byte) (parts : List (List Byte)) :
    fileRest (data :: parts) = framed typeIDAT data ++ fileRest parts := by
  rw [fileRest, List.flatMap_cons, List.append_assoc, fileRest]

/-- The loop reads the parts one after another and ends at IEND (R249). -/
theorem readAllChunks_fileRest (parts : List (List Byte)) : ∀ {s : State}, s.sizes.cat ≤ 2 ^ 28 → s.Counts →
    s.holds s.frPos.toNat (fileRest parts) → s.frPos.toNat + (fileRest parts).length ≤ s.srcLen.toNat →
    s.catLen.toNat + parts.flatten.length ≤ s.sizes.cat →
    ∃ m, readAllChunks s = .ok () (s.readIend (s.chunkCount.toNat + (parts.length + 1))
      (s.catLen.toNat + parts.flatten.length) (s.frPos.toNat + (fileRest parts).length) m) ∧ s.Appends m parts.flatten := by
  induction parts with
  | nil =>
    intro s _ hn hbytes hwithin _
    exact ⟨s.cat, readAllChunks_iend (nextChunk_readIend hn ⟨hbytes, hwithin⟩), nofun, fun _ _ => rfl⟩
  | cons data parts ih =>
    intro s hsize hn hbytes hwithin hcat
    rw [fileRest_cons] at hbytes hwithin ⊢
    rw [List.length_append] at hwithin ⊢
    rw [List.flatten_cons, List.length_append] at hcat ⊢
    have hframed := framed_length typeIDAT data
    have h : s.ShowsChunk typeIDAT data := ⟨hbytes.left, by omega⟩
    have hpos := readIdat_frPos h
    obtain ⟨hcount, hn'⟩ := readIdat_counts hn h
    have hlen : (s.readIdat data).catLen.toNat = s.catLen.toNat + data.length := Nat.mod_eq_of_lt (by omega)
    obtain ⟨m, hrun, hm⟩ := ih (s := s.readIdat data) hsize hn' (by rw [hpos]; exact hbytes.right)
      (by rw [hpos, Nat.add_assoc]; exact hwithin) (by rw [hlen, Nat.add_assoc]; exact hcat)
    refine ⟨m, ?_, readIdat_appends h hlen hm⟩
    rw [readAllChunks_again (nextChunk_readIdat hn h (by omega)) (by decide), hrun, hpos, hcount, hlen, List.length_cons,
      Nat.add_assoc, Nat.add_assoc, Nat.add_assoc, Nat.add_comm 1]
    rfl

/-! ### The whole file -/

/-- The state once signature and IHDR are read (R240, R244). -/
def State.pastIhdr (s : State) (hdr : List Byte) : State :=
  { captureIhdr 16 (s.startChunks.pastSignature.withChunk typeIHDR hdr) with chunkCount := 1, frPos := 33 }

section File

variable {s : State} {hdr : List Byte} {parts : List (List Byte)}
  (hbytes : s.holds 0 (pngSignature ++ (framed typeIHDR hdr ++ fileRest parts))) (hhdr : hdr.length = 13)
  (hwithin : 33 + (fileRest parts).length ≤ s.srcLen.toNat)

include hbytes hhdr hwithin

/-- The chunk behind the signature is the IHDR. -/
theorem showsChunk_ihdr : s.startChunks.pastSignature.ShowsChunk typeIHDR hdr :=
  ⟨hbytes.right.left, show 8 + 12 + hdr.length ≤ s.srcLen.toNat by omega⟩

theorem nextChunk_pastSignature : nextChunk s.startChunks.pastSignature = .ok .ihdr (s.pastIhdr hdr) := by
  have h := showsChunk_ihdr hbytes hhdr hwithin
  rw [nextChunk_ihdr_counted h.nextFits h.crcPasses h.nextType (h.nextLen.trans hhdr)
    (show (0 : Word).toNat + 1 < 2 ^ 32 by decide),
    State.readIhdr, h.afterCrc]
  rfl

theorem chunksRest_file (hsize : s.sizes.cat ≤ 2 ^ 28) (hcat : parts.flatten.length ≤ s.sizes.cat) :
    ∃ m, chunksRest s.startChunks = .ok () { (s.pastIhdr hdr).readIend (2 + parts.length) parts.flatten.length
        (33 + (fileRest parts).length) m with result := BitVec.ofNat 32 (2 + parts.length) } ∧
      (s.pastIhdr hdr).Appends m parts.flatten := by
  have hsignature : signature s.startChunks = .ok () s.startChunks.pastSignature :=
    signature_ok (show 8 ≤ s.srcLen.toNat by omega) (bytesAt_eq hbytes.left)
  have hihdr : (framed typeIHDR hdr).length = 25 := by rw [framed_length, hhdr]
  have hrest := hbytes.right.right
  rw [hihdr] at hrest
  have hzero : (s.pastIhdr hdr).catLen.toNat = 0 := rfl
  have hone : (s.pastIhdr hdr).chunkCount.toNat = 1 := rfl
  have hpos : (s.pastIhdr hdr).frPos.toNat = 33 := rfl
  obtain ⟨m, hrun, hm⟩ := readAllChunks_fileRest (s := s.pastIhdr hdr) parts hsize ⟨by omega, by omega⟩ hrest hwithin
    (by rw [hzero, Nat.zero_add]; exact hcat)
  rw [hzero, hone, hpos, Nat.zero_add, show 1 + (parts.length + 1) = 2 + parts.length by omega] at hrun
  refine ⟨m, ?_, hm⟩
  rw [chunksRest, bind_ok hsignature,
    bind_ok ((readAllChunks_again (nextChunk_pastSignature hbytes hhdr hwithin) (by decide)).trans hrun)]
  rfl

end File

/-- Settles O46: the signature, the IHDR, and the loop over the rest. -/
theorem readChunksConcatenates : Obligations.ReadChunksConcatenates := by
  intro s hdr parts hs hhdr file hlen hbytes hcat
  have hfile : file = pngSignature ++ (framed typeIHDR hdr ++ fileRest parts) := by
    simp only [file, fileRest, List.append_assoc]
  have htotal : file.length = 33 + (fileRest parts).length := by
    rw [hfile, List.length_append, List.length_append, framed_length, hhdr, ← Nat.add_assoc]
    rfl
  have hholds : s.holds 0 (pngSignature ++ (framed typeIHDR hdr ++ fileRest parts)) := by
    rw [← hfile]
    intro k hk
    rw [Nat.zero_add, hbytes k hk]
  obtain ⟨m, hrun, hm⟩ := chunksRest_file hholds hhdr (htotal ▸ hlen) (hs.sizes .cat).2 hcat
  have hpay : s.holds 16 hdr := (showsChunk_ihdr hholds hhdr (htotal ▸ hlen)).payload
  have hfield (k : Nat) (hk : k < 13) : s.peek .src (16 + k) = hdr.getD k 0 := hpay k (hhdr ▸ hk)
  refine ⟨_, (exec_pfReadChunks s).trans (runCommand_ok hrun), ?state, ?catLen, bytesAt_eq hm.new,
    fun a ha => hm.old a (.inr ?old)⟩
  case state =>
    rw [htotal, ← hfield 8 (by decide), ← hfield 9 (by decide), ← hfield 10 (by decide), ← hfield 11 (by decide),
      ← hfield 12 (by decide)]
    rfl
  case catLen => exact Nat.mod_eq_of_lt (Nat.lt_of_le_of_lt (hcat.trans (hs.sizes .cat).2) (by decide))
  case old => exact (Nat.zero_add _).trans_le ha

end Sys2Proof.Machine
end

