-- ==== Sys2Proof/Proofs/Exceptions.lean ====
section
/-! SUPPORT. The end of a command: what a raise writes, that every raise carries a code that may be raised and leaves
RESULT, and the level of irq (60_exceptions.md R270 to R282). -/

namespace Sys2Proof.Machine

/-! ### What a raise writes -/

/-- An error entry sets ERROR and DONE, clears BUSY and keeps the other flags (60_exceptions.md R272). -/
theorem errorEntry_readReg_status (s : State) (r : Raise) :
    (s.errorEntry r).readReg .status = (s.readReg .status &&& 0x78) ||| 0x06 := by
  refine BitVec.eq_of_getLsbD_eq fun k hk => ?_
  simp only [State.readReg, State.errorEntry_status, Status.word, BitVec.getLsbD_append, BitVec.getLsbD_and,
    BitVec.getLsbD_or]
  interval_cases k <;> simp

/-- An error entry writes no register outside the report (60_exceptions.md R272). -/
theorem errorEntry_readReg_other (s : State) (e : Raise) {r : Reg} (hcode : r ≠ .errCode) (hdata : r ≠ .errData)
    (hpos : r ≠ .errBitPos) (hstatus : r ≠ .status) : (s.errorEntry e).readReg r = s.readReg r := by
  cases r with
  | errCode => exact absurd rfl hcode
  | errData => exact absurd rfl hdata
  | errBitPos => exact absurd rfl hpos
  | status => exact absurd rfl hstatus
  | _ => rfl

/-- Settles O11: the report, then the registers, memories, LENS and slots outside it, then the raise and its numbers. -/
theorem errorEntryEffect : Obligations.ErrorEntryEffect := by
  refine ⟨fun s c d => ⟨rfl, rfl, rfl, errorEntry_readReg_status s _, rfl,
      fun r h1 h2 h3 h4 => errorEntry_readReg_other s _ h1 h2 h3 h4, fun m a => peek_congr (by cases m <;> rfl) rfl a,
      lensAt_congr rfl rfl, fun k => by cases k <;> rfl⟩,
    fun s c d => raise_apply c d s, fun x f s t r h => bind_error h, fun x s t r => runCommand_error, fun c => ?numbers⟩
  case numbers => cases c <;> rfl

/-! ### Bodies that raise cleanly -/

/-- From every state, a raise of the body has a code that may be raised and leaves RESULT; where `k` holds, so does its
completion (10_state.md R30, 60_exceptions.md R272, R276, R277). A body that writes RESULT last is of the kind `False`. -/
def Act.RaisesClean {α : Type} (k : Prop) (x : Act α) : Prop :=
  ∀ w, Act.Spec (fun s => s.result = w) x (fun _ t => k → t.result = w) fun r t => Raisable r.code ∧ t.result = w

section Rules

variable {α β : Type} {k : Prop}

theorem Act.RaisesClean.bind {x : Act α} {f : α → Act β} (hx : Act.RaisesClean True x)
    (hf : ∀ a, Act.RaisesClean k (f a)) : Act.RaisesClean k (x >>= f) :=
  fun w => Act.Spec.bind (hx w) fun a => (hf a w).pre fun _ hs => hs trivial

theorem Act.RaisesClean.pure (a : α) : Act.RaisesClean k (Pure.pure a : Act α) := fun _ => Act.Spec.pure fun _ hs _ => hs

theorem Act.RaisesClean.get : Act.RaisesClean k getState := fun _ _ hs _ => hs

theorem Act.RaisesClean.update {g : State → State} (h : ∀ s, k → (g s).result = s.result) :
    Act.RaisesClean k (Machine.update g) := fun _ => Act.Spec.update fun s hs hk => (h s hk).trans hs

theorem Act.RaisesClean.raise {c : ErrCode} {d : Nat} (hc : Raisable c) :
    Act.RaisesClean k (Machine.raise c d : Act α) := fun _ => Act.Spec.raise fun _ hs => ⟨hc, hs⟩

theorem Act.RaisesClean.check {bad : Prop} [Decidable bad] {c : ErrCode} {d : Nat} (hc : Raisable c) :
    Act.RaisesClean k (Machine.check bad c d) := fun _ => Act.Spec.check (fun _ hs _ _ => hs) fun _ hs _ => ⟨hc, hs⟩

theorem Act.RaisesClean.ite {c : Prop} [Decidable c] {x y : Act α} (hx : Act.RaisesClean k x)
    (hy : Act.RaisesClean k y) : Act.RaisesClean k (if c then x else y) :=
  fun w => Act.Spec.ite (fun _ => hx w) fun _ => hy w

/-- How a command with such a body ends. -/
theorem Act.RaisesClean.ends {body : Act Unit} (h : Act.RaisesClean k body) (s : State) :
    (∃ t, body s = .ok () t) ∨ ∃ r t, body s = .error r t ∧ Raisable r.code ∧ t.result = s.result := by
  have hs := h s.result s rfl
  cases hb : body s with
  | ok a t => exact .inl ⟨t, rfl⟩
  | error r t =>
    rw [hb] at hs
    exact .inr ⟨r, t, rfl, hs⟩

end Rules

section Pieces

variable {k : Prop}

/-! ### The cursor -/

theorem readBit_raisesClean : Act.RaisesClean k readBit :=
  .bind .get fun _ => .bind (.check (raisable _)) fun _ => .bind (.update fun _ _ => rfl) fun _ => .pure _

theorem readBitsLoop_raisesClean (n : Nat) : ∀ i v, Act.RaisesClean k (readBitsLoop n i v) := by
  induction n with
  | zero => exact fun _ v => .pure v
  | succ n ih => exact fun _ _ => .bind readBit_raisesClean fun _ => ih _ _

theorem readBits_raisesClean (n : Nat) : Act.RaisesClean k (readBits n) :=
  .bind .get fun _ => .bind (.check (raisable _)) fun _ => readBitsLoop_raisesClean n 0 0

theorem align_raisesClean : Act.RaisesClean k align := .update fun _ _ => rfl

/-! ### Huffman tables -/

theorem decodeLoop_raisesClean (t : TableId) (codes : List (Nat × Nat)) (n : Nat) :
    ∀ L code, Act.RaisesClean k (decodeLoop t codes n L code) := by
  induction n with
  | zero => exact fun _ _ => .raise (raisable _)
  | succ n ih =>
    intro L code
    refine .bind readBit_raisesClean fun b => ?_
    cases symbolOf codes (L + 1) (code <<< 1 ||| b.toNat) with
    | some sym => exact .pure sym
    | none => exact ih _ _

theorem decodeSymbol_raisesClean (t : TableId) : Act.RaisesClean k (decodeSymbol t) :=
  .bind .get fun _ => .bind (.check (raisable _)) fun _ => decodeLoop_raisesClean t _ _ 0 0

theorem build_raisesClean (t : BuildTarget) (m base : Nat) : Act.RaisesClean k (build t m base) := by
  refine .bind .get fun s => ?_
  cases overSubscribed (s.lensSnapshot m base) with
  | some L => exact .bind (.update fun u _ => u.setSlot_result t _) fun _ => .raise (raisable _)
  | none => exact .bind (.update fun u _ => u.setSlot_result t _) fun _ => .pure _

/-! ### The output -/

theorem emitByte_raisesClean (x : Byte) : Act.RaisesClean k (emitByte x) :=
  .bind .get fun s => .bind (.check (raisable _)) fun _ => .bind (.update fun u _ => u.poke_result .dst _ x) fun _ =>
    .update fun _ _ => rfl

theorem copy_raisesClean (len d : Nat) : Act.RaisesClean k (copy len d) :=
  .bind .get fun _ => .bind (.check (raisable _)) fun _ => .bind (.check (raisable _)) fun _ =>
    .update fun u _ => by rw [copyLoop_eq]

theorem lengthOf_raisesClean (sym : Nat) : Act.RaisesClean k (lengthOf sym) := by
  unfold lengthOf
  generalize lengthRow sym = row
  exact .bind (.check (raisable _)) fun _ => .bind (readBits_raisesClean row.2) fun e => .pure (row.1 + e)

theorem distOf_raisesClean (sym : Nat) : Act.RaisesClean k (distOf sym) := by
  unfold distOf
  generalize distRow sym = row
  exact .bind (.check (raisable _)) fun _ => .bind (readBits_raisesClean row.2) fun e => .pure (row.1 + e)

theorem blockPass_raisesClean (lt dt : TableId) : Act.RaisesClean k (blockPass lt dt) := by
  refine .bind (decodeSymbol_raisesClean lt) fun sym => .ite ?literal (.ite (.pure _) ?copy)
  case literal => exact .bind (emitByte_raisesClean _) fun _ => .pure _
  case copy =>
    exact .bind (lengthOf_raisesClean sym) fun len => .bind (decodeSymbol_raisesClean dt) fun ds =>
      .bind (distOf_raisesClean ds) fun d => .bind (copy_raisesClean len d) fun _ => .pure _

theorem blockLoop_raisesClean (lt dt : TableId) (n : Nat) : Act.RaisesClean k (blockLoop lt dt n) := by
  induction n with
  | zero => exact .bind (blockPass_raisesClean lt dt) fun _ => .pure _
  | succ n ih => exact .bind (blockPass_raisesClean lt dt) fun _ => .ite (.pure _) ih

theorem blockData_raisesClean (lt dt : TableId) : Act.RaisesClean k (blockData lt dt) :=
  .bind .get fun _ => blockLoop_raisesClean lt dt _

/-! ### Blocks and streams -/

theorem zlibHeader_raisesClean : Act.RaisesClean k zlibHeader :=
  .bind .get fun _ => .bind (.check (raisable _)) fun _ => .bind (.check (raisable _)) fun _ =>
    .bind (.check (raisable _)) fun _ => .bind (.check (raisable _)) fun _ => .bind (.check (raisable _)) fun _ =>
    .bind (.update fun _ _ => rfl) fun _ => .update fun _ _ => rfl

theorem blockHeader_raisesClean : Act.RaisesClean k blockHeader :=
  .bind readBit_raisesClean fun _ => .bind (readBits_raisesClean 2) fun _ => .bind (.update fun _ _ => rfl) fun _ => .pure _

theorem stored_raisesClean : Act.RaisesClean k stored := by
  refine .bind align_raisesClean fun _ => .bind (readBits_raisesClean 16) fun len => ?_
  refine .bind (readBits_raisesClean 16) fun nlen => ?_
  refine .bind (.update fun _ _ => rfl) fun _ => .bind (.check (raisable _)) fun _ => .bind .get fun s => ?_
  refine .bind (.check (raisable _)) fun _ => .bind (.check (raisable _)) fun _ => ?_
  refine .bind (.update fun u _ => by rw [blit_dst_eq]) fun _ => ?_
  exact .bind (.update fun _ _ => rfl) fun _ => .update fun _ _ => rfl

theorem readClLens_raisesClean (cs : List Nat) : Act.RaisesClean k (readClLens cs) := by
  induction cs with
  | nil => exact .pure _
  | cons c cs ih => exact .bind (readBits_raisesClean 3) fun _ => .bind (.update fun _ _ => rfl) fun _ => ih

theorem repeatOf_raisesClean (sym i : Nat) : Act.RaisesClean k (repeatOf sym i) := by
  refine .ite ?previous (.ite ?zeros3 ?zeros7)
  case previous =>
    exact .bind (.check (raisable _)) fun _ => .bind (readBits_raisesClean 2) fun _ => .bind .get fun _ => .pure _
  case zeros3 => exact .bind (readBits_raisesClean 3) fun _ => .pure _
  case zeros7 => exact .bind (readBits_raisesClean 7) fun _ => .pure _

theorem codeLengthsLoop_raisesClean (total n : Nat) : ∀ i, Act.RaisesClean k (codeLengthsLoop total n i) := by
  induction n with
  | zero => exact fun _ => .pure _
  | succ n ih =>
    refine fun i => .ite (.bind (decodeSymbol_raisesClean .cl) fun sym => .ite ?single ?repeated) (.pure _)
    case single => exact .bind (.update fun _ _ => rfl) fun _ => ih _
    case repeated =>
      exact .bind (repeatOf_raisesClean sym i) fun rv => .bind (.check (raisable _)) fun _ =>
        .bind (.update fun u _ => by rw [fillLens_eq]) fun _ => ih _

theorem dynHeader_raisesClean : Act.RaisesClean k dynHeader := by
  refine .bind (readBits_raisesClean 5) fun a => .bind (readBits_raisesClean 5) fun b => ?_
  refine .bind (readBits_raisesClean 4) fun c => ?_
  refine .bind (.update fun _ _ => rfl) fun _ => .bind (.update fun u _ => by rw [fillLens_eq]) fun _ => ?_
  refine .bind (readClLens_raisesClean _) fun _ => .bind (build_raisesClean _ _ _) fun _ => ?_
  refine .bind (codeLengthsLoop_raisesClean _ _ 0) fun _ => .bind (build_raisesClean _ _ _) fun _ => ?_
  exact .bind (build_raisesClean _ _ _) fun _ => .pure _

theorem trailerBytes_raisesClean (n : Nat) : ∀ t, Act.RaisesClean k (trailerBytes n t) := by
  induction n with
  | zero => exact fun t => .pure t
  | succ n ih => exact fun _ => .bind (readBits_raisesClean 8) fun _ => ih _

theorem trailer_raisesClean : Act.RaisesClean k trailer :=
  .bind align_raisesClean fun _ => .bind (trailerBytes_raisesClean 4 0) fun _ => .bind (.update fun _ _ => rfl) fun _ =>
    .bind (.update fun _ _ => rfl) fun _ => .bind .get fun _ => .check (raisable _)

theorem blockBody_raisesClean (bt : Nat) : Act.RaisesClean k (blockBody bt) :=
  .ite stored_raisesClean <| .ite (blockData_raisesClean _ _) <|
    .ite (.bind dynHeader_raisesClean fun _ => blockData_raisesClean _ _) (.raise (raisable _))

theorem block_raisesClean : Act.RaisesClean k block :=
  .bind blockHeader_raisesClean fun _ => .bind (blockBody_raisesClean _) fun _ => .bind (.update fun _ _ => rfl) fun _ =>
    .update fun _ _ => rfl

theorem inflateLoop_raisesClean (n : Nat) : Act.RaisesClean k (inflateLoop n) := by
  induction n with
  | zero => exact block_raisesClean
  | succ n ih => exact .bind block_raisesClean fun _ => .bind .get fun _ => .ite (.pure _) ih

/-! ### The framer -/

theorem signature_raisesClean : Act.RaisesClean k signature :=
  .bind .get fun _ => .bind (.check (raisable _)) fun _ => .update fun _ _ => rfl

theorem crcPolicy_raisesClean (crcS crcC : Word) : Act.RaisesClean k (crcPolicy crcS crcC) := by
  refine .bind .get fun s => .ite (.pure _) ?_
  cases s.config.crcMode with
  | ignore => exact .pure _
  | warn => exact .update fun _ _ => rfl
  | strict => exact .raise (raisable _)

theorem chunkEffect_raisesClean (cls : ChunkClass) (p len : Nat) : Act.RaisesClean k (chunkEffect cls p len) := by
  cases cls with
  | ihdr => exact .bind (.check (raisable _)) fun _ => .update fun _ _ => rfl
  | idat =>
    exact .bind .get fun _ => .bind (.check (raisable _)) fun _ => .bind (.update fun u _ => by rw [blit_cat_eq]) fun _ =>
      .update fun _ _ => rfl
  | iend => exact .update fun _ _ => rfl
  | unknown => exact .update fun _ _ => rfl
  | plte => exact .pure _
  | none => exact .pure _

theorem State.bumpChunkCount_result (s : State) : s.bumpChunkCount.result = s.result := by
  unfold State.bumpChunkCount
  split <;> rfl

theorem nextChunk_raisesClean : Act.RaisesClean k nextChunk := by
  refine .bind .get fun s => .bind (.check (raisable _)) fun _ => .bind (.check (raisable _)) fun _ => ?_
  refine .bind (.update fun _ _ => rfl) fun _ => .bind (crcPolicy_raisesClean _ _) fun _ => ?_
  refine .bind (.check (raisable _)) fun _ => .bind (chunkEffect_raisesClean _ _ _) fun _ => ?_
  exact .bind (.update fun u _ => u.bumpChunkCount_result) fun _ => .bind (.update fun _ _ => rfl) fun _ => .pure _

theorem readChunksLoop_raisesClean (n : Nat) : Act.RaisesClean k (readChunksLoop n) := by
  induction n with
  | zero => exact .bind nextChunk_raisesClean fun _ => .pure _
  | succ n ih => exact .bind nextChunk_raisesClean fun _ => .ite (.pure _) ih

theorem emit_raisesClean (ty : Word) (data : List Byte) : Act.RaisesClean k (emit ty data) :=
  .bind .get fun _ => .bind (.check (raisable _)) fun _ => .bind (.update fun u _ => by rw [writeBytes_wbuf_eq]) fun _ =>
    .bind (.update fun _ _ => rfl) fun _ => .update fun _ _ => rfl

end Pieces

/-! ### The bodies of the commands -/

/-- A micro-step that only writes raises nothing. -/
theorem Act.RaisesClean.write (g : State → State) : Act.RaisesClean False (Machine.update g) := .update fun _ => False.elim

theorem setResult_raisesClean (n : Nat) : Act.RaisesClean False (setResult n) := .write _

theorem inflate_raisesClean : Act.RaisesClean False inflate := by
  refine .bind (.update fun _ _ => rfl) fun _ => .bind (.update fun _ _ => rfl) fun _ => ?_
  refine .bind (.update fun _ _ => rfl) fun _ => .bind (.update fun _ _ => rfl) fun _ => ?_
  refine .bind zlibHeader_raisesClean fun _ => .bind (.bind .get fun _ => inflateLoop_raisesClean _) fun _ => ?_
  refine .bind .get fun _ => .ite ?check ?noCheck
  case check => exact .bind trailer_raisesClean fun _ => .write _
  case noCheck => exact .bind (.update fun _ _ => rfl) fun _ => .write _

theorem readChunks_raisesClean : Act.RaisesClean False readChunks :=
  .bind (.update fun _ _ => rfl) fun _ => .bind (.update fun _ _ => rfl) fun _ => .bind signature_raisesClean fun _ =>
    .bind (.bind .get fun _ => readChunksLoop_raisesClean _) fun _ => .write _

theorem readHeader_raisesClean : Act.RaisesClean False readHeader :=
  .bind (.update fun _ _ => rfl) fun _ => .bind (.update fun _ _ => rfl) fun _ => .bind signature_raisesClean fun _ =>
    .bind nextChunk_raisesClean fun _ => .write _

theorem checkHeader_raisesClean : Act.RaisesClean False checkHeader :=
  .bind .get fun _ => .bind (.check (raisable _)) fun _ => .bind (.check (raisable _)) fun _ =>
    .bind (.update fun _ _ => rfl) fun _ => setResult_raisesClean _

theorem emitSignature_raisesClean : Act.RaisesClean False emitSignature :=
  .bind .get fun _ => .bind (.check (raisable _)) fun _ => .bind (.update fun u _ => by rw [writeBytes_wbuf_eq]) fun _ =>
    .bind (.update fun _ _ => rfl) fun _ => .write _

theorem emitChunk_raisesClean : Act.RaisesClean False emitChunk :=
  .bind .get fun _ => .bind (.check (raisable _)) fun _ => .bind (emit_raisesClean _ _) fun _ => .write _

theorem emitIhdr_raisesClean : Act.RaisesClean False emitIhdr :=
  .bind .get fun _ => .bind (emit_raisesClean _ _) fun _ => .write _

/-- Every command writes RESULT after its last micro-step that may raise, and raises only codes that may be raised. -/
theorem commandBody_raisesClean (i : Instr) : Act.RaisesClean False (commandBody i) := by
  cases i with
  | nop => exact .pure _
  | bcReset => exact .write _
  | bcNextBit => exact .bind readBit_raisesClean fun _ => setResult_raisesClean _
  | bcNextN n => exact .bind (readBits_raisesClean _) fun _ => setResult_raisesClean _
  | bcAlign => exact align_raisesClean
  | htBuild t maxsym base => exact .bind (build_raisesClean t _ _) fun _ => setResult_raisesClean _
  | htDecode t => exact .bind (decodeSymbol_raisesClean t) fun _ => setResult_raisesClean _
  | lzLiteral byte => exact emitByte_raisesClean byte
  | lzCopy l3 d1 => exact copy_raisesClean _ _
  | lzLength sym => exact .bind (lengthOf_raisesClean _) fun _ => setResult_raisesClean _
  | lzDist sym => exact .bind (distOf_raisesClean _) fun _ => setResult_raisesClean _
  | lzBlockData fixed => exact .bind (blockData_raisesClean _ _) fun _ => .write _
  | dfZlibHeader => exact zlibHeader_raisesClean
  | dfBlock => exact .bind block_raisesClean fun _ => .write _
  | dfStored => exact .bind stored_raisesClean fun _ => .write _
  | dfDynHeader => exact dynHeader_raisesClean
  | dfTrailer => exact trailer_raisesClean
  | dfInflate => exact inflate_raisesClean
  | pfSignature => exact signature_raisesClean
  | pfNextChunk => exact .bind nextChunk_raisesClean fun _ => setResult_raisesClean _
  | pfReadChunks => exact readChunks_raisesClean
  | pfReadHeader => exact readHeader_raisesClean
  | pfCheckHeader => exact checkHeader_raisesClean
  | pfEmitSignature => exact emitSignature_raisesClean
  | pfEmitChunk => exact emitChunk_raisesClean
  | pfEmitIhdr => exact emitIhdr_raisesClean

/-- Settles O10, by how the body ends: a completion keeps the report by the frame of the body, a raise is clean. -/
theorem everyCommandEnds : Obligations.EveryCommandEnds := by
  intro i s
  rw [exec_eq_runCommand]
  have hf := commandBody_frame i s
  rcases (commandBody_raisesClean i).ends s with ⟨u, hu⟩ | ⟨r, u, hu, ⟨hnone, htype, hio⟩, hres⟩
  · rw [hu] at hf
    refine ⟨_, runCommand_ok hu, rfl, rfl, rfl, .inl ?_⟩
    rw [hf.rest]
    exact ⟨rfl, rfl, rfl, rfl⟩
  · exact ⟨_, runCommand_error hu, rfl, rfl, rfl, .inr ⟨rfl, hnone, htype, hio, rfl, hres⟩⟩

/-! ### The level of irq -/

theorem CommandFrame.config {p : Rights} {s t : State} (h : CommandFrame p s t) : t.config = s.config := by rw [h.rest]

theorem readReg_status_done (s : State) : (s.readReg .status).getLsbD 1 = s.status.done := by
  simp only [State.readReg, Status.word, BitVec.getLsbD_append]
  simp

theorem readReg_config_ie (s : State) : (s.readReg .config).getLsbD 4 = s.config.ie := by
  simp only [State.readReg, ConfigReg.word, BitVec.getLsbD_append]
  simp

/-- Every end of a command sets DONE, so irq is then IE, which no body writes (60_exceptions.md R270, R272, R282). -/
theorem exec_irq {i : Instr} {s t : State} (h : exec i s = .next t) : t.irq = s.config.ie := by
  rw [exec_eq_runCommand] at h
  exact (commandBody_frame i).finish (R' := fun s t => t.irq = s.config.ie)
    (fun _ _ hf => congrArg ConfigReg.ie hf.config) (fun _ _ _ hf => congrArg ConfigReg.ie hf.config) h

/-- Settles O17: the bits of the two registers, the end of a command, and the three writes of the host. -/
theorem irqLevel : Obligations.IrqLevel := by
  refine ⟨fun s => ?bits, fun i s t => exec_irq, fun s v he =>
    ⟨⟨_, hostStep_regWrite_mapped he (r := .status) (by decide) v, ?done⟩,
    ⟨_, hostStep_regWrite_mapped he (r := .cmd) (by decide) v, rfl⟩,
    ⟨_, hostStep_regWrite_mapped he (r := .config) (by decide) v, rfl⟩⟩⟩
  case bits => rw [readReg_status_done, readReg_config_ie, State.irq]
  case done => exact Bool.and_right_comm _ _ _

end Sys2Proof.Machine
end

