-- ==== Sys2Proof/Proofs/Reset.lean ====
section
/-! SUPPORT. Reset: what every register then reads, and that the invariant then holds (70_reset_and_hazards.md R300,
R302). -/

namespace Sys2Proof.Machine

/-- The state a reset leaves, up to the model's own fields: the moves to come and the indices of the free values
(70_reset_and_hazards.md R300 to R302; logs 3, 6, 13). -/
def State.JustReset (s : State) : Prop :=
  s = { State.resetWith s.sizes with agenda := s.agenda, resets := s.resets, draws := s.draws }

theorem reset_justReset : State.reset.JustReset := rfl

theorem applyReset_justReset (s : State) : (applyReset s).JustReset := rfl

theorem step_resetTurn {s : State} {rest : List Event} (h : s.agenda = .rst :: rest) :
    step s = .next (applyReset { s with agenda := rest }) := by rw [step, h]

/-- No register shows a field in which states that are just reset may differ. -/
theorem State.JustReset.readReg {s : State} (h : s.JustReset) (r : Reg) : s.readReg r = State.reset.readReg r := by
  rw [h]
  cases r <;> rfl

/-- Of the tables only the two fixed ones are valid, with code lengths up to 9 and 5 (10_state.md R44, R47). -/
theorem reset_tblStatus : State.reset.tblStatus = 0x05900018 := by
  have hfll : (State.reset.slot .fll).maxLen = 9 := congrArg (BitVec.ofNat 4) maxCodeLen_fixed.1
  have hfdist : (State.reset.slot .fdist).maxLen = 5 := congrArg (BitVec.ofNat 4) maxCodeLen_fixed.2
  rw [State.tblStatus, hfll, hfdist]
  rfl

/-- Settles O7: a reset from any state and the state a run starts from are both just reset; TBL_STATUS is computed from
the fixed tables, and every other register is a field. -/
theorem resetValues : Obligations.ResetValues := by
  unfold Obligations.ResetValues
  intro good
  have hgood {t : State} (ht : t.JustReset) : good t := by
    refine ⟨?eng, ?irq, fun r => ?registers, ?cl, ?ll, ?dist, rfl, rfl⟩
    case registers =>
      rw [ht.readReg]
      cases r with
      | tblStatus => exact reset_tblStatus
      | _ => rfl
    all_goals
      rw [ht]
      rfl
  exact ⟨fun s rest h => ⟨_, step_resetTurn h, hgood (applyReset_justReset _)⟩, hgood reset_justReset⟩

/-- The sizes an implementation fixes are within their bounds (00_scope.md R8). -/
theorem Sizes.implementation_wf : Sizes.implementation.wf := by
  intro m
  cases m with
  | src => exact ⟨Nat.succ_pos _, Config.srcSizeLess1.isLt⟩
  | cat => exact ⟨Nat.succ_pos _, Config.catSizeLess1.isLt⟩
  | dst => exact ⟨Nat.succ_pos _, Config.dstSizeLess1.isLt⟩
  | wbuf => exact ⟨Nat.succ_pos _, Config.wbufSizeLess1.isLt⟩

/-- Settles O8: the invariant of the state after reset, at any sizes and at the implementation's. -/
theorem resetInv : Obligations.ResetInv := ⟨fun _ => resetWith_inv, resetWith_inv Sizes.implementation_wf⟩

end Sys2Proof.Machine
end
